-- ==== Sys2Proof/Word.lean ====
section
/-! DEFINITION. The vocabulary of the manual: numbers, codes, the enumerations of states, conditions, classes and
status codes, the call part of a channel record and the configuration of a group. Types only; what is computed from
them stands in Machine/. -/

namespace Sys2Proof

/-- One 8-bit character of a port frame or a line message (R172, R182). -/
abbrev Byte := BitVec 8

/-- A line code, 0x0..0xF (00, Line codes and line conditions). -/
abbrev LineCode := BitVec 4

/-- A call reference of 24 bits; 0 means no reference (00, Call references). -/
abbrev Reference := BitVec 24

/-- A time in ms of the 1 ms timebase, held in 16 bits (00, Time). -/
abbrev Millis := BitVec 16

/-- Object numbers (00, Numbering). -/
abbrev ChannelNo := Fin 512
abbrev SpanNo := Fin 16
abbrev Position := Fin 32
abbrev GroupNo := Fin 32
abbrev ProfileNo := Fin 8
abbrev PortNo := Fin 4
abbrev SetNo := Fin 128
abbrev WayNo := Fin 4

/-- A fixed number of like things: the manual's numbered records, sets, ways and positions. The operations are in
Machine/Tables.lean. -/
structure Table (α : Type) (n : Nat) where
  cells : List α
  size : cells.length = n
  deriving DecidableEq, Repr

/-- The six line conditions, in the order of R190. -/
inductive Condition where
  | free | seize | proceed | answer | clear | block
  deriving DecidableEq, Repr, Inhabited

/-- A receive map entry, and the received condition of a channel (R3, R17). -/
inductive Received where
  | is (c : Condition)
  | invalid
  deriving DecidableEq, Repr, Inhabited

/-- A transmitted condition (R4): one of the six, or FILL. -/
inductive Transmitted where
  | is (c : Condition)
  | fill
  deriving DecidableEq, Repr, Inhabited

/-- R2. -/
inductive Direction where
  | bothway | incomingOnly | outgoingOnly
  deriving DecidableEq, Repr, Inhabited

/-- R4. -/
inductive Role where
  | none | outgoing | incoming
  deriving DecidableEq, Repr, Inhabited

/-- R4, R9. -/
inductive FaultCause where
  | span | record | release
  deriving DecidableEq, Repr, Inhabited

/-- The twelve call states of R4, in its order. The fault cause, present only in FAULT, is held with that state. -/
inductive CallState where
  | unequipped | idle | guard | outSeized | outWaitAnswer | inSeized | inAlerting | connected
  | clearingLocal | clearingRemote | blocked
  | fault (cause : FaultCause)
  deriving DecidableEq, Repr, Inhabited

/-- The block flags of R8: a set drawn from LOCAL, DRAIN and REMOTE. -/
structure BlockFlags where
  locally : Bool
  drain : Bool
  remote : Bool
  deriving DecidableEq, Repr, Inhabited

/-- The call part of a channel record (R4), less its check word. A timer of 0 has reached 0 and its expiry event has
not been taken yet (log 6). -/
structure CallPart where
  state : CallState
  role : Role
  reference : Option Reference
  transmitted : Transmitted
  timer : Option Millis
  flags : BlockFlags
  rehuntUsed : Bool
  rehuntedFrom : Option ChannelNo
  deriving DecidableEq, Repr, Inhabited

/-- The classification a check gives (R156). -/
inductive Classification where
  | clean | single | double
  deriving DecidableEq, Repr, Inhabited

/-- R34, R43. -/
inductive Policy where
  | firstUp | firstDown | rotate | longestIdle
  deriving DecidableEq, Repr, Inhabited

/-- R34, R73. -/
inductive GlareRule where
  | yield | hold
  deriving DecidableEq, Repr, Inhabited

/-- The configuration of a trunk group (R34). -/
structure GroupConfig where
  policy : Policy
  profile : ProfileNo
  maintenance : PortNo
  glare : GlareRule
  rehunt : Bool
  skipFarAlarm : Bool
  guard : Millis
  proceed : Millis
  answer : Millis
  offer : Millis
  releaseConfirm : Millis
  farClear : Millis
  deriving DecidableEq, Repr, Inhabited

/-- R101. -/
inductive FailureCause where
  | faulty | silent
  deriving DecidableEq, Repr, Inhabited

/-- The six span states of R101. The failure cause, present in FAILED and RECOVERING, is held with the state. -/
inductive SpanState where
  | unused | starting | inService | suspect
  | failed (cause : FailureCause)
  | recovering (cause : FailureCause)
  deriving DecidableEq, Repr, Inhabited

/-- A position's pending notice (R112). -/
inductive Notice where
  | none | down | up | downUp
  deriving DecidableEq, Repr, Inhabited

/-- The eleven fault classes, in the order of R164. -/
inductive FaultClass where
  | recordCorrected | recordLost | lineCheck | lineFormat | lineGap | spanSilent | spanFailed | codeInvalid
  | sequence | releaseStuck | portFrame
  deriving DecidableEq, Repr, Inhabited

/-- R165. -/
inductive Severity where
  | minor | major
  deriving DecidableEq, Repr, Inhabited

/-- The 28 requests of the catalogue (R191), in the order of their codes 0x01..0x1C. -/
inductive RequestCode where
  | hunt | seize | accept | answer | release | block | unblock | resetChannel | drain | undrain | readChannel
  | readGroup | readSpan | nextAttention | readFaults | setSpan | clearSpan | equip | unequip | setGroup
  | deleteGroup | loadProfile | setFaultClass | clearFaults | setPort | setDevice | transfer | restart
  deriving DecidableEq, Repr, Inhabited

/-- The status codes of R192, in its order. -/
inductive Status where
  | ok | denied | badFrame | badRequest | notEquipped | wrongState | notOwner | noChannel | groupDraining | spanDown
  | refInUse | refSetFull | refUnknown | recordFault | inUse | busy | restarting | aborted | empty
  deriving DecidableEq, Repr, Inhabited

/-- The channel reasons, in the order of R142. -/
inductive ChannelReason where
  | offered | abandoned | proceeding | answered | farClear | autoReleased | clearDone | seizeFailed | glareLost
  | rehunted | answerTimeout | offerTimeout | releaseStuck | spanDown | recordLost | reset | farBlocked
  | farUnblocked | codeInvalid
  deriving DecidableEq, Repr, Inhabited

/-- The span reasons, in the order of R143. -/
inductive SpanReason where
  | spanFailed | spanRestored | farAlarmOn | farAlarmOff
  deriving DecidableEq, Repr, Inhabited

/-- A reason of an attention member (R138, R142, R143). -/
inductive Reason where
  | channel (r : ChannelReason)
  | drained
  | span (r : SpanReason)
  | fault (c : FaultClass)
  deriving DecidableEq, Repr, Inhabited

/-- What an attention member names (R138). -/
inductive AttentionObject where
  | channel (n : ChannelNo)
  | group (g : GroupNo)
  | span (s : SpanNo)
  | fault
  deriving DecidableEq, Repr, Inhabited

end Sys2Proof
end

