-- ==== Sys2Proof/Syntax.lean ====
section
/-! DEFINITION. The commands of the block: one constructor for each row of spec/opcode_table.json, in its order. A
request carries the port it arrives at, its tag and the characters of its body (R183, R190, R191). -/

namespace Sys2Proof

inductive Instr where
  /-- POWER_ON_RESET (R15): RST_N is asserted. -/
  | powerOnReset
  /-- TIMEBASE_STEP (R166): one 1 ms step. -/
  | timebaseStep
  /-- RESPONSE_READ (R185): a read transfer that clocked so many characters. -/
  | responseRead (port : PortNo) (characters : Nat)
  /-- BAD_FRAME (R187): a request transfer whose characters fail check 1. -/
  | badFrame (port : PortNo) (frame : List Byte)
  /-- OVERRUN (R186): a request transfer at a WORKING port. -/
  | overrun (port : PortNo) (frame : List Byte)
  | hunt (port : PortNo) (tag : Byte) (body : List Byte)
  | seize (port : PortNo) (tag : Byte) (body : List Byte)
  | accept (port : PortNo) (tag : Byte) (body : List Byte)
  | answer (port : PortNo) (tag : Byte) (body : List Byte)
  | release (port : PortNo) (tag : Byte) (body : List Byte)
  | block (port : PortNo) (tag : Byte) (body : List Byte)
  | unblock (port : PortNo) (tag : Byte) (body : List Byte)
  | resetChannel (port : PortNo) (tag : Byte) (body : List Byte)
  | drain (port : PortNo) (tag : Byte) (body : List Byte)
  | undrain (port : PortNo) (tag : Byte) (body : List Byte)
  | readChannel (port : PortNo) (tag : Byte) (body : List Byte)
  | readGroup (port : PortNo) (tag : Byte) (body : List Byte)
  | readSpan (port : PortNo) (tag : Byte) (body : List Byte)
  | nextAttention (port : PortNo) (tag : Byte) (body : List Byte)
  | readFaults (port : PortNo) (tag : Byte) (body : List Byte)
  | setSpan (port : PortNo) (tag : Byte) (body : List Byte)
  | clearSpan (port : PortNo) (tag : Byte) (body : List Byte)
  | equip (port : PortNo) (tag : Byte) (body : List Byte)
  | unequip (port : PortNo) (tag : Byte) (body : List Byte)
  | setGroup (port : PortNo) (tag : Byte) (body : List Byte)
  | deleteGroup (port : PortNo) (tag : Byte) (body : List Byte)
  | loadProfile (port : PortNo) (tag : Byte) (body : List Byte)
  | setFaultClass (port : PortNo) (tag : Byte) (body : List Byte)
  | clearFaults (port : PortNo) (tag : Byte) (body : List Byte)
  | setPort (port : PortNo) (tag : Byte) (body : List Byte)
  | setDevice (port : PortNo) (tag : Byte) (body : List Byte)
  | transfer (port : PortNo) (tag : Byte) (body : List Byte)
  | restart (port : PortNo) (tag : Byte) (body : List Byte)
  /-- RESTART_COMPLETION (R195): expiry of the restart timer. -/
  | restartCompletion
  /-- SPAN_REPORT (R174): a message arrives on the receive half of the line link, CRC included. -/
  | spanReport (message : List Byte)
  /-- POSITION_INTEGRATION (R22): the channel's position takes the code handed to it. -/
  | positionIntegration (channel : ChannelNo)
  /-- REHUNT (R48): the group takes its first pending rehunt. -/
  | rehunt (group : GroupNo)
  | spanDown (channel : ChannelNo)
  | spanUp (channel : ChannelNo)
  | downUp (channel : ChannelNo)
  | guardExpiry (channel : ChannelNo)
  | proceedTimeout (channel : ChannelNo)
  | answerTimeout (channel : ChannelNo)
  | offerTimeout (channel : ChannelNo)
  | releaseStuck (channel : ChannelNo)
  | autoReleased (channel : ChannelNo)
  | silenceExpiry (span : SpanNo)
  | purgeVisit
  | sweepVisit
  | scrubVisit
  | refreshExpiry
  | endOfSending
  /-- FAULT_OCCURRENCE (R165): the Fault Unit takes one of the occurrences reported to it (log 8). -/
  | faultOccurrence (index : Nat)
  /-- STORAGE_ERROR (R156): stored bits of the record's call part or check word change. -/
  | storageError (channel : ChannelNo) (bits : List Nat)
  /-- RST_N_RISE (R172). -/
  | rstNRise
  deriving DecidableEq, Repr

end Sys2Proof
end

