-- ==== Sys2Proof/Decode.lean ====
section
/-! DEFINITION. No row of spec/opcode_table.json gives a command bits: commands of this block are events, and no word
spells one (log 24). -/

namespace Sys2Proof

/-- The command that a word spells by the table's bits: none, since the table gives bits to no row. -/
def decodeTableWord (_nbits _w : Nat) : Option Instr := none

end Sys2Proof
end

