-- ==== Sys2Proof/Config.lean ====
section
/-! DEFINITION. The free values: what the manual leaves open. Each is an uninterpreted constant, so that no proof can
see a value of it and a claim holds whatever the hardware does there. -/

namespace Sys2Proof.Config

/-- How a check classifies a call part of which three or more stored bits are in error: outside the code's guarantee
(R156; log 9). The arguments are the call part last written and the stored bits in error. -/
opaque classify : CallPart → List Nat → Classification

/-- The values the stored bits of a call part spell while bits are in error (R156; log 9, log 10). -/
opaque storedCall : CallPart → List Nat → CallPart

/-- The values a correction writes when three or more bits in error are classified as a single error (log 9). -/
opaque miscorrectedCall : CallPart → List Nat → CallPart

/-- The order in which waiting events are taken where the manual gives none (log 6, log 7). The argument is the
fresh-value counter of the state. -/
opaque order : Nat → Nat

/-- A character on SDO after the last character of the pending response (R182; log 18). -/
opaque sdoBeyond : Nat → Byte

/-- The capture-time characters of a fault view whose first-fault record is empty (R193; log 19). -/
opaque absentTime : Nat → BitVec 32

/-- Whether a BLOCK, UNBLOCK, DRAIN or UNDRAIN whose body is too long still names the object of its leading
characters for the permission check of R187 (log 16). -/
opaque longBodyNames : Bool

/-- Whether a target of kind channel is refused when its pad character is not 0x00 (R190; log 17). -/
opaque targetPadChecked : Bool

/-- The configuration read for a channel whose group does not exist (R13, R39; log 20): a run reads it only after three or
more bits in error show an unequipped channel in another state (log 34). -/
opaque absentGroup : GroupConfig

/-- The fill code read for a span that is UNUSED (R101; log 20): a run reads it only after three or more bits in error show a
channel of such a span in another state than UNEQUIPPED (log 34). -/
opaque absentFill : LineCode

end Sys2Proof.Config
end

