-- ==== Sys2Proof/Machine/Tables.lean ====
section
/-! DEFINITION. The operations of a numbered table of records, and the reading of a number into an object number. -/

namespace Sys2Proof

namespace Table
variable {α β : Type} {n : Nat}

/-- The record of number i. -/
def get (t : Table α n) (i : Fin n) : α := t.cells.get (i.cast t.size.symm)

/-- The table with record i replaced. -/
def set (t : Table α n) (i : Fin n) (a : α) : Table α n := ⟨t.cells.set i a, by simp [t.size]⟩

/-- The table with record i changed by f. -/
def update (t : Table α n) (i : Fin n) (f : α → α) : Table α n := t.set i (f (t.get i))

/-- Every record changed by f. -/
def map (f : α → β) (t : Table α n) : Table β n := ⟨t.cells.map f, by simp [t.size]⟩

/-- Every record changed by f, which is told its number. -/
def mapIdx (f : Fin n → α → β) (t : Table α n) : Table β n :=
  ⟨((List.finRange n).zip t.cells).map fun x => f x.1 x.2, by simp [t.size]⟩

/-- All records alike. -/
def fill (n : Nat) (a : α) : Table α n := ⟨List.replicate n a, by simp⟩

/-- Record i is f i. -/
def tabulate (f : Fin n → α) : Table α n := ⟨(List.finRange n).map f, by simp⟩

/-- The numbers of the records that pass p, ascending. -/
def indices (p : α → Bool) (t : Table α n) : List (Fin n) :=
  ((List.finRange n).zip t.cells).filterMap fun x => if p x.2 then some x.1 else none

/-- Some record passes p. -/
def any (p : α → Bool) (t : Table α n) : Bool := t.cells.any p

end Table

/-- The object number a value spells, where the value is in range. -/
def numbered (n v : Nat) : Option (Fin n) := if h : v < n then some ⟨v, h⟩ else none

end Sys2Proof
end

