-- ==== Sys2Proof/Machine/Frames.lean ====
section
/-! DEFINITION. What is on the wires, character by character: the CRC-8 of the port frames and the request frame
(R183, R187, R191), the CRC-16 of the line messages (R172) and the two message layouts (R173). -/

namespace Sys2Proof

/-! ## Characters -/

/-- A number of two characters, most significant first (R183). -/
def chars2 (v : Nat) : List Byte := [BitVec.ofNat 8 (v / 256), BitVec.ofNat 8 v]

/-- A number of three characters, most significant first (R183, R190). -/
def chars3 (v : Nat) : List Byte := BitVec.ofNat 8 (v / 65536) :: chars2 v

/-- A number of four characters, most significant first (R183, R190). -/
def chars4 (v : Nat) : List Byte := chars2 (v / 65536) ++ chars2 v

/-- The number two characters spell. -/
def number2 (hi lo : Byte) : Nat := hi.toNat * 256 + lo.toNat

/-- The reference three characters spell, byte 2 first (R190). -/
def reference3 (b2 b1 b0 : Byte) : Reference := b2 ++ b1 ++ b0

/-! ## CRC-8 of the port frames: generator x⁸ + x² + x + 1, initial value 0x00, no final inversion (R183) -/

def crc8Shift (c : Byte) : Byte := if c.msb then (c <<< 1) ^^^ 0x07#8 else c <<< 1

def crc8Char (c b : Byte) : Byte := crc8Shift^[8] (c ^^^ b)

def crc8 (cs : List Byte) : Byte := cs.foldl crc8Char 0x00#8

/-! ## CRC-16 of the line messages: generator x¹⁶ + x¹² + x⁵ + 1, initial value 0xFFFF, no final inversion (R172) -/

def crc16Shift (c : BitVec 16) : BitVec 16 := if c.msb then (c <<< 1) ^^^ 0x1021#16 else c <<< 1

def crc16Char (c : BitVec 16) (b : Byte) : BitVec 16 := crc16Shift^[8] (c ^^^ (b ++ 0x00#8))

def crc16 (cs : List Byte) : BitVec 16 := cs.foldl crc16Char 0xFFFF#16

/-- A line message with its CRC at the end, high character first (R172). -/
def withCrc16 (cs : List Byte) : List Byte := cs ++ chars2 (crc16 cs).toNat

/-- The CRC check of a line message: it fails a message too short for a five-character header and a CRC (R172). -/
def lineCrcPasses (m : List Byte) : Bool :=
  7 ≤ m.length && withCrc16 (m.take (m.length - 2)) == m

/-! ## The request frame (R183, R191) -/

/-- The request codes in the catalogue's order (R191). -/
def requestCodes : List RequestCode :=
  [.hunt, .seize, .accept, .answer, .release, .block, .unblock, .resetChannel, .drain, .undrain, .readChannel,
   .readGroup, .readSpan, .nextAttention, .readFaults, .setSpan, .clearSpan, .equip, .unequip, .setGroup,
   .deleteGroup, .loadProfile, .setFaultClass, .clearFaults, .setPort, .setDevice, .transfer, .restart]

/-- The code of a request, 0x01..0x1C (R191). -/
def RequestCode.number (c : RequestCode) : Byte := BitVec.ofNat 8 (requestCodes.idxOf c + 1)

/-- The request of a code character; none outside 0x01..0x1C (R187 check 1). -/
def requestOf (code : Byte) : Option RequestCode := requestCodes.find? fun c => c.number = code

/-- The longest body of a frame (R183). -/
def maxBody : Nat := 60

/-- A request frame less its CRC-8. -/
def requestHeadAndBody (code : RequestCode) (tag : Byte) (body : List Byte) : List Byte :=
  code.number :: tag :: BitVec.ofNat 8 body.length :: body

/-- A request frame (R183). -/
def requestFrame (code : RequestCode) (tag : Byte) (body : List Byte) : List Byte :=
  requestHeadAndBody code tag body ++ [crc8 (requestHeadAndBody code tag body)]

/-- Check 1 of R187: at least four characters, a correct CRC-8, a length of 0..60 that equals the number of
characters between the header and the CRC, a request code of the catalogue. -/
def parseRequest (f : List Byte) : Option (RequestCode × Byte × List Byte) :=
  match f with
  | code :: tag :: length :: rest =>
    match rest.getLast?, requestOf code with
    | some crc, some request =>
      if crc = crc8 (code :: tag :: length :: rest.dropLast) ∧ length.toNat ≤ maxBody ∧
          length.toNat = rest.dropLast.length then
        some (request, tag, rest.dropLast)
      else none
    | _, _ => none
  | _ => none

/-- Whether the characters of a transfer are a request transfer (R182): the first is not 0x00. -/
def isRequestTransfer (f : List Byte) : Bool :=
  match f with
  | [] => false
  | c :: _ => c != 0x00#8

/-! ## The line messages (R173) -/

/-- The kind characters of R173. -/
def spanReportKind : Byte := 0x52#8
def spanUpdateKind : Byte := 0x55#8

/-- The condition flags of a SPAN_REPORT (R173). -/
structure ReportFlags where
  signalLost : Bool
  alignLost : Bool
  alarmSignal : Bool
  farAlarm : Bool
  deriving DecidableEq, Repr

/-- Flags character: bits 0..3; bits 4..7 are reserved and ignored (R173). -/
def reportFlags (f : Byte) : ReportFlags := ⟨f.getLsbD 0, f.getLsbD 1, f.getLsbD 2, f.getLsbD 3⟩

/-- A report is faulty if it carries SIGNAL_LOST, ALIGN_LOST or ALARM_SIGNAL; FAR_ALARM does not make it so (R106). -/
def ReportFlags.faulty (f : ReportFlags) : Bool := f.signalLost || f.alignLost || f.alarmSignal

/-- A code character: the code in bits 3..0, bits 7..4 ignored (R173). -/
def codeOfChar (c : Byte) : LineCode := c.setWidth 4

/-- A line code as a character, reserved bits 0 (R173). -/
def charOfCode (c : LineCode) : Byte := c.setWidth 8

/-- A SPAN_REPORT message (R173). -/
def spanReportMessage (span : SpanNo) (sequence flags : Byte) (codes : List LineCode) : List Byte :=
  withCrc16 ([spanReportKind, BitVec.ofNat 8 span.val, sequence, flags, BitVec.ofNat 8 codes.length] ++
    codes.map charOfCode)

/-- A SPAN_UPDATE message: the alarm request in bit 0 of the flags, then the pairs (R173). -/
def spanUpdateMessage (span : SpanNo) (sequence : Byte) (alarm : Bool) (pairs : List (Position × LineCode)) :
    List Byte :=
  withCrc16 ([spanUpdateKind, BitVec.ofNat 8 span.val, sequence, if alarm then 0x01#8 else 0x00#8,
    BitVec.ofNat 8 pairs.length] ++ pairs.flatMap fun p => [BitVec.ofNat 8 p.1.val, charOfCode p.2])

end Sys2Proof
end

