-- ==== Sys2Proof/Machine/Records.lean ====
section
/-! DEFINITION. The records of each block of the part, and their values after power-on reset. -/

namespace Sys2Proof.Machine

/-! ## Channel Table (R1 to R4, R15) -/

/-- The equipment part (R2). The channel is equipped exactly when its group field is present (log 22). -/
structure EquipmentPart where
  group : Option GroupNo
  rank : Byte
  direction : Direction
  deriving DecidableEq, Repr

/-- The line part (R3). -/
structure LinePart where
  stable : Option LineCode
  candidate : Option LineCode
  count : Nat
  received : Option Received
  deriving DecidableEq, Repr

/-- A channel record (R1). `errors` lists, in ascending order, the stored bits of the call part and its check word
that disagree with what was last written: none of them in error is a check word that agrees (R156; log 9). -/
structure ChannelRecord where
  equipment : EquipmentPart
  line : LinePart
  call : CallPart
  errors : List Nat
  deriving DecidableEq, Repr

/-- No block flag set. -/
def noFlags : BlockFlags := ⟨false, false, false⟩

/-- The UNEQUIPPED call part (R15). -/
def unequippedCall : CallPart where
  state := .unequipped
  role := .none
  reference := none
  transmitted := .fill
  timer := none
  flags := noFlags
  rehuntUsed := false
  rehuntedFrom := none

/-- The equipment part of an unequipped channel (R2, R15). -/
def unequippedPart : EquipmentPart := ⟨none, 0, .bothway⟩

/-- An emptied line part (R26). -/
def emptyLine : LinePart := ⟨none, none, 0, none⟩

/-- R15. -/
def powerOnChannel : ChannelRecord := ⟨unequippedPart, emptyLine, unequippedCall, []⟩

/-! ## Profile Store (R17, R18) -/

/-- A signaling profile: the transmit codes in the order of `Condition`, and the receive map by code (R17). -/
structure Profile where
  transmit : Table LineCode 6
  receive : Table Received 16
  deriving DecidableEq, Repr

/-- The power-on transmit codes (R18). -/
def powerOnTransmit : Table LineCode 6 := ⟨[0x9, 0x1, 0xD, 0x5, 0xB, 0xF], rfl⟩

/-- The power-on receive map, codes 0x0 to 0xF (R18). -/
def powerOnReceive : Table Received 16 :=
  ⟨[.invalid, .is .seize, .invalid, .invalid, .invalid, .is .answer, .invalid, .invalid,
    .invalid, .is .free, .invalid, .is .clear, .invalid, .is .proceed, .invalid, .is .block], rfl⟩

/-- R18. -/
def powerOnProfile : Profile := ⟨powerOnTransmit, powerOnReceive⟩

/-! ## Group Table (R34, R35, R48, R54) -/

/-- A pending rehunt (R48): the carried reference and owner port, the channel that lost the glare, and what has been
taken since the glare: `discarded` says a restart (R76; log 21), `orphaned` a deletion of its group (R48; log 30). -/
structure Rehunt where
  reference : Reference
  owner : PortNo
  loser : ChannelNo
  discarded : Bool
  orphaned : Bool
  deriving DecidableEq, Repr

/-- A group record. The group exists exactly when its configuration is present, and is draining exactly when its
drain port is present (log 22). -/
structure GroupRecord where
  config : Option GroupConfig
  members : List ChannelNo
  idle : List ChannelNo
  cursor : Option ChannelNo
  drainPort : Option PortNo
  drainReported : Bool
  rehunts : List Rehunt
  deriving DecidableEq, Repr

/-- R54, R48. -/
def powerOnGroup : GroupRecord := ⟨none, [], [], none, none, false, []⟩

/-! ## Span Monitor (R101, R120) -/

/-- The configuration of a span (R101). -/
structure SpanConfig where
  count : Nat
  depth : Nat
  nSet : Nat
  nClear : Nat
  silence : Millis
  fill : LineCode
  maintenance : PortNo
  deriving DecidableEq, Repr

/-- A span record (R101). `handed` holds, for each position, the code of the last accepted report that the position
has still to take (R105 step 5, R176; log 7). -/
structure SpanRecord where
  config : Option SpanConfig
  state : SpanState
  faultRun : Nat
  cleanRun : Nat
  lastSequence : Option Byte
  silence : Option Millis
  farAlarm : Bool
  farRun : Nat
  notices : Table Notice 32
  handed : Table (Option LineCode) 32
  deriving DecidableEq, Repr

/-- R120. -/
def powerOnSpan : SpanRecord :=
  ⟨none, .unused, 0, 0, none, none, false, 0, .fill 32 .none, .fill 32 none⟩

/-! ## Reference Index and purge walk (R121, R132, R137) -/

/-- A valid index entry (R121); a free way holds none. -/
structure IndexEntry where
  reference : Reference
  channel : ChannelNo
  owner : PortNo
  deriving DecidableEq, Repr

/-- A member of the lost set with its remaining visits (R132). -/
structure LostChannel where
  channel : ChannelNo
  remaining : Nat
  deriving DecidableEq, Repr

/-- The purge walk (R132). `visitDue`: a timebase step has been taken while the walk was running, and its visit has
not been taken yet (R134; log 6). -/
structure PurgeWalk where
  lost : List LostChannel
  cursor : SetNo
  visitDue : Bool
  deriving DecidableEq, Repr

/-- R137. -/
def powerOnPurge : PurgeWalk := ⟨[], 0, false⟩

/-! ## Attention Unit (R138, R147, R155) -/

/-- An attention member with its reasons in order of arrival (R138). -/
structure Member where
  object : AttentionObject
  reasons : List Reason
  deriving DecidableEq, Repr

/-- A transfer in flight (R147). `visitDue`: a timebase step has been taken and its sweep visit has not (R150;
log 6). -/
structure Transfer where
  source : PortNo
  target : PortNo
  requester : PortNo
  cursor : SetNo
  visitDue : Bool
  deriving DecidableEq, Repr

/-! ## Fault Unit (R164 to R166, R171) -/

/-- The controls and the count of a fault class (R165). -/
structure FaultClassRecord where
  detect : Bool
  report : Bool
  severity : Severity
  target : PortNo
  count : Byte
  deriving DecidableEq, Repr

/-- An occurrence reported to the Fault Unit, with the details it carries (R164). -/
structure Occurrence where
  cls : FaultClass
  span : Option SpanNo
  channel : Option ChannelNo
  port : Option PortNo
  request : Option RequestCode
  state : Option CallState
  deriving DecidableEq, Repr

/-- A valid first-fault record (R166). -/
structure FirstFault where
  occurrence : Occurrence
  time : BitVec 32
  deriving DecidableEq, Repr

/-- The Fault Unit. `reported` holds the occurrences that blocks have reported and the unit has not yet taken
(R164, R165; log 8). -/
structure FaultUnit where
  classes : Table FaultClassRecord 11
  first : Option FirstFault
  later : Table Bool 11
  reported : List Occurrence
  deriving DecidableEq, Repr

/-- The fault classes in the order of R164. -/
def faultClasses : List FaultClass :=
  [.recordCorrected, .recordLost, .lineCheck, .lineFormat, .lineGap, .spanSilent, .spanFailed, .codeInvalid,
   .sequence, .releaseStuck, .portFrame]

/-- The place of a class in the table of R164. -/
def classNo : FaultClass → Fin 11
  | .recordCorrected => 0
  | .recordLost => 1
  | .lineCheck => 2
  | .lineFormat => 3
  | .lineGap => 4
  | .spanSilent => 5
  | .spanFailed => 6
  | .codeInvalid => 7
  | .sequence => 8
  | .releaseStuck => 9
  | .portFrame => 10

/-- The default severity of a class (R164). -/
def defaultSeverity : FaultClass → Severity
  | .recordLost | .spanSilent | .spanFailed | .releaseStuck => .major
  | .recordCorrected | .lineCheck | .lineFormat | .lineGap | .codeInvalid | .sequence | .portFrame => .minor

/-- R165. -/
def powerOnClass (c : FaultClass) : FaultClassRecord := ⟨true, true, defaultSeverity c, 0, 0⟩

/-- R171. -/
def powerOnFaults : FaultUnit where
  classes := ⟨faultClasses.map powerOnClass, rfl⟩
  first := none
  later := .fill 11 false
  reported := []

/-! ## Scrub Walker (R161, R163) -/

structure Scrub where
  interval : Byte
  cursor : ChannelNo
  timer : Option Byte
  deriving DecidableEq, Repr

/-- R163. -/
def powerOnScrub : Scrub := ⟨8, 0, some 8⟩

/-! ## Line Link Interface (R177, R180) -/

/-- What the interface holds for one span (R177). -/
structure LinkSpan where
  dirty : Table Bool 32
  lastAlarm : Bool
  sequence : Byte
  deriving DecidableEq, Repr

/-- The interface as a whole (R177, R180). The transmitter is SENDING exactly when it holds the message it sends
(R179). -/
structure LineLink where
  spans : Table LinkSpan 16
  transmitter : Option (List Byte)
  servedLast : Option SpanNo
  refreshInterval : Millis
  refreshTimer : Option Millis
  deriving DecidableEq, Repr

/-- R177. -/
def powerOnLinkSpan : LinkSpan := ⟨.fill 32 false, false, 0⟩

/-- R177, R180. -/
def powerOnLink : LineLink := ⟨.fill 16 powerOnLinkSpan, none, none, 1000, some 1000⟩

/-! ## Controller Port Interface (R183 to R186) -/

/-- A response (R183): its frame is made of these. -/
structure Response where
  tag : Byte
  status : Status
  overrun : Bool
  body : List Byte
  deriving DecidableEq, Repr

/-- A long request in progress (R184): the tag and code of a TRANSFER or RESTART. -/
structure LongRequest where
  tag : Byte
  code : RequestCode
  deriving DecidableEq, Repr

/-- The port states of R185. -/
inductive PortState where
  | idle
  | working (long : LongRequest)
  | ready (response : Response)
  deriving DecidableEq, Repr

/-- A port record (R184). `sdo` holds the characters driven on SDO in the port's last transfer (R182; log 18). -/
structure PortRecord where
  enabled : Bool
  admin : Bool
  attention : Bool
  state : PortState
  overrun : Bool
  sdo : List Byte
  deriving DecidableEq, Repr

/-- R184: enabled, administrative and attending at port 0 alone. -/
def powerOnPort (first : Bool) : PortRecord := ⟨first, first, first, .idle, false, []⟩

/-- R184. -/
def powerOnPorts : Table PortRecord 4 :=
  ⟨[powerOnPort true, powerOnPort false, powerOnPort false, powerOnPort false], rfl⟩

/-- A restart in flight (R194): the ms left on the restart timer, and the port that requested it (log 27). -/
structure Restart where
  timer : Millis
  requester : PortNo
  deriving DecidableEq, Repr

end Sys2Proof.Machine
end

