-- ==== Sys2Proof/Machine/State.lean ====
section
/-! DEFINITION. The state of the part, and its value right after reset. Plain data throughout. -/

namespace Sys2Proof.Machine

structure State where
  /-- The Channel Table (R1). -/
  channels : Table ChannelRecord 512
  /-- The Profile Store (R17). -/
  profiles : Table Profile 8
  /-- The Group Table (R34, R35). -/
  groups : Table GroupRecord 32
  /-- The Span Monitor (R101). -/
  spans : Table SpanRecord 16
  /-- The Reference Index: 128 sets of 4 ways (R121). -/
  index : Table (Table (Option IndexEntry) 4) 128
  /-- The purge walk (R132). -/
  purge : PurgeWalk
  /-- The attention list of each port (R138). -/
  lists : Table (List Member) 4
  /-- The transfer record; absent while no transfer is in flight (R147). -/
  transfer : Option Transfer
  /-- The Fault Unit (R165, R166). -/
  faults : FaultUnit
  /-- The Scrub Walker (R161). -/
  scrub : Scrub
  /-- The Line Link Interface (R177). -/
  link : LineLink
  /-- The port records (R184). -/
  ports : Table PortRecord 4
  /-- The restart in flight, if any (R194). -/
  restart : Option Restart
  /-- The millisecond counter (R166). -/
  millis : BitVec 32
  /-- The level of RST_N: true is High (R172, R182). -/
  rstN : Bool
  /-- The MODEL's own counter of drawn free values (log 23); no claim rests on its value. -/
  freeCount : Nat
  /-- The commands that wait, first in, first out (log 1). -/
  pending : List Instr
  deriving DecidableEq, Repr

/-- The reasons a step can stop with a fault: none. The part answers, discards or reinitialises; nothing in the manual
stops it (R158, R174, R192). -/
inductive Fault where
  deriving DecidableEq, Repr

/-- The reasons a step can be refused. -/
inductive Refusal where
  /-- Raised by the dispatcher for a command that has no meaning yet; safe. No command is left without one. -/
  | notModelled (mnemonic : String)
  deriving DecidableEq, Repr

/-- The machine right after reset: the power-on values of every block, with RST_N High again (log 4). -/
def State.reset : State where
  channels := .fill 512 powerOnChannel
  profiles := .fill 8 powerOnProfile
  groups := .fill 32 powerOnGroup
  spans := .fill 16 powerOnSpan
  index := .fill 128 (.fill 4 none)
  purge := powerOnPurge
  lists := .fill 4 []
  transfer := none
  faults := powerOnFaults
  scrub := powerOnScrub
  link := powerOnLink
  ports := powerOnPorts
  restart := none
  millis := 0
  rstN := true
  freeCount := 0
  pending := []

end Sys2Proof.Machine
end

