-- ==== Sys2Proof/Machine/Ops.lean ====
section
/-! DEFINITION. The named operations over the records: reading and changing one record, the transmit image and the
dirty mark, the Reference Index, the attention lists, the idle queue, the drain completion check, the reporting of a
fault occurrence, and the taking of waiting events in a free order. -/

namespace Sys2Proof.Machine

/-! ## Numbering (00, Numbering) -/

/-- The span of a channel: n div 32 (R1). -/
def spanOf (n : ChannelNo) : SpanNo := ⟨n.val / 32, by omega⟩

/-- The position of a channel within its span: n mod 32 (R1). -/
def positionOf (n : ChannelNo) : Position := ⟨n.val % 32, by omega⟩

/-- The channel at a position of a span: 32 × s + p. -/
def channelAt (sp : SpanNo) (p : Position) : ChannelNo := ⟨32 * sp.val + p.val, by omega⟩

/-- A timer loaded with a value; a value of 0 leaves it off (R10; 00, Time). -/
def load {w : Nat} (v : BitVec w) : Option (BitVec w) := if v = 0 then none else some v

/-- One timebase step of a timer. A timer that has reached 0 waits there for its expiry event (log 6). -/
def countDown {w : Nat} (t : Option (BitVec w)) : Option (BitVec w) := t.map fun v => if v = 0 then 0 else v - 1

/-- The place of a condition among the transmit codes (R17, R19). -/
def conditionNo : Condition → Fin 6
  | .free => 0
  | .seize => 1
  | .proceed => 2
  | .answer => 3
  | .clear => 4
  | .block => 5

/-- A record's call part as its stored bits spell it: while bits are in error, what they spell is free (log 10). -/
def ChannelRecord.seenCall (r : ChannelRecord) : CallPart :=
  if r.errors = [] then r.call else Config.storedCall r.call r.errors

namespace State

/-! ## One record -/

def channel (s : State) (n : ChannelNo) : ChannelRecord := s.channels.get n
def equipment (s : State) (n : ChannelNo) : EquipmentPart := (s.channel n).equipment
def line (s : State) (n : ChannelNo) : LinePart := (s.channel n).line
def call (s : State) (n : ChannelNo) : CallPart := (s.channel n).call
def group (s : State) (g : GroupNo) : GroupRecord := s.groups.get g
def span (s : State) (sp : SpanNo) : SpanRecord := s.spans.get sp
def linkSpan (s : State) (sp : SpanNo) : LinkSpan := s.link.spans.get sp
def port (s : State) (p : PortNo) : PortRecord := s.ports.get p
def list (s : State) (p : PortNo) : List Member := s.lists.get p
def faultClass (s : State) (c : FaultClass) : FaultClassRecord := s.faults.classes.get (classNo c)

def modChannel (n : ChannelNo) (f : ChannelRecord → ChannelRecord) (s : State) : State :=
  { s with channels := s.channels.update n f }

def modGroup (g : GroupNo) (f : GroupRecord → GroupRecord) (s : State) : State :=
  { s with groups := s.groups.update g f }

def modSpan (sp : SpanNo) (f : SpanRecord → SpanRecord) (s : State) : State :=
  { s with spans := s.spans.update sp f }

def modLinkSpan (sp : SpanNo) (f : LinkSpan → LinkSpan) (s : State) : State :=
  { s with link := { s.link with spans := s.link.spans.update sp f } }

def modPort (p : PortNo) (f : PortRecord → PortRecord) (s : State) : State :=
  { s with ports := s.ports.update p f }

/-- The group of an equipped channel (R2). -/
def groupOf (s : State) (n : ChannelNo) : Option GroupNo := (s.equipment n).group

/-- R2 (log 22). -/
def equipped (s : State) (n : ChannelNo) : Bool := (s.groupOf n).isSome

/-- The configuration of the channel's group, as it stands (R2, R34). -/
def config (s : State) (n : ChannelNo) : GroupConfig :=
  match s.groupOf n with
  | some g => (s.group g).config.getD Config.absentGroup
  | none => Config.absentGroup

/-- Some channel of the span is equipped (R102, R104). -/
def anyEquipped (s : State) (sp : SpanNo) : Bool :=
  (List.finRange 32).any fun p => s.equipped (channelAt sp p)

/-- The line part written whole. -/
def setLine (n : ChannelNo) (l : LinePart) (s : State) : State := s.modChannel n fun r => { r with line := l }

/-- The call part written with a new check word (R1, R156). -/
def setCall (n : ChannelNo) (c : CallPart) (s : State) : State :=
  s.modChannel n fun r => { r with call := c, errors := [] }

/-- The call part as the stored bits spell it to a reader that makes no check (R157; log 10). -/
def seenCall (s : State) (n : ChannelNo) : CallPart := (s.channel n).seenCall

/-! ## The transmit image and the dirty set (R20, R31, R32) -/

/-- The span's fill code (R101). -/
def spanFill (s : State) (sp : SpanNo) : LineCode :=
  match (s.span sp).config with
  | some c => c.fill
  | none => Config.absentFill

/-- The transmit code of the channel's group profile for a condition (R20). -/
def profileCode (s : State) (n : ChannelNo) (c : Condition) : LineCode :=
  (s.profiles.get (s.config n).profile).transmit.get (conditionNo c)

/-- The code for a transmitted condition of the channel: the fill code for FILL and for an unequipped channel (R31). -/
def codeFor (s : State) (n : ChannelNo) (t : Transmitted) : LineCode :=
  match s.equipped n, t with
  | true, .is c => s.profileCode n c
  | true, .fill => s.spanFill (spanOf n)
  | false, _ => s.spanFill (spanOf n)

/-- The present transmitted code of a channel whose call part has been checked (R31). -/
def presentCode (s : State) (n : ChannelNo) : LineCode := s.codeFor n (s.call n).transmitted

/-- The present transmitted code that an update being built reads, without a check (R157, R179; log 10). -/
def sentCode (s : State) (n : ChannelNo) : LineCode := s.codeFor n (s.seenCall n).transmitted

/-- The position joins its span's dirty set, which holds positions 0..c−1 only (R32). -/
def markDirty (n : ChannelNo) (s : State) : State :=
  match (s.span (spanOf n)).config with
  | some c =>
    if (positionOf n).val < c.count then
      s.modLinkSpan (spanOf n) fun l => { l with dirty := l.dirty.set (positionOf n) true }
    else s
  | none => s

/-- The position joins the dirty set if the present transmitted code is not the one given (R31). -/
def markIfChanged (n : ChannelNo) (old : LineCode) (s : State) : State :=
  if s.presentCode n = old then s else s.markDirty n

/-- The call part changes, and with it the dirty set if the transmitted code changed (R5, R31). -/
def writeCall (n : ChannelNo) (c : CallPart) (s : State) : State :=
  (s.setCall n c).markIfChanged n (s.presentCode n)

/-- What a code means under the channel's group profile (R20). -/
def meaning (s : State) (n : ChannelNo) (x : LineCode) : Received :=
  (s.profiles.get (s.config n).profile).receive.get ⟨x.toNat, x.isLt⟩

/-- The received condition recomputed from the stable code (R3, R20). -/
def derivedCondition (s : State) (n : ChannelNo) : Option Received :=
  if s.equipped n then (s.line n).stable.map (s.meaning n) else none

/-! ## The Reference Index (R121 to R129) -/

end State

/-- set = (byte 0 XOR byte 1 XOR byte 2) AND 0x7F (R122). -/
def setOf (r : Reference) : SetNo :=
  ⟨((r.extractLsb' 0 8 ^^^ r.extractLsb' 8 8 ^^^ r.extractLsb' 16 8) &&& 0x7F#8).toNat % 128,
    Nat.mod_lt _ (by decide)⟩

/-- The valid entries of a set, in way order. -/
def validEntries (ways : Table (Option IndexEntry) 4) : List IndexEntry := ways.cells.filterMap id

/-- The lowest-numbered free way of a set (R125). -/
def freeWay (ways : Table (Option IndexEntry) 4) : Option WayNo :=
  (List.finRange 4).find? fun w => (ways.get w).isNone

namespace State

/-- The valid entry that holds a reference (R121, R124): it can stand only in the reference's set. -/
def entryOf (s : State) (r : Reference) : Option IndexEntry :=
  (validEntries (s.index.get (setOf r))).find? fun e => e.reference = r

/-- One entry is written in the lowest free way of the reference's set (R125). -/
def bind (e : IndexEntry) (s : State) : State :=
  match freeWay (s.index.get (setOf e.reference)) with
  | some w => { s with index := s.index.update (setOf e.reference) fun ways => ways.set w (some e) }
  | none => s

/-- The entry of a reference becomes free; the other ways stay (R126). -/
def unbind (r : Reference) (s : State) : State :=
  { s with index := s.index.update (setOf r) fun ways =>
      ways.map fun w => if w.any (fun e => e.reference = r) then none else w }

/-- The reference that the channel holds, if any, is unbound. -/
def unbindCall (n : ChannelNo) (s : State) : State :=
  match (s.call n).reference with
  | some r => s.unbind r
  | none => s

/-- The owner of the call on a channel: the owner port of the entry of the reference it holds (R12, R129). -/
def ownerOf (s : State) (n : ChannelNo) : Option PortNo :=
  match (s.call n).reference with
  | some r => (s.entryOf r).map (·.owner)
  | none => none

/-- The valid entries of the whole index. -/
def allEntries (s : State) : List IndexEntry := s.index.cells.flatMap validEntries

/-- A valid index entry names the port as owner (R130, R188). -/
def ownsEntries (s : State) (p : PortNo) : Bool := s.allEntries.any fun e => e.owner = p

/-- The channel is purge pending (R132). -/
def purgePending (s : State) (n : ChannelNo) : Bool := s.purge.lost.any fun l => l.channel = n

/-! ## The attention lists (R138 to R141) -/

end State

/-- The add of R139: a member already there keeps its place and takes the reason if it lacks it; otherwise the member
joins the tail. -/
def addReason (o : AttentionObject) (r : Reason) : List Member → List Member
  | [] => [⟨o, [r]⟩]
  | m :: ms =>
    if m.object = o then (if r ∈ m.reasons then m else { m with reasons := m.reasons ++ [r] }) :: ms
    else m :: addReason o r ms

/-- One list merged into another by R139: members from head to tail, the reasons of each in their order (R153). -/
def mergeLists (source target : List Member) : List Member :=
  source.foldl (fun l m => m.reasons.foldl (fun l r => addReason m.object r l) l) target

namespace State

/-- A reason is added to a port's list (R139), whether the port is enabled or not (R141). -/
def notify (p : PortNo) (o : AttentionObject) (r : Reason) (s : State) : State :=
  { s with lists := s.lists.update p (addReason o r) }

/-- A channel reason for a port. -/
def tell (p : PortNo) (n : ChannelNo) (r : ChannelReason) (s : State) : State :=
  s.notify p (.channel n) (.channel r)

/-- The port of a channel reason: the owner of the reference it holds, else the group's maintenance port (R141 cases 1,
4 and 5). For a reason of an event that unbinds, it is read before the entry is freed. A reference that no entry holds can
stand in a record only after three or more bits in error; that the maintenance port then takes the reason is the model's
choice (log 34). -/
def callPort (s : State) (n : ChannelNo) : PortNo := (s.ownerOf n).getD (s.config n).maintenance

/-- A channel reason for the group's maintenance port (R141 case 5). -/
def tellMaintenance (n : ChannelNo) (r : ChannelReason) (s : State) : State :=
  s.tell (s.config n).maintenance n r

/-- A span reason for the span's maintenance port (R143). -/
def tellSpan (sp : SpanNo) (r : SpanReason) (s : State) : State :=
  match (s.span sp).config with
  | some c => s.notify c.maintenance (.span sp) (.span r)
  | none => s

/-! ## Fault occurrences (R164) -/

/-- An occurrence is reported to the Fault Unit, which takes it as an event of its own (R164, R165; log 8). -/
def report (o : Occurrence) (s : State) : State :=
  { s with faults := { s.faults with reported := s.faults.reported ++ [o] } }

/-- An occurrence that carries the span, the channel and the channel's state (R164). -/
def reportChannel (c : FaultClass) (n : ChannelNo) (s : State) : State :=
  s.report ⟨c, some (spanOf n), some n, none, none, some (s.call n).state⟩

/-- An occurrence that carries the span alone (R164). -/
def reportSpan (c : FaultClass) (sp : SpanNo) (s : State) : State := s.report ⟨c, some sp, none, none, none, none⟩

/-! ## Groups: idle queue, member list and drain (R40, R41, R51) -/

/-- The channel leaves its group's idle queue (R41). -/
def leaveIdle (n : ChannelNo) (s : State) : State :=
  match s.groupOf n with
  | some g => s.modGroup g fun r => { r with idle := r.idle.filter (· ≠ n) }
  | none => s

/-- The channel joins the tail of its group's idle queue (R41). -/
def joinIdle (n : ChannelNo) (s : State) : State :=
  match s.groupOf n with
  | some g => s.modGroup g fun r => { r with idle := r.idle ++ [n] }
  | none => s

/-- A member is out of use: BLOCKED with DRAIN among its flags, or FAULT of any cause (R51). -/
def outOfUse (s : State) (n : ChannelNo) : Bool :=
  match (s.seenCall n).state with
  | .blocked => (s.seenCall n).flags.drain
  | .fault _ => true
  | _ => false

/-- The drain completion check of R51. -/
def drainCheck (g : GroupNo) (s : State) : State :=
  match (s.group g).drainPort with
  | some p =>
    if !(s.group g).drainReported && (s.group g).members.all (s.outOfUse ·) then
      (s.modGroup g fun r => { r with drainReported := true }).notify p (.group g) .drained
    else s
  | none => s

/-- The drain completion check of the channel's group. -/
def drainCheckOf (n : ChannelNo) (s : State) : State :=
  match s.groupOf n with
  | some g => s.drainCheck g
  | none => s

/-- (rank, channel number) order of a member list (R35). -/
def before (s : State) (a b : ChannelNo) : Bool :=
  (s.equipment a).rank < (s.equipment b).rank ||
    ((s.equipment a).rank = (s.equipment b).rank && a < b)

/-- The member list with a channel at the place its rank and number give (R40). -/
def insertMember (s : State) (n : ChannelNo) : List ChannelNo → List ChannelNo
  | [] => [n]
  | m :: ms => if s.before n m then n :: m :: ms else m :: s.insertMember n ms

/-! ## Spans -/

/-- The candidates of every position of the span are cleared (R25). -/
def clearCandidates (sp : SpanNo) (s : State) : State :=
  { s with channels := s.channels.mapIdx fun n r =>
      if spanOf n = sp then { r with line := { r.line with candidate := none, count := 0 } } else r }

/-- The line parts of positions from c up are emptied (R26). -/
def emptyLines (sp : SpanNo) (c : Nat) (s : State) : State :=
  { s with channels := s.channels.mapIdx fun n r =>
      if spanOf n = sp ∧ c ≤ (positionOf n).val then { r with line := emptyLine } else r }

/-- The whole image of the span is dirty: every position 0..c−1 (R32, R180). -/
def allDirty (sp : SpanNo) (s : State) : State :=
  match (s.span sp).config with
  | some c => s.modLinkSpan sp fun l => { l with dirty := .tabulate fun p => p.val < c.count }
  | none => s.modLinkSpan sp fun l => { l with dirty := .fill 32 false }

/-! ## Transfers -/

/-- A role offered to the source of a transfer in flight goes to its target (R36, R48, R102, R149). -/
def redirect (s : State) (p : PortNo) : PortNo :=
  match s.transfer with
  | some t => if t.source = p then t.target else p
  | none => p

/-! ## Waiting events in a free order (log 6, log 7) -/

/-- The counter of drawn free values advances. -/
def drawn (s : State) : State := { s with freeCount := s.freeCount + 1 }

/-- Every event of a list is taken once, in an order that no rule gives and nothing constrains. -/
def takeInFreeOrder {α : Type} (take : α → State → State) : Nat → List α → State → State
  | 0, _, s => s
  | _ + 1, [], s => s
  | _ + 1, [a], s => take a s
  | fuel + 1, a :: b :: rest, s =>
    let l := a :: b :: rest
    let k := Config.order s.freeCount % l.length
    takeInFreeOrder take fuel (l.eraseIdx k) (take (l.getD k a) s.drawn)

end State

end Sys2Proof.Machine
end

