-- ==== Sys2Proof/Machine/Link.lean ====
section
/-! DEFINITION. The transmit side of the line link: the update pending, the arbiter and the build event (R177 to R179),
and the build event that an event brings about when the transmitter is IDLE. -/

namespace Sys2Proof.Machine

/-- The alarm request of a span: yes in FAILED and RECOVERING (R118). -/
def alarmOf : SpanState → Bool
  | .failed _ | .recovering _ => true
  | .unused | .starting | .inService | .suspect => false

namespace State

def alarmRequest (s : State) (sp : SpanNo) : Bool := alarmOf (s.span sp).state

/-- A configured span has an update pending while its dirty set is non-empty or its alarm request differs from the flag
last sent (R177). -/
def updatePending (s : State) (sp : SpanNo) : Bool :=
  (s.span sp).config.isSome &&
    ((s.linkSpan sp).dirty.any id || s.alarmRequest sp != (s.linkSpan sp).lastAlarm)

/-- The cyclic order of the arbiter's search: from the span after the one served last, to that one (R178). -/
def searchOrder (s : State) : List SpanNo :=
  match s.link.servedLast with
  | none => List.finRange 16
  | some l => (List.finRange 16).map fun k => k + l + 1

/-- The span that the arbiter chooses (R178). -/
def nextServed (s : State) : Option SpanNo := s.searchOrder.find? s.updatePending

/-- The pairs of an update: the dirty positions in ascending order, each with its present code (R179). -/
def updatePairs (s : State) (sp : SpanNo) : List (Position × LineCode) :=
  ((s.linkSpan sp).dirty.indices id).map fun p => (p, s.sentCode (channelAt sp p))

/-- The update of a span is built and its sending begins (R179). -/
def buildFor (sp : SpanNo) (s : State) : State :=
  let message := spanUpdateMessage sp (s.linkSpan sp).sequence (s.alarmRequest sp) (s.updatePairs sp)
  let alarm := s.alarmRequest sp
  let s := s.modLinkSpan sp fun l => ⟨.fill 32 false, alarm, l.sequence + 1⟩
  { s with link := { s.link with transmitter := some message, servedLast := some sp } }

/-- A build event: the next pending span is served, if there is one (R178). -/
def buildEvent (s : State) : State :=
  match s.nextServed with
  | some sp => s.buildFor sp
  | none => s

/-- A build event if the transmitter is IDLE and no restart is in flight (R178, R181). -/
def buildIfIdle (s : State) : State :=
  if s.link.transmitter.isNone && s.restart.isNone then s.buildEvent else s

/-- Some span has an update pending in t that had none in s. -/
def gains (s t : State) : Bool :=
  (List.finRange 16).any fun sp => t.updatePending sp && !s.updatePending sp

end State

/-- An event with the build event it brings about: the transmitter is IDLE and a span gains an update pending (R178;
log 12). -/
def event (f : State → State) (s : State) : State :=
  if s.gains (f s) then (f s).buildIfIdle else f s

end Sys2Proof.Machine
end

