-- ==== Sys2Proof/Machine/Integrity.lean ====
section
/-! DEFINITION. The check of a call part and what it finds: the correction of a single error and the loss of a record
(R1, R156 to R160). -/

namespace Sys2Proof.Machine

/-- The request that reads a call part, with its port: the details of an occurrence its check reports (R157, R158).
Other events carry none. -/
abbrev Finder := Option (PortNo × RequestCode)

/-- The number of visits a purge counts (R133). -/
def purgeVisits : Nat := 128

/-- The call part of a lost record of an equipped channel (R158 step 1). -/
def lostCall : CallPart where
  state := .fault .record
  role := .none
  reference := none
  transmitted := .is .block
  timer := none
  flags := noFlags
  rehuntUsed := false
  rehuntedFrom := none

/-- The classification of a pattern of stored bits in error: one and two are the code's own, three or more are outside
its guarantee (R156; log 9). -/
def classify (c : CallPart) : List Nat → Classification
  | [] => .clean
  | [_] => .single
  | [_, _] => .double
  | errors => Config.classify c errors

/-- The values that a correction writes: those last written, for one bit in error (R156, R157; log 9). -/
def correctedCall (c : CallPart) : List Nat → CallPart
  | [] => c
  | [_] => c
  | errors => Config.miscorrectedCall c errors

namespace State

/-- The channel joins the lost set with 128 visits, unless it is in it already (R133, R158). -/
def joinLost (n : ChannelNo) (s : State) : State :=
  if s.purgePending n then s
  else { s with purge := { s.purge with lost := s.purge.lost ++ [⟨n, purgeVisits⟩] } }

/-- The occurrence of a record loss: its channel state cannot be read (R158 step 5, R160). -/
def reportLoss (n : ChannelNo) (found : Finder) (s : State) : State :=
  s.report ⟨.recordLost, some (spanOf n), some n, found.map (·.1), found.map (·.2), none⟩

/-- The loss of a record (R158), reduced at an unequipped channel and at FAULT(RECORD) (R160). The loss of an equipped
channel marks its position whatever code stood before (R31), also in FAULT(RECORD), where the drain check alone is left out
(log 15). -/
def loseRecord (n : ChannelNo) (found : Finder) (s : State) : State :=
  if !s.equipped n then (s.setCall n unequippedCall).reportLoss n found
  else if (s.call n).state = .fault .record then
    (((s.setCall n lostCall).joinLost n).markDirty n).reportLoss n found
  else (((((s.setCall n lostCall).leaveIdle n).joinLost n).markDirty n).reportLoss n found).drainCheckOf n

/-- A single error is corrected in place and reported with the state after correction (R157). The position joins no dirty
set: one bit corrected leaves the code last written, and that three or more taken as a single error mark no position,
though they may bring another code into force, is the model's choice (log 32). -/
def correctRecord (n : ChannelNo) (found : Finder) (s : State) : State :=
  let c := correctedCall (s.call n) (s.channel n).errors
  (s.setCall n c).report ⟨.recordCorrected, some (spanOf n), some n, found.map (·.1), found.map (·.2), some c.state⟩

/-- The check at the start of every event that reads a call part (R157): the state after it, and whether the event
proceeds. A record with no bit in error is left as it stands. Three or more bits that classify as clean or as a single
error may bring another transmitted code into force; that the check marks no position then is the model's choice
(log 32). -/
def checkCall (n : ChannelNo) (found : Finder) (s : State) : State × Bool :=
  match (s.channel n).errors with
  | [] => (s, true)
  | errors =>
    match classify (s.call n) errors with
    | .clean => (s.setCall n (s.seenCall n), true)
    | .single => (s.correctRecord n found, true)
    | .double => (s.loseRecord n found, false)

/-- The call part that a check of the channel would bring into force: the corrected one for a single error, else what the
stored bits spell (R156, R157). Of a double error, which loses the record, what the stored bits spell is free (log 10). -/
def foundCall (s : State) (n : ChannelNo) : CallPart :=
  match classify (s.call n) (s.channel n).errors with
  | .single => correctedCall (s.call n) (s.channel n).errors
  | .clean | .double => s.seenCall n

/-- An event at a channel that checks its call part first, and is not carried out if the record is lost (R1, R159). -/
def checked (n : ChannelNo) (found : Finder) (go : State → State) (s : State) : State :=
  match s.checkCall n found with
  | (t, true) => go t
  | (t, false) => t

end State

end Sys2Proof.Machine
end

