-- ==== Sys2Proof/Machine/Channel.lean ====
section
/-! DEFINITION. The transitions of a call part that many commands share: entry to each state, settling, and what each
state does with a condition change (chapters 4 and 5). -/

namespace Sys2Proof.Machine

/-- BLOCKED transmits BLOCK with LOCAL or DRAIN among its flags, FREE with REMOTE alone (R5). -/
def blockedCondition (f : BlockFlags) : Transmitted := if f.locally || f.drain then .is .block else .is .free

namespace State

/-! ## Entry to a state -/

/-- Entry to OUT_SEIZED with the reference bound to the owner: SEIZE, a hunt or a rehunt (R46, R48, R56, R57). -/
def enterOutSeized (n : ChannelNo) (r : Reference) (owner : PortNo) (from? : Option ChannelNo) (s : State) : State :=
  ((s.leaveIdle n).writeCall n
    { state := .outSeized, role := .outgoing, reference := some r, transmitted := .is .seize,
      timer := load (s.config n).proceed, flags := noFlags, rehuntUsed := from?.isSome, rehuntedFrom := from? }).bind
    ⟨r, n, owner⟩

/-- Entry to OUT_WAIT_ANSWER (R59). -/
def enterOutWaitAnswer (n : ChannelNo) (s : State) : State :=
  s.writeCall n { s.call n with state := .outWaitAnswer, timer := load (s.config n).answer }

/-- Entry to CONNECTED: the transmitted condition is the role's (R5, R60, R71). -/
def enterConnected (n : ChannelNo) (s : State) : State :=
  s.writeCall n { s.call n with
    state := .connected, timer := none,
    transmitted := if (s.call n).role = .incoming then .is .answer else .is .seize }

/-- Entry to IN_SEIZED (R65); the flags are the entering rule's. A reference still held is unbound by the caller. -/
def enterInSeized (n : ChannelNo) (flags : BlockFlags) (s : State) : State :=
  ((s.leaveIdle n).writeCall n
    { state := .inSeized, role := .incoming, reference := none, transmitted := .is .proceed,
      timer := load (s.config n).offer, flags := flags, rehuntUsed := false, rehuntedFrom := none }).tellMaintenance n
    .offered

/-- Entry to CLEARING_LOCAL (R62, R70, R80). -/
def enterClearingLocal (n : ChannelNo) (s : State) : State :=
  s.writeCall n { s.call n with
    state := .clearingLocal, transmitted := .is .clear, timer := load (s.config n).releaseConfirm }

/-- Entry to CLEARING_REMOTE: the transmitted condition is kept (R85). -/
def enterClearingRemote (n : ChannelNo) (s : State) : State :=
  s.writeCall n { s.call n with state := .clearingRemote, timer := load (s.config n).farClear }

/-- Entry to GUARD (R88): a reference held is unbound, the flags are the entering rule's. -/
def enterGuard (n : ChannelNo) (flags : BlockFlags) (s : State) : State :=
  ((s.leaveIdle n).unbindCall n).writeCall n
    { state := .guard, role := .none, reference := none, transmitted := .is .free,
      timer := load (s.config n).guard, flags := flags, rehuntUsed := false, rehuntedFrom := none }

/-- Entry to BLOCKED with the given flags (R61, R69, R91, R92, R94). -/
def enterBlocked (n : ChannelNo) (flags : BlockFlags) (s : State) : State :=
  ((s.leaveIdle n).unbindCall n).writeCall n
    { state := .blocked, role := .none, reference := none, transmitted := blockedCondition flags,
      timer := none, flags := flags, rehuntUsed := false, rehuntedFrom := none }

/-- Entry to FAULT (R9): a reference held is unbound, the flags are the entering rule's. -/
def enterFault (n : ChannelNo) (cause : FaultCause) (flags : BlockFlags) (s : State) : State :=
  ((s.leaveIdle n).unbindCall n).writeCall n
    { state := .fault cause, role := .none, reference := none, transmitted := .is .block,
      timer := none, flags := flags, rehuntUsed := false, rehuntedFrom := none }

/-- Entry to IDLE, at the tail of the idle queue (R91, R41). -/
def enterIdle (n : ChannelNo) (s : State) : State :=
  (s.writeCall n
    { state := .idle, role := .none, reference := none, transmitted := .is .free,
      timer := none, flags := noFlags, rehuntUsed := false, rehuntedFrom := none }).joinIdle n

/-- The flags of a channel changed, the state kept; in BLOCKED the flags fix the transmitted condition (R5). -/
def writeFlags (n : ChannelNo) (flags : BlockFlags) (s : State) : State :=
  s.writeCall n { s.call n with
    flags := flags,
    transmitted := if (s.call n).state = .blocked then blockedCondition flags else (s.call n).transmitted }

/-! ## Settling (R90, R91) -/

/-- The received condition of the channel is BLOCK. -/
def receivesBlock (s : State) (n : ChannelNo) : Bool := (s.line n).received = some (.is .block)

/-- Entry to BLOCKED of a channel whose REMOTE flag follows its received condition, with FAR_BLOCKED where that sets
REMOTE, and the drain completion check (R91, R92). -/
def blockByCondition (n : ChannelNo) (flags : BlockFlags) (s : State) : State :=
  let remote := s.receivesBlock n
  let t := s.enterBlocked n { flags with remote := remote }
  (if remote && !flags.remote then t.tellMaintenance n .farBlocked else t).drainCheckOf n

/-- Settling: the first case of R90 that holds, with the effects of R91. -/
def settle (n : ChannelNo) (s : State) : State :=
  let flags := (s.call n).flags
  if flags.locally || flags.drain || s.receivesBlock n then s.blockByCondition n flags
  else if (s.line n).received = some (.is .seize) then
    if (s.equipment n).direction = .outgoingOnly then (s.reportChannel .sequence n).enterIdle n
    else s.enterInSeized n noFlags
  else s.enterIdle n

/-! ## Condition changes, state by state (R28 to R30, R59 to R64, R69, R72 to R75, R82, R85, R86, R94, R95, R97) -/

/-- IDLE (R64, R94). -/
def changeInIdle (n : ChannelNo) (c : Condition) (s : State) : State :=
  match c with
  | .free => s
  | .seize =>
    if (s.equipment n).direction = .outgoingOnly then s.reportChannel .sequence n
    else s.enterInSeized n (s.call n).flags
  | .proceed | .answer | .clear => s.reportChannel .sequence n
  | .block => ((s.enterBlocked n ⟨false, false, true⟩).tellMaintenance n .farBlocked).drainCheckOf n

/-- A glare lost under YIELD (R75): the reference is unbound, the channel takes the far end's call, and a rehunt is
handed off or GLARE_LOST is given to the former owner. -/
def yieldGlare (n : ChannelNo) (s : State) : State :=
  let owner := s.callPort n
  let t := (s.unbindCall n).enterInSeized n (s.call n).flags
  match (s.call n).reference, s.groupOf n, (s.config n).rehunt && !(s.call n).rehuntUsed with
  | some r, some g, true => t.modGroup g fun x => { x with rehunts := x.rehunts ++ [⟨r, owner, n, false, false⟩] }
  | _, _, _ => t.tell owner n .glareLost

/-- OUT_SEIZED (R59, R60, R61, R73, R74). -/
def changeInOutSeized (n : ChannelNo) (c : Condition) (s : State) : State :=
  match c with
  | .free => s
  | .clear => s.reportChannel .sequence n
  | .proceed => (s.enterOutWaitAnswer n).tell (s.callPort n) n .proceeding
  | .answer => (s.enterConnected n).tell (s.callPort n) n .answered
  | .seize =>
    if (s.equipment n).direction = .outgoingOnly || (s.config n).glare = .hold then s else s.yieldGlare n
  | .block =>
    (((s.enterBlocked n { (s.call n).flags with remote := true }).tell (s.callPort n) n
      .seizeFailed).tellMaintenance n .farBlocked).drainCheckOf n

/-- A far-end clear of an owned call (R85). -/
def farClear (n : ChannelNo) (s : State) : State := (s.enterClearingRemote n).tell (s.callPort n) n .farClear

/-- OUT_WAIT_ANSWER (R60, R72, R85). -/
def changeInOutWaitAnswer (n : ChannelNo) (c : Condition) (s : State) : State :=
  match c with
  | .free | .clear | .block => s.farClear n
  | .answer => (s.enterConnected n).tell (s.callPort n) n .answered
  | .seize | .proceed => s.reportChannel .sequence n

/-- IN_SEIZED before any ACCEPT (R69). -/
def changeInInSeized (n : ChannelNo) (c : Condition) (s : State) : State :=
  match c with
  | .free | .clear => (s.enterGuard n (s.call n).flags).tellMaintenance n .abandoned
  | .block =>
    (((s.enterBlocked n { (s.call n).flags with remote := true }).tellMaintenance n
      .abandoned).tellMaintenance n .farBlocked).drainCheckOf n
  | .seize | .proceed | .answer => s.reportChannel .sequence n

/-- IN_ALERTING and CONNECTED (R72, R85). -/
def changeInCall (n : ChannelNo) (c : Condition) (s : State) : State :=
  match c with
  | .free | .clear | .block => s.farClear n
  | .seize | .proceed | .answer => s.reportChannel .sequence n

/-- CLEARING_LOCAL (R82): FREE or CLEAR confirms, with CLEAR_DONE to the former owner if the channel held a
reference. -/
def changeInClearingLocal (n : ChannelNo) (c : Condition) (s : State) : State :=
  match c with
  | .free | .clear =>
    let t := s.enterGuard n (s.call n).flags
    if (s.call n).reference.isSome then t.tell (s.callPort n) n .clearDone else t
  | .seize | .proceed | .answer | .block => s

/-- BLOCKED (R95). FAR_UNBLOCKED is added wherever a received FREE or SEIZE clears REMOTE (R142; log 13). A received BLOCK
with REMOTE set already is out of sequence by the model's reading (log 14). -/
def changeInBlocked (n : ChannelNo) (c : Condition) (s : State) : State :=
  let flags := (s.call n).flags
  let cleared := { flags with remote := false }
  match c with
  | .block =>
    if flags.remote then s.reportChannel .sequence n
    else (s.writeFlags n { flags with remote := true }).tellMaintenance n .farBlocked
  | .free =>
    if flags.remote then
      if flags.locally || flags.drain then (s.writeFlags n cleared).tellMaintenance n .farUnblocked
      else ((s.writeFlags n cleared).tellMaintenance n .farUnblocked).settle n
    else s
  | .seize =>
    if flags.locally || flags.drain then
      let t := s.reportChannel .sequence n
      if flags.remote then (t.writeFlags n cleared).tellMaintenance n .farUnblocked else t
    else if flags.remote then ((s.writeFlags n cleared).tellMaintenance n .farUnblocked).settle n
    else s.reportChannel .sequence n
  | .proceed | .answer | .clear => s.reportChannel .sequence n

/-- A change to INVALID (R29): the call part stays as it stands. -/
def changeToInvalid (n : ChannelNo) (s : State) : State :=
  (s.tell (s.callPort n) n .codeInvalid).reportChannel .codeInvalid n

/-- A condition change at a channel whose call part has passed its check (R28 to R30). An equipped channel can read UNEQUIPPED
here only after three or more bits in error; that it takes a change to INVALID by R29 and no other change is the model's
choice (log 34). -/
def conditionChange (n : ChannelNo) (c : Received) (s : State) : State :=
  match c with
  | .invalid => s.changeToInvalid n
  | .is c =>
    match (s.call n).state with
    | .unequipped => s
    | .idle => s.changeInIdle n c
    | .outSeized => s.changeInOutSeized n c
    | .outWaitAnswer => s.changeInOutWaitAnswer n c
    | .inSeized => s.changeInInSeized n c
    | .inAlerting | .connected => s.changeInCall n c
    | .clearingLocal => s.changeInClearingLocal n c
    | .blocked => s.changeInBlocked n c
    | .guard | .clearingRemote | .fault _ => s

/-! ## Hunting (R42 to R46) -/

/-- A member is eligible for a hunt (R42). -/
def eligible (s : State) (g : GroupNo) (n : ChannelNo) : Bool :=
  match (s.group g).config with
  | none => false
  | some c =>
    (s.group g).idle.contains n && (s.equipment n).direction != .incomingOnly &&
      (s.span (spanOf n)).state == .inService && (!c.skipFarAlarm || !(s.span (spanOf n)).farAlarm)

end State

/-- The cyclic order that starts with the member after the cursor and ends with the cursor's own channel (R43). -/
def cyclicFrom (cursor : Option ChannelNo) (members : List ChannelNo) : List ChannelNo :=
  match cursor with
  | none => members
  | some c => (members.dropWhile (· ≠ c)).drop 1 ++ members.takeWhile (· ≠ c) ++ (members.dropWhile (· ≠ c)).take 1

namespace State

/-- The order in which a policy looks at the members (R43). -/
def huntOrder (s : State) (g : GroupNo) : Policy → List ChannelNo
  | .firstUp => (s.group g).members
  | .firstDown => (s.group g).members.reverse
  | .rotate => cyclicFrom (s.group g).cursor (s.group g).members
  | .longestIdle => (s.group g).idle

/-- The member that a hunt chooses (R43). -/
def chosen (s : State) (g : GroupNo) : Option ChannelNo :=
  match (s.group g).config with
  | none => none
  | some c => (s.huntOrder g c.policy).find? (s.eligible g ·)

/-- Under ROTATE the cursor moves to the channel handed out (R44). -/
def moveCursor (g : GroupNo) (n : ChannelNo) (s : State) : State :=
  s.modGroup g fun r =>
    match r.config with
    | some c => if c.policy = .rotate then { r with cursor := some n } else r
    | none => r

/-- The reference checks of every bind, in their order (R124). -/
def referenceRefusal (s : State) (r : Reference) : Option Status :=
  if (s.entryOf r).isSome then some .refInUse
  else if (freeWay (s.index.get (setOf r))).isNone then some .refSetFull
  else none

end State

end Sys2Proof.Machine
end

