-- ==== Sys2Proof/Machine/Operands.lean ====
section
/-! DEFINITION. The fields of requests and responses: how a body's characters spell the operands of a request, and how
a response spells the views (R183, R190 to R193). -/

namespace Sys2Proof.Machine

/-! ## Reading the fields of a request body (R190) -/

/-- A channel number of two characters; none above 511. -/
def channelField (hi lo : Byte) : Option ChannelNo := numbered 512 (number2 hi lo)

/-- A group number; none above 31. -/
def groupField (b : Byte) : Option GroupNo := numbered 32 b.toNat

/-- A span number; none above 15. -/
def spanField (b : Byte) : Option SpanNo := numbered 16 b.toNat

/-- A profile number; none above 7. -/
def profileField (b : Byte) : Option ProfileNo := numbered 8 b.toNat

/-- A port number; none above 3. -/
def portField (b : Byte) : Option PortNo := numbered 4 b.toNat

/-- A yes/no field: 0 no, 1 yes. -/
def yesNoField (b : Byte) : Option Bool := if b = 0 then some false else if b = 1 then some true else none

/-- A line code; none above 0xF. -/
def codeField (b : Byte) : Option LineCode := if b.toNat < 16 then some (b.setWidth 4) else none

/-- A time of two characters. -/
def millisField (hi lo : Byte) : Millis := hi ++ lo

/-- A time of two characters that must not be 0. -/
def nonzeroMillisField (hi lo : Byte) : Option Millis := if hi ++ lo = 0#16 then none else some (hi ++ lo)

/-- Directions in the order of R2. -/
def directionField (b : Byte) : Option Direction := [Direction.bothway, .incomingOnly, .outgoingOnly][b.toNat]?

/-- Policies in the order of R34. -/
def policyField (b : Byte) : Option Policy := [Policy.firstUp, .firstDown, .rotate, .longestIdle][b.toNat]?

/-- Glare rules in the order of R34. -/
def glareField (b : Byte) : Option GlareRule := [GlareRule.yield, .hold][b.toNat]?

/-- Severities: minor 0, major 1 (R190). -/
def severityField (b : Byte) : Option Severity := [Severity.minor, .major][b.toNat]?

/-- Fault classes in the order of R164. -/
def faultClassField (b : Byte) : Option FaultClass := faultClasses[b.toNat]?

/-- Receive map entries: the six conditions, then INVALID 6 (R190). -/
def receivedField (b : Byte) : Option Received :=
  [Received.is .free, .is .seize, .is .proceed, .is .answer, .is .clear, .is .block, .invalid][b.toNat]?

/-- What ANSWER, RELEASE and READ_CHANNEL name (R190). -/
inductive Target where
  | channel (n : ChannelNo)
  | reference (r : Reference)
  deriving DecidableEq, Repr

/-- A target of four characters: a kind character, then 0x00 and a channel number, or a reference; none where R190
refuses it. Whether a pad other than 0x00 is refused is open (log 17). -/
def targetField (kind a b c : Byte) : Option Target :=
  if kind = 0x00#8 then
    if a != 0x00#8 && Config.targetPadChecked then none else (channelField b c).map .channel
  else if kind = 0x01#8 then some (.reference (reference3 a b c))
  else none

/-- The body length that the catalogue gives for a request (R191). -/
def bodyLength : RequestCode → Nat
  | .hunt => 4
  | .seize => 5
  | .accept => 5
  | .answer => 4
  | .release => 4
  | .block => 2
  | .unblock => 2
  | .resetChannel => 2
  | .drain => 1
  | .undrain => 1
  | .readChannel => 4
  | .readGroup => 1
  | .readSpan => 1
  | .nextAttention => 0
  | .readFaults => 0
  | .setSpan => 9
  | .clearSpan => 1
  | .equip => 5
  | .unequip => 2
  | .setGroup => 19
  | .deleteGroup => 1
  | .loadProfile => 23
  | .setFaultClass => 5
  | .clearFaults => 1
  | .setPort => 4
  | .setDevice => 3
  | .transfer => 2
  | .restart => 0

/-! ## Writing the fields of a response (R190) -/

/-- The character of an absent one-character field. -/
def absent1 : Byte := 0xFF#8

/-- A number of one character. -/
def char1 (v : Nat) : Byte := BitVec.ofNat 8 v

/-- A one-character number that may be absent. -/
def optional1 (v : Option Nat) : Byte := (v.map char1).getD absent1

/-- A two-character number that may be absent: 0xFFFF when absent. -/
def optional2 (v : Option Nat) : List Byte := chars2 (v.getD 0xFFFF)

/-- A yes/no field. -/
def yesNo (b : Bool) : Byte := if b then 1 else 0

/-- A timer: 0 where absent or stopped. -/
def timerChars {w : Nat} (t : Option (BitVec w)) : List Byte := chars2 ((t.map (·.toNat)).getD 0)

/-- A reference: 0 when absent. -/
def referenceChars (r : Option Reference) : List Byte := chars3 ((r.map (·.toNat)).getD 0)

/-- Call states in the order of R4. -/
def stateNumber : CallState → Nat
  | .unequipped => 0
  | .idle => 1
  | .guard => 2
  | .outSeized => 3
  | .outWaitAnswer => 4
  | .inSeized => 5
  | .inAlerting => 6
  | .connected => 7
  | .clearingLocal => 8
  | .clearingRemote => 9
  | .blocked => 10
  | .fault _ => 11

/-- SPAN 0, RECORD 1, RELEASE 2; absent outside FAULT. -/
def causeNumber : CallState → Option Nat
  | .fault .span => some 0
  | .fault .record => some 1
  | .fault .release => some 2
  | _ => none

/-- Roles in the order of R4. -/
def roleNumber : Role → Nat
  | .none => 0
  | .outgoing => 1
  | .incoming => 2

/-- Directions in the order of R2. -/
def directionNumber : Direction → Nat
  | .bothway => 0
  | .incomingOnly => 1
  | .outgoingOnly => 2

/-- Conditions, with INVALID 6. -/
def receivedNumber : Received → Nat
  | .is c => (conditionNo c).val
  | .invalid => 6

/-- Conditions, with FILL 7. -/
def transmittedNumber : Transmitted → Nat
  | .is c => (conditionNo c).val
  | .fill => 7

/-- Block flags: LOCAL, DRAIN and REMOTE at bits 0, 1 and 2. -/
def flagsNumber (f : BlockFlags) : Nat := f.locally.toNat + 2 * f.drain.toNat + 4 * f.remote.toNat

/-- Policies in the order of R34. -/
def policyNumber : Policy → Nat
  | .firstUp => 0
  | .firstDown => 1
  | .rotate => 2
  | .longestIdle => 3

/-- Glare rules in the order of R34. -/
def glareNumber : GlareRule → Nat
  | .yield => 0
  | .hold => 1

/-- Span states in the order of R101. -/
def spanStateNumber : SpanState → Nat
  | .unused => 0
  | .starting => 1
  | .inService => 2
  | .suspect => 3
  | .failed _ => 4
  | .recovering _ => 5

/-- FAULTY 0, SILENT 1; absent outside FAILED and RECOVERING. -/
def failureNumber : SpanState → Option Nat
  | .failed .faulty | .recovering .faulty => some 0
  | .failed .silent | .recovering .silent => some 1
  | _ => none

/-- The status codes of R192. -/
def statusNumber : Status → Nat
  | .ok => 0x00
  | .denied => 0x01
  | .badFrame => 0x02
  | .badRequest => 0x03
  | .notEquipped => 0x04
  | .wrongState => 0x05
  | .notOwner => 0x06
  | .noChannel => 0x07
  | .groupDraining => 0x08
  | .spanDown => 0x09
  | .refInUse => 0x0A
  | .refSetFull => 0x0B
  | .refUnknown => 0x0C
  | .recordFault => 0x0D
  | .inUse => 0x0E
  | .busy => 0x0F
  | .restarting => 0x10
  | .aborted => 0x11
  | .empty => 0x12

/-- Channel reasons in the order of R142. -/
def channelReasonNumber : ChannelReason → Nat
  | .offered => 0
  | .abandoned => 1
  | .proceeding => 2
  | .answered => 3
  | .farClear => 4
  | .autoReleased => 5
  | .clearDone => 6
  | .seizeFailed => 7
  | .glareLost => 8
  | .rehunted => 9
  | .answerTimeout => 10
  | .offerTimeout => 11
  | .releaseStuck => 12
  | .spanDown => 13
  | .recordLost => 14
  | .reset => 15
  | .farBlocked => 16
  | .farUnblocked => 17
  | .codeInvalid => 18

/-- Span reasons in the order of R143. -/
def spanReasonNumber : SpanReason → Nat
  | .spanFailed => 0
  | .spanRestored => 1
  | .farAlarmOn => 2
  | .farAlarmOff => 3

/-- A reason, counted from 0 within its kind (R190). -/
def reasonNumber : Reason → Nat
  | .channel r => channelReasonNumber r
  | .drained => 0
  | .span r => spanReasonNumber r
  | .fault c => (classNo c).val

/-- Member kinds CHANNEL, GROUP, SPAN, FAULT (R190). -/
def objectKind : AttentionObject → Nat
  | .channel _ => 0
  | .group _ => 1
  | .span _ => 2
  | .fault => 3

/-- The object characters of a member: 0xFFFF for FAULT (R193). -/
def objectNumber : AttentionObject → Nat
  | .channel n => n.val
  | .group g => g.val
  | .span s => s.val
  | .fault => 0xFFFF

/-! ## The response frame (R183) -/

/-- The ready marker (R182, R183). -/
def readyMarker : Byte := 0xA5#8

/-- A response frame less its CRC-8. -/
def responseHeadAndBody (r : Response) : List Byte :=
  [readyMarker, r.tag, char1 (statusNumber r.status), yesNo r.overrun, char1 r.body.length] ++ r.body

/-- A response frame (R183). -/
def responseFrame (r : Response) : List Byte := responseHeadAndBody r ++ [crc8 (responseHeadAndBody r)]

/-! ## The views (R193) -/

namespace State

/-- The channel view: 25 characters (R12, R193). -/
def channelView (s : State) (n : ChannelNo) : List Byte :=
  let e := s.equipment n
  let l := s.line n
  let c := s.call n
  chars2 n.val ++
  [yesNo (s.equipped n), optional1 (e.group.map (·.val)), e.rank, char1 (directionNumber e.direction),
   optional1 (l.stable.map (·.toNat)), optional1 (l.candidate.map (·.toNat)), char1 l.count,
   optional1 (l.received.map receivedNumber), char1 (stateNumber c.state), optional1 (causeNumber c.state),
   char1 (roleNumber c.role)] ++ referenceChars c.reference ++
  [optional1 ((s.ownerOf n).map (·.val)), char1 (transmittedNumber c.transmitted)] ++ timerChars c.timer ++
  [char1 (flagsNumber c.flags), yesNo c.rehuntUsed] ++ optional2 (c.rehuntedFrom.map (·.val)) ++
  [yesNo (s.purgePending n)]

/-- How many members of the group are in a state that passes p, as an unchecked read sees it (R53; log 10). -/
def countMembers (s : State) (g : GroupNo) (p : CallState → Bool) : Nat :=
  ((s.group g).members.filter fun n => p (s.seenCall n).state).length

/-- The group view: one character for a group that does not exist, else 34 (R53, R193). -/
def groupView (s : State) (g : GroupNo) : List Byte :=
  let r := s.group g
  match r.config with
  | none => [yesNo false]
  | some c =>
    [yesNo true, char1 (policyNumber c.policy), char1 c.profile.val, char1 c.maintenance.val,
     char1 (glareNumber c.glare), yesNo c.rehunt, yesNo c.skipFarAlarm] ++
    chars2 c.guard.toNat ++ chars2 c.proceed.toNat ++ chars2 c.answer.toNat ++ chars2 c.offer.toNat ++
    chars2 c.releaseConfirm.toNat ++ chars2 c.farClear.toNat ++
    chars2 r.members.length ++ chars2 r.idle.length ++ optional2 (r.idle.head?.map (·.val)) ++
    chars2 (s.countMembers g fun x => x = .blocked) ++
    chars2 (s.countMembers g fun x => (causeNumber x).isSome) ++
    optional2 (r.cursor.map (·.val)) ++
    [yesNo r.drainPort.isSome, optional1 (r.drainPort.map (·.val)), yesNo r.drainReported]

/-- The kinds of the notices pending: DOWN, UP and DOWN_UP at bits 0, 1 and 2 (R119, R190). -/
def noticeKinds (s : State) (sp : SpanNo) : Nat :=
  let t := (s.span sp).notices
  (t.any (· = .down)).toNat + 2 * (t.any (· = .up)).toNat + 4 * (t.any (· = .downUp)).toNat

/-- How many channels of the span are equipped (R119). -/
def equippedCount (s : State) (sp : SpanNo) : Nat :=
  ((List.finRange 32).filter fun p => s.equipped (channelAt sp p)).length

/-- The span view: one character for an UNUSED span, else 24 (R119, R193). -/
def spanView (s : State) (sp : SpanNo) : List Byte :=
  let r := s.span sp
  match r.config with
  | none => [char1 (spanStateNumber .unused)]
  | some c =>
    [char1 (spanStateNumber r.state), char1 c.count, char1 c.depth, char1 c.nSet, char1 c.nClear] ++
    chars2 c.silence.toNat ++
    [char1 c.fill.toNat, char1 c.maintenance.val, char1 r.faultRun, char1 r.cleanRun, yesNo r.farAlarm,
     char1 r.farRun, optional1 (failureNumber r.state)] ++
    optional2 (r.lastSequence.map (·.toNat)) ++ timerChars r.silence ++
    [yesNo (s.alarmRequest sp), char1 (s.equippedCount sp),
     char1 (r.notices.indices (· ≠ .none)).length, char1 (s.noticeKinds sp),
     char1 ((s.linkSpan sp).dirty.indices id).length, (s.linkSpan sp).sequence]

/-- The controls, target port and count of a class: three characters (R193). -/
def classChars (r : FaultClassRecord) : List Byte :=
  [char1 (r.detect.toNat + 2 * r.report.toNat + 4 * (r.severity = .major : Bool).toNat), char1 r.target.val, r.count]

/-- The request code of an occurrence (R191), absent where it carries none. -/
def requestChar (r : Option RequestCode) : Byte := (r.map (·.number)).getD absent1

/-- The first-fault record: thirteen characters (R166, R193). While it is not valid its time is absent, and the
characters of an absent time are open (log 19). -/
def firstFaultChars (s : State) : List Byte :=
  match s.faults.first with
  | none =>
    [yesNo false, absent1, absent1] ++ optional2 none ++ [absent1, absent1, absent1, absent1] ++
    chars4 (Config.absentTime s.freeCount).toNat
  | some f =>
    let o := f.occurrence
    [yesNo true, char1 (classNo o.cls).val, optional1 (o.span.map (·.val))] ++ optional2 (o.channel.map (·.val)) ++
    [optional1 (o.port.map (·.val)), requestChar o.request, optional1 (o.state.map stateNumber),
     optional1 (o.state.bind causeNumber)] ++ chars4 f.time.toNat

/-- The later-majors set: bit k for the class at place k of R164 (R193). -/
def laterNumber (s : State) : Nat := ((s.faults.later.indices id).map fun k => 2 ^ k.val).sum

/-- The fault view: 52 characters (R170, R193). -/
def faultView (s : State) : List Byte :=
  s.faults.classes.cells.flatMap classChars ++ s.firstFaultChars ++ chars2 s.laterNumber ++ chars4 s.millis.toNat

end State

/-- The view indicator of a member (R193). -/
inductive Snapshot where
  | none
  | view (characters : List Byte)
  | recordFault
  deriving DecidableEq, Repr

/-- The member body: 6 to 49 characters (R193). -/
def memberChars (m : Member) (snapshot : Snapshot) : List Byte :=
  [char1 (objectKind m.object)] ++ chars2 (objectNumber m.object) ++ [char1 m.reasons.length] ++
  m.reasons.map (fun r => char1 (reasonNumber r)) ++
  match snapshot with
  | .none => [0]
  | .view v => 1 :: v
  | .recordFault => [2]

end Sys2Proof.Machine
end

