-- ==== Sys2Proof/Machine/Flags.lean ====
section
/-! DEFINITION. The output lines of the part, computed from the state they follow: ATTN0_N to ATTN3_N (R146) and
FAULT_N (R167). -/

namespace Sys2Proof.Machine.State

/-- ATTNk_N is asserted (Low) while port k's list holds a member and port k's attention enable is set (R146). -/
def attentionAsserted (s : State) (p : PortNo) : Bool := !(s.list p).isEmpty && (s.port p).attention

/-- FAULT_N is asserted (Low) while the first-fault record is valid (R167). -/
def faultAsserted (s : State) : Bool := s.faults.first.isSome

end Sys2Proof.Machine.State
end

