-- ==== Sys2Proof/Machine/Ports.lean ====
section
/-! DEFINITION. The Controller Port Interface: transfers, port states, responses, the overrun flag and the admission of
a request (R182 to R187), and the rows RESPONSE_READ, BAD_FRAME and OVERRUN. -/

namespace Sys2Proof.Machine

/-- What a request is answered with (R183, R192). -/
structure Answer where
  status : Status
  body : List Byte
  deriving DecidableEq, Repr

namespace State

/-- What the part drives on SDO during a transfer of so many characters (R182): the pending response in READY, 0x00 in
IDLE and WORKING. What follows the last character of the response is open (log 18). -/
def driveSdo (p : PortNo) (characters : Nat) (s : State) : State :=
  match (s.port p).state with
  | .idle | .working _ => s.modPort p fun r => { r with sdo := List.replicate characters 0x00#8 }
  | .ready response =>
    let frame := responseFrame response
    let beyond := (List.range (characters - frame.length)).map fun k => Config.sdoBeyond (s.freeCount + k)
    { s.modPort p fun r => { r with sdo := frame.take characters ++ beyond } with
      freeCount := s.freeCount + (characters - frame.length) }

/-- The response of a request goes to its port, which becomes READY; the overrun flag goes with it and becomes no
(R185, R186). The body is empty for every status other than OK (R183). -/
def respond (p : PortNo) (tag : Byte) (status : Status) (body : List Byte) (s : State) : State :=
  s.modPort p fun r =>
    { r with
      state := .ready ⟨tag, status, r.overrun, if status = .ok then body else []⟩
      overrun := false }

/-- The long request of a port completes or is aborted (R185). -/
def finishLong (p : PortNo) (status : Status) (s : State) : State :=
  match (s.port p).state with
  | .working long => s.respond p long.tag status []
  | .idle | .ready _ => s

/-- An accepted long request leaves its port WORKING (R185, R191). -/
def beginLong (p : PortNo) (tag : Byte) (code : RequestCode) (s : State) : State :=
  s.modPort p fun r => { r with state := .working ⟨tag, code⟩ }

/-- A request transfer at a port (R182, R185): nothing while RST_N is Low; dropped unread, with overrun, at a WORKING
port; taken at an IDLE or a READY one. -/
def requestArrives (p : PortNo) (characters : Nat) (taken : State → State) (s : State) : State :=
  if !s.rstN then s
  else
    match (s.port p).state with
    | .working _ => (s.driveSdo p characters).modPort p fun r => { r with overrun := true }
    | .idle | .ready _ => taken (s.driveSdo p characters)

/-- A frame that fails check 1 of R187: BAD_FRAME with tag 0, and one occurrence of PORT_FRAME with the port. -/
def answerBadFrame (p : PortNo) (s : State) : State :=
  (s.report ⟨.portFrame, none, none, some p, none, none⟩).respond p 0 .badFrame []

end State

/-- The permissions of R187. -/
def permitAny (_ : State) : Bool := true

def permitAdmin (p : PortNo) (s : State) : Bool := (s.port p).admin

/-- The maintenance port of a group that exists. -/
def maintenanceOf (s : State) (g : GroupNo) : Option PortNo := (s.group g).config.map (·.maintenance)

/-- The fields of a body that the permission check reads: those of a body of the catalogue's length. A shorter body
names nothing; whether a longer one does is open (log 16). -/
def namingFields (length : Nat) (body : List Byte) : List Byte :=
  if body.length = length then body
  else if length < body.length && Config.longBodyNames then body.take length
  else []

/-- The maintenance port of the group of an equipped channel that a body names (R187). -/
def channelMaintenance (body : List Byte) (s : State) : Option PortNo :=
  match namingFields 2 body with
  | [hi, lo] => do maintenanceOf s (← s.groupOf (← channelField hi lo))
  | _ => none

/-- The maintenance port of the group that a body names (R187). -/
def groupMaintenance (body : List Byte) (s : State) : Option PortNo :=
  match namingFields 1 body with
  | [g] => do maintenanceOf s (← groupField g)
  | _ => none

def permitChannelMaintenance (p : PortNo) (body : List Byte) (s : State) : Bool :=
  (s.port p).admin || channelMaintenance body s = some p

def permitGroupMaintenance (p : PortNo) (body : List Byte) (s : State) : Bool :=
  (s.port p).admin || groupMaintenance body s = some p

/-- A request at a port: the arrival (R185) and the admission, check by check in the order of R187. A body longer than
a frame can carry fails check 1 (log 26). `go` is the request's own rule with its response. -/
def serve (p : PortNo) (tag : Byte) (code : RequestCode) (body : List Byte) (permitted : State → Bool)
    (go : State → State) (s : State) : State :=
  s.requestArrives p (4 + body.length) fun t =>
    if maxBody < body.length then t.answerBadFrame p
    else if !(t.port p).enabled then t.respond p tag .denied []
    else if t.restart.isSome then t.respond p tag .restarting []
    else if !permitted t then t.respond p tag .denied []
    else if body.length ≠ bodyLength code then t.respond p tag .badRequest []
    else go t

/-- A request that completes in the event of its arrival: the answer goes to the port (R185). -/
def answering (p : PortNo) (tag : Byte) (rule : State → State × Answer) (t : State) : State :=
  (rule t).1.respond p tag (rule t).2.status (rule t).2.body

/-- A refusal: nothing changed (R192). -/
def refuse (status : Status) (s : State) : State × Answer := (s, ⟨status, []⟩)

/-- OK with no body. -/
def accepted (s : State) : State × Answer := (s, ⟨.ok, []⟩)

/-- The rest of a request whose call-part check comes here: RECORD_FAULT if the record is lost (R159). -/
def checkedRule (n : ChannelNo) (found : PortNo × RequestCode) (rule : State → State × Answer) (s : State) :
    State × Answer :=
  match s.checkCall n (some found) with
  | (t, true) => rule t
  | (t, false) => (t, ⟨.recordFault, []⟩)

/-! ## The rows of the port -/

/-- RESPONSE_READ (R182, R185): a complete read in READY consumes the response; a partial read, and a read in IDLE or
WORKING, changes no port state. A transfer of no whole character is no event. -/
def readTransfer (p : PortNo) (characters : Nat) (s : State) : State :=
  if !s.rstN || characters = 0 then s
  else
    match (s.port p).state with
    | .idle | .working _ => s.driveSdo p characters
    | .ready response =>
      let t := s.driveSdo p characters
      if (responseFrame response).length ≤ characters then t.modPort p fun r => { r with state := .idle } else t

def execResponseRead (p : PortNo) (characters : Nat) (s : State) : Host.Outcome State Fault Refusal :=
  .next (readTransfer p characters s)

/-- BAD_FRAME (R187 check 1). Characters that are no request transfer, or a frame that passes, are no such event
(log 3). -/
def badFrameTransfer (p : PortNo) (frame : List Byte) (s : State) : State :=
  if isRequestTransfer frame && (parseRequest frame).isNone then
    s.requestArrives p frame.length (·.answerBadFrame p)
  else s

def execBadFrame (p : PortNo) (frame : List Byte) (s : State) : Host.Outcome State Fault Refusal :=
  .next (badFrameTransfer p frame s)

/-- OVERRUN (R185, R186): a request transfer at a WORKING port is dropped unread. At another port there is no overrun
(log 3). -/
def overrunTransfer (p : PortNo) (frame : List Byte) (s : State) : State :=
  match (s.port p).state with
  | .working _ => if isRequestTransfer frame then s.requestArrives p frame.length id else s
  | .idle | .ready _ => s

def execOverrun (p : PortNo) (frame : List Byte) (s : State) : Host.Outcome State Fault Refusal :=
  .next (overrunTransfer p frame s)

end Sys2Proof.Machine
end

