-- ==== Sys2Proof/Machine/Calls.lean ====
section
/-! DEFINITION. Call handling: HUNT, SEIZE, ACCEPT, ANSWER, RELEASE and the group's REHUNT (R45, R46, R48, R55, R56,
R66, R67, R71, R76, R79, R80). -/

namespace Sys2Proof.Machine

/-! ## HUNT (R45, R46) -/

/-- The chosen member is seized for the owner, and under ROTATE the cursor moves to it (R44, R46). That it is seized whatever
state a check of three or more bits in error brings into force is the model's choice (log 34). -/
def State.seizeChosen (g : GroupNo) (n : ChannelNo) (r : Reference) (owner : PortNo) (from? : Option ChannelNo)
    (s : State) : State :=
  (s.enterOutSeized n r owner from?).moveCursor g n

/-- The checks of R45 in their order, then the hunt of R46. -/
def huntGroup (p : PortNo) (g : GroupNo) (r : Reference) (s : State) : State × Answer :=
  if (s.group g).config.isNone then refuse .badRequest s
  else if (s.group g).drainPort.isSome then refuse .groupDraining s
  else if r = 0 then refuse .badRequest s
  else
    match s.referenceRefusal r, s.chosen g with
    | some status, _ => refuse status s
    | none, none => refuse .noChannel s
    | none, some n =>
      checkedRule n (p, .hunt) (fun t => (t.seizeChosen g n r p none, ⟨.ok, chars2 n.val⟩)) s

def huntRule (p : PortNo) (body : List Byte) (s : State) : State × Answer :=
  match body with
  | [g, r2, r1, r0] =>
    match groupField g with
    | some g => huntGroup p g (reference3 r2 r1 r0) s
    | none => refuse .badRequest s
  | _ => refuse .badRequest s

def execHunt (p : PortNo) (tag : Byte) (body : List Byte) (s : State) : Host.Outcome State Fault Refusal :=
  .next (event (serve p tag .hunt body permitAny (answering p tag (huntRule p body))) s)

/-! ## SEIZE (R55, R56) -/

/-- Checks 2 to 9 of R55 in their order, then R56. -/
def seizeChannel (p : PortNo) (n : ChannelNo) (r : Reference) (s : State) : State × Answer :=
  match s.groupOf n with
  | none => refuse .notEquipped s
  | some g =>
    if r = 0 then refuse .badRequest s
    else if (s.group g).drainPort.isSome then refuse .groupDraining s
    else
      match s.referenceRefusal r with
      | some status => refuse status s
      | none =>
        if (s.span (spanOf n)).state ≠ .inService then refuse .spanDown s
        else
          checkedRule n (p, .seize) (fun t =>
            if (t.call n).state = .idle ∧ (t.equipment n).direction ≠ .incomingOnly then
              accepted (t.enterOutSeized n r p none)
            else refuse .wrongState t) s

def seizeRule (p : PortNo) (body : List Byte) (s : State) : State × Answer :=
  match body with
  | [hi, lo, r2, r1, r0] =>
    match channelField hi lo with
    | some n => seizeChannel p n (reference3 r2 r1 r0) s
    | none => refuse .badRequest s
  | _ => refuse .badRequest s

def execSeize (p : PortNo) (tag : Byte) (body : List Byte) (s : State) : Host.Outcome State Fault Refusal :=
  .next (event (serve p tag .seize body permitAny (answering p tag (seizeRule p body))) s)

/-! ## ACCEPT (R66, R67) -/

/-- Entry to IN_ALERTING with the reference bound to the accepting port (R67). -/
def State.acceptOffer (p : PortNo) (n : ChannelNo) (r : Reference) (s : State) : State :=
  (s.writeCall n { s.call n with state := .inAlerting, reference := some r, timer := none }).bind ⟨r, n, p⟩

/-- Checks 2 to 7 of R66 in their order, then R67. -/
def acceptChannel (p : PortNo) (n : ChannelNo) (r : Reference) (s : State) : State × Answer :=
  if !s.equipped n then refuse .notEquipped s
  else
    checkedRule n (p, .accept) (fun t =>
      if (t.call n).state ≠ .inSeized then refuse .wrongState t
      else if r = 0 then refuse .badRequest t
      else
        match t.referenceRefusal r with
        | some status => refuse status t
        | none => accepted (t.acceptOffer p n r)) s

def acceptRule (p : PortNo) (body : List Byte) (s : State) : State × Answer :=
  match body with
  | [hi, lo, r2, r1, r0] =>
    match channelField hi lo with
    | some n => acceptChannel p n (reference3 r2 r1 r0) s
    | none => refuse .badRequest s
  | _ => refuse .badRequest s

def execAccept (p : PortNo) (tag : Byte) (body : List Byte) (s : State) : Host.Outcome State Fault Refusal :=
  .next (event (serve p tag .accept body permitAny (answering p tag (acceptRule p body))) s)

/-! ## Targets (R128, R190) -/

/-- The lookup of a reference (R128). -/
def lookup (s : State) (r : Reference) : Except Status ChannelNo :=
  if r = 0 then .error .badRequest
  else
    match s.entryOf r with
    | none => .error .refUnknown
    | some e => if s.purgePending e.channel then .error .recordFault else .ok e.channel

/-- Check 1 of R71 and of R79: the channel that a target names. -/
def resolveTarget (s : State) : Target → Except Status ChannelNo
  | .channel n => if s.equipped n then .ok n else .error .notEquipped
  | .reference r => lookup s r

/-- The target of a request body of four characters, and a request's rule at the channel it names. -/
def atTarget (resolve : State → Target → Except Status ChannelNo) (rule : ChannelNo → State → State × Answer)
    (body : List Byte) (s : State) : State × Answer :=
  match body with
  | [kind, a, b, c] =>
    match targetField kind a b c with
    | none => refuse .badRequest s
    | some target =>
      match resolve s target with
      | .error status => refuse status s
      | .ok n => rule n s
  | _ => refuse .badRequest s

/-! ## ANSWER (R71) -/

/-- Checks 2 to 4 of R71, then entry to CONNECTED. -/
def answerChannel (p : PortNo) (n : ChannelNo) (s : State) : State × Answer :=
  checkedRule n (p, .answer) (fun t =>
    if t.ownerOf n ≠ some p then refuse .notOwner t
    else if (t.call n).state ≠ .inAlerting then refuse .wrongState t
    else accepted (t.enterConnected n)) s

def execAnswer (p : PortNo) (tag : Byte) (body : List Byte) (s : State) : Host.Outcome State Fault Refusal :=
  .next (event (serve p tag .answer body permitAny
    (answering p tag (atTarget resolveTarget (answerChannel p) body))) s)

/-! ## RELEASE (R79, R80) -/

/-- R80, by the channel's state. A channel in any other state holds no reference (R7), so it has no owner and is not
reached here, but after three or more bits in error (log 34). -/
def State.releaseCall (n : ChannelNo) (s : State) : State :=
  match (s.call n).state with
  | .outSeized | .outWaitAnswer | .inAlerting | .connected => s.enterClearingLocal n
  | .clearingRemote => s.enterGuard n (s.call n).flags
  | .clearingLocal => s
  | .unequipped | .idle | .guard | .inSeized | .blocked | .fault _ => s

/-- Checks 2 and 3 of R79, then R80. -/
def releaseChannel (p : PortNo) (n : ChannelNo) (s : State) : State × Answer :=
  checkedRule n (p, .release) (fun t =>
    if t.ownerOf n ≠ some p then refuse .notOwner t else accepted (t.releaseCall n)) s

def execRelease (p : PortNo) (tag : Byte) (body : List Byte) (s : State) : Host.Outcome State Fault Refusal :=
  .next (event (serve p tag .release body permitAny
    (answering p tag (atTarget resolveTarget (releaseChannel p) body))) s)

/-! ## REHUNT (R48, R76) -/

/-- A rehunt's hunt: checks 1, 2, 4, 5 and 6 of R45, the choice and the seizure of R46; GLARE_LOST to the carried owner
on the channel that lost the glare where it fails (R48, R76). Check 1 fails when the group has been deleted since the
glare, also where it has been created again (R48; log 30). -/
def State.rehuntCall (g : GroupNo) (r : Rehunt) (s : State) : State :=
  let lost (t : State) : State := t.tell r.owner r.loser .glareLost
  if r.orphaned || (s.group g).config.isNone || (s.group g).drainPort.isSome then lost s
  else
    match s.referenceRefusal r.reference, s.chosen g with
    | some _, _ => lost s
    | none, none => lost s
    | none, some n =>
      match s.checkCall n none with
      | (t, false) => lost t
      | (t, true) =>
        (t.seizeChosen g n r.reference (t.redirect r.owner) (some r.loser)).tell (t.redirect r.owner) n .rehunted

/-- The carried owner port of a rehunt may still own a call: it is enabled, or the source of a transfer in flight
(R76). -/
def State.mayOwn (s : State) (p : PortNo) : Bool :=
  (s.port p).enabled ||
    match s.transfer with
    | some t => t.source = p
    | none => false

/-- The group takes the first of its pending rehunts (R48, R76). -/
def takeRehunt (g : GroupNo) (s : State) : State :=
  match (s.group g).rehunts with
  | [] => s
  | r :: rest =>
    let t := s.modGroup g fun x => { x with rehunts := rest }
    if r.discarded then t
    else if t.mayOwn r.owner then t.rehuntCall g r
    else t.tell r.owner r.loser .glareLost

def execRehunt (g : GroupNo) (s : State) : Host.Outcome State Fault Refusal := .next (event (takeRehunt g) s)

end Sys2Proof.Machine
end

