-- ==== Sys2Proof/Machine/Line.lean ====
section
/-! DEFINITION. The line side: SPAN_REPORT, POSITION_INTEGRATION, SILENCE_EXPIRY, REFRESH_EXPIRY and END_OF_SENDING (R21
to R27, R105 to R118, R174 to R180). -/

namespace Sys2Proof.Machine

namespace State

/-! ## Integration of one position (R22, R23, R27) -/

/-- Whether a recomputed received condition raises a condition change event (R27). -/
def raisesChange (before : Option Received) (after : Received) : Bool :=
  match before with
  | none => after != .is .free
  | some c => c != after

/-- Adoption of a code (R23): the line part is written first, and at an equipped channel a condition change reaches the
call part, which is checked first (R27, R28). -/
def adopt (n : ChannelNo) (x : LineCode) (s : State) : State :=
  let l := s.line n
  if s.equipped n then
    let after := s.meaning n x
    let t := s.setLine n ⟨some x, none, 0, some after⟩
    if raisesChange l.received after then t.checked n none (fun u => u.conditionChange n after) else t
  else s.setLine n ⟨some x, none, 0, l.received⟩

/-- One position takes a code, at the span's present depth (R22). -/
def takeCode (n : ChannelNo) (x : LineCode) (depth : Nat) (s : State) : State :=
  let l := s.line n
  if l.stable = some x then s.setLine n { l with candidate := none, count := 0 }
  else if l.candidate = some x then
    if l.count + 1 = depth then s.adopt n x else s.setLine n { l with count := l.count + 1 }
  else if depth = 1 then s.adopt n x
  else s.setLine n { l with candidate := some x, count := 1 }

/-- The position takes the code handed to it, if one waits (R21, R176). -/
def integrate (n : ChannelNo) (s : State) : State :=
  match (s.span (spanOf n)).handed.get (positionOf n), (s.span (spanOf n)).config with
  | some x, some c =>
    (s.modSpan (spanOf n) fun r => { r with handed := r.handed.set (positionOf n) none }).takeCode n x c.depth
  | _, _ => s

/-- A span takes no later event of its own until every position has taken the code last handed to it (R176): the
positions that still wait take theirs, in an order the manual leaves open (log 7). -/
def takeHanded (sp : SpanNo) (s : State) : State :=
  let waiting := (s.span sp).handed.indices (·.isSome)
  takeInFreeOrder (fun p => event (integrate (channelAt sp p))) waiting.length waiting s

/-! ## Notices (R112) -/

end State

/-- The pending notice after a span-down is generated (R112). -/
def downNotice : Notice → Notice
  | .none | .down | .up | .downUp => .down

/-- The pending notice after a span-up is generated (R112). UP and DOWN_UP cannot be pending there, and stay. -/
def upNotice : Notice → Notice
  | .none => .up
  | .down => .downUp
  | .up => .up
  | .downUp => .downUp

namespace State

/-- Notices are written for every position whose channel is equipped (R112). -/
def generate (sp : SpanNo) (change : Notice → Notice) (s : State) : State :=
  s.modSpan sp fun r =>
    { r with notices := r.notices.mapIdx fun p x => if s.equipped (channelAt sp p) then change x else x }

/-! ## The span state machine (R106, R109, R110) -/

/-- Entry to FAILED from IN_SERVICE or SUSPECT (R109). -/
def failFromService (sp : SpanNo) (cause : FailureCause) (s : State) : State :=
  (((s.modSpan sp fun r => { r with state := .failed cause, faultRun := 0, cleanRun := 0 }).generate sp
    downNotice).tellSpan sp .spanFailed).reportSpan
    (match cause with
     | .faulty => .spanFailed
     | .silent => .spanSilent) sp

/-- Entry to FAILED from RECOVERING: no notice, no reason, no occurrence (R109). -/
def failAgain (sp : SpanNo) (cause : FailureCause) (s : State) : State :=
  s.modSpan sp fun r => { r with state := .failed cause, faultRun := 0, cleanRun := 0 }

/-- Entry to IN_SERVICE (R110): span-up and SPAN_RESTORED from every state but SUSPECT, candidates cleared from every
state but STARTING. -/
def enterService (sp : SpanNo) (s : State) : State :=
  let served := s.modSpan sp fun r => { r with state := .inService, faultRun := 0, cleanRun := 0 }
  match (s.span sp).state with
  | .suspect => served.clearCandidates sp
  | .starting => (served.generate sp upNotice).tellSpan sp .spanRestored
  | .failed _ | .recovering _ | .inService | .unused =>
    ((served.clearCandidates sp).generate sp upNotice).tellSpan sp .spanRestored

/-- The state machine takes a report as faulty or clean (R106, R107). -/
def evaluate (sp : SpanNo) (c : SpanConfig) (faulty : Bool) (s : State) : State :=
  let r := s.span sp
  match r.state, faulty with
  | .unused, _ => s
  | .starting, true => s.modSpan sp fun r => { r with cleanRun := 0 }
  | .starting, false =>
    if c.nClear ≤ r.cleanRun + 1 then s.enterService sp
    else s.modSpan sp fun r => { r with cleanRun := r.cleanRun + 1 }
  | .inService, true =>
    if c.nSet = 1 then s.failFromService sp .faulty
    else s.modSpan sp fun r => { r with state := .suspect, faultRun := 1 }
  | .inService, false => s
  | .suspect, true =>
    if c.nSet ≤ r.faultRun + 1 then s.failFromService sp .faulty
    else s.modSpan sp fun r => { r with faultRun := r.faultRun + 1 }
  | .suspect, false => s.enterService sp
  | .failed _, true => s
  | .failed cause, false =>
    if c.nClear = 1 then s.enterService sp
    else s.modSpan sp fun r => { r with state := .recovering cause, faultRun := 0, cleanRun := 1 }
  | .recovering _, true => s.failAgain sp .faulty
  | .recovering _, false =>
    if c.nClear ≤ r.cleanRun + 1 then s.enterService sp
    else s.modSpan sp fun r => { r with cleanRun := r.cleanRun + 1 }

/-- Far-alarm tracking (R116). -/
def trackFarAlarm (sp : SpanNo) (c : SpanConfig) (carried : Bool) (s : State) : State :=
  let r := s.span sp
  match r.farAlarm, carried with
  | false, true =>
    if c.nSet ≤ r.farRun + 1 then
      (s.modSpan sp fun r => { r with farAlarm := true, farRun := 0 }).tellSpan sp .farAlarmOn
    else s.modSpan sp fun r => { r with farRun := r.farRun + 1 }
  | true, false =>
    if c.nClear ≤ r.farRun + 1 then
      (s.modSpan sp fun r => { r with farAlarm := false, farRun := 0 }).tellSpan sp .farAlarmOff
    else s.modSpan sp fun r => { r with farRun := r.farRun + 1 }
  | false, false | true, true => s.modSpan sp fun r => { r with farRun := 0 }

/-- The codes are handed to positions 0..c−1 if the span is now STARTING or IN_SERVICE (R21, R105 step 5). -/
def handCodes (sp : SpanNo) (codes : List LineCode) (s : State) : State :=
  match (s.span sp).state with
  | .starting | .inService => s.modSpan sp fun r => { r with handed := .tabulate fun p => codes[p.val]? }
  | .unused | .suspect | .failed _ | .recovering _ => s

/-! ## SPAN_REPORT (R174, R175, R105) -/

/-- Whether an accepted report has a gap (R175). -/
def hasGap (s : State) (sp : SpanNo) (sequence : Byte) : Bool :=
  match (s.span sp).lastSequence with
  | none => false
  | some l => sequence ≠ l + 1

/-- An accepted report at its span (R175, R105). -/
def acceptReport (sp : SpanNo) (c : SpanConfig) (sequence : Byte) (flags : ReportFlags) (codes : List LineCode)
    (s : State) : State :=
  let gap := s.hasGap sp sequence
  let t := if gap then s.reportSpan .lineGap sp else s
  let t := t.modSpan sp fun r => { r with lastSequence := some sequence, silence := load c.silence }
  let t := if gap then t.clearCandidates sp else t
  ((t.evaluate sp c flags.faulty).trackFarAlarm sp c flags.farAlarm).handCodes sp codes

/-- The checks of R174 in their order, for a message whose CRC has passed. -/
def checkedMessage (m : List Byte) (s : State) : State :=
  match m with
  | kind :: span :: sequence :: flags :: count :: rest =>
    if kind ≠ spanReportKind then s.report ⟨.lineFormat, numbered 16 span.toNat, none, none, none, none⟩
    else
      match numbered 16 span.toNat with
      | none => s.report ⟨.lineFormat, none, none, none, none, none⟩
      | some sp =>
        match (s.span sp).config with
        | none => s.reportSpan .lineFormat sp
        | some c =>
          if count.toNat ≠ c.count ∨ m.length ≠ 7 + count.toNat then s.reportSpan .lineFormat sp
          else
            (s.takeHanded sp).acceptReport sp c sequence (reportFlags flags)
              ((rest.take count.toNat).map codeOfChar)
  | _ => s

/-- A message arrives (R172, R174): nothing while RST_N is Low, and no trace while a restart is in flight. -/
def messageArrives (m : List Byte) (s : State) : State :=
  if !s.rstN || s.restart.isSome then s
  else if !lineCrcPasses m then s.report ⟨.lineCheck, none, none, none, none, none⟩
  else s.checkedMessage m

end State

def execSpanReport (m : List Byte) (s : State) : Host.Outcome State Fault Refusal :=
  .next (event (State.messageArrives m) s)

/-- POSITION_INTEGRATION (R22). -/
def execPositionIntegration (n : ChannelNo) (s : State) : Host.Outcome State Fault Refusal :=
  .next (event (State.integrate n) s)

/-! ## SILENCE_EXPIRY (R108) -/

/-- The silence expiry of a span, by its state (R108). -/
def State.silenceEffect (sp : SpanNo) (s : State) : State :=
  let t := s.modSpan sp fun r => { r with lastSequence := none, farRun := 0, silence := none }
  match (s.span sp).state with
  | .inService | .suspect => t.failFromService sp .silent
  | .recovering _ => t.failAgain sp .silent
  | .failed _ | .unused => t
  | .starting => t.modSpan sp fun r => { r with cleanRun := 0 }

/-- A silence timer that has reached 0 expires, after the codes handed to the span's positions are taken (R176). -/
def expireSilence (sp : SpanNo) (s : State) : State :=
  if (s.span sp).silence = some 0 then (s.takeHanded sp).silenceEffect sp else s

def execSilenceExpiry (sp : SpanNo) (s : State) : Host.Outcome State Fault Refusal :=
  .next (event (expireSilence sp) s)

/-! ## REFRESH_EXPIRY (R180) -/

/-- Every position of every configured span becomes dirty, and the timer is loaded again (R180). -/
def expireRefresh (s : State) : State :=
  if s.link.refreshTimer = some 0 then
    let t := { s with link := { s.link with refreshTimer := load s.link.refreshInterval } }
    (List.finRange 16).foldl (fun u sp => if (u.span sp).config.isSome then u.allDirty sp else u) t
  else s

def execRefreshExpiry (s : State) : Host.Outcome State Fault Refusal := .next (event expireRefresh s)

/-! ## END_OF_SENDING (R178, R181) -/

/-- The transmitter ends sending and builds the next update, or becomes IDLE (R178); during a restart it becomes IDLE
(R181). -/
def endSending (s : State) : State :=
  match s.link.transmitter with
  | none => s
  | some _ => State.buildIfIdle { s with link := { s.link with transmitter := none } }

def execEndOfSending (s : State) : Host.Outcome State Fault Refusal := .next (endSending s)

end Sys2Proof.Machine
end

