-- ==== Sys2Proof/Machine/Maintenance.lean ====
section
/-! DEFINITION. Maintenance of channels and groups: BLOCK, UNBLOCK, RESET_CHANNEL, DRAIN and UNDRAIN (R49, R50, R52,
R92, R93, R98, R99). -/

namespace Sys2Proof.Machine

/-- A request that names a channel in two characters, with the checks of range and equipment that come first (R92, R93,
R98). -/
def atChannel (rule : ChannelNo → State → State × Answer) (body : List Byte) (s : State) : State × Answer :=
  match body with
  | [hi, lo] =>
    match channelField hi lo with
    | none => refuse .badRequest s
    | some n => if s.equipped n then rule n s else refuse .notEquipped s
  | _ => refuse .badRequest s

/-! ## BLOCK (R92) -/

/-- The effect of an accepted BLOCK by state, and whether the block is deferred (R92). -/
def State.blockLocally (n : ChannelNo) (s : State) : State × Bool :=
  let flags := { (s.call n).flags with locally := true }
  match (s.call n).state with
  | .idle => ((s.enterBlocked n flags).drainCheckOf n, false)
  | .guard => (s.blockByCondition n flags, false)
  | .blocked => (s.writeFlags n flags, false)
  | .unequipped | .outSeized | .outWaitAnswer | .inSeized | .inAlerting | .connected | .clearingLocal
  | .clearingRemote | .fault _ => (s.writeFlags n flags, true)

/-- Checks 3 and 4 of R92, then its effect. -/
def blockChannel (p : PortNo) (n : ChannelNo) (s : State) : State × Answer :=
  checkedRule n (p, .block) (fun t =>
    if (t.call n).flags.locally then refuse .wrongState t
    else ((t.blockLocally n).1, ⟨.ok, [yesNo (t.blockLocally n).2]⟩)) s

def execBlock (p : PortNo) (tag : Byte) (body : List Byte) (s : State) : Host.Outcome State Fault Refusal :=
  .next (event (serve p tag .block body (permitChannelMaintenance p body)
    (answering p tag (atChannel (blockChannel p) body))) s)

/-! ## UNBLOCK (R93) -/

/-- A flag is removed: a BLOCKED channel with no flag left settles (R52, R93). -/
def State.liftFlag (n : ChannelNo) (flags : BlockFlags) (s : State) : State :=
  if (s.call n).state = .blocked ∧ flags = noFlags then (s.writeFlags n flags).settle n else s.writeFlags n flags

/-- Checks 3 and 4 of R93, then its effect. -/
def unblockChannel (p : PortNo) (n : ChannelNo) (s : State) : State × Answer :=
  checkedRule n (p, .unblock) (fun t =>
    if (t.call n).flags.locally then accepted (t.liftFlag n { (t.call n).flags with locally := false })
    else refuse .wrongState t) s

def execUnblock (p : PortNo) (tag : Byte) (body : List Byte) (s : State) : Host.Outcome State Fault Refusal :=
  .next (event (serve p tag .unblock body (permitChannelMaintenance p body)
    (answering p tag (atChannel (unblockChannel p) body))) s)

/-! ## RESET_CHANNEL (R98, R99, R50) -/

/-- The channel's group is draining. -/
def State.groupDrains (s : State) (n : ChannelNo) : Bool :=
  match s.groupOf n with
  | some g => (s.group g).drainPort.isSome
  | none => false

/-- The effect of an accepted RESET_CHANNEL by the state found (R99): RESET goes to the former owner, or to the
maintenance port of a call or an offer without a reference. The position joins the dirty set where the code changed
(R31, R88): not from BLOCKED with REMOTE alone, which sends FREE already (R5), though R99 counts BLOCKED among the states
whose code changes; that reading is the model's (log 31). -/
def State.resetCall (n : ChannelNo) (s : State) : State :=
  match (s.call n).state with
  | .outSeized | .outWaitAnswer | .inAlerting | .connected | .clearingRemote | .clearingLocal | .inSeized =>
    (s.enterGuard n (s.call n).flags).tell (s.callPort n) n .reset
  | .fault .record => s.enterGuard n { noFlags with drain := s.groupDrains n }
  | .idle | .guard | .blocked | .fault .span | .fault .release | .unequipped => s.enterGuard n (s.call n).flags

/-- Checks 3 to 5 of R98, then R99. -/
def resetChannelRule (p : PortNo) (n : ChannelNo) (s : State) : State × Answer :=
  checkedRule n (p, .resetChannel) (fun t =>
    if (t.call n).state = .fault .span then refuse .wrongState t
    else if (t.call n).state = .fault .record ∧ t.purgePending n then refuse .wrongState t
    else accepted (t.resetCall n)) s

def execResetChannel (p : PortNo) (tag : Byte) (body : List Byte) (s : State) : Host.Outcome State Fault Refusal :=
  .next (event (serve p tag .resetChannel body (permitAdmin p)
    (answering p tag (atChannel (resetChannelRule p) body))) s)

/-! ## DRAIN (R49) -/

/-- DRAIN reaching a member (R49). -/
def State.drainMember (found : PortNo × RequestCode) (s : State) (n : ChannelNo) : State :=
  s.checked n (some found) fun t =>
    if (t.call n).state = .idle then t.enterBlocked n { noFlags with drain := true }
    else t.writeFlags n { (t.call n).flags with drain := true }

/-- An accepted DRAIN: every member in member-list order, then the completion check once (R49). -/
def State.startDrain (p : PortNo) (g : GroupNo) (s : State) : State :=
  let t := s.modGroup g fun r => { r with drainPort := some p, drainReported := false }
  ((s.group g).members.foldl (State.drainMember (p, .drain)) t).drainCheck g

def drainRule (p : PortNo) (body : List Byte) (s : State) : State × Answer :=
  match body with
  | [g] =>
    match groupField g with
    | none => refuse .badRequest s
    | some g =>
      if (s.group g).config.isNone then refuse .badRequest s
      else if (s.group g).drainPort.isSome then refuse .wrongState s
      else accepted (s.startDrain p g)
  | _ => refuse .badRequest s

def execDrain (p : PortNo) (tag : Byte) (body : List Byte) (s : State) : Host.Outcome State Fault Refusal :=
  .next (event (serve p tag .drain body (permitGroupMaintenance p body) (answering p tag (drainRule p body))) s)

/-! ## UNDRAIN (R52) -/

/-- UNDRAIN reaching a member (R52). -/
def State.undrainMember (found : PortNo × RequestCode) (s : State) (n : ChannelNo) : State :=
  s.checked n (some found) fun t => t.liftFlag n { (t.call n).flags with drain := false }

/-- An accepted UNDRAIN: the drain ends, and every member is reached in member-list order (R52). -/
def State.endDrain (p : PortNo) (g : GroupNo) (s : State) : State :=
  let t := s.modGroup g fun r => { r with drainPort := none, drainReported := false }
  (s.group g).members.foldl (State.undrainMember (p, .undrain)) t

def undrainRule (p : PortNo) (body : List Byte) (s : State) : State × Answer :=
  match body with
  | [g] =>
    match groupField g with
    | none => refuse .badRequest s
    | some g =>
      if (s.group g).config.isNone then refuse .badRequest s
      else if (s.group g).drainPort.isNone then refuse .wrongState s
      else accepted (s.endDrain p g)
  | _ => refuse .badRequest s

def execUndrain (p : PortNo) (tag : Byte) (body : List Byte) (s : State) : Host.Outcome State Fault Refusal :=
  .next (event (serve p tag .undrain body (permitGroupMaintenance p body) (answering p tag (undrainRule p body))) s)

end Sys2Proof.Machine
end

