-- ==== Sys2Proof/Machine/Configure.lean ====
section
/-! DEFINITION. Configuration: SET_SPAN, CLEAR_SPAN, EQUIP, UNEQUIP, SET_GROUP, DELETE_GROUP, LOAD_PROFILE,
SET_FAULT_CLASS, CLEAR_FAULTS, SET_PORT and SET_DEVICE (R13, R14, R19, R36 to R40, R102 to R104, R163, R168, R169, R180,
R188, R189). -/

namespace Sys2Proof.Machine

/-! ## SET_SPAN (R102, R103, R33) -/

/-- A number of one character within a range. -/
def rangeField (lowest highest : Nat) (b : Byte) : Option Nat :=
  if lowest ≤ b.toNat ∧ b.toNat ≤ highest then some b.toNat else none

/-- The silence time: 1..1000 ms (R101). -/
def silenceField (hi lo : Byte) : Option Millis :=
  if 1 ≤ (hi ++ lo).toNat ∧ (hi ++ lo).toNat ≤ 1000 then some (hi ++ lo) else none

/-- The fields of SET_SPAN, each within the range of R101. -/
def spanFields (body : List Byte) : Option (SpanNo × SpanConfig) :=
  match body with
  | [sp, c, d, nSet, nClear, hi, lo, fill, p] => do
    some (← spanField sp,
      { count := ← rangeField 1 32 c, depth := ← rangeField 1 7 d, nSet := ← rangeField 1 255 nSet,
        nClear := ← rangeField 1 255 nClear, silence := ← silenceField hi lo, fill := ← codeField fill,
        maintenance := ← portField p })
  | _ => none

namespace State

/-- An UNUSED span is configured into STARTING (R102; the link's values by R177). -/
def configureSpan (sp : SpanNo) (c : SpanConfig) (s : State) : State :=
  ((s.modSpan sp fun _ =>
      { powerOnSpan with config := some c, state := .starting, silence := load c.silence }).modLinkSpan sp fun _ =>
      powerOnLinkSpan).allDirty sp

/-- The dirty set after a SET_SPAN on a configured span (R33). -/
def dirtyAfter (s : State) (sp : SpanNo) (old new : SpanConfig) (p : Position) (dirty : Bool) : Bool :=
  decide (p.val < new.count) &&
    (dirty || decide (old.count ≤ p.val) || (old.fill != new.fill && !s.equipped (channelAt sp p)))

/-- A configured span takes a new configuration (R103). -/
def replaceSpan (sp : SpanNo) (old new : SpanConfig) (s : State) : State :=
  let t := (s.modSpan sp fun r => { r with config := some new }).modLinkSpan sp fun l =>
    { l with dirty := l.dirty.mapIdx (s.dirtyAfter sp old new) }
  let t := if new.count < old.count then t.emptyLines sp new.count else t
  if new.depth < old.depth then t.clearCandidates sp else t

end State

def setSpanRule (body : List Byte) (s : State) : State × Answer :=
  match spanFields body with
  | none => refuse .badRequest s
  | some (sp, fields) =>
    let new := { fields with maintenance := s.redirect fields.maintenance }
    match (s.span sp).config with
    | none => accepted (s.configureSpan sp new)
    | some old =>
      if new.count ≠ old.count ∧ s.anyEquipped sp then refuse .inUse s
      else accepted ((s.takeHanded sp).replaceSpan sp old new)

def execSetSpan (p : PortNo) (tag : Byte) (body : List Byte) (s : State) : Host.Outcome State Fault Refusal :=
  .next (event (serve p tag .setSpan body (permitAdmin p) (answering p tag (setSpanRule body))) s)

/-! ## CLEAR_SPAN (R104) -/

/-- The span returns to UNUSED (R104, R26, R32, R177). -/
def State.clearSpan (sp : SpanNo) (s : State) : State :=
  ((s.modSpan sp fun _ => powerOnSpan).modLinkSpan sp fun _ => powerOnLinkSpan).emptyLines sp 0

def clearSpanRule (body : List Byte) (s : State) : State × Answer :=
  match body with
  | [b] =>
    match spanField b with
    | none => refuse .badRequest s
    | some sp =>
      if (s.span sp).config.isNone then refuse .badRequest s
      else if s.anyEquipped sp then refuse .inUse s
      else accepted ((s.takeHanded sp).clearSpan sp)
  | _ => refuse .badRequest s

def execClearSpan (p : PortNo) (tag : Byte) (body : List Byte) (s : State) : Host.Outcome State Fault Refusal :=
  .next (event (serve p tag .clearSpan body (permitAdmin p) (answering p tag (clearSpanRule body))) s)

/-! ## EQUIP (R13) -/

/-- The call part of a channel just equipped (R13 steps 4 to 6). -/
def equippedCall (inService draining : Bool) (guard : Millis) : CallPart where
  state := if inService then .guard else .fault .span
  role := .none
  reference := none
  transmitted := if inService then .is .free else .is .block
  timer := if inService then load guard else none
  flags := { noFlags with drain := draining }
  rehuntUsed := false
  rehuntedFrom := none

namespace State

/-- The effects of an accepted EQUIP (R13 steps 1 to 7). -/
def equipChannel (n : ChannelNo) (g : GroupNo) (rank : Byte) (d : Direction) (s : State) : State :=
  let t := s.modChannel n fun r => { r with equipment := ⟨some g, rank, d⟩ }
  let t := t.modGroup g fun r => { r with members := t.insertMember n r.members }
  let t := t.setLine n { t.line n with received := t.derivedCondition n }
  let t := t.setCall n (equippedCall ((t.span (spanOf n)).state = .inService) (t.group g).drainPort.isSome
    (t.config n).guard)
  t.markIfChanged n (s.presentCode n)

end State

/-- The call-part check and the UNEQUIPPED check of R13, then its effects; the response reports the new state. -/
def equipRule (p : PortNo) (n : ChannelNo) (g : GroupNo) (rank : Byte) (d : Direction) (s : State) : State × Answer :=
  checkedRule n (p, .equip) (fun t =>
    if (t.call n).state ≠ .unequipped then refuse .wrongState t
    else
      let u := t.equipChannel n g rank d
      (u, ⟨.ok, [char1 (stateNumber (u.call n).state), optional1 (causeNumber (u.call n).state)]⟩)) s

/-- The position of the channel is below its span's channel count; false on an UNUSED span (R13). -/
def State.withinSpan (s : State) (n : ChannelNo) : Bool :=
  match (s.span (spanOf n)).config with
  | some c => (positionOf n).val < c.count
  | none => false

def equipRequest (p : PortNo) (body : List Byte) (s : State) : State × Answer :=
  match body with
  | [hi, lo, g, rank, d] =>
    match channelField hi lo, groupField g, directionField d with
    | some n, some g, some d =>
      if !s.withinSpan n then refuse .badRequest s
      else if (s.group g).config.isNone then refuse .badRequest s
      else equipRule p n g rank d s
    | _, _, _ => refuse .badRequest s
  | _ => refuse .badRequest s

def execEquip (p : PortNo) (tag : Byte) (body : List Byte) (s : State) : Host.Outcome State Fault Refusal :=
  .next (event (serve p tag .equip body (permitAdmin p) (answering p tag (equipRequest p body))) s)

/-! ## UNEQUIP (R14, R40) -/

/-- The rotate cursor after its own channel leaves the member list (R40 step 1). -/
def cursorBefore (n : ChannelNo) (members : List ChannelNo) : Option ChannelNo :=
  match (members.takeWhile (· ≠ n)).getLast? with
  | some m => some m
  | none => (members.filter (· ≠ n)).getLast?

namespace State

/-- The group's part of an UNEQUIP: cursor, member list, drain completion check (R40). -/
def leaveGroup (n : ChannelNo) (s : State) : State :=
  match s.groupOf n with
  | some g =>
    (s.modGroup g fun r =>
      { r with
        cursor := if r.cursor = some n then cursorBefore n r.members else r.cursor
        members := r.members.filter (· ≠ n) }).drainCheck g
  | none => s

/-- The effects of an accepted UNEQUIP (R14 steps 1 to 6; the pending notice by R112). -/
def unequipChannel (n : ChannelNo) (s : State) : State :=
  let t := (s.leaveIdle n).leaveGroup n
  let t := t.modChannel n fun r =>
    { r with
      equipment := unequippedPart, line := { r.line with received := none }, call := unequippedCall, errors := [] }
  let t := t.modSpan (spanOf n) fun r => { r with notices := r.notices.set (positionOf n) .none }
  t.markIfChanged n (s.presentCode n)

/-- The states from which UNEQUIP is accepted (R14). -/
def mayUnequip (s : State) (n : ChannelNo) : Bool :=
  match (s.call n).state with
  | .idle | .guard | .blocked | .fault .span | .fault .release => true
  | .fault .record => !s.purgePending n
  | .unequipped | .outSeized | .outWaitAnswer | .inSeized | .inAlerting | .connected | .clearingLocal
  | .clearingRemote => false

end State

def unequipRule (p : PortNo) (n : ChannelNo) (s : State) : State × Answer :=
  checkedRule n (p, .unequip) (fun t =>
    if t.mayUnequip n then accepted (t.unequipChannel n) else refuse .wrongState t) s

def execUnequip (p : PortNo) (tag : Byte) (body : List Byte) (s : State) : Host.Outcome State Fault Refusal :=
  .next (event (serve p tag .unequip body (permitAdmin p) (answering p tag (atChannel (unequipRule p) body))) s)

/-! ## SET_GROUP (R36 to R38) -/

/-- The fields of SET_GROUP, each within the range of R34. -/
def groupFields (body : List Byte) : Option (GroupNo × GroupConfig) :=
  match body with
  | [g, policy, profile, p, glare, rehunt, skip, g1, g0, p1, p0, a1, a0, o1, o0, r1, r0, f1, f0] => do
    some (← groupField g,
      { policy := ← policyField policy, profile := ← profileField profile, maintenance := ← portField p,
        glare := ← glareField glare, rehunt := ← yesNoField rehunt, skipFarAlarm := ← yesNoField skip,
        guard := ← nonzeroMillisField g1 g0, proceed := ← nonzeroMillisField p1 p0, answer := millisField a1 a0,
        offer := ← nonzeroMillisField o1 o0, releaseConfirm := ← nonzeroMillisField r1 r0,
        farClear := millisField f1 f0 })
  | _ => none

namespace State

/-- A group that does not exist is created (R36). The rehunts pending under its number are not part of it and stay (R48). -/
def createGroup (g : GroupNo) (c : GroupConfig) (s : State) : State :=
  s.modGroup g fun r => { powerOnGroup with config := some c, rehunts := r.rehunts }

/-- A member that lets its group change profile: BLOCKED with LOCAL or DRAIN, or FAULT (R38). The test reads what the
check of step 1 will bring into force, so that the flag it counts on is there at step 3 (log 33). -/
def heldMember (s : State) (n : ChannelNo) : Bool :=
  match (s.foundCall n).state with
  | .blocked => (s.foundCall n).flags.locally || (s.foundCall n).flags.drain
  | .fault _ => true
  | _ => false

/-- A profile change at one member (R38 steps 1 to 4), the new configuration being in place (log 28). -/
def changeProfileOf (found : PortNo × RequestCode) (old : ProfileNo) (s : State) (n : ChannelNo) : State :=
  let t := (s.checkCall n (some found)).1
  let t := t.setLine n { t.line n with received := t.derivedCondition n }
  let t :=
    if (t.call n).state = .blocked then
      t.setCall n { t.call n with flags := { (t.call n).flags with remote := t.receivesBlock n } }
    else t
  if t.profileCode n .block ≠ (t.profiles.get old).transmit.get (conditionNo .block) then t.markDirty n else t

/-- An existing group takes a new configuration (R37, R38). -/
def replaceGroup (found : PortNo × RequestCode) (g : GroupNo) (old new : GroupConfig) (s : State) : State :=
  let t := s.modGroup g fun r =>
    { r with config := some new, cursor := if new.policy = old.policy then r.cursor else none }
  if new.profile = old.profile then t
  else (s.group g).members.foldl (State.changeProfileOf found old.profile) t

end State

def setGroupRule (p : PortNo) (body : List Byte) (s : State) : State × Answer :=
  match groupFields body with
  | none => refuse .badRequest s
  | some (g, fields) =>
    let new := { fields with maintenance := s.redirect fields.maintenance }
    match (s.group g).config with
    | none => accepted (s.createGroup g new)
    | some old =>
      if new.profile ≠ old.profile ∧ !(s.group g).members.all (s.heldMember ·) then refuse .inUse s
      else accepted (s.replaceGroup (p, .setGroup) g old new)

def execSetGroup (p : PortNo) (tag : Byte) (body : List Byte) (s : State) : Host.Outcome State Fault Refusal :=
  .next (event (serve p tag .setGroup body (permitAdmin p) (answering p tag (setGroupRule p body))) s)

/-! ## DELETE_GROUP (R39) -/

/-- A group ceases to exist (R39). Its pending rehunts stay and fail check 1 when they are taken (R48; log 30). -/
def State.deleteGroup (g : GroupNo) (s : State) : State :=
  s.modGroup g fun r =>
    { r with
      config := none, cursor := none, drainPort := none, drainReported := false
      rehunts := r.rehunts.map fun x => { x with orphaned := true } }

def deleteGroupRule (body : List Byte) (s : State) : State × Answer :=
  match body with
  | [b] =>
    match groupField b with
    | none => refuse .badRequest s
    | some g =>
      if (s.group g).config.isNone then refuse .badRequest s
      else if !(s.group g).members.isEmpty then refuse .inUse s
      else accepted (s.deleteGroup g)
  | _ => refuse .badRequest s

def execDeleteGroup (p : PortNo) (tag : Byte) (body : List Byte) (s : State) : Host.Outcome State Fault Refusal :=
  .next (event (serve p tag .deleteGroup body (permitAdmin p) (answering p tag (deleteGroupRule body))) s)

/-! ## LOAD_PROFILE (R19) -/

/-- A table of n records from a list of n. -/
def tableOf (n : Nat) {α : Type} (l : List α) : Option (Table α n) := if h : l.length = n then some ⟨l, h⟩ else none

/-- The fields of LOAD_PROFILE (R19): the profile number, six transmit codes and sixteen receive map entries, each in
range. -/
def profileFields (body : List Byte) : Option (ProfileNo × Profile) :=
  match body with
  | [] => none
  | b :: rest => do
    some (← profileField b,
      { transmit := ← tableOf 6 (← (rest.take 6).mapM codeField)
        receive := ← tableOf 16 (← (rest.drop 6).mapM receivedField) })

/-- Some existing group names the profile and has a member (R19). -/
def State.profileInUse (s : State) (k : ProfileNo) : Bool :=
  s.groups.any fun r => (r.config.any fun c => c.profile = k) && !r.members.isEmpty

def loadProfileRule (body : List Byte) (s : State) : State × Answer :=
  match profileFields body with
  | none => refuse .badRequest s
  | some (k, profile) =>
    if !profile.transmit.cells.Nodup then refuse .badRequest s
    else if s.profileInUse k then refuse .inUse s
    else accepted { s with profiles := s.profiles.set k profile }

def execLoadProfile (p : PortNo) (tag : Byte) (body : List Byte) (s : State) : Host.Outcome State Fault Refusal :=
  .next (event (serve p tag .loadProfile body (permitAdmin p) (answering p tag (loadProfileRule body))) s)

/-! ## SET_FAULT_CLASS (R168) -/

/-- A class of the Fault Unit changed. -/
def State.modFaultClass (c : FaultClass) (f : FaultClassRecord → FaultClassRecord) (s : State) : State :=
  { s with faults := { s.faults with classes := s.faults.classes.update (classNo c) f } }

/-- The fields of SET_FAULT_CLASS: class, then detect enable, report enable, severity and target port (R168). -/
def faultClassFields (body : List Byte) : Option (FaultClass × FaultClassRecord) :=
  match body with
  | [c, detect, report, severity, target] => do
    some (← faultClassField c,
      ⟨← yesNoField detect, ← yesNoField report, ← severityField severity, ← portField target, 0⟩)
  | _ => none

def setFaultClassRule (body : List Byte) (s : State) : State × Answer :=
  match faultClassFields body with
  | none => refuse .badRequest s
  | some (c, f) =>
    if c = .recordLost ∧ f.severity = .minor then refuse .badRequest s
    else accepted (s.modFaultClass c fun r => { f with target := s.redirect f.target, count := r.count })

def execSetFaultClass (p : PortNo) (tag : Byte) (body : List Byte) (s : State) : Host.Outcome State Fault Refusal :=
  .next (event (serve p tag .setFaultClass body (permitAdmin p) (answering p tag (setFaultClassRule body))) s)

/-! ## CLEAR_FAULTS (R169) -/

def State.clearFaults (zeroCounts : Bool) (s : State) : State :=
  { s with faults := { s.faults with
      first := none
      later := .fill 11 false
      classes := if zeroCounts then s.faults.classes.map fun r => { r with count := 0 } else s.faults.classes } }

def clearFaultsRule (body : List Byte) (s : State) : State × Answer :=
  match body with
  | [b] =>
    match yesNoField b with
    | none => refuse .badRequest s
    | some zeroCounts => accepted (s.clearFaults zeroCounts)
  | _ => refuse .badRequest s

def execClearFaults (p : PortNo) (tag : Byte) (body : List Byte) (s : State) : Host.Outcome State Fault Refusal :=
  .next (event (serve p tag .clearFaults body (permitAdmin p) (answering p tag (clearFaultsRule body))) s)

/-! ## SET_PORT (R188) -/

/-- The port is the source, the target or the requester of a transfer in flight (R152). -/
def State.inTransfer (s : State) (p : PortNo) : Bool :=
  match s.transfer with
  | some t => t.source = p || t.target = p || t.requester = p
  | none => false

/-- The three fields of a port record written (R188). -/
def State.writePort (k : PortNo) (enabled admin attention : Bool) (s : State) : State :=
  s.modPort k fun r => { r with enabled := enabled, admin := admin, attention := attention }

/-- At least one port is enabled with administrative right (R188). -/
def State.hasAdmin (s : State) : Bool := s.ports.any fun r => r.enabled && r.admin

/-- Checks 2 to 4 of R188, then the write. -/
def writePortRule (k : PortNo) (enabled admin attention : Bool) (s : State) : State × Answer :=
  if s.inTransfer k then refuse .busy s
  else if !(s.writePort k enabled admin attention).hasAdmin then refuse .badRequest s
  else if !enabled && s.ownsEntries k then refuse .inUse s
  else accepted (s.writePort k enabled admin attention)

def setPortRule (body : List Byte) (s : State) : State × Answer :=
  match body with
  | [k, e, a, n] =>
    match portField k, yesNoField e, yesNoField a, yesNoField n with
    | some k, some e, some a, some n => writePortRule k e a n s
    | _, _, _, _ => refuse .badRequest s
  | _ => refuse .badRequest s

def execSetPort (p : PortNo) (tag : Byte) (body : List Byte) (s : State) : Host.Outcome State Fault Refusal :=
  .next (event (serve p tag .setPort body (permitAdmin p) (answering p tag (setPortRule body))) s)

/-! ## SET_DEVICE (R189, R163, R180) -/

/-- The refresh interval is 0 or 100..60000 (R189). -/
def refreshField (hi lo : Byte) : Option Millis :=
  if hi ++ lo = 0#16 ∨ (100 ≤ (hi ++ lo).toNat ∧ (hi ++ lo).toNat ≤ 60000) then some (hi ++ lo) else none

/-- Both device settings written; a timer whose interval does not change runs on (R163, R180). That a visit or a refresh which
is due and not yet taken is dropped where its interval changes is the model's choice (log 35). -/
def State.writeDevice (scrub : Byte) (refresh : Millis) (s : State) : State :=
  { s with
    scrub := { s.scrub with
      interval := scrub
      timer := if scrub = s.scrub.interval then s.scrub.timer else load scrub }
    link := { s.link with
      refreshInterval := refresh
      refreshTimer := if refresh = s.link.refreshInterval then s.link.refreshTimer else load refresh } }

def setDeviceRule (body : List Byte) (s : State) : State × Answer :=
  match body with
  | [scrub, hi, lo] =>
    match refreshField hi lo with
    | none => refuse .badRequest s
    | some refresh => accepted (s.writeDevice scrub refresh)
  | _ => refuse .badRequest s

def execSetDevice (p : PortNo) (tag : Byte) (body : List Byte) (s : State) : Host.Outcome State Fault Refusal :=
  .next (event (serve p tag .setDevice body (permitAdmin p) (answering p tag (setDeviceRule body))) s)

end Sys2Proof.Machine
end

