-- ==== Sys2Proof/Machine/Expiry.lean ====
section
/-! DEFINITION. The expiries of the supervision timer: GUARD_EXPIRY, PROCEED_TIMEOUT, ANSWER_TIMEOUT, OFFER_TIMEOUT,
RELEASE_STUCK and AUTO_RELEASED (R10, R62, R63, R70, R83, R87, R89). -/

namespace Sys2Proof.Machine

/-- An expiry in a state whose timer has reached 0 (R10; log 6). The call part is checked first, and a lost record
ends the expiry. Where the timer has not reached 0 no expiry occurs (log 3). Three or more bits in error may be taken as
clean or as a single error and bring another state than the timed one into force; that the expiry then has no effect is
the model's choice (log 34). -/
def expire (n : ChannelNo) (state : CallState) (effect : State → State) (s : State) : State :=
  if (s.call n).state = state ∧ (s.call n).timer = some 0 then
    s.checked n none fun t => if (t.call n).state = state then effect t else t
  else s

/-- Guard expiry: the channel settles (R89). -/
def expireGuard (n : ChannelNo) (s : State) : State := expire n .guard (·.settle n) s

/-- Proceed expiry: CLEARING_LOCAL, SEIZE_FAILED to the owner (R62). -/
def expireProceed (n : ChannelNo) (s : State) : State :=
  expire n .outSeized (fun t => (t.enterClearingLocal n).tell (t.callPort n) n .seizeFailed) s

/-- Answer expiry: CLEARING_LOCAL, ANSWER_TIMEOUT to the owner (R63). -/
def expireAnswer (n : ChannelNo) (s : State) : State :=
  expire n .outWaitAnswer (fun t => (t.enterClearingLocal n).tell (t.callPort n) n .answerTimeout) s

/-- Offer expiry: CLEARING_LOCAL without a reference, OFFER_TIMEOUT to the maintenance port (R70). -/
def expireOffer (n : ChannelNo) (s : State) : State :=
  expire n .inSeized (fun t => (t.enterClearingLocal n).tellMaintenance n .offerTimeout) s

/-- Release-confirm expiry: FAULT(RELEASE), RELEASE_STUCK to the former owner or the maintenance port, one occurrence,
and the drain completion check (R83). -/
def expireRelease (n : ChannelNo) (s : State) : State :=
  expire n .clearingLocal
    (fun t =>
      (((t.enterFault n .release (t.call n).flags).tell (t.callPort n) n .releaseStuck).report
        ⟨.releaseStuck, some (spanOf n), some n, none, none, some .clearingLocal⟩).drainCheckOf n) s

/-- Far-clear wait expiry: GUARD, AUTO_RELEASED to the former owner (R87). -/
def expireFarClear (n : ChannelNo) (s : State) : State :=
  expire n .clearingRemote (fun t => (t.enterGuard n (t.call n).flags).tell (t.callPort n) n .autoReleased) s

def execGuardExpiry (n : ChannelNo) (s : State) : Host.Outcome State Fault Refusal := .next (event (expireGuard n) s)

def execProceedTimeout (n : ChannelNo) (s : State) : Host.Outcome State Fault Refusal :=
  .next (event (expireProceed n) s)

def execAnswerTimeout (n : ChannelNo) (s : State) : Host.Outcome State Fault Refusal :=
  .next (event (expireAnswer n) s)

def execOfferTimeout (n : ChannelNo) (s : State) : Host.Outcome State Fault Refusal := .next (event (expireOffer n) s)

def execReleaseStuck (n : ChannelNo) (s : State) : Host.Outcome State Fault Refusal :=
  .next (event (expireRelease n) s)

def execAutoReleased (n : ChannelNo) (s : State) : Host.Outcome State Fault Refusal :=
  .next (event (expireFarClear n) s)

end Sys2Proof.Machine
end

