-- ==== Sys2Proof/Machine/Walks.lean ====
section
/-! DEFINITION. The walks: PURGE_VISIT (R134), SWEEP_VISIT with the completion of a transfer (R150, R153), and
SCRUB_VISIT (R161). -/

namespace Sys2Proof.Machine

namespace State

/-! ## PURGE_VISIT (R134) -/

/-- Step 1 of a visit: the stale entries of the set are freed, each with RECORD_LOST for its owner, in way order. -/
def freeStale (k : SetNo) (s : State) : State :=
  let stale := (validEntries (s.index.get k)).filter fun e => s.purgePending e.channel
  let t := { s with index := s.index.update k (fun ways =>
    ways.map fun w => w.filter fun e => !s.purgePending e.channel) }
  stale.foldl (fun u e => u.tell e.owner e.channel .recordLost) t

/-- A purge visit (R134). -/
def purgeVisit (s : State) : State :=
  let t := s.freeStale s.purge.cursor
  { t with purge :=
      { lost := (t.purge.lost.map fun l => { l with remaining := l.remaining - 1 }).filter fun l => l.remaining ≠ 0
        cursor := t.purge.cursor + 1
        visitDue := false } }

/-! ## SWEEP_VISIT (R150, R153) -/

/-- The entries of the set whose owner is the source are given to the target (R150). -/
def sweepSet (t : Transfer) (s : State) : State :=
  { s with index := s.index.update t.cursor (fun ways =>
      ways.map fun w => w.map fun e => if e.owner = t.source then { e with owner := t.target } else e) }

/-- The transfer completes: the source's list is merged into the target's and emptied, the record is not in flight, and
the requester is answered OK (R153). -/
def completeTransfer (t : Transfer) (s : State) : State :=
  let merged := mergeLists (s.list t.source) (s.list t.target)
  State.finishLong t.requester .ok
    { s with lists := (s.lists.set t.target merged).set t.source [], transfer := none }

/-- A sweep visit; after the visit to set 127 the transfer completes (R150). -/
def sweepVisit (t : Transfer) (s : State) : State :=
  let u := s.sweepSet t
  if t.cursor = 127 then u.completeTransfer t
  else { u with transfer := some { t with cursor := t.cursor + 1, visitDue := false } }

/-! ## SCRUB_VISIT (R161) -/

/-- A scrub visit: the record under the cursor is checked, the cursor moves on and the timer is loaded again (R161). -/
def scrubVisit (s : State) : State :=
  let t := s.checked s.scrub.cursor none id
  { t with scrub := { t.scrub with cursor := t.scrub.cursor + 1, timer := load t.scrub.interval } }

end State

/-- A purge visit that is due: the walk runs, and a timebase step has been taken since its last visit (R134; log 6). -/
def takePurgeVisit (s : State) : State := if s.purge.visitDue then s.purgeVisit else s

def execPurgeVisit (s : State) : Host.Outcome State Fault Refusal := .next (takePurgeVisit s)

/-- A sweep visit that is due (R150; log 6). -/
def takeSweepVisit (s : State) : State :=
  match s.transfer with
  | some t => if t.visitDue then s.sweepVisit t else s
  | none => s

def execSweepVisit (s : State) : Host.Outcome State Fault Refusal := .next (takeSweepVisit s)

/-- A scrub visit that is due: the scrub timer has reached 0 (R161; log 6). -/
def takeScrubVisit (s : State) : State := if s.scrub.timer = some 0 then s.scrubVisit else s

def execScrubVisit (s : State) : Host.Outcome State Fault Refusal := .next (event takeScrubVisit s)

end Sys2Proof.Machine
end

