-- ==== Sys2Proof/Machine/Device.lean ====
section
/-! DEFINITION. The whole part: TRANSFER (R148, R149), RESTART and RESTART_COMPLETION (R194, R195), TIMEBASE_STEP (R166),
POWER_ON_RESET (R15) and RST_N_RISE (R172). -/

namespace Sys2Proof.Machine

/-! ## TRANSFER (R148, R149) -/

/-- A role of the source goes to the target. -/
def moved (source target p : PortNo) : PortNo := if p = source then target else p

namespace State

/-- The start of a transfer (R149 steps 1 to 6). -/
def startTransfer (source target requester : PortNo) (s : State) : State :=
  { s with
    transfer := some ⟨source, target, requester, 0, false⟩
    ports := s.ports.update source fun r => { r with enabled := false }
    groups := s.groups.map fun r =>
      { r with
        config := r.config.map fun c => { c with maintenance := moved source target c.maintenance }
        drainPort := r.drainPort.map (moved source target) }
    spans := s.spans.map fun r =>
      { r with config := r.config.map fun c => { c with maintenance := moved source target c.maintenance } }
    faults := { s.faults with
      classes := s.faults.classes.map fun r => { r with target := moved source target r.target } } }

/-- The checks of R148 in their order, then the start of R149, which leaves the port WORKING. -/
def transferRequest (p : PortNo) (tag : Byte) (body : List Byte) (s : State) : State :=
  match body with
  | [a, b] =>
    match portField a, portField b with
    | some source, some target =>
      if source = target ∨ source = p ∨ !(s.port target).enabled then s.respond p tag .badRequest []
      else if s.transfer.isSome then s.respond p tag .busy []
      else (s.startTransfer source target p).beginLong p tag .transfer
    | _, _ => s.respond p tag .badRequest []
  | _ => s.respond p tag .badRequest []

end State

def execTransfer (p : PortNo) (tag : Byte) (body : List Byte) (s : State) : Host.Outcome State Fault Refusal :=
  .next (event (serve p tag .transfer body (permitAdmin p) (State.transferRequest p tag body)) s)

/-! ## RESTART (R194) -/

/-- The restart timer (R194 step 5). -/
def restartTime : Millis := 16

/-- A channel record after a restart (R16). A restart is none of the checks of R157, so the LOCAL and DRAIN flags that it
keeps are those that the stored bits spell: the ones last written where no bit is in error, and free where one is. That
reading is the model's choice (log 10). -/
def restartChannel (r : ChannelRecord) : ChannelRecord where
  equipment := r.equipment
  line := emptyLine
  call :=
    match r.equipment.group with
    | none => unequippedCall
    | some _ =>
      { state := .fault .span, role := .none, reference := none, transmitted := .is .block, timer := none,
        flags := { r.seenCall.flags with remote := false }, rehuntUsed := false, rehuntedFrom := none }
  errors := []

/-- A group record after a restart (R54); its pending rehunts stay and are discarded when taken (R48, R76). -/
def restartGroup (r : GroupRecord) : GroupRecord :=
  { r with
    idle := [], cursor := none, drainReported := false
    rehunts := r.rehunts.map fun x => { x with discarded := true } }

/-- A span record after a restart (R120). -/
def restartSpan (r : SpanRecord) : SpanRecord :=
  { powerOnSpan with
    config := r.config
    state := if r.config.isSome then .starting else .unused }

/-- A port record after a restart begun by the requester (R194 steps 1 to 3); `aborted` is the requester of the
transfer that the restart ended. -/
def restartPort (requester : PortNo) (aborted : Option PortNo) (tag : Byte) (k : PortNo) (r : PortRecord) :
    PortRecord :=
  if k = requester then { r with state := .working ⟨tag, .restart⟩ }
  else if aborted = some k then r
  else { r with state := .idle, overrun := false }

namespace State

/-- Every code handed to a position has been taken when a restart begins (R176, R181): those that still wait, whatever
their span, are taken in an order the manual leaves open (log 7). -/
def takeAllHanded (s : State) : State :=
  let waiting := (List.finRange 512).filter fun n => ((s.span (spanOf n)).handed.get (positionOf n)).isSome
  takeInFreeOrder (fun n => event (integrate n)) waiting.length waiting s

/-- The transfer in flight ends: its requester's response is ABORTED (R154, R194 step 2). -/
def abortTransfer (s : State) : State :=
  match s.transfer with
  | some t => State.finishLong t.requester .aborted { s with transfer := none }
  | none => s

/-- The restart values of every block (R194 step 4). -/
def restartBlocks (s : State) : State :=
  { s with
    channels := s.channels.map restartChannel
    groups := s.groups.map restartGroup
    spans := s.spans.map restartSpan
    index := .fill 128 (.fill 4 none)
    purge := powerOnPurge
    lists := .fill 4 []
    scrub := { s.scrub with cursor := 0, timer := none }
    link := { s.link with
      spans := s.link.spans.mapIdx fun sp l =>
        { l with dirty :=
            match (s.span sp).config with
            | some c => .tabulate fun p => p.val < c.count
            | none => .fill 32 false }
      servedLast := none
      refreshTimer := none } }

/-- A restart begins (R194). -/
def beginRestart (p : PortNo) (tag : Byte) (s : State) : State :=
  let t := s.takeAllHanded
  let aborted := t.transfer.map (·.requester)
  let u := t.abortTransfer.restartBlocks
  { u with
    ports := u.ports.mapIdx (restartPort p aborted tag)
    restart := some ⟨restartTime, p⟩ }

end State

def execRestart (p : PortNo) (tag : Byte) (body : List Byte) (s : State) : Host.Outcome State Fault Refusal :=
  .next (event (serve p tag .restart body (permitAdmin p) (State.beginRestart p tag)) s)

/-! ## RESTART_COMPLETION (R195) -/

/-- The completion of a restart, in the order of R195. -/
def State.completeRestart (r : Restart) (s : State) : State :=
  State.finishLong r.requester .ok <| State.buildIfIdle
    { s with
      restart := none
      spans := s.spans.map fun x =>
        match x.config with
        | some c => { x with silence := load c.silence }
        | none => x
      scrub := { s.scrub with timer := load s.scrub.interval }
      link := { s.link with refreshTimer := load s.link.refreshInterval } }

/-- The restart timer has reached 0 (R195; log 6). -/
def takeRestartCompletion (s : State) : State :=
  match s.restart with
  | some r => if r.timer = 0 then s.completeRestart r else s
  | none => s

def execRestartCompletion (s : State) : Host.Outcome State Fault Refusal := .next (takeRestartCompletion s)

/-! ## TIMEBASE_STEP (R166, R10, R108, R134, R150, R161, R180, R195) -/

/-- An event that a timebase step has made due. -/
inductive DueEvent where
  | supervision (n : ChannelNo)
  | silence (sp : SpanNo)
  | purge
  | sweep
  | scrub
  | refresh
  | restart
  deriving DecidableEq, Repr

/-- The events that are due and have not been taken (log 6). -/
def dueEvents (s : State) : List DueEvent :=
  (s.channels.indices fun r => r.call.timer = some 0).map .supervision ++
  (s.spans.indices fun r => r.silence = some 0).map .silence ++
  (if s.purge.visitDue then [.purge] else []) ++
  (if s.transfer.any (·.visitDue) then [.sweep] else []) ++
  (if s.scrub.timer = some 0 then [.scrub] else []) ++
  (if s.link.refreshTimer = some 0 then [.refresh] else []) ++
  (if s.restart.any (·.timer = 0) then [.restart] else [])

/-- The expiry of a supervision timer, by the state that it supervises (R10). -/
def expireSupervision (n : ChannelNo) (s : State) : State :=
  match (s.call n).state with
  | .guard => expireGuard n s
  | .outSeized => expireProceed n s
  | .outWaitAnswer => expireAnswer n s
  | .inSeized => expireOffer n s
  | .clearingLocal => expireRelease n s
  | .clearingRemote => expireFarClear n s
  | .unequipped | .idle | .inAlerting | .connected | .blocked | .fault _ => s

/-- One due event is taken, as its own command would take it. -/
def takeDue (d : DueEvent) (s : State) : State :=
  match d with
  | .supervision n => event (expireSupervision n) s
  | .silence sp => event (expireSilence sp) s
  | .purge => takePurgeVisit s
  | .sweep => takeSweepVisit s
  | .scrub => event takeScrubVisit s
  | .refresh => event expireRefresh s
  | .restart => takeRestartCompletion s

/-- Every timer counts down once, the walks that run get a visit due, and the millisecond counter advances (R10, R108,
R134, R150, R161, R166, R180, R195). -/
def countStep (s : State) : State :=
  { s with
    channels := s.channels.map fun r => { r with call := { r.call with timer := countDown r.call.timer } }
    spans := s.spans.map fun r => { r with silence := countDown r.silence }
    purge := { s.purge with visitDue := !s.purge.lost.isEmpty }
    transfer := s.transfer.map fun t => { t with visitDue := true }
    scrub := { s.scrub with timer := countDown s.scrub.timer }
    link := { s.link with refreshTimer := countDown s.link.refreshTimer }
    restart := s.restart.map fun r => { r with timer := if r.timer = 0 then 0 else r.timer - 1 }
    millis := s.millis + 1 }

/-- A step of the timebase: an event that the last step made due and that has not been taken is taken before the next
step, in an order the manual leaves open (log 6); then everything counts. -/
def timebaseStep (s : State) : State :=
  countStep (State.takeInFreeOrder takeDue (dueEvents s).length (dueEvents s) s)

def execTimebaseStep (s : State) : Host.Outcome State Fault Refusal := .next (timebaseStep s)

/-! ## POWER_ON_RESET (R15, R18, R48, R54, R120, R137, R155, R163, R171, R177, R184) and RST_N_RISE (R172) -/

/-- RST_N is asserted: every block takes its power-on values, and a restart or a transfer in flight ends with no response
(R154, R195). The waiting commands and the drawn counter are not the part's. -/
def powerOnReset (s : State) : State :=
  { State.reset with rstN := false, freeCount := s.freeCount, pending := s.pending }

def execPowerOnReset (s : State) : Host.Outcome State Fault Refusal := .next (powerOnReset s)

/-- RST_N rises: the part takes frames again (R172, R182). -/
def rstNRise (s : State) : State := { s with rstN := true }

def execRstNRise (s : State) : Host.Outcome State Fault Refusal := .next (rstNRise s)

end Sys2Proof.Machine
end

