-- ==== Sys2Proof/Machine/Faults.lean ====
section
/-! DEFINITION. FAULT_OCCURRENCE: the Fault Unit takes an occurrence (R165, R166); STORAGE_ERROR: stored bits change
(R156). -/

namespace Sys2Proof.Machine

namespace State

/-- Step 3 of R165: a major occurrence is captured if the first-fault record is empty (R166); otherwise its class joins
the later-majors set. -/
def captureOrJoin (o : Occurrence) (s : State) : State :=
  match s.faults.first with
  | none => { s with faults := { s.faults with first := some ⟨o, s.millis⟩ } }
  | some _ => { s with faults := { s.faults with later := s.faults.later.set (classNo o.cls) true } }

/-- An occurrence taken by the Fault Unit (R165): ignored in full where its class is not detected; otherwise counted,
reported on the target port's list, and captured or joined where the class is major. -/
def takeOccurrence (o : Occurrence) (s : State) : State :=
  let r := s.faultClass o.cls
  if !r.detect then s
  else
    let t := { s with faults := { s.faults with classes := s.faults.classes.update (classNo o.cls) fun r =>
      { r with count := if r.count = 255 then r.count else r.count + 1 } } }
    let t := if r.report then t.notify r.target .fault (.fault o.cls) else t
    if r.severity = .major then t.captureOrJoin o else t

/-- One of the occurrences reported is taken; the others wait (R164, R165; log 8). -/
def takeReported (index : Nat) (s : State) : State :=
  match s.faults.reported[index]? with
  | none => s
  | some o => State.takeOccurrence o { s with faults := { s.faults with reported := s.faults.reported.eraseIdx index } }

end State

def execFaultOccurrence (index : Nat) (s : State) : Host.Outcome State Fault Refusal := .next (s.takeReported index)

/-- A stored bit changes: it comes into error, or out of it. The list stays in ascending order (log 9). -/
def toggleBit (b : Nat) : List Nat → List Nat
  | [] => [b]
  | e :: es => if b < e then b :: e :: es else if b = e then es else e :: toggleBit b es

/-- STORAGE_ERROR (R156). -/
def storageError (n : ChannelNo) (bits : List Nat) (s : State) : State :=
  s.modChannel n fun r => { r with errors := bits.foldl (fun es b => toggleBit b es) r.errors }

def execStorageError (n : ChannelNo) (bits : List Nat) (s : State) : Host.Outcome State Fault Refusal :=
  .next (storageError n bits s)

end Sys2Proof.Machine
end

