-- ==== Sys2Proof/Machine/Notices.lean ====
section
/-! DEFINITION. Span notices at the channels: SPAN_DOWN, SPAN_UP and DOWN_UP (R113 to R115). -/

namespace Sys2Proof.Machine

namespace State

/-- Span-down at a channel whose call part has passed its check (R114). -/
def spanDownEffect (n : ChannelNo) (s : State) : State :=
  let flags := { (s.call n).flags with remote := false }
  match (s.call n).state with
  | .unequipped => s
  | .fault _ => s.writeFlags n flags
  | .idle | .guard | .blocked => (s.enterFault n .span flags).drainCheckOf n
  | .outSeized | .outWaitAnswer | .inAlerting | .connected | .clearingRemote | .clearingLocal | .inSeized =>
    ((s.enterFault n .span flags).tell (s.callPort n) n .spanDown).drainCheckOf n

/-- Span-up at a channel whose call part has passed its check (R115). -/
def spanUpEffect (n : ChannelNo) (s : State) : State :=
  if (s.call n).state = .fault .span then s.enterGuard n (s.call n).flags else s

/-- The pending notice of a channel's position. -/
def noticeOf (s : State) (n : ChannelNo) : Notice := (s.span (spanOf n)).notices.get (positionOf n)

/-- A channel takes its pending notice (R113): the notice becomes none, the call part is checked, and the notice is
carried out unless the record is lost (R114). -/
def takeNotice (n : ChannelNo) (kind : Notice) (effect : State → State) (s : State) : State :=
  if s.noticeOf n = kind then
    (s.modSpan (spanOf n) fun r => { r with notices := r.notices.set (positionOf n) .none }).checked n none effect
  else s

end State

/-- SPAN_DOWN (R114). -/
def execSpanDown (n : ChannelNo) (s : State) : Host.Outcome State Fault Refusal :=
  .next (event (State.takeNotice n .down (State.spanDownEffect n)) s)

/-- SPAN_UP (R115). -/
def execSpanUp (n : ChannelNo) (s : State) : Host.Outcome State Fault Refusal :=
  .next (event (State.takeNotice n .up (State.spanUpEffect n)) s)

/-- DOWN_UP: span-down and then span-up in the one channel event (R115). -/
def execDownUp (n : ChannelNo) (s : State) : Host.Outcome State Fault Refusal :=
  .next (event (State.takeNotice n .downUp fun t => (t.spanDownEffect n).spanUpEffect n) s)

end Sys2Proof.Machine
end

