-- ==== Sys2Proof/Machine/Queries.lean ====
section
/-! DEFINITION. The queries: READ_CHANNEL, READ_GROUP, READ_SPAN, NEXT_ATTENTION and READ_FAULTS (R12, R53, R119, R144,
R145, R170). -/

namespace Sys2Proof.Machine

/-! ## READ_CHANNEL (R12, R128) -/

/-- A query target of kind channel may be unequipped; one of kind reference is looked up (R12, R128). -/
def resolveQuery (s : State) : Target → Except Status ChannelNo
  | .channel n => .ok n
  | .reference r => lookup s r

/-- The view of the channel, or RECORD_FAULT and no view (R12). -/
def readChannelRule (p : PortNo) (n : ChannelNo) (s : State) : State × Answer :=
  checkedRule n (p, .readChannel) (fun t => (t, ⟨.ok, t.channelView n⟩)) s

def execReadChannel (p : PortNo) (tag : Byte) (body : List Byte) (s : State) : Host.Outcome State Fault Refusal :=
  .next (event (serve p tag .readChannel body permitAny
    (answering p tag (atTarget resolveQuery (readChannelRule p) body))) s)

/-! ## READ_GROUP (R53) -/

def readGroupRule (body : List Byte) (s : State) : State × Answer :=
  match body with
  | [g] =>
    match groupField g with
    | none => refuse .badRequest s
    | some g => (s, ⟨.ok, s.groupView g⟩)
  | _ => refuse .badRequest s

def execReadGroup (p : PortNo) (tag : Byte) (body : List Byte) (s : State) : Host.Outcome State Fault Refusal :=
  .next (event (serve p tag .readGroup body permitAny (answering p tag (readGroupRule body))) s)

/-! ## READ_SPAN (R119) -/

def readSpanRule (body : List Byte) (s : State) : State × Answer :=
  match body with
  | [sp] =>
    match spanField sp with
    | none => refuse .badRequest s
    | some sp => (s, ⟨.ok, s.spanView sp⟩)
  | _ => refuse .badRequest s

def execReadSpan (p : PortNo) (tag : Byte) (body : List Byte) (s : State) : Host.Outcome State Fault Refusal :=
  .next (event (serve p tag .readSpan body permitAny (answering p tag (readSpanRule body))) s)

/-! ## NEXT_ATTENTION (R144, R145) -/

/-- The snapshot of a CHANNEL member, taken after its removal; other members have none (R145). -/
def State.takeSnapshot (p : PortNo) (o : AttentionObject) (s : State) : State × Snapshot :=
  match o with
  | .channel n =>
    match s.checkCall n (some (p, .nextAttention)) with
    | (t, true) => (t, .view (t.channelView n))
    | (t, false) => (t, .recordFault)
  | .group _ | .span _ | .fault => (s, .none)

def nextAttentionRule (p : PortNo) (s : State) : State × Answer :=
  match s.list p with
  | [] => (s, ⟨.empty, []⟩)
  | m :: rest =>
    let t := { s with lists := s.lists.set p rest }
    ((t.takeSnapshot p m.object).1, ⟨.ok, memberChars m (t.takeSnapshot p m.object).2⟩)

def execNextAttention (p : PortNo) (tag : Byte) (body : List Byte) (s : State) : Host.Outcome State Fault Refusal :=
  .next (event (serve p tag .nextAttention body permitAny (answering p tag (nextAttentionRule p))) s)

/-! ## READ_FAULTS (R170) -/

/-- The fault view. The drawn counter advances where the view holds the open characters of an absent time (log 19,
log 23). -/
def readFaultsRule (s : State) : State × Answer :=
  (if s.faults.first.isNone then s.drawn else s, ⟨.ok, s.faultView⟩)

def execReadFaults (p : PortNo) (tag : Byte) (body : List Byte) (s : State) : Host.Outcome State Fault Refusal :=
  .next (event (serve p tag .readFaults body permitAny (answering p tag readFaultsRule)) s)

end Sys2Proof.Machine
end

