-- ==== Sys2Proof/Machine/Dispatch.lean ====
section
/-! DEFINITION. The dispatcher: one direct call of a meaning for each command. -/

namespace Sys2Proof.Machine

def exec (i : Instr) (s : State) : Host.Outcome State Fault Refusal :=
  match i with
  | .powerOnReset => Sys2Proof.Machine.execPowerOnReset s
  | .timebaseStep => Sys2Proof.Machine.execTimebaseStep s
  | .responseRead port characters => Sys2Proof.Machine.execResponseRead port characters s
  | .badFrame port frame => Sys2Proof.Machine.execBadFrame port frame s
  | .overrun port frame => Sys2Proof.Machine.execOverrun port frame s
  | .hunt port tag body => Sys2Proof.Machine.execHunt port tag body s
  | .seize port tag body => Sys2Proof.Machine.execSeize port tag body s
  | .accept port tag body => Sys2Proof.Machine.execAccept port tag body s
  | .answer port tag body => Sys2Proof.Machine.execAnswer port tag body s
  | .release port tag body => Sys2Proof.Machine.execRelease port tag body s
  | .block port tag body => Sys2Proof.Machine.execBlock port tag body s
  | .unblock port tag body => Sys2Proof.Machine.execUnblock port tag body s
  | .resetChannel port tag body => Sys2Proof.Machine.execResetChannel port tag body s
  | .drain port tag body => Sys2Proof.Machine.execDrain port tag body s
  | .undrain port tag body => Sys2Proof.Machine.execUndrain port tag body s
  | .readChannel port tag body => Sys2Proof.Machine.execReadChannel port tag body s
  | .readGroup port tag body => Sys2Proof.Machine.execReadGroup port tag body s
  | .readSpan port tag body => Sys2Proof.Machine.execReadSpan port tag body s
  | .nextAttention port tag body => Sys2Proof.Machine.execNextAttention port tag body s
  | .readFaults port tag body => Sys2Proof.Machine.execReadFaults port tag body s
  | .setSpan port tag body => Sys2Proof.Machine.execSetSpan port tag body s
  | .clearSpan port tag body => Sys2Proof.Machine.execClearSpan port tag body s
  | .equip port tag body => Sys2Proof.Machine.execEquip port tag body s
  | .unequip port tag body => Sys2Proof.Machine.execUnequip port tag body s
  | .setGroup port tag body => Sys2Proof.Machine.execSetGroup port tag body s
  | .deleteGroup port tag body => Sys2Proof.Machine.execDeleteGroup port tag body s
  | .loadProfile port tag body => Sys2Proof.Machine.execLoadProfile port tag body s
  | .setFaultClass port tag body => Sys2Proof.Machine.execSetFaultClass port tag body s
  | .clearFaults port tag body => Sys2Proof.Machine.execClearFaults port tag body s
  | .setPort port tag body => Sys2Proof.Machine.execSetPort port tag body s
  | .setDevice port tag body => Sys2Proof.Machine.execSetDevice port tag body s
  | .transfer port tag body => Sys2Proof.Machine.execTransfer port tag body s
  | .restart port tag body => Sys2Proof.Machine.execRestart port tag body s
  | .restartCompletion => Sys2Proof.Machine.execRestartCompletion s
  | .spanReport message => Sys2Proof.Machine.execSpanReport message s
  | .positionIntegration channel => Sys2Proof.Machine.execPositionIntegration channel s
  | .rehunt group => Sys2Proof.Machine.execRehunt group s
  | .spanDown channel => Sys2Proof.Machine.execSpanDown channel s
  | .spanUp channel => Sys2Proof.Machine.execSpanUp channel s
  | .downUp channel => Sys2Proof.Machine.execDownUp channel s
  | .guardExpiry channel => Sys2Proof.Machine.execGuardExpiry channel s
  | .proceedTimeout channel => Sys2Proof.Machine.execProceedTimeout channel s
  | .answerTimeout channel => Sys2Proof.Machine.execAnswerTimeout channel s
  | .offerTimeout channel => Sys2Proof.Machine.execOfferTimeout channel s
  | .releaseStuck channel => Sys2Proof.Machine.execReleaseStuck channel s
  | .autoReleased channel => Sys2Proof.Machine.execAutoReleased channel s
  | .silenceExpiry span => Sys2Proof.Machine.execSilenceExpiry span s
  | .purgeVisit => Sys2Proof.Machine.execPurgeVisit s
  | .sweepVisit => Sys2Proof.Machine.execSweepVisit s
  | .scrubVisit => Sys2Proof.Machine.execScrubVisit s
  | .refreshExpiry => Sys2Proof.Machine.execRefreshExpiry s
  | .endOfSending => Sys2Proof.Machine.execEndOfSending s
  | .faultOccurrence index => Sys2Proof.Machine.execFaultOccurrence index s
  | .storageError channel bits => Sys2Proof.Machine.execStorageError channel bits s
  | .rstNRise => Sys2Proof.Machine.execRstNRise s

end Sys2Proof.Machine
end

