-- ==== Sys2Proof/Safety.lean ====
section
/-! DEFINITION. What the claims about the machine are made of: when a request reaches its own rule, what an answer
leaves at the ports, what an event does to one record and nothing else, what the check of a call part and the codes that
wait leave, and the laws that every step keeps. -/

namespace Sys2Proof.Machine

/-! ## The call part at entry to a state (R5 to R11) -/

def idleCall : CallPart := ⟨.idle, .none, none, .is .free, none, noFlags, false, none⟩

/-- R88. -/
def guardCall (c : GroupConfig) (f : BlockFlags) : CallPart :=
  ⟨.guard, .none, none, .is .free, load c.guard, f, false, none⟩

/-- R57; the channel that lost the glare where a rehunt seizes (R11). -/
def outSeizedCall (c : GroupConfig) (r : Reference) (loser : Option ChannelNo) : CallPart :=
  ⟨.outSeized, .outgoing, some r, .is .seize, load c.proceed, noFlags, loser.isSome, loser⟩

/-- R65. -/
def inSeizedCall (c : GroupConfig) (f : BlockFlags) : CallPart :=
  ⟨.inSeized, .incoming, none, .is .proceed, load c.offer, f, false, none⟩

/-- R5: BLOCK with LOCAL or DRAIN among the flags, FREE with REMOTE alone. -/
def blockedCall (f : BlockFlags) : CallPart :=
  ⟨.blocked, .none, none, if f.locally || f.drain then .is .block else .is .free, none, f, false, none⟩

/-- R9. -/
def faultCall (x : FaultCause) (f : BlockFlags) : CallPart := ⟨.fault x, .none, none, .is .block, none, f, false, none⟩

/-! ## Requests and their answers -/

/-- The port waits for its long request (R185). -/
def PortState.isWorking : PortState → Bool
  | .working _ => true
  | .idle | .ready _ => false

/-- The port, the tag, the code and the body of a request of the catalogue (R191). -/
def requestOfCommand : Instr → Option (PortNo × Byte × RequestCode × List Byte)
  | .hunt p tag body => some (p, tag, .hunt, body)
  | .seize p tag body => some (p, tag, .seize, body)
  | .accept p tag body => some (p, tag, .accept, body)
  | .answer p tag body => some (p, tag, .answer, body)
  | .release p tag body => some (p, tag, .release, body)
  | .block p tag body => some (p, tag, .block, body)
  | .unblock p tag body => some (p, tag, .unblock, body)
  | .resetChannel p tag body => some (p, tag, .resetChannel, body)
  | .drain p tag body => some (p, tag, .drain, body)
  | .undrain p tag body => some (p, tag, .undrain, body)
  | .readChannel p tag body => some (p, tag, .readChannel, body)
  | .readGroup p tag body => some (p, tag, .readGroup, body)
  | .readSpan p tag body => some (p, tag, .readSpan, body)
  | .nextAttention p tag body => some (p, tag, .nextAttention, body)
  | .readFaults p tag body => some (p, tag, .readFaults, body)
  | .setSpan p tag body => some (p, tag, .setSpan, body)
  | .clearSpan p tag body => some (p, tag, .clearSpan, body)
  | .equip p tag body => some (p, tag, .equip, body)
  | .unequip p tag body => some (p, tag, .unequip, body)
  | .setGroup p tag body => some (p, tag, .setGroup, body)
  | .deleteGroup p tag body => some (p, tag, .deleteGroup, body)
  | .loadProfile p tag body => some (p, tag, .loadProfile, body)
  | .setFaultClass p tag body => some (p, tag, .setFaultClass, body)
  | .clearFaults p tag body => some (p, tag, .clearFaults, body)
  | .setPort p tag body => some (p, tag, .setPort, body)
  | .setDevice p tag body => some (p, tag, .setDevice, body)
  | .transfer p tag body => some (p, tag, .transfer, body)
  | .restart p tag body => some (p, tag, .restart, body)
  | _ => none

/-- The permission that the catalogue gives a request (R187, R191). -/
def permission (p : PortNo) (body : List Byte) (s : State) : RequestCode → Bool
  | .block | .unblock => permitChannelMaintenance p body s
  | .drain | .undrain => permitGroupMaintenance p body s
  | .resetChannel | .setSpan | .clearSpan | .equip | .unequip | .setGroup | .deleteGroup | .loadProfile
  | .setFaultClass | .clearFaults | .setPort | .setDevice | .transfer | .restart => (s.port p).admin
  | .hunt | .seize | .accept | .answer | .release | .readChannel | .readGroup | .readSpan | .nextAttention
  | .readFaults => true

/-- The command that takes a due event in a state (R10, R108, R134, R150, R161, R180, R195; log 6). -/
def TakenBy (s : State) (d : DueEvent) (c : Instr) : Prop :=
  match d with
  | .supervision n =>
    (s.call n).state = .guard ∧ c = .guardExpiry n ∨ (s.call n).state = .outSeized ∧ c = .proceedTimeout n ∨
    (s.call n).state = .outWaitAnswer ∧ c = .answerTimeout n ∨ (s.call n).state = .inSeized ∧ c = .offerTimeout n ∨
    (s.call n).state = .clearingLocal ∧ c = .releaseStuck n ∨ (s.call n).state = .clearingRemote ∧ c = .autoReleased n
  | .silence sp => c = .silenceExpiry sp
  | .purge => c = .purgeVisit
  | .sweep => c = .sweepVisit
  | .scrub => c = .scrubVisit
  | .refresh => c = .refreshExpiry
  | .restart => c = .restartCompletion

namespace State

/-- A request at port p passes checks 1 to 3 of admission: RST_N is High, the port is enabled and not WORKING, and no
restart is in flight (R182, R185, R187). -/
def Admits (s : State) (p : PortNo) : Prop :=
  s.rstN = true ∧ (s.port p).state.isWorking = false ∧ (s.port p).enabled = true ∧ s.restart = none

/-- Port p is READY in t with this response, which took the overrun flag of s with it; nothing else of a port record
changed but the characters last driven on SDO at p (R184 to R186). -/
def Answered (p : PortNo) (tag : Byte) (status : Status) (body : List Byte) (s t : State) : Prop :=
  (∃ sdo, t.port p =
    { s.port p with state := .ready ⟨tag, status, (s.port p).overrun, body⟩, overrun := false, sdo := sdo }) ∧
  ∀ q, q ≠ p → t.port q = s.port q

/-- A refused request: the answer, and nothing else (R187, R192). -/
def Refused (p : PortNo) (tag : Byte) (status : Status) (s t : State) : Prop :=
  Answered p tag status [] s t ∧ t = { s with ports := t.ports, freeCount := t.freeCount }

/-! ## What an event leaves -/

/-- The state that an event leaves, with the build event it brings about: the transmitter is IDLE, no restart is in
flight, and a span gains an update pending (R178, R181; log 12). -/
def built (s u : State) : State := if s.gains u then u.buildIfIdle else u

/-- No channel record but that of n changed. -/
def OnlyChannel (n : ChannelNo) (s u : State) : Prop := ∀ m, m ≠ n → u.channel m = s.channel m

/-- The call part of channel n was written, with a new check word; nothing else of a channel record changed (R1). -/
def CallWritten (n : ChannelNo) (c : CallPart) (s u : State) : Prop :=
  u.channel n = { s.channel n with call := c, errors := [] } ∧ OnlyChannel n s u

/-- The position joined its dirty set if the channel's transmitted code is not what it was; nothing else of the line
link changed (R31, R32). -/
def Marked (n : ChannelNo) (s u : State) : Prop :=
  u.link = if u.presentCode n = s.presentCode n then s.link else (s.markDirty n).link

/-- The channel is out of its group's idle queue; nothing else of a group record changed (R41). -/
def LeftIdle (n : ChannelNo) (s u : State) : Prop :=
  ∀ g, u.group g = { s.group g with
    idle := if s.groupOf n = some g then (s.group g).idle.filter (· ≠ n) else (s.group g).idle }

/-- The entry stands in the lowest free way of its reference's set, and nothing else of the index changed (R125). -/
def Bound (e : IndexEntry) (s u : State) : Prop :=
  ∃ w : WayNo, (s.index.get (setOf e.reference)).get w = none ∧
    (∀ v, v < w → ((s.index.get (setOf e.reference)).get v).isSome = true) ∧
    u.index = s.index.update (setOf e.reference) fun ways => ways.set w (some e)

/-- The entry of the reference, if one is given, is free, and nothing else of the index changed (R126). -/
def Freed (r : Option Reference) (s u : State) : Prop :=
  ∀ k w, (u.index.get k).get w =
    if r.any (fun r => k = setOf r && ((s.index.get k).get w).any fun e => e.reference = r) then none
    else (s.index.get k).get w

/-- These reasons were added, in this order, each to the list of its port; nothing else of the lists changed (R139). -/
def Told (adds : List (PortNo × AttentionObject × Reason)) (s u : State) : Prop :=
  ∀ q, u.list q = adds.foldl (fun l a => if a.1 = q then addReason a.2.1 a.2.2 l else l) (s.list q)

/-- These occurrences were reported to the Fault Unit, in this order; nothing else of it changed (R164). -/
def Reported (l : List Occurrence) (s u : State) : Prop :=
  u.faults = { s.faults with reported := s.faults.reported ++ l }

/-- The drain of the channel's group that an event completes, with its drain port: the group is draining, the end is not
yet reported, and every member is out of use (R51). -/
def drainEnds (n : ChannelNo) (s u : State) : Option (GroupNo × PortNo) :=
  match s.groupOf n with
  | some g =>
    match (s.group g).drainPort with
    | some q => if !(s.group g).drainReported && (s.group g).members.all (u.outOfUse ·) then some (g, q) else none
    | none => none
  | none => none

/-- The channel is out of its group's idle queue, and drain reported became yes where the drain ends; nothing else of a
group record changed (R41, R51). -/
def LeftIdleChecked (n : ChannelNo) (s u : State) : Prop :=
  ∀ g, u.group g = { s.group g with
    idle := if s.groupOf n = some g then (s.group g).idle.filter (· ≠ n) else (s.group g).idle
    drainReported := (s.group g).drainReported || (drainEnds n s u).any fun e => e.1 = g }

/-- The channel joined the tail of its group's idle queue; nothing else of a group record changed (R41). -/
def JoinedIdle (n : ChannelNo) (s u : State) : Prop :=
  ∀ g, u.group g = { s.group g with
    idle := if s.groupOf n = some g then (s.group g).idle ++ [n] else (s.group g).idle }

/-- The reason that the end of a drain adds (R51). -/
def drainAdds (n : ChannelNo) (s u : State) : List (PortNo × AttentionObject × Reason) :=
  match drainEnds n s u with
  | some (g, q) => [(q, .group g, .drained)]
  | none => []

/-- Channel n with flags f has settled, by the first case of R90 that holds, with the effects of R91: BLOCKED, where LOCAL
or DRAIN is among the flags or BLOCK is received; IN_SEIZED, where SEIZE is received and the direction lets it in; else
IDLE, out of sequence where SEIZE is received. -/
def Settled (n : ChannelNo) (f : BlockFlags) (s u : State) : Prop :=
  let received := (s.line n).received
  let remote := decide (received = some (.is .block))
  if f.locally || f.drain || remote then
    CallWritten n (blockedCall { f with remote := remote }) s u ∧ Marked n s u ∧ LeftIdleChecked n s u ∧
    Freed (s.call n).reference s u ∧
    Told ((if remote && !f.remote then [((s.config n).maintenance, .channel n, .channel .farBlocked)] else []) ++
      drainAdds n s u) s u ∧
    u = { s with channels := u.channels, groups := u.groups, index := u.index, link := u.link, lists := u.lists }
  else if received = some (.is .seize) ∧ (s.equipment n).direction ≠ .outgoingOnly then
    CallWritten n (inSeizedCall (s.config n) noFlags) s u ∧ Marked n s u ∧ LeftIdle n s u ∧
    Told [((s.config n).maintenance, .channel n, .channel .offered)] s u ∧
    u = { s with channels := u.channels, groups := u.groups, link := u.link, lists := u.lists }
  else
    CallWritten n idleCall s u ∧ Marked n s u ∧ JoinedIdle n s u ∧
    Reported (if received = some (.is .seize) then
      [⟨.sequence, some (spanOf n), some n, none, none, some (s.call n).state⟩] else []) s u ∧
    u = { s with channels := u.channels, groups := u.groups, link := u.link, faults := u.faults }

/-- The state that an answered request leaves, but for the answer: the ports and the drawn counter as they were in s. -/
def apart (s u : State) : State := { u with ports := s.ports, freeCount := s.freeCount }

/-- One event reaches each thing of a list in its order (R49, R52). -/
def Reaches {α : Type} (one : α → State → State → Prop) : List α → State → State → Prop
  | [], s, u => u = s
  | a :: rest, s, u => ∃ t, one a s t ∧ Reaches one rest t u

/-- A channel of which no bit is in error has taken a span-down (R114). -/
def TookDown (n : ChannelNo) (s u : State) : Prop :=
  let flags := { (s.call n).flags with remote := false }
  match (s.call n).state with
  | .unequipped => u = s
  | .fault _ => CallWritten n { s.call n with flags := flags } s u ∧ u = { s with channels := u.channels }
  | state =>
    CallWritten n (faultCall .span flags) s u ∧ Marked n s u ∧ LeftIdleChecked n s u ∧ Freed (s.call n).reference s u ∧
    Told ((if state ∈ [.idle, .guard, .blocked] then [] else [(s.callPort n, .channel n, .channel .spanDown)]) ++
      drainAdds n s u) s u ∧
    u = { s with channels := u.channels, groups := u.groups, index := u.index, link := u.link, lists := u.lists }

/-- A channel of which no bit is in error has taken a span-up (R115). -/
def TookUp (n : ChannelNo) (s u : State) : Prop :=
  if (s.call n).state = .fault .span then
    CallWritten n (guardCall (s.config n) (s.call n).flags) s u ∧ Marked n s u ∧ LeftIdle n s u ∧
    Freed (s.call n).reference s u ∧
    u = { s with channels := u.channels, groups := u.groups, index := u.index, link := u.link }
  else u = s

/-! ## Integration -/

/-- The position's code no longer waits, and its line part is the one given; nothing else changed (R22, R176). -/
def lineTaken (n : ChannelNo) (l : LinePart) (s : State) : State :=
  { s with
    channels := s.channels.update n fun r => { r with line := l }
    spans := s.spans.update (spanOf n) fun r => { r with handed := r.handed.set (positionOf n) none } }

/-- The position of the channel takes code x at depth D and adopts it: the code is not the stable one, and it completes
the candidate, or the depth is 1 (R22, R23). -/
def Adopts (s : State) (n : ChannelNo) (x : LineCode) : Prop :=
  (s.span (spanOf n)).handed.get (positionOf n) = some x ∧ (s.line n).stable ≠ some x ∧
  ∃ c, (s.span (spanOf n)).config = some c ∧
    ((s.line n).candidate = some x ∧ (s.line n).count + 1 = c.depth ∨ (s.line n).candidate ≠ some x ∧ c.depth = 1)

/-- The adoption of x raises a condition change to r at an equipped channel (R27): the new received condition differs
from the one before, or there was none and the new one is not FREE. -/
def Raises (s : State) (n : ChannelNo) (x : LineCode) (r : Received) : Prop :=
  s.Adopts n x ∧ s.equipped n = true ∧ s.meaning n x = r ∧
  ((s.line n).received = none ∧ r ≠ .is .free ∨ ∃ old, (s.line n).received = some old ∧ r ≠ old)

/-- It raises the change at a channel of which no bit is in error, so the event goes on (R28). -/
def Brings (s : State) (n : ChannelNo) (x : LineCode) (r : Received) : Prop :=
  s.Raises n x r ∧ (s.channel n).errors = []

/-- The state at the condition change that the adoption of x raises: the line part is written first (R27). -/
def adopted (n : ChannelNo) (x : LineCode) (s : State) : State := s.lineTaken n ⟨some x, none, 0, some (s.meaning n x)⟩

/-- The codes that wait at the spans of p are taken in some order, each as a POSITION_INTEGRATION of its own: which order is
open, and so is what the drawn counter stands at (R176; log 7, log 23). Where none waits, t is s. -/
def CodesTaken (p : SpanNo → Bool) (s t : State) : Prop :=
  ∃ (order : List ChannelNo) (w : State),
    order.Perm ((List.finRange 512).filter fun n =>
      p (spanOf n) && ((s.span (spanOf n)).handed.get (positionOf n)).isSome) ∧
    Reaches (fun n u v => ∃ k, exec (.positionIntegration n) { u with freeCount := k } = .next v) order s w ∧
    t = { w with freeCount := s.freeCount }

/-! ## Checks of a call part (R156 to R160) -/

/-- The one bit in error of n's call part is corrected, found by the request given, if one found it: a new check word, one
occurrence with the channel's state, and nothing else (R157). -/
def corrected (n : ChannelNo) (found : Finder) (s : State) : State :=
  { s with
    channels := s.channels.update n fun r => { r with errors := [] }
    faults := { s.faults with reported := s.faults.reported ++
      [⟨.recordCorrected, some (spanOf n), some n, found.map (·.1), found.map (·.2), some (s.call n).state⟩] } }

/-- Two bits of n's call part were in error, found by the request given, if one found it, and the record is lost (R158). At an
unequipped channel the call part is written anew and nothing else (R160). At an equipped one it is FAULT(RECORD), the
channel is purge pending with 128 visits unless it was so before, and its position is marked whatever code it sent (R31);
it is out of the idle queue and the drain completion check is made, but for a channel that was in FAULT(RECORD) already
(R160; log 15). -/
def Lost (n : ChannelNo) (found : Finder) (s u : State) : Prop :=
  Reported [⟨.recordLost, some (spanOf n), some n, found.map (·.1), found.map (·.2), none⟩] s u ∧
  if s.equipped n = false then
    CallWritten n ⟨.unequipped, .none, none, .fill, none, noFlags, false, none⟩ s u ∧
    u = { s with channels := u.channels, faults := u.faults }
  else
    CallWritten n (faultCall .record noFlags) s u ∧ u.link = (s.markDirty n).link ∧
    u.purge = (if s.purgePending n = true then s.purge else { s.purge with lost := s.purge.lost ++ [⟨n, 128⟩] }) ∧
    if (s.call n).state = .fault .record then
      u = { s with channels := u.channels, purge := u.purge, link := u.link, faults := u.faults }
    else
      LeftIdleChecked n s u ∧ Told (drainAdds n s u) s u ∧
      u = { s with channels := u.channels, groups := u.groups, purge := u.purge, link := u.link, lists := u.lists,
                   faults := u.faults }

/-- A command whose event checks n's call part, having left `begun` before: one bit in error is corrected and the event goes
on as on a clean record; two lose the record, and nothing else remains of the event (R157, R159). -/
def ChecksFirst (c : Instr) (n : ChannelNo) (s begun : State) : Prop :=
  (∀ b, (s.channel n).errors = [b] → exec c s = exec c (s.corrected n none)) ∧
  ∀ a b, (s.channel n).errors = [a, b] → ∃ u, exec c s = .next (s.built u) ∧ Lost n none begun u

/-- A request at port p that checks n's call part: one bit in error is corrected and the request goes on as on a clean record;
two lose the record, and the answer is RECORD_FAULT (R157, R159). -/
def RequestChecks (c : Instr) (p : PortNo) (tag : Byte) (code : RequestCode) (n : ChannelNo) (s : State) : Prop :=
  (∀ b, (s.channel n).errors = [b] → exec c s = exec c (s.corrected n (some (p, code)))) ∧
  ∀ a b, (s.channel n).errors = [a, b] →
    ∃ u, exec c s = .next (s.built u) ∧ Answered p tag .recordFault [] s u ∧ Lost n (some (p, code)) s (s.apart u)

/-- A request reaches member n of its group: w is the state after the check of its call part (R38, R49, R52, R159). -/
def MemberChecked (n : ChannelNo) (found : Finder) (s w : State) : Prop :=
  match (s.channel n).errors with
  | [] => w = s
  | [_] => w = s.corrected n found
  | _ => Lost n found s w

/-- The same where the rest of the request is not carried out at a member whose record is lost (R159). -/
def AtMember (n : ChannelNo) (found : Finder) (rest : State → State → Prop) (s t : State) : Prop :=
  ∃ w, MemberChecked n found s w ∧ if (s.channel n).errors.length < 2 then rest w t else t = w

end State

/-! ## Laws that every step keeps -/

/-- At least one port is enabled with administrative right (R188). -/
def AdminPresent (s : State) : Prop := ∃ p, (s.port p).enabled = true ∧ (s.port p).admin = true

/-- Every valid entry lies in the set its reference selects, and no two valid entries hold one reference (R121, R123). -/
def IndexLawful (s : State) : Prop :=
  (∀ k w e, (s.index.get k).get w = some e → setOf e.reference = k) ∧
  ∀ k w e k' w' e', (s.index.get k).get w = some e → (s.index.get k').get w' = some e' →
    e.reference = e'.reference → k = k' ∧ w = w'

/-- The transmit codes of every profile are distinct (R17, R19). -/
def CodesDistinct (s : State) : Prop := ∀ k, (s.profiles.get k).transmit.cells.Nodup

/-- The span is SUSPECT, FAILED or RECOVERING (R24, R111). -/
def isFrozen : SpanState → Bool
  | .suspect | .failed _ | .recovering _ => true
  | .unused | .starting | .inService => false

/-- A code waits to be taken only at a configured span that is STARTING or IN_SERVICE (R21, R176). -/
def HandedInService (s : State) : Prop :=
  ∀ sp p, ((s.span sp).handed.get p).isSome = true →
    (s.span sp).config.isSome = true ∧ ((s.span sp).state = .starting ∨ (s.span sp).state = .inService)

/-- The depth of every configured span is 1 to 7 (R101); a candidate count is less than its span's depth, and 0 where
no span is configured and where there is no candidate (R3, R25). -/
def CountsLawful (s : State) : Prop :=
  (∀ sp c, (s.span sp).config = some c → 1 ≤ c.depth ∧ c.depth ≤ 7) ∧
  (∀ n c, (s.span (spanOf n)).config = some c → (s.line n).count < c.depth) ∧
  (∀ n, (s.span (spanOf n)).config = none → (s.line n).count = 0) ∧
  ∀ n, (s.line n).candidate = none → (s.line n).count = 0

/-- The reason is of those that a member of this kind carries (R138). -/
def drawnFrom : AttentionObject → Reason → Bool
  | .channel _, .channel _ | .group _, .drained | .span _, .span _ | .fault, .fault _ => true
  | _, _ => false

/-- An attention list as R138 has it: no member stands in it twice, and each carries reasons of its kind, at least one and
none twice. -/
def ListLawful (l : List Member) : Prop :=
  (l.map (·.object)).Nodup ∧ ∀ m ∈ l, m.reasons ≠ [] ∧ m.reasons.Nodup ∧ ∀ r ∈ m.reasons, drawnFrom m.object r = true

def ListsLawful (s : State) : Prop := ∀ q, ListLawful (s.list q)

/-- Six laws together: R188, R121 with R123, R17 with R19, R3 with R25 and R101, R21 with R176, and R138. The laws that
tie one block's records to another's (R8, R35, R40, R41, R127, R130) are not among them. -/
def Lawful (s : State) : Prop :=
  AdminPresent s ∧ IndexLawful s ∧ CodesDistinct s ∧ CountsLawful s ∧ HandedInService s ∧ ListsLawful s

end Sys2Proof.Machine
end

