-- ==== Sys2Proof/Certificates/Slice0/Obligations.lean ====
section
/-! DEFINITION. The statements about the machine. "The event leaves u" reads: exec answers next (s.built u), where built
adds the build event that the event brings about (R178; log 12). -/

open Sys2Proof Sys2Proof.Machine Sys2Proof.Machine.State

/-! ## The queue, reset and time -/

/-- A step takes the command at the front of the queue, on the state with the queue's rest; on an empty queue the block
idles. Both are the model's choices (log 1, log 2). -/
def Obligations.StepTakesFrontCommand : Prop :=
  (∀ (c : Instr) (rest : List Instr) (s : State), step { s with pending := c :: rest } = exec c { s with pending := rest }) ∧
  ∀ s : State, s.pending = [] → step s = .next s

/-- No command stops the block, and none reaches into the queue (R158, R174, R192; log 1). -/
def Obligations.EveryCommandCompletes : Prop :=
  ∀ (c : Instr) (s : State), ∃ t, exec c s = .next t ∧ t.pending = s.pending

/-- POWER_ON_RESET gives every block its power-on values, whatever was in flight (R15, R18, R48, R54, R120, R137, R155,
R163, R171, R177, R180, R184). The model's own: the waiting commands and the drawn counter stay (log 1, log 23), no
occurrence waits to be taken (log 8), sdo is empty (log 18), RST_N is Low after the command and its rise changes nothing
else, and State.reset is the state after both (log 4, log 5). -/
def Obligations.ResetGivesPowerOnValues : Prop :=
  (∀ s : State, ∃ t, exec .powerOnReset s = .next t ∧ t.rstN = false ∧
    (∀ n, t.channel n = ⟨⟨none, 0, .bothway⟩, ⟨none, none, 0, none⟩,
      ⟨.unequipped, .none, none, .fill, none, ⟨false, false, false⟩, false, none⟩, []⟩) ∧
    (∀ k, (t.profiles.get k).transmit.cells = [0x9, 0x1, 0xD, 0x5, 0xB, 0xF] ∧
      (t.profiles.get k).receive.cells =
        [.invalid, .is .seize, .invalid, .invalid, .invalid, .is .answer, .invalid, .invalid,
         .invalid, .is .free, .invalid, .is .clear, .invalid, .is .proceed, .invalid, .is .block]) ∧
    (∀ g, t.group g = ⟨none, [], [], none, none, false, []⟩) ∧
    (∀ sp, t.span sp = ⟨none, .unused, 0, 0, none, none, false, 0, .fill 32 .none, .fill 32 none⟩) ∧
    (∀ k w, (t.index.get k).get w = none) ∧ t.purge = ⟨[], 0, false⟩ ∧
    (∀ p, t.list p = []) ∧ t.transfer = none ∧
    (∀ c, t.faultClass c = ⟨true, true,
      if c ∈ [.recordLost, .spanSilent, .spanFailed, .releaseStuck] then .major else .minor, 0, 0⟩) ∧
    t.faults.first = none ∧ t.faults.later = .fill 11 false ∧ t.faults.reported = [] ∧
    t.scrub = ⟨8, 0, some 8⟩ ∧
    (∀ sp, t.linkSpan sp = ⟨.fill 32 false, false, 0⟩) ∧ t.link.transmitter = none ∧ t.link.servedLast = none ∧
    t.link.refreshInterval = 1000 ∧ t.link.refreshTimer = some 1000 ∧
    (∀ p : PortNo, t.port p = ⟨p = 0, p = 0, p = 0, .idle, false, []⟩) ∧
    t.restart = none ∧ t.millis = 0 ∧ t.freeCount = s.freeCount ∧ t.pending = s.pending) ∧
  (∀ s : State, exec .rstNRise s = .next { s with rstN := true }) ∧
  State.reset = { powerOnReset State.reset with rstN := true }

/-- Where no event is due, a timebase step counts every timer that runs down by 1, gives each walk that runs a visit,
and adds 1 to the millisecond counter; a timer that is absent or stopped stays so (R10, R108, R134, R150, R161, R166,
R180, R195). Every event that is due and that no command has taken is taken once by the next timebase step before it
counts, as its own command takes it, in an order that is open (the model's reading of R10 and R166, log 6); an event that
those before it have undone has no effect. The model's choices too: a record with bits in error counts the timer last
written and keeps its bits in error (log 11), and the timebase counts with RST_N Low (log 5). -/
def Obligations.TimebaseStepCounts : Prop :=
  (∀ s : State, dueEvents s = [] → ∃ t, exec .timebaseStep s = .next t ∧
    (∀ n, t.channel n = { s.channel n with call := { s.call n with timer := (s.call n).timer.map (· - 1) } }) ∧
    (∀ sp, t.span sp = { s.span sp with silence := (s.span sp).silence.map (· - 1) }) ∧
    t.purge = { s.purge with visitDue := !s.purge.lost.isEmpty } ∧
    t.transfer = s.transfer.map (fun x => { x with visitDue := true }) ∧
    t.scrub = { s.scrub with timer := s.scrub.timer.map (· - 1) } ∧
    t.link = { s.link with refreshTimer := s.link.refreshTimer.map (· - 1) } ∧
    t.restart = s.restart.map (fun x => { x with timer := x.timer - 1 }) ∧
    t.millis = s.millis + 1 ∧
    t = { s with channels := t.channels, spans := t.spans, purge := t.purge, transfer := t.transfer, scrub := t.scrub,
                 link := t.link, restart := t.restart, millis := t.millis }) ∧
  (∀ (s : State) (d : DueEvent) (c : Instr), dueEvents s = [d] → TakenBy s d c →
    ∃ t, exec c s = .next t ∧ exec .timebaseStep s = .next (countStep t)) ∧
  ∀ s : State, ∃ (order : List DueEvent) (t : State), order.Perm (dueEvents s) ∧
    Reaches (fun d u v => ∃ k, (∀ c, TakenBy u d c → exec c { u with freeCount := k } = .next v) ∧
      ((∀ c, ¬ TakenBy u d c) → v = { u with freeCount := k })) order s t ∧
    exec .timebaseStep s = .next (countStep t)

/-! ## The controller ports -/

/-- R182, R185, R187: a request finds RST_N Low and is no event; it finds its port WORKING, is dropped unread and leaves
overrun; else its port's enable, the restart, its permission and its length are checked in this order, and the first that
fails gives the whole effect. -/
def Obligations.RequestsAreAdmittedInOrder : Prop :=
  ∀ (c : Instr) (s : State) (p : PortNo) (tag : Byte) (code : RequestCode) (body : List Byte),
    requestOfCommand c = some (p, tag, code, body) →
    (s.rstN = false → exec c s = .next s) ∧
    (s.rstN = true → (s.port p).state.isWorking = true →
      exec c s = .next { s with ports := s.ports.update p fun r =>
        { r with overrun := true, sdo := List.replicate (4 + body.length) 0 } }) ∧
    (s.rstN = true → (s.port p).state.isWorking = false → body.length ≤ 60 →
      ((s.port p).enabled = false → ∃ t, exec c s = .next t ∧ Refused p tag .denied s t) ∧
      ((s.port p).enabled = true → s.restart ≠ none → ∃ t, exec c s = .next t ∧ Refused p tag .restarting s t) ∧
      ((s.port p).enabled = true → s.restart = none → permission p body s code = false →
        ∃ t, exec c s = .next t ∧ Refused p tag .denied s t) ∧
      ((s.port p).enabled = true → s.restart = none → permission p body s code = true →
        body.length ≠ bodyLength code → ∃ t, exec c s = .next t ∧ Refused p tag .badRequest s t))

/-- R187 check 1, R164: characters that are no request frame are answered BAD_FRAME with tag 0, with one occurrence of
PORT_FRAME; a request whose body cannot stand in a frame is one of these (log 26). R186: at a WORKING port they are
dropped unread, and overrun becomes yes. R182: while RST_N is Low they are no event. -/
def Obligations.BadFramesAndOverrunsAreTurnedAway : Prop :=
  (∀ (s : State) (p : PortNo) (f : List Byte), s.rstN = true → isRequestTransfer f = true →
    ((s.port p).state.isWorking = false → parseRequest f = none →
      ∃ t, exec (.badFrame p f) s = .next t ∧ Answered p 0 .badFrame [] s t ∧
        Reported [⟨.portFrame, none, none, some p, none, none⟩] s t ∧
        t = { s with ports := t.ports, faults := t.faults, freeCount := t.freeCount }) ∧
    ((s.port p).state.isWorking = true →
      exec (.overrun p f) s = .next { s with ports := s.ports.update p fun r =>
        { r with overrun := true, sdo := List.replicate f.length 0 } })) ∧
  (∀ (s : State) (p : PortNo) (f : List Byte), s.rstN = false →
    exec (.badFrame p f) s = .next s ∧ exec (.overrun p f) s = .next s) ∧
  ∀ (c : Instr) (s : State) (p : PortNo) (tag : Byte) (code : RequestCode) (body : List Byte),
    requestOfCommand c = some (p, tag, code, body) → 60 < body.length → s.rstN = true →
    (s.port p).state.isWorking = false →
    ∃ t, exec c s = .next t ∧ Answered p 0 .badFrame [] s t ∧
      Reported [⟨.portFrame, none, none, some p, none, none⟩] s t ∧
      t = { s with ports := t.ports, faults := t.faults, freeCount := t.freeCount }

/-- R182, R185: a read drives 0x00 in IDLE and WORKING and has no effect; in READY it drives the response's frame; a
read of fewer characters leaves the response, a complete one consumes it. The characters beyond the frame are open
(log 18). While RST_N is Low a read is no event. R183, R192: the frame is the ready marker, the tag, the status code, the
flags with OVERRUN in bit 0, the length, the body and a CRC-8 over all of these. -/
def Obligations.ReadsConsumeTheResponse : Prop :=
  (∀ r : Response,
    let head : List Byte := [0xA5#8, r.tag,
      BitVec.ofNat 8 ([Status.ok, .denied, .badFrame, .badRequest, .notEquipped, .wrongState, .notOwner, .noChannel,
        .groupDraining, .spanDown, .refInUse, .refSetFull, .refUnknown, .recordFault, .inUse, .busy, .restarting,
        .aborted, .empty].idxOf r.status),
      if r.overrun then 0x01#8 else 0x00#8, BitVec.ofNat 8 r.body.length] ++ r.body
    responseFrame r = head ++ [crc8 head]) ∧
  (∀ (s : State) (p : PortNo) (k : Nat), s.rstN = false → exec (.responseRead p k) s = .next s) ∧
  ∀ (s : State) (p : PortNo) (k : Nat), s.rstN = true → 1 ≤ k →
    ((∀ r, (s.port p).state ≠ .ready r) →
      exec (.responseRead p k) s = .next { s with ports := s.ports.update p fun r =>
        { r with sdo := List.replicate k 0 } }) ∧
    ∀ r, (s.port p).state = .ready r →
      (k < (responseFrame r).length →
        exec (.responseRead p k) s = .next { s with ports := s.ports.update p fun x =>
          { x with sdo := (responseFrame r).take k } }) ∧
      ((responseFrame r).length ≤ k → ∃ beyond : List Byte, beyond.length = k - (responseFrame r).length ∧
        exec (.responseRead p k) s = .next { s with
          ports := s.ports.update p fun x => { x with state := .idle, sdo := responseFrame r ++ beyond }
          freeCount := s.freeCount + (k - (responseFrame r).length) })

/-- R183, R187, R191: check 1 passes exactly the frames that the layout makes of a request, and reads back its code, its
tag and its body. -/
def Obligations.RequestFramesReadBack : Prop :=
  ∀ (f : List Byte) (c : RequestCode) (tag : Byte) (body : List Byte),
    parseRequest f = some (c, tag, body) ↔ f = requestFrame c tag body ∧ body.length ≤ 60

/-! ## Calls from this end -/

/-- R42: the four tests of eligibility. R43: a hunt looks at the members in the order of its policy and chooses the first
that is eligible: the member list upward or downward, the idle queue, or the cyclic order that starts after the cursor
and ends with the cursor's own channel. -/
def Obligations.HuntChoosesByPolicy : Prop :=
  ∀ (s : State) (g : GroupNo) (c : GroupConfig), (s.group g).config = some c →
    (∀ n, s.eligible g n = true ↔ n ∈ (s.group g).idle ∧ (s.equipment n).direction ≠ .incomingOnly ∧
      (s.span (spanOf n)).state = .inService ∧ (c.skipFarAlarm = true → (s.span (spanOf n)).farAlarm = false)) ∧
    (∀ order : List ChannelNo,
      (c.policy = .firstUp ∧ order = (s.group g).members ∨
       c.policy = .firstDown ∧ order = (s.group g).members.reverse ∨
       c.policy = .longestIdle ∧ order = (s.group g).idle ∨
       c.policy = .rotate ∧ (s.group g).cursor = none ∧ order = (s.group g).members ∨
       c.policy = .rotate ∧ ∃ before cursor after, (s.group g).cursor = some cursor ∧ cursor ∉ before ∧
         (s.group g).members = before ++ cursor :: after ∧ order = after ++ before ++ [cursor]) →
      (s.chosen g = none ↔ ∀ n ∈ order, s.eligible g n = false) ∧
      ∀ n, s.chosen g = some n ↔ ∃ passed rest, order = passed ++ n :: rest ∧ s.eligible g n = true ∧
        ∀ m ∈ passed, s.eligible g m = false)

/-- R45, R46, R57, R124, R125, R44: an accepted HUNT seizes the chosen member for the port, with the reference bound to
it, moves the rotate cursor to it and answers its number. -/
def Obligations.HuntSeizesTheChosenMember : Prop :=
  ∀ (s : State) (p : PortNo) (tag gb r2 r1 r0 : Byte) (g : GroupNo) (c : GroupConfig) (n : ChannelNo),
    s.Admits p → groupField gb = some g → (s.group g).config = some c → (s.group g).drainPort = none →
    reference3 r2 r1 r0 ≠ 0 → s.entryOf (reference3 r2 r1 r0) = none →
    (∃ w, (s.index.get (setOf (reference3 r2 r1 r0))).get w = none) →
    s.chosen g = some n → (s.channel n).errors = [] →
    ∃ u, exec (.hunt p tag [gb, r2, r1, r0]) s = .next (s.built u) ∧
      Answered p tag .ok (chars2 n.val) s u ∧
      CallWritten n (outSeizedCall (s.config n) (reference3 r2 r1 r0) none) s u ∧ Marked n s u ∧
      Bound ⟨reference3 r2 r1 r0, n, p⟩ s u ∧
      (∀ h, u.group h = { s.group h with
        idle := if s.groupOf n = some h then (s.group h).idle.filter (· ≠ n) else (s.group h).idle
        cursor := if h = g ∧ c.policy = .rotate then some n else (s.group h).cursor }) ∧
      u = { s with channels := u.channels, groups := u.groups, index := u.index, link := u.link, ports := u.ports,
                   freeCount := u.freeCount }

/-- R55, R56, R57, R125: an accepted SEIZE seizes the channel it names for the port, with the reference bound to it; the
rotate cursor stays. -/
def Obligations.SeizeSeizesItsChannel : Prop :=
  ∀ (s : State) (p : PortNo) (tag hi lo r2 r1 r0 : Byte) (n : ChannelNo) (g : GroupNo),
    s.Admits p → channelField hi lo = some n → s.groupOf n = some g → (s.group g).drainPort = none →
    reference3 r2 r1 r0 ≠ 0 → s.entryOf (reference3 r2 r1 r0) = none →
    (∃ w, (s.index.get (setOf (reference3 r2 r1 r0))).get w = none) →
    (s.span (spanOf n)).state = .inService → (s.channel n).errors = [] → (s.call n).state = .idle →
    (s.equipment n).direction ≠ .incomingOnly →
    ∃ u, exec (.seize p tag [hi, lo, r2, r1, r0]) s = .next (s.built u) ∧
      Answered p tag .ok [] s u ∧
      CallWritten n (outSeizedCall (s.config n) (reference3 r2 r1 r0) none) s u ∧ Marked n s u ∧
      Bound ⟨reference3 r2 r1 r0, n, p⟩ s u ∧ LeftIdle n s u ∧
      u = { s with channels := u.channels, groups := u.groups, index := u.index, link := u.link, ports := u.ports,
                   freeCount := u.freeCount }

/-- R66, R67, R125: an accepted ACCEPT takes the offer of an IN_SEIZED channel: IN_ALERTING, the offer timer absent, the
reference bound to the port; role, flags, transmitted condition and rehunt fields stay. -/
def Obligations.AcceptBindsTheOffer : Prop :=
  ∀ (s : State) (p : PortNo) (tag hi lo r2 r1 r0 : Byte) (n : ChannelNo),
    s.Admits p → channelField hi lo = some n → s.equipped n = true → (s.channel n).errors = [] →
    (s.call n).state = .inSeized → reference3 r2 r1 r0 ≠ 0 → s.entryOf (reference3 r2 r1 r0) = none →
    (∃ w, (s.index.get (setOf (reference3 r2 r1 r0))).get w = none) →
    ∃ u, exec (.accept p tag [hi, lo, r2, r1, r0]) s = .next (s.built u) ∧
      Answered p tag .ok [] s u ∧
      CallWritten n { s.call n with
        state := .inAlerting, timer := none, reference := some (reference3 r2 r1 r0) } s u ∧
      Bound ⟨reference3 r2 r1 r0, n, p⟩ s u ∧
      u = { s with channels := u.channels, index := u.index, ports := u.ports, freeCount := u.freeCount }

/-- R71, R128: an accepted ANSWER of the owner, at the channel its target names, enters CONNECTED and transmits the
condition of the channel's role; role, reference, flags and rehunt fields stay. -/
def Obligations.AnswerConnects : Prop :=
  ∀ (s : State) (p : PortNo) (tag k a b c : Byte) (target : Target) (n : ChannelNo),
    s.Admits p → targetField k a b c = some target → resolveTarget s target = .ok n → (s.channel n).errors = [] →
    s.ownerOf n = some p → (s.call n).state = .inAlerting →
    ∃ u, exec (.answer p tag [k, a, b, c]) s = .next (s.built u) ∧
      Answered p tag .ok [] s u ∧
      CallWritten n { s.call n with
        state := .connected, timer := none
        transmitted := if (s.call n).role = .incoming then .is .answer else .is .seize } s u ∧ Marked n s u ∧
      u = { s with channels := u.channels, link := u.link, ports := u.ports, freeCount := u.freeCount }

/-- R79, R80: the owner's RELEASE. From the states of a call in progress it enters CLEARING_LOCAL, transmits CLEAR and
loads the release-confirm timer, all else of the call part kept; from CLEARING_REMOTE it enters GUARD and unbinds (R88);
in CLEARING_LOCAL it is answered OK and changes nothing. -/
def Obligations.ReleaseEndsTheCall : Prop :=
  ∀ (s : State) (p : PortNo) (tag k a b c : Byte) (target : Target) (n : ChannelNo),
    s.Admits p → targetField k a b c = some target → resolveTarget s target = .ok n → (s.channel n).errors = [] →
    s.ownerOf n = some p →
    ((s.call n).state ∈ [.outSeized, .outWaitAnswer, .inAlerting, .connected] →
      ∃ u, exec (.release p tag [k, a, b, c]) s = .next (s.built u) ∧ Answered p tag .ok [] s u ∧
        CallWritten n { s.call n with
          state := .clearingLocal, transmitted := .is .clear, timer := load (s.config n).releaseConfirm } s u ∧
        Marked n s u ∧
        u = { s with channels := u.channels, link := u.link, ports := u.ports, freeCount := u.freeCount }) ∧
    ((s.call n).state = .clearingRemote →
      ∃ u, exec (.release p tag [k, a, b, c]) s = .next (s.built u) ∧ Answered p tag .ok [] s u ∧
        CallWritten n (guardCall (s.config n) (s.call n).flags) s u ∧ Marked n s u ∧ LeftIdle n s u ∧
        Freed (s.call n).reference s u ∧
        u = { s with channels := u.channels, groups := u.groups, index := u.index, link := u.link, ports := u.ports,
                     freeCount := u.freeCount }) ∧
    ((s.call n).state = .clearingLocal →
      ∃ u, exec (.release p tag [k, a, b, c]) s = .next u ∧ Answered p tag .ok [] s u ∧
        u = { s with ports := u.ports, freeCount := u.freeCount })

/-- R45, R55, R66: the checks of HUNT, SEIZE and ACCEPT, each in its order; a request that fails one is answered with that
status, and nothing changes. R46, R78, R157, R159: the check of the call part stands in its place among them; it corrects
one bit in error, and answers RECORD_FAULT where two lose the record. -/
def Obligations.CallRequestsAreRefusedInOrder : Prop :=
  ∀ (s : State) (p : PortNo) (tag hi lo r2 r1 r0 : Byte), s.Admits p →
    (∀ status,
      (match groupField hi with
       | none => some .badRequest
       | some g =>
         if (s.group g).config = none then some .badRequest
         else if (s.group g).drainPort ≠ none then some .groupDraining
         else if reference3 r2 r1 r0 = 0 then some .badRequest
         else if s.entryOf (reference3 r2 r1 r0) ≠ none then some .refInUse
         else if ∀ w, (s.index.get (setOf (reference3 r2 r1 r0))).get w ≠ none then some .refSetFull
         else if s.chosen g = none then some .noChannel
         else none) = some status →
      ∃ t, exec (.hunt p tag [hi, r2, r1, r0]) s = .next t ∧ Refused p tag status s t) ∧
    (∀ status,
      (match channelField hi lo with
       | none => some .badRequest
       | some n =>
         match s.groupOf n with
         | none => some .notEquipped
         | some g =>
           if reference3 r2 r1 r0 = 0 then some .badRequest
           else if (s.group g).drainPort ≠ none then some .groupDraining
           else if s.entryOf (reference3 r2 r1 r0) ≠ none then some .refInUse
           else if ∀ w, (s.index.get (setOf (reference3 r2 r1 r0))).get w ≠ none then some .refSetFull
           else if (s.span (spanOf n)).state ≠ .inService then some .spanDown
           else if (s.channel n).errors ≠ [] then none
           else if (s.call n).state ≠ .idle ∨ (s.equipment n).direction = .incomingOnly then some .wrongState
           else none) = some status →
      ∃ t, exec (.seize p tag [hi, lo, r2, r1, r0]) s = .next t ∧ Refused p tag status s t) ∧
    (∀ status,
      (match channelField hi lo with
       | none => some .badRequest
       | some n =>
         if s.equipped n = false then some .notEquipped
         else if (s.channel n).errors ≠ [] then none
         else if (s.call n).state ≠ .inSeized then some .wrongState
         else if reference3 r2 r1 r0 = 0 then some .badRequest
         else if s.entryOf (reference3 r2 r1 r0) ≠ none then some .refInUse
         else if ∀ w, (s.index.get (setOf (reference3 r2 r1 r0))).get w ≠ none then some .refSetFull
         else none) = some status →
      ∃ t, exec (.accept p tag [hi, lo, r2, r1, r0]) s = .next t ∧ Refused p tag status s t) ∧
    (∀ n, channelField hi lo = some n → s.equipped n = true →
      RequestChecks (.accept p tag [hi, lo, r2, r1, r0]) p tag .accept n s) ∧
    (reference3 r2 r1 r0 ≠ 0 → s.entryOf (reference3 r2 r1 r0) = none →
      (∃ w, (s.index.get (setOf (reference3 r2 r1 r0))).get w = none) →
      (∀ g n, groupField hi = some g → (s.group g).config ≠ none → (s.group g).drainPort = none → s.chosen g = some n →
        RequestChecks (.hunt p tag [hi, r2, r1, r0]) p tag .hunt n s) ∧
      ∀ g n, channelField hi lo = some n → s.groupOf n = some g → (s.group g).drainPort = none →
        (s.span (spanOf n)).state = .inService →
        RequestChecks (.seize p tag [hi, lo, r2, r1, r0]) p tag .seize n s)

/-- R71, R79, R128, R190: a target of kind channel names an equipped channel; one of kind reference names the channel of
its valid entry, is unknown where there is none and lost while that channel is purge pending. The check of the call part
comes next (R157, R159). The requests' own checks then come in their order, and a request that fails one changes
nothing. -/
def Obligations.TargetsAndOwnersAreChecked : Prop :=
  ∀ (s : State) (p : PortNo) (tag k a b c : Byte), s.Admits p →
    (∀ n, resolveTarget s (.channel n) = if s.equipped n then .ok n else .error .notEquipped) ∧
    (∀ r, resolveTarget s (.reference r) =
      if r = 0 then .error .badRequest
      else match s.entryOf r with
        | none => .error .refUnknown
        | some e => if s.purgePending e.channel then .error .recordFault else .ok e.channel) ∧
    (∀ status,
      (match targetField k a b c with
       | none => some .badRequest
       | some target =>
         match resolveTarget s target with
         | .error status => some status
         | .ok n =>
           if (s.channel n).errors ≠ [] then none
           else if s.ownerOf n ≠ some p then some .notOwner
           else if (s.call n).state ≠ .inAlerting then some .wrongState
           else none) = some status →
      ∃ t, exec (.answer p tag [k, a, b, c]) s = .next t ∧ Refused p tag status s t) ∧
    (∀ target n, targetField k a b c = some target → resolveTarget s target = .ok n →
      RequestChecks (.answer p tag [k, a, b, c]) p tag .answer n s ∧
      RequestChecks (.release p tag [k, a, b, c]) p tag .release n s) ∧
    ∀ status,
      (match targetField k a b c with
       | none => some .badRequest
       | some target =>
         match resolveTarget s target with
         | .error status => some status
         | .ok n =>
           if (s.channel n).errors ≠ [] then none
           else if s.ownerOf n ≠ some p then some .notOwner
           else none) = some status →
      ∃ t, exec (.release p tag [k, a, b, c]) s = .next t ∧ Refused p tag status s t

/-- R48, R76: a group takes its first pending rehunt. One carried over a restart, or from before, is discarded. One whose
hunt succeeds seizes the chosen member for the carried owner, or for the target of a transfer that moves that owner's
calls, and tells it REHUNTED; one that fails, or whose owner may no longer own a call, tells the carried owner GLARE_LOST
at the channel that lost the glare. So does one whose chosen member loses its record; one bit in error is corrected and
the hunt goes on (R157, R159). A rehunt whose group has been deleted since the glare fails, also where the group has been
created again (log 30). -/
def Obligations.RehuntTriesOnce : Prop :=
  ∀ (s : State) (g : GroupNo) (r : Rehunt) (rest : List Rehunt), (s.group g).rehunts = r :: rest →
    (r.discarded = true → exec (.rehunt g) s = .next { s with groups := s.groups.update g fun x =>
      { x with rehunts := rest } }) ∧
    (r.discarded = false →
      (s.mayOwn r.owner = false ∨ r.orphaned = true ∨ (s.group g).config = none ∨ (s.group g).drainPort ≠ none ∨
        s.entryOf r.reference ≠ none ∨ (∀ w, (s.index.get (setOf r.reference)).get w ≠ none) ∨ s.chosen g = none) →
      exec (.rehunt g) s = .next { s with
        groups := s.groups.update g fun x => { x with rehunts := rest }
        lists := s.lists.update r.owner (addReason (.channel r.loser) (.channel .glareLost)) }) ∧
    ∀ c n, r.discarded = false → s.mayOwn r.owner = true → r.orphaned = false → (s.group g).config = some c →
      (s.group g).drainPort = none → s.entryOf r.reference = none →
      (∃ w, (s.index.get (setOf r.reference)).get w = none) → s.chosen g = some n →
      (∀ b, (s.channel n).errors = [b] → exec (.rehunt g) s = exec (.rehunt g) (s.corrected n none)) ∧
      (∀ a b, (s.channel n).errors = [a, b] → ∃ u v, exec (.rehunt g) s = .next (s.built u) ∧
        Lost n none { s with groups := s.groups.update g fun x => { x with rehunts := rest } } v ∧
        u = { v with lists := v.lists.update r.owner (addReason (.channel r.loser) (.channel .glareLost)) }) ∧
      ((s.channel n).errors = [] → ∃ u, exec (.rehunt g) s = .next (s.built u) ∧
        CallWritten n (outSeizedCall (s.config n) r.reference (some r.loser)) s u ∧ Marked n s u ∧
        Bound ⟨r.reference, n, s.redirect r.owner⟩ s u ∧
        Told [(s.redirect r.owner, .channel n, .channel .rehunted)] s u ∧
        (∀ h, u.group h = { s.group h with
          idle := if s.groupOf n = some h then (s.group h).idle.filter (· ≠ n) else (s.group h).idle
          cursor := if h = g ∧ c.policy = .rotate then some n else (s.group h).cursor
          rehunts := if h = g then rest else (s.group h).rehunts }) ∧
        u = { s with channels := u.channels, groups := u.groups, index := u.index, link := u.link, lists := u.lists })

/-! ## The line side of one position -/

/-- R22, R23, R26, R27: each position takes its code in one step, by the first case that holds; an adoption that raises
no condition change writes the line part alone. At an unequipped channel the received condition stays. R28, R157, R159: one
that raises a condition change checks the call part first, and where the record is lost the new codes of the line part
are all that remains of it. -/
def Obligations.PositionsIntegrateOneCode : Prop :=
  (∀ (s : State) (n : ChannelNo) (x : LineCode) (r : Received), s.Raises n x r →
    ChecksFirst (.positionIntegration n) n s (s.adopted n x)) ∧
  ∀ (s : State) (n : ChannelNo) (x : LineCode) (c : SpanConfig),
    (s.span (spanOf n)).handed.get (positionOf n) = some x → (s.span (spanOf n)).config = some c →
    ((s.line n).stable = some x →
      exec (.positionIntegration n) s = .next (s.lineTaken n { s.line n with candidate := none, count := 0 })) ∧
    ((s.line n).stable ≠ some x → (s.line n).candidate = some x → (s.line n).count + 1 ≠ c.depth →
      exec (.positionIntegration n) s = .next (s.lineTaken n { s.line n with count := (s.line n).count + 1 })) ∧
    ((s.line n).stable ≠ some x → (s.line n).candidate ≠ some x → c.depth ≠ 1 →
      exec (.positionIntegration n) s = .next (s.lineTaken n { s.line n with candidate := some x, count := 1 })) ∧
    (s.Adopts n x →
      (s.equipped n = false →
        exec (.positionIntegration n) s = .next (s.lineTaken n ⟨some x, none, 0, (s.line n).received⟩)) ∧
      (s.equipped n = true →
        ((s.line n).received = none ∧ s.meaning n x = .is .free ∨ (s.line n).received = some (s.meaning n x)) →
        exec (.positionIntegration n) s = .next (s.adopted n x)))

/-- R59, R60: received PROCEED in OUT_SEIZED enters OUT_WAIT_ANSWER, loads the answer timeout and adds PROCEEDING for the
owner; received ANSWER in OUT_SEIZED or OUT_WAIT_ANSWER enters CONNECTED and adds ANSWERED. R72, R85: FREE, CLEAR or BLOCK
received in a call that the far end may end enters CLEARING_REMOTE, keeps the transmitted condition, loads the far-clear
wait and adds FAR_CLEAR for the owner. Role, reference, flags and rehunt fields stay. -/
def Obligations.ProgressReachesTheOwner : Prop :=
  ∀ (s : State) (n : ChannelNo) (x : LineCode),
    (s.Brings n x (.is .proceed) → (s.call n).state = .outSeized →
      ∃ u, exec (.positionIntegration n) s = .next (s.built u) ∧
        CallWritten n { s.call n with state := .outWaitAnswer, timer := load (s.config n).answer } (s.adopted n x) u ∧
        Told [(s.callPort n, .channel n, .channel .proceeding)] s u ∧
        u = { s.adopted n x with channels := u.channels, lists := u.lists }) ∧
    (s.Brings n x (.is .answer) → (s.call n).state = .outSeized ∨ (s.call n).state = .outWaitAnswer →
      ∃ u, exec (.positionIntegration n) s = .next (s.built u) ∧
        CallWritten n { s.call n with
          state := .connected, timer := none
          transmitted := if (s.call n).role = .incoming then .is .answer else .is .seize } (s.adopted n x) u ∧
        Marked n (s.adopted n x) u ∧ Told [(s.callPort n, .channel n, .channel .answered)] s u ∧
        u = { s.adopted n x with channels := u.channels, link := u.link, lists := u.lists }) ∧
    ∀ c : Condition, s.Brings n x (.is c) → c ∈ [.free, .clear, .block] →
      (s.call n).state ∈ [.outWaitAnswer, .inAlerting, .connected] →
      ∃ u, exec (.positionIntegration n) s = .next (s.built u) ∧
        CallWritten n { s.call n with state := .clearingRemote, timer := load (s.config n).farClear }
          (s.adopted n x) u ∧
        Told [(s.callPort n, .channel n, .channel .farClear)] s u ∧
        u = { s.adopted n x with channels := u.channels, lists := u.lists }

/-- R61, R69, R94: received BLOCK takes a channel that carries no accepted call into BLOCKED with REMOTE added to its
flags (alone, from IDLE); a reference held is unbound; the owner learns SEIZE_FAILED, an offer ends ABANDONED, and
FAR_BLOCKED goes to the maintenance port; the drain completion check follows. -/
def Obligations.FarBlockTakesTheChannel : Prop :=
  ∀ (s : State) (n : ChannelNo) (x : LineCode), s.Brings n x (.is .block) →
    ∀ (f : BlockFlags) (adds : List (PortNo × AttentionObject × Reason)),
      ((s.call n).state = .idle ∧ f = ⟨false, false, true⟩ ∧ adds = [] ∨
       (s.call n).state = .outSeized ∧ f = { (s.call n).flags with remote := true } ∧
         adds = [(s.callPort n, .channel n, .channel .seizeFailed)] ∨
       (s.call n).state = .inSeized ∧ f = { (s.call n).flags with remote := true } ∧
         adds = [((s.config n).maintenance, .channel n, .channel .abandoned)]) →
      ∃ u, exec (.positionIntegration n) s = .next (s.built u) ∧
        CallWritten n (blockedCall f) (s.adopted n x) u ∧ Marked n (s.adopted n x) u ∧ LeftIdleChecked n s u ∧
        Freed (s.call n).reference s u ∧
        Told (adds ++ [((s.config n).maintenance, .channel n, .channel .farBlocked)] ++ drainAdds n s u) s u ∧
        u = { s.adopted n x with
              channels := u.channels, groups := u.groups, index := u.index, link := u.link, lists := u.lists }

/-- R82, R88: FREE or CLEAR received in CLEARING_LOCAL confirms the clear: GUARD, the reference unbound, CLEAR_DONE for the
former owner if there was a reference. R69: received in IN_SEIZED it abandons the offer: GUARD, ABANDONED for the
maintenance port. -/
def Obligations.ClearsEnterGuard : Prop :=
  ∀ (s : State) (n : ChannelNo) (x : LineCode) (c : Condition) (adds : List (PortNo × AttentionObject × Reason)),
    s.Brings n x (.is c) → c = .free ∨ c = .clear →
    ((s.call n).state = .clearingLocal ∧ (s.call n).reference ≠ none ∧
       adds = [(s.callPort n, .channel n, .channel .clearDone)] ∨
     (s.call n).state = .clearingLocal ∧ (s.call n).reference = none ∧ adds = [] ∨
     (s.call n).state = .inSeized ∧ adds = [((s.config n).maintenance, .channel n, .channel .abandoned)]) →
    ∃ u, exec (.positionIntegration n) s = .next (s.built u) ∧
      CallWritten n (guardCall (s.config n) (s.call n).flags) (s.adopted n x) u ∧ Marked n (s.adopted n x) u ∧
      LeftIdle n s u ∧ Freed (s.call n).reference s u ∧ Told adds s u ∧
      u = { s.adopted n x with
            channels := u.channels, groups := u.groups, index := u.index, link := u.link, lists := u.lists }

/-- R64, R65: SEIZE received in IDLE offers the channel, unless its direction is OUTGOING_ONLY (then it is out of
sequence, and the channel stays in IDLE). -/
def Obligations.FarSeizureOffers : Prop :=
  ∀ (s : State) (n : ChannelNo) (x : LineCode), s.Brings n x (.is .seize) → (s.call n).state = .idle →
    ((s.equipment n).direction = .outgoingOnly →
      exec (.positionIntegration n) s = .next { s.adopted n x with
        faults := { s.faults with reported := s.faults.reported ++
          [⟨.sequence, some (spanOf n), some n, none, none, some .idle⟩] } }) ∧
    ((s.equipment n).direction ≠ .outgoingOnly → ∃ u, exec (.positionIntegration n) s = .next (s.built u) ∧
      CallWritten n (inSeizedCall (s.config n) (s.call n).flags) (s.adopted n x) u ∧ Marked n (s.adopted n x) u ∧
      LeftIdle n s u ∧ Told [((s.config n).maintenance, .channel n, .channel .offered)] s u ∧
      u = { s.adopted n x with channels := u.channels, groups := u.groups, link := u.link, lists := u.lists })

/-- R73, R74, R75: SEIZE received in OUT_SEIZED is a glare. It is kept without effect where the direction is OUTGOING_ONLY
or the group holds. Else the channel gives up its reference and takes the far end's call; the reference and its owner go
to the group as a rehunt where rehunt is enabled and not used, and GLARE_LOST goes to the former owner where not. -/
def Obligations.GlareHoldsOrYields : Prop :=
  ∀ (s : State) (n : ChannelNo) (x : LineCode), s.Brings n x (.is .seize) → (s.call n).state = .outSeized →
    ((s.equipment n).direction = .outgoingOnly ∨ (s.config n).glare = .hold →
      exec (.positionIntegration n) s = .next (s.adopted n x)) ∧
    ∀ g r, (s.equipment n).direction ≠ .outgoingOnly → (s.config n).glare = .yield → s.groupOf n = some g →
      (s.call n).reference = some r →
      ∃ u, exec (.positionIntegration n) s = .next (s.built u) ∧
        CallWritten n (inSeizedCall (s.config n) (s.call n).flags) (s.adopted n x) u ∧ Marked n (s.adopted n x) u ∧
        Freed (some r) s u ∧
        (let hands := (s.config n).rehunt && !(s.call n).rehuntUsed
         Told ([((s.config n).maintenance, .channel n, .channel .offered)] ++
           if hands then [] else [(s.callPort n, .channel n, .channel .glareLost)]) s u ∧
         ∀ h, u.group h = { s.group h with
           idle := if s.groupOf n = some h then (s.group h).idle.filter (· ≠ n) else (s.group h).idle
           rehunts := if h = g ∧ hands = true then (s.group h).rehunts ++ [⟨r, s.callPort n, n, false, false⟩]
             else (s.group h).rehunts }) ∧
        u = { s.adopted n x with
              channels := u.channels, groups := u.groups, index := u.index, link := u.link, lists := u.lists }

/-- R29, R30, R64, R69, R72, R77, R85, R95: a change to INVALID tells the owner, or the maintenance port where there is
none, and is reported; a condition that the state does not take is reported out of sequence and changes nothing else; a
condition that it takes in silence changes nothing at all. That a received BLOCK at a BLOCKED channel with REMOTE set is
out of sequence is the model's reading (log 14), and that an equipped channel which reads UNEQUIPPED takes a change to INVALID
is its choice (log 34). -/
def Obligations.OtherConditionsLeaveTheCall : Prop :=
  ∀ (s : State) (n : ChannelNo) (x : LineCode),
    (s.Brings n x .invalid →
      exec (.positionIntegration n) s = .next { s.adopted n x with
        lists := s.lists.update (s.callPort n) (addReason (.channel n) (.channel .codeInvalid))
        faults := { s.faults with reported := s.faults.reported ++
          [⟨.codeInvalid, some (spanOf n), some n, none, none, some (s.call n).state⟩] } }) ∧
    (∀ c, s.Brings n x (.is c) →
      ((s.call n).state = .idle ∧ (c ∈ [.proceed, .answer, .clear] ∨
         c = .seize ∧ (s.equipment n).direction = .outgoingOnly) ∨
       (s.call n).state = .outSeized ∧ c = .clear ∨
       (s.call n).state = .outWaitAnswer ∧ c ∈ [.seize, .proceed] ∨
       (s.call n).state ∈ [.inSeized, .inAlerting, .connected] ∧ c ∈ [.seize, .proceed, .answer] ∨
       (s.call n).state = .blocked ∧ (c ∈ [.proceed, .answer, .clear] ∨
         c = .seize ∧ (s.call n).flags.remote = false ∨ c = .block ∧ (s.call n).flags.remote = true)) →
      exec (.positionIntegration n) s = .next { s.adopted n x with
        faults := { s.faults with reported := s.faults.reported ++
          [⟨.sequence, some (spanOf n), some n, none, none, some (s.call n).state⟩] } }) ∧
    ∀ c, s.Brings n x (.is c) →
      ((s.call n).state ∈ [.unequipped, .guard, .clearingRemote, .fault .span, .fault .record, .fault .release] ∨
       (s.call n).state = .clearingLocal ∧ c ∈ [.seize, .proceed, .answer, .block] ∨
       (s.call n).state ∈ [.idle, .outSeized] ∧ c = .free ∨
       (s.call n).state = .blocked ∧ c = .free ∧ (s.call n).flags.remote = false) →
      exec (.positionIntegration n) s = .next (s.adopted n x)

/-- R95, R5: a BLOCKED channel follows the far end's block: BLOCK sets REMOTE with FAR_BLOCKED; FREE, or a SEIZE that is
out of sequence, clears it with FAR_UNBLOCKED while LOCAL or DRAIN holds the channel. The transmitted condition follows
the flags. -/
def Obligations.BlockedFollowsTheFarEnd : Prop :=
  ∀ (s : State) (n : ChannelNo) (x : LineCode) (c : Condition) (r : ChannelReason) (l : List Occurrence),
    s.Brings n x (.is c) → (s.call n).state = .blocked →
    (c = .block ∧ (s.call n).flags.remote = false ∧ r = .farBlocked ∧ l = [] ∨
     c = .free ∧ (s.call n).flags.remote = true ∧ ((s.call n).flags.locally || (s.call n).flags.drain) = true ∧
       r = .farUnblocked ∧ l = [] ∨
     c = .seize ∧ (s.call n).flags.remote = true ∧ ((s.call n).flags.locally || (s.call n).flags.drain) = true ∧
       r = .farUnblocked ∧ l = [⟨.sequence, some (spanOf n), some n, none, none, some .blocked⟩]) →
    ∃ u, exec (.positionIntegration n) s = .next (s.built u) ∧
      (let f : BlockFlags := { (s.call n).flags with remote := decide (c = .block) }
       CallWritten n { s.call n with
         flags := f, transmitted := if f.locally || f.drain then .is .block else .is .free } (s.adopted n x) u) ∧
      Marked n (s.adopted n x) u ∧ Told [((s.config n).maintenance, .channel n, .channel r)] s u ∧ Reported l s u ∧
      u = { s.adopted n x with channels := u.channels, link := u.link, lists := u.lists, faults := u.faults }

/-- R95, R90, R91: a BLOCKED channel held by REMOTE alone, which transmits FREE (R5), settles when the far end frees it:
received FREE enters IDLE at the tail of the idle queue; received SEIZE enters IN_SEIZED, or IDLE and out of sequence
where the direction is OUTGOING_ONLY. FAR_UNBLOCKED comes with either (R142; log 13). -/
def Obligations.LastFlagClearedSettles : Prop :=
  ∀ (s : State) (n : ChannelNo) (x : LineCode) (g : GroupNo), (s.call n).state = .blocked →
    (s.call n).flags = ⟨false, false, true⟩ → (s.call n).transmitted = .is .free → s.groupOf n = some g →
    let unblocked : List (PortNo × AttentionObject × Reason) :=
      [((s.config n).maintenance, .channel n, .channel .farUnblocked)]
    (∀ l, (s.Brings n x (.is .free) ∧ l = [] ∨
        s.Brings n x (.is .seize) ∧ (s.equipment n).direction = .outgoingOnly ∧
          l = [⟨.sequence, some (spanOf n), some n, none, none, some .blocked⟩]) →
      ∃ u, exec (.positionIntegration n) s = .next (s.built u) ∧ CallWritten n idleCall (s.adopted n x) u ∧
        Told unblocked s u ∧ Reported l s u ∧
        u.group g = { s.group g with idle := (s.group g).idle ++ [n] } ∧ (∀ h, h ≠ g → u.group h = s.group h) ∧
        u = { s.adopted n x with
              channels := u.channels, groups := u.groups, lists := u.lists, faults := u.faults }) ∧
    (s.Brings n x (.is .seize) → (s.equipment n).direction ≠ .outgoingOnly →
      ∃ u, exec (.positionIntegration n) s = .next (s.built u) ∧
        CallWritten n (inSeizedCall (s.config n) noFlags) (s.adopted n x) u ∧ Marked n (s.adopted n x) u ∧
        LeftIdle n s u ∧
        Told (unblocked ++ [((s.config n).maintenance, .channel n, .channel .offered)]) s u ∧
        u = { s.adopted n x with
              channels := u.channels, groups := u.groups, link := u.link, lists := u.lists })


/-! ## Supervision timers -/

/-- R62, R63, R70: the proceed, answer and offer timers that run out clear the channel from this end: CLEARING_LOCAL,
transmitting CLEAR, the release-confirm timer loaded, all else of the call part kept; the reason goes to the owner, and of
an offer to the maintenance port. R89, R90, R91: a guard timer that has run out settles the channel. R62, R83, R89, R157,
R159: every expiry of a supervision timer checks the call part first. -/
def Obligations.TimersRunOut : Prop :=
  (∀ (s : State) (n : ChannelNo) (c : Instr), (s.call n).timer = some 0 → TakenBy s (.supervision n) c →
    ChecksFirst c n s s) ∧
  ∀ (s : State) (n : ChannelNo), (s.call n).timer = some 0 → (s.channel n).errors = [] →
    (∀ (c : Instr) (q : PortNo) (r : ChannelReason),
      ((s.call n).state = .outSeized ∧ c = .proceedTimeout n ∧ q = s.callPort n ∧ r = .seizeFailed ∨
       (s.call n).state = .outWaitAnswer ∧ c = .answerTimeout n ∧ q = s.callPort n ∧ r = .answerTimeout ∨
       (s.call n).state = .inSeized ∧ c = .offerTimeout n ∧ q = (s.config n).maintenance ∧ r = .offerTimeout) →
      ∃ u, exec c s = .next (s.built u) ∧
        CallWritten n { s.call n with
          state := .clearingLocal, transmitted := .is .clear, timer := load (s.config n).releaseConfirm } s u ∧
        Marked n s u ∧ Told [(q, .channel n, .channel r)] s u ∧
        u = { s with channels := u.channels, link := u.link, lists := u.lists }) ∧
    ((s.call n).state = .guard →
      ∃ u, exec (.guardExpiry n) s = .next (s.built u) ∧ Settled n (s.call n).flags s u)

/-- R83: a clear that the far end does not confirm ends in FAULT(RELEASE), its flags kept and its reference unbound, with
RELEASE_STUCK for the former owner or the maintenance port, one occurrence, and the drain completion check. R87: a far-end
clear that the owner does not release ends in GUARD, with AUTO_RELEASED for the former owner. -/
def Obligations.UnansweredClearsEnd : Prop :=
  ∀ (s : State) (n : ChannelNo), (s.call n).timer = some 0 → (s.channel n).errors = [] →
    ((s.call n).state = .clearingLocal →
      ∃ u, exec (.releaseStuck n) s = .next (s.built u) ∧
        CallWritten n (faultCall .release (s.call n).flags) s u ∧ Marked n s u ∧ LeftIdleChecked n s u ∧
        Freed (s.call n).reference s u ∧
        Told ([(s.callPort n, .channel n, .channel .releaseStuck)] ++ drainAdds n s u) s u ∧
        Reported [⟨.releaseStuck, some (spanOf n), some n, none, none, some .clearingLocal⟩] s u ∧
        u = { s with channels := u.channels, groups := u.groups, index := u.index, link := u.link, lists := u.lists,
                     faults := u.faults }) ∧
    ((s.call n).state = .clearingRemote →
      ∃ u, exec (.autoReleased n) s = .next (s.built u) ∧
        CallWritten n (guardCall (s.config n) (s.call n).flags) s u ∧ Marked n s u ∧ LeftIdle n s u ∧
        Freed (s.call n).reference s u ∧ Told [(s.callPort n, .channel n, .channel .autoReleased)] s u ∧
        u = { s with channels := u.channels, groups := u.groups, index := u.index, link := u.link, lists := u.lists })

/-! ## Maintenance -/

/-- R92: an accepted BLOCK adds LOCAL. From IDLE and GUARD the channel enters BLOCKED, from GUARD with REMOTE as its
received condition gives; in BLOCKED it goes on transmitting BLOCK; elsewhere the block is deferred, and nothing but the
flag changes. The response says whether it is deferred. -/
def Obligations.BlockTakesOrDefers : Prop :=
  ∀ (s : State) (p : PortNo) (tag hi lo : Byte) (n : ChannelNo),
    s.Admits p → permission p [hi, lo] s .block = true → channelField hi lo = some n → s.equipped n = true →
    (s.channel n).errors = [] → (s.call n).flags.locally = false →
    let flags := { (s.call n).flags with locally := true }
    let remote := decide ((s.line n).received = some (.is .block))
    (∀ f adds,
      ((s.call n).state = .idle ∧ f = flags ∧ adds = [] ∨
       (s.call n).state = .guard ∧ f = { flags with remote := remote } ∧
         adds = if remote && !flags.remote then [((s.config n).maintenance, .channel n, .channel .farBlocked)]
           else []) →
      ∃ u v, exec (.block p tag [hi, lo]) s = .next (s.built u) ∧ Answered p tag .ok [0x00#8] s u ∧ s.apart u = v ∧
        CallWritten n (blockedCall f) s v ∧ Marked n s v ∧ LeftIdleChecked n s v ∧ Freed (s.call n).reference s v ∧
        Told (adds ++ drainAdds n s v) s v ∧
        v = { s with channels := v.channels, groups := v.groups, index := v.index, link := v.link, lists := v.lists }) ∧
    ((s.call n).state = .blocked →
      ∃ u v, exec (.block p tag [hi, lo]) s = .next (s.built u) ∧ Answered p tag .ok [0x00#8] s u ∧ s.apart u = v ∧
        CallWritten n { s.call n with flags := flags, transmitted := .is .block } s v ∧ Marked n s v ∧
        v = { s with channels := v.channels, link := v.link }) ∧
    ((s.call n).state ∉ [.idle, .guard, .blocked] →
      ∃ u v, exec (.block p tag [hi, lo]) s = .next (s.built u) ∧ Answered p tag .ok [0x01#8] s u ∧ s.apart u = v ∧
        CallWritten n { s.call n with flags := flags } s v ∧ v = { s with channels := v.channels })

/-- R93, R90: an accepted UNBLOCK removes LOCAL. A BLOCKED channel with no flag left settles; one with flags left goes on
as they say, transmitting BLOCK with DRAIN and FREE with REMOTE alone; in another state a deferred block is withdrawn. The
transmitted BLOCK (R5) and the distinct transmit codes (R17) are premises of the settling. -/
def Obligations.UnblockSettlesOrKeeps : Prop :=
  ∀ (s : State) (p : PortNo) (tag hi lo : Byte) (n : ChannelNo),
    s.Admits p → permission p [hi, lo] s .unblock = true → channelField hi lo = some n → s.equipped n = true →
    (s.channel n).errors = [] → (s.call n).flags.locally = true →
    let flags := { (s.call n).flags with locally := false }
    ((s.call n).state = .blocked → flags = noFlags → (s.call n).transmitted = .is .block → CodesDistinct s →
      ∃ u, exec (.unblock p tag [hi, lo]) s = .next (s.built u) ∧ Answered p tag .ok [] s u ∧
        Settled n flags s (s.apart u)) ∧
    ((s.call n).state = .blocked → flags ≠ noFlags →
      ∃ u v, exec (.unblock p tag [hi, lo]) s = .next (s.built u) ∧ Answered p tag .ok [] s u ∧ s.apart u = v ∧
        CallWritten n { s.call n with
          flags := flags, transmitted := if flags.drain then .is .block else .is .free } s v ∧ Marked n s v ∧
        v = { s with channels := v.channels, link := v.link }) ∧
    ((s.call n).state ≠ .blocked →
      ∃ u v, exec (.unblock p tag [hi, lo]) s = .next (s.built u) ∧ Answered p tag .ok [] s u ∧ s.apart u = v ∧
        CallWritten n { s.call n with flags := flags } s v ∧ v = { s with channels := v.channels })

/-- R98, R99, R88, R50: an accepted RESET_CHANNEL enters GUARD and unbinds a reference held; the flags stay, but from
FAULT(RECORD) they are empty, or DRAIN alone in a draining group. RESET goes to the former owner, or to the maintenance
port where there is none, of a call or an offer, and to nobody from another state. The position joins the dirty set where
the code changes (R31), which from BLOCKED with REMOTE alone it does not (log 31). -/
def Obligations.ResetChannelEntersGuard : Prop :=
  ∀ (s : State) (p : PortNo) (tag hi lo : Byte) (n : ChannelNo) (f : BlockFlags)
    (adds : List (PortNo × AttentionObject × Reason)),
    s.Admits p → (s.port p).admin = true → channelField hi lo = some n → s.equipped n = true →
    (s.channel n).errors = [] →
    ((s.call n).state ∈ [.outSeized, .outWaitAnswer, .inSeized, .inAlerting, .connected, .clearingLocal,
        .clearingRemote] ∧ f = (s.call n).flags ∧ adds = [(s.callPort n, .channel n, .channel .reset)] ∨
     (s.call n).state ∈ [.idle, .guard, .blocked, .fault .release] ∧ f = (s.call n).flags ∧ adds = [] ∨
     (s.call n).state = .fault .record ∧ s.purgePending n = false ∧
       f = ⟨false, s.groupDrains n, false⟩ ∧ adds = []) →
    ∃ u v, exec (.resetChannel p tag [hi, lo]) s = .next (s.built u) ∧ Answered p tag .ok [] s u ∧ s.apart u = v ∧
      CallWritten n (guardCall (s.config n) f) s v ∧ Marked n s v ∧ LeftIdle n s v ∧ Freed (s.call n).reference s v ∧
      Told adds s v ∧
      v = { s with channels := v.channels, groups := v.groups, index := v.index, link := v.link, lists := v.lists }

/-- R92, R93, R98, R49, R52: the checks of the maintenance requests, each in its order; a request that fails one is
answered with that status, and nothing changes. R100, R157, R159: at an equipped channel the check of the call part comes
before the checks of its flags and its state. -/
def Obligations.MaintenanceIsRefusedInOrder : Prop :=
  ∀ (s : State) (p : PortNo) (tag : Byte), s.Admits p →
    (∀ hi lo n, channelField hi lo = some n → s.equipped n = true →
      (permission p [hi, lo] s .block = true → RequestChecks (.block p tag [hi, lo]) p tag .block n s) ∧
      (permission p [hi, lo] s .unblock = true → RequestChecks (.unblock p tag [hi, lo]) p tag .unblock n s) ∧
      ((s.port p).admin = true → RequestChecks (.resetChannel p tag [hi, lo]) p tag .resetChannel n s)) ∧
    (∀ hi lo status, (∀ n, channelField hi lo = some n → (s.channel n).errors = []) →
      let named (wrong : ChannelNo → Prop) : Prop :=
        match channelField hi lo with
        | none => status = .badRequest
        | some n => s.equipped n = false ∧ status = .notEquipped ∨ s.equipped n = true ∧ wrong n ∧ status = .wrongState
      (permission p [hi, lo] s .block = true → named (fun n => (s.call n).flags.locally = true) →
        ∃ t, exec (.block p tag [hi, lo]) s = .next t ∧ Refused p tag status s t) ∧
      (permission p [hi, lo] s .unblock = true → named (fun n => (s.call n).flags.locally = false) →
        ∃ t, exec (.unblock p tag [hi, lo]) s = .next t ∧ Refused p tag status s t) ∧
      ((s.port p).admin = true → named (fun n => (s.call n).state = .fault .span ∨
          (s.call n).state = .fault .record ∧ s.purgePending n = true) →
        ∃ t, exec (.resetChannel p tag [hi, lo]) s = .next t ∧ Refused p tag status s t)) ∧
    ∀ b status,
      let named (wrong : GroupNo → Prop) : Prop :=
        match groupField b with
        | none => status = .badRequest
        | some g => (s.group g).config = none ∧ status = .badRequest ∨
            (s.group g).config ≠ none ∧ wrong g ∧ status = .wrongState
      (permission p [b] s .drain = true → named (fun g => (s.group g).drainPort ≠ none) →
        ∃ t, exec (.drain p tag [b]) s = .next t ∧ Refused p tag status s t) ∧
      (permission p [b] s .undrain = true → named (fun g => (s.group g).drainPort = none) →
        ∃ t, exec (.undrain p tag [b]) s = .next t ∧ Refused p tag status s t)

/-- R49, R51: an accepted DRAIN puts the group in drain for the port and reaches every member in list order: an IDLE one
enters BLOCKED with DRAIN alone, another takes DRAIN, transmitting BLOCK if it is BLOCKED. R157, R159: a member's call part
is checked first; a member whose record is lost takes no DRAIN, and the request goes on to the next. Then the completion
check adds DRAINED if every member is out of use and a loss has not reported it yet. -/
def Obligations.DrainReachesEveryMember : Prop :=
  ∀ (s : State) (p : PortNo) (tag b : Byte) (g : GroupNo) (c : GroupConfig),
    s.Admits p → permission p [b] s .drain = true → groupField b = some g → (s.group g).config = some c →
    (s.group g).drainPort = none → (∀ n ∈ (s.group g).members, (s.channel n).errors.length ≤ 2) →
    ∃ u v, exec (.drain p tag [b]) s = .next (s.built u) ∧ Answered p tag .ok [] s u ∧
      Reaches (fun n => AtMember n (some (p, .drain)) fun s t =>
        if (s.call n).state = .idle then
          CallWritten n (blockedCall ⟨false, true, false⟩) s t ∧ Marked n s t ∧ LeftIdle n s t ∧
          Freed (s.call n).reference s t ∧
          t = { s with channels := t.channels, groups := t.groups, index := t.index, link := t.link }
        else
          CallWritten n { s.call n with
            flags := { (s.call n).flags with drain := true }
            transmitted := if (s.call n).state = .blocked then .is .block else (s.call n).transmitted } s t ∧
          Marked n s t ∧ t = { s with channels := t.channels, link := t.link })
        (s.group g).members
        { s with groups := s.groups.update g fun r => { r with drainPort := some p, drainReported := false } } v ∧
      let drained := !(v.group g).drainReported && (s.group g).members.all (v.outOfUse ·)
      ((∀ n ∈ (s.group g).members, (s.channel n).errors.length < 2) → (v.group g).drainReported = false) ∧
      v.group g = { s.group g with
        drainPort := some p, drainReported := (v.group g).drainReported, idle := (v.group g).idle } ∧
      Told (if drained then [(p, .group g, .drained)] else []) v (s.apart u) ∧
      s.apart u = { v with
        groups := v.groups.update g fun r => { r with drainReported := r.drainReported || drained }
        lists := u.lists }

/-- R52, R90: an accepted UNDRAIN ends the drain and reaches every member in list order: DRAIN is removed; a BLOCKED member
with no flag left settles, one with flags left goes on as they say, and in another state the flags alone change. R157,
R159: a member's call part is checked first; one whose record is lost is left so, and the request goes on to the next. A
member that settles transmitted BLOCK (R5) under distinct transmit codes (R17). -/
def Obligations.UndrainReachesEveryMember : Prop :=
  ∀ (s : State) (p : PortNo) (tag b : Byte) (g : GroupNo) (c : GroupConfig),
    s.Admits p → permission p [b] s .undrain = true → groupField b = some g → (s.group g).config = some c →
    (s.group g).drainPort ≠ none → (s.group g).members.Nodup → CodesDistinct s →
    (∀ n ∈ (s.group g).members, (s.channel n).errors.length ≤ 2 ∧
      ((s.call n).state = .blocked → (s.call n).transmitted = .is .block)) →
    ∃ u, exec (.undrain p tag [b]) s = .next (s.built u) ∧ Answered p tag .ok [] s u ∧
      Reaches (fun n => AtMember n (some (p, .undrain)) fun s t =>
        let flags := { (s.call n).flags with drain := false }
        if (s.call n).state = .blocked ∧ flags = noFlags then Settled n flags s t
        else
          CallWritten n { s.call n with
            flags := flags
            transmitted := if (s.call n).state = .blocked then (if flags.locally then .is .block else .is .free)
              else (s.call n).transmitted } s t ∧
          Marked n s t ∧ t = { s with channels := t.channels, link := t.link })
        (s.group g).members
        { s with groups := s.groups.update g fun r => { r with drainPort := none, drainReported := false } }
        (s.apart u)

/-! ## Queries -/

/-- R12, R53, R119, R128, R170: a query answers what stands when it is taken, in the view of R193, and changes nothing. A
number out of range, and a reference that names no channel, are refused. READ_CHANNEL checks the call part first (R157,
R159). The views carry the fields of R193 in their order, each encoded as R190 gives. What a group's counts read of a
member with bits in error is open (log 10), and so are the characters of an absent capture time (log 19). -/
def Obligations.QueriesAnswerWhatStands : Prop :=
  (∀ s : State,
    let one (v : Option Nat) : Byte := BitVec.ofNat 8 (v.getD 0xFF)
    let two (v : Option Nat) : List Byte := [BitVec.ofNat 8 (v.getD 0xFFFF / 256), BitVec.ofNat 8 (v.getD 0xFFFF)]
    let four (v : Nat) : List Byte := two (some (v / 65536)) ++ two (some v)
    let flag (b : Bool) : Byte := if b then 1 else 0
    let millis (v : Option Millis) : List Byte := two (some (v.elim 0 (·.toNat)))
    let condition (c : Condition) : Nat := [Condition.free, .seize, .proceed, .answer, .clear, .block].idxOf c
    let state (x : CallState) : Nat :=
      match x with
      | .fault _ => 11
      | x => [CallState.unequipped, .idle, .guard, .outSeized, .outWaitAnswer, .inSeized, .inAlerting, .connected,
          .clearingLocal, .clearingRemote, .blocked].idxOf x
    let cause (x : CallState) : Option Nat :=
      match x with
      | .fault y => some ([FaultCause.span, .record, .release].idxOf y)
      | _ => none
    let count (p : Position → Bool) : Nat := ((List.finRange 32).filter p).length
    (∀ n,
      let e := s.equipment n
      let l := s.line n
      let c := s.call n
      s.channelView n = two (some n.val) ++
        [flag e.group.isSome, one (e.group.map (·.val)), e.rank,
         one (some ([Direction.bothway, .incomingOnly, .outgoingOnly].idxOf e.direction)),
         one (l.stable.map (·.toNat)), one (l.candidate.map (·.toNat)), one (some l.count),
         one (l.received.map fun x => match x with | .is y => condition y | .invalid => 6),
         one (some (state c.state)), one (cause c.state),
         one (some ([Role.none, .outgoing, .incoming].idxOf c.role))] ++
        (let r := c.reference.elim 0 (·.toNat)
         BitVec.ofNat 8 (r / 65536) :: two (some r)) ++
        [one ((s.ownerOf n).map (·.val)),
         one (some (match c.transmitted with | .is y => condition y | .fill => 7))] ++ millis c.timer ++
        [BitVec.ofNat 8 (c.flags.locally.toNat + 2 * c.flags.drain.toNat + 4 * c.flags.remote.toNat),
         flag c.rehuntUsed] ++ two (c.rehuntedFrom.map (·.val)) ++ [flag (s.purgePending n)]) ∧
    (∀ g, (s.group g).config = none → s.groupView g = [0]) ∧
    (∀ g c, (s.group g).config = some c → (∀ n ∈ (s.group g).members, (s.channel n).errors = []) →
      let r := s.group g
      s.groupView g =
        [1, one (some ([Policy.firstUp, .firstDown, .rotate, .longestIdle].idxOf c.policy)), one (some c.profile.val),
         one (some c.maintenance.val), one (some ([GlareRule.yield, .hold].idxOf c.glare)), flag c.rehunt,
         flag c.skipFarAlarm] ++
        millis (some c.guard) ++ millis (some c.proceed) ++ millis (some c.answer) ++ millis (some c.offer) ++
        millis (some c.releaseConfirm) ++ millis (some c.farClear) ++
        two (some r.members.length) ++ two (some r.idle.length) ++ two (r.idle.head?.map (·.val)) ++
        two (some (r.members.filter fun n => (s.call n).state = .blocked).length) ++
        two (some (r.members.filter fun n => (cause (s.call n).state).isSome).length) ++ two (r.cursor.map (·.val)) ++
        [flag r.drainPort.isSome, one (r.drainPort.map (·.val)), flag r.drainReported]) ∧
    (∀ sp, (s.span sp).config = none → s.spanView sp = [0]) ∧
    (∀ sp c, (s.span sp).config = some c →
      let r := s.span sp
      s.spanView sp =
        [one (some (match r.state with
          | .unused => 0 | .starting => 1 | .inService => 2 | .suspect => 3 | .failed _ => 4 | .recovering _ => 5)),
         one (some c.count), one (some c.depth), one (some c.nSet), one (some c.nClear)] ++ millis (some c.silence) ++
        [one (some c.fill.toNat), one (some c.maintenance.val), one (some r.faultRun), one (some r.cleanRun),
         flag r.farAlarm, one (some r.farRun),
         one (match r.state with
          | .failed x | .recovering x => some ([FailureCause.faulty, .silent].idxOf x)
          | _ => none)] ++
        two (r.lastSequence.map (·.toNat)) ++ millis r.silence ++
        [flag (match r.state with
          | .failed _ | .recovering _ => true
          | _ => false), one (some (count fun k => s.equipped (channelAt sp k))),
         one (some (count fun k => r.notices.get k ≠ .none)),
         BitVec.ofNat 8 ((decide (∃ k, r.notices.get k = .down)).toNat + 2 * (decide (∃ k, r.notices.get k = .up)).toNat +
           4 * (decide (∃ k, r.notices.get k = .downUp)).toNat),
         one (some (count fun k => (s.linkSpan sp).dirty.get k)), (s.linkSpan sp).sequence]) ∧
    ∃ time : List Byte, time.length = 4 ∧ (∀ f, s.faults.first = some f → time = four f.time.toNat) ∧
      s.faultView =
        ((List.finRange 11).flatMap fun k =>
          let r := s.faults.classes.get k
          [BitVec.ofNat 8 (r.detect.toNat + 2 * r.report.toNat + 4 * (decide (r.severity = .major)).toNat),
           one (some r.target.val), r.count]) ++
        (let o := s.faults.first.map (·.occurrence)
         [flag o.isSome, one (o.map fun o => (classNo o.cls).val), one (o.bind fun o => o.span.map (·.val))] ++
         two (o.bind fun o => o.channel.map (·.val)) ++
         [one (o.bind fun o => o.port.map (·.val)), one (o.bind fun o => o.request.map (requestCodes.idxOf · + 1)),
          one (o.bind fun o => o.state.map state), one (o.bind fun o => o.state.bind cause)]) ++ time ++
        two (some ((List.finRange 11).map fun k => if s.faults.later.get k then 2 ^ k.val else 0).sum) ++
        four s.millis.toNat) ∧
  ∀ (s : State) (p : PortNo) (tag : Byte), s.Admits p →
    (∀ k a b c target n, targetField k a b c = some target → resolveQuery s target = .ok n →
      RequestChecks (.readChannel p tag [k, a, b, c]) p tag .readChannel n s) ∧
    (∀ k a b c target n, targetField k a b c = some target → resolveQuery s target = .ok n →
      (s.channel n).errors = [] →
      ∃ u, exec (.readChannel p tag [k, a, b, c]) s = .next u ∧ Answered p tag .ok (s.channelView n) s u ∧
        s.apart u = s) ∧
    (∀ k a b c status,
      (match targetField k a b c with
       | none => some .badRequest
       | some (.channel _) => none
       | some (.reference r) =>
         if r = 0 then some .badRequest
         else
           match s.entryOf r with
           | none => some .refUnknown
           | some e => if s.purgePending e.channel = true then some .recordFault else none) = some status →
      ∃ t, exec (.readChannel p tag [k, a, b, c]) s = .next t ∧ Refused p tag status s t) ∧
    (∀ b g, groupField b = some g →
      ∃ u, exec (.readGroup p tag [b]) s = .next u ∧ Answered p tag .ok (s.groupView g) s u ∧ s.apart u = s) ∧
    (∀ b, groupField b = none → ∃ t, exec (.readGroup p tag [b]) s = .next t ∧ Refused p tag .badRequest s t) ∧
    (∀ b sp, spanField b = some sp →
      ∃ u, exec (.readSpan p tag [b]) s = .next u ∧ Answered p tag .ok (s.spanView sp) s u ∧ s.apart u = s) ∧
    (∀ b, spanField b = none → ∃ t, exec (.readSpan p tag [b]) s = .next t ∧ Refused p tag .badRequest s t) ∧
    (∃ u drawn, exec (.readFaults p tag []) s = .next u ∧
      Answered p tag .ok { s with freeCount := drawn }.faultView s u ∧ s.apart u = s) ∧
    (∀ n, (s.channelView n).length = 25) ∧
    (∀ g, (s.groupView g).length = if (s.group g).config = none then 1 else 34) ∧
    (∀ sp, (s.spanView sp).length = if (s.span sp).config = none then 1 else 24) ∧ s.faultView.length = 52

/-- R144, R145, R193: NEXT_ATTENTION takes the head member of its port's list, with its reasons, and with the view of a
channel as it stands; on an empty list it answers EMPTY. Nothing else changes. R157, R159: the snapshot checks the call part;
where the record is lost, the member is answered with the record-fault indication. R193: the layout of the member. R146:
ATTNk_N is asserted while port k's list holds a member and its attention enable is set. -/
def Obligations.NextAttentionTakesTheHead : Prop :=
  (∀ (s : State) (p : PortNo), s.attentionAsserted p = true ↔ s.list p ≠ [] ∧ (s.port p).attention = true) ∧
  (∀ (m : Member) (snapshot : Snapshot),
    memberChars m snapshot =
      (match m.object with
       | .channel n => [0x00#8, BitVec.ofNat 8 (n.val / 256), BitVec.ofNat 8 n.val]
       | .group g => [0x01#8, 0x00#8, BitVec.ofNat 8 g.val]
       | .span sp => [0x02#8, 0x00#8, BitVec.ofNat 8 sp.val]
       | .fault => [0x03#8, 0xFF#8, 0xFF#8]) ++
      [BitVec.ofNat 8 m.reasons.length] ++
      (m.reasons.map fun r => BitVec.ofNat 8 (match r with
        | .channel x => [ChannelReason.offered, .abandoned, .proceeding, .answered, .farClear, .autoReleased,
            .clearDone, .seizeFailed, .glareLost, .rehunted, .answerTimeout, .offerTimeout, .releaseStuck, .spanDown,
            .recordLost, .reset, .farBlocked, .farUnblocked, .codeInvalid].idxOf x
        | .drained => 0
        | .span x => [SpanReason.spanFailed, .spanRestored, .farAlarmOn, .farAlarmOff].idxOf x
        | .fault c => (classNo c).val)) ++
      match snapshot with
      | .none => [0x00#8]
      | .view v => 0x01#8 :: v
      | .recordFault => [0x02#8]) ∧
  ∀ (s : State) (p : PortNo) (tag : Byte), s.Admits p →
    (∀ m rest n, s.list p = m :: rest → m.object = .channel n →
      (∀ b, (s.channel n).errors = [b] →
        exec (.nextAttention p tag []) s = exec (.nextAttention p tag []) (s.corrected n (some (p, .nextAttention)))) ∧
      ∀ a b, (s.channel n).errors = [a, b] →
        ∃ u, exec (.nextAttention p tag []) s = .next (s.built u) ∧
          Answered p tag .ok (memberChars m .recordFault) s u ∧
          Lost n (some (p, .nextAttention)) { s with lists := s.lists.set p rest } (s.apart u)) ∧
    (s.list p = [] → ∃ t, exec (.nextAttention p tag []) s = .next t ∧ Refused p tag .empty s t) ∧
    ∀ m rest, s.list p = m :: rest → (∀ n, m.object = .channel n → (s.channel n).errors = []) →
      ∃ u, exec (.nextAttention p tag []) s = .next u ∧
        Answered p tag .ok
          (memberChars m (match m.object with
            | .channel n => .view (s.channelView n)
            | .group _ | .span _ | .fault => .none)) s u ∧
        s.apart u = { s with lists := s.lists.set p rest }

/-! ## Configuration -/

/-- R102, R33, R177: SET_SPAN on an UNUSED span writes the configuration and starts the span: STARTING, its silence timer
loaded, every position below its channel count dirty, the link's values as after power-on. R104, R26, R32: CLEAR_SPAN on a
span without an equipped channel returns it to UNUSED and empties its line parts and its dirty set, after the codes that wait
have been taken (R176; log 7). A maintenance port that is the source of a transfer is written as its target (R149). -/
def Obligations.SpansAreConfiguredAndCleared : Prop :=
  ∀ (s : State) (p : PortNo) (tag : Byte), s.Admits p → (s.port p).admin = true →
    (∀ b0 c d a b hi lo fill q (sp : SpanNo) (x : LineCode) (m : PortNo),
      spanField b0 = some sp → 1 ≤ c.toNat ∧ c.toNat ≤ 32 → 1 ≤ d.toNat ∧ d.toNat ≤ 7 → 1 ≤ a.toNat → 1 ≤ b.toNat →
      1 ≤ (millisField hi lo).toNat ∧ (millisField hi lo).toNat ≤ 1000 → codeField fill = some x →
      portField q = some m → (s.span sp).config = none →
      ∃ u, exec (.setSpan p tag [b0, c, d, a, b, hi, lo, fill, q]) s = .next (s.built u) ∧
        Answered p tag .ok [] s u ∧
        s.apart u = { s with
          spans := s.spans.set sp
            ⟨some ⟨c.toNat, d.toNat, a.toNat, b.toNat, millisField hi lo, x, s.redirect m⟩, .starting, 0, 0, none,
              some (millisField hi lo), false, 0, .fill 32 .none, .fill 32 none⟩
          link := { s.link with
            spans := s.link.spans.set sp ⟨.tabulate fun k => k.val < c.toNat, false, 0⟩ } }) ∧
    ∀ b (sp : SpanNo), spanField b = some sp → (s.span sp).config ≠ none → s.anyEquipped sp = false →
      ∃ t u, CodesTaken (· = sp) s t ∧
        exec (.clearSpan p tag [b]) s = .next (s.built u) ∧ Answered p tag .ok [] s u ∧
        (∀ n, (s.apart u).channel n =
          if spanOf n = sp then { t.channel n with line := ⟨none, none, 0, none⟩ } else t.channel n) ∧
        s.apart u = { t with
          channels := u.channels
          spans := t.spans.set sp ⟨none, .unused, 0, 0, none, none, false, 0, .fill 32 .none, .fill 32 none⟩
          link := { t.link with spans := t.link.spans.set sp ⟨.fill 32 false, false, 0⟩ } }

/-- R103, R26, R25, R33: SET_SPAN on a configured span writes the configuration and keeps the rest of the span's state. A
lowered channel count empties the line parts and the dirty marks from it up, a lowered depth clears the candidates; a
position joins the dirty set where the count is raised over it, and an unequipped one where the fill code differs. The codes
that wait have been taken before (R176; log 7). -/
def Obligations.SpansAreReconfigured : Prop :=
  ∀ (s : State) (p : PortNo) (tag : Byte) (body : List Byte) (sp : SpanNo) (fields old : SpanConfig),
    s.Admits p → (s.port p).admin = true → spanFields body = some (sp, fields) → (s.span sp).config = some old →
    fields.count = old.count ∨ s.anyEquipped sp = false →
    ∃ t u v, CodesTaken (· = sp) s t ∧ exec (.setSpan p tag body) s = .next (s.built u) ∧ Answered p tag .ok [] s u ∧
      s.apart u = v ∧
      (∀ n, v.channel n = { t.channel n with
        line :=
          if spanOf n = sp ∧ fields.count < old.count ∧ fields.count ≤ (positionOf n).val then ⟨none, none, 0, none⟩
          else if spanOf n = sp ∧ fields.depth < old.depth then { t.line n with candidate := none, count := 0 }
          else t.line n }) ∧
      v.span sp = { t.span sp with config := some { fields with maintenance := s.redirect fields.maintenance } } ∧
      (∀ k, k ≠ sp → v.span k = t.span k) ∧
      (∀ k, (v.linkSpan sp).dirty.get k = true ↔ k.val < fields.count ∧
        ((t.linkSpan sp).dirty.get k = true ∨ old.count ≤ k.val ∨
          old.fill ≠ fields.fill ∧ s.equipped (channelAt sp k) = false)) ∧
      v.linkSpan sp = { t.linkSpan sp with dirty := (v.linkSpan sp).dirty } ∧
      (∀ k, k ≠ sp → v.linkSpan k = t.linkSpan k) ∧
      v = { t with channels := v.channels, spans := v.spans, link := { t.link with spans := v.link.spans } }

/-- R13, R40, R35: an accepted EQUIP puts the channel into the group: the equipment part as given, the member list at the
place of its rank and number, the received condition read from the stable code; GUARD on a span IN_SERVICE, FAULT(SPAN) on
another, with DRAIN in a draining group; the position dirty if the code changed. No attention reason is added, and no drain
check is made (log 29). -/
def Obligations.EquipPutsIntoService : Prop :=
  ∀ (s : State) (p : PortNo) (tag hi lo b rank b4 : Byte) (n : ChannelNo) (g : GroupNo) (d : Direction)
    (c : GroupConfig) (sc : SpanConfig),
    s.Admits p → (s.port p).admin = true → channelField hi lo = some n → groupField b = some g →
    directionField b4 = some d → (s.span (spanOf n)).config = some sc → (positionOf n).val < sc.count →
    (s.group g).config = some c → (s.channel n).errors = [] → (s.call n).state = .unequipped →
    let drain := (s.group g).drainPort.isSome
    let serving := (s.span (spanOf n)).state = .inService
    ∃ u v, exec (.equip p tag [hi, lo, b, rank, b4]) s = .next (s.built u) ∧
      Answered p tag .ok (if serving then [0x02#8, 0xFF#8] else [0x0B#8, 0x00#8]) s u ∧ s.apart u = v ∧
      v.channel n = ⟨⟨some g, rank, d⟩,
        { s.line n with received := (s.line n).stable.map fun x => (s.profiles.get c.profile).receive.get x.toFin },
        if serving then ⟨.guard, .none, none, .is .free, load c.guard, ⟨false, drain, false⟩, false, none⟩
        else ⟨.fault .span, .none, none, .is .block, none, ⟨false, drain, false⟩, false, none⟩, []⟩ ∧
      OnlyChannel n s v ∧ Marked n s v ∧
      (∃ ahead behind, (s.group g).members = ahead ++ behind ∧ (v.group g).members = ahead ++ n :: behind ∧
        (∀ m ∈ ahead, v.before n m = false) ∧ ∀ m, behind.head? = some m → v.before n m = true) ∧
      v.group g = { s.group g with members := (v.group g).members } ∧ (∀ h, h ≠ g → v.group h = s.group h) ∧
      v = { s with channels := v.channels, groups := v.groups, link := v.link }

/-- R14, R40, R112: an accepted UNEQUIP takes the channel out of its group: out of the idle queue and the member list, the
rotate cursor moved from it to the member before it, or else the last; the UNEQUIPPED call part, an empty equipment part, no
received condition, no pending notice; the drain completion check over the members left. -/
def Obligations.UnequipTakesOutOfService : Prop :=
  ∀ (s : State) (p : PortNo) (tag hi lo : Byte) (n : ChannelNo) (g : GroupNo) (before after : List ChannelNo),
    s.Admits p → (s.port p).admin = true → channelField hi lo = some n → s.groupOf n = some g →
    (s.channel n).errors = [] → (s.group g).members = before ++ n :: after → n ∉ before → n ∉ after →
    ((s.call n).state ∈ [.idle, .guard, .blocked, .fault .span, .fault .release] ∨
      (s.call n).state = .fault .record ∧ s.purgePending n = false) →
    let drained := (s.group g).drainPort.isSome && !(s.group g).drainReported &&
      (before ++ after).all (s.outOfUse ·)
    ∃ u v, exec (.unequip p tag [hi, lo]) s = .next (s.built u) ∧ Answered p tag .ok [] s u ∧ s.apart u = v ∧
      v.channel n = ⟨⟨none, 0, .bothway⟩, { s.line n with received := none },
        ⟨.unequipped, .none, none, .fill, none, noFlags, false, none⟩, []⟩ ∧
      OnlyChannel n s v ∧ Marked n s v ∧
      v.group g = { s.group g with
        members := before ++ after, idle := (s.group g).idle.filter (· ≠ n)
        cursor := if (s.group g).cursor = some n then before.getLast?.or after.getLast? else (s.group g).cursor
        drainReported := (s.group g).drainReported || drained } ∧
      (∀ h, h ≠ g → v.group h = s.group h) ∧
      Told (match (s.group g).drainPort with
        | some q => if drained then [(q, .group g, .drained)] else []
        | none => []) s v ∧
      v = { s with
        channels := v.channels, groups := v.groups, lists := v.lists, link := v.link
        spans := s.spans.update (spanOf n) fun r => { r with notices := r.notices.set (positionOf n) .none } }

/-- R36, R37, R39: SET_GROUP creates a group with empty lists, or replaces the configuration of one and keeps the rest of
it, but for the rotate cursor where the policy changes; DELETE_GROUP makes a group without members cease to exist, and the
rehunts that wait for it are marked as handed off before that (R48; log 30). A
maintenance port that is the source of a transfer is written as its target. A new profile number has a statement of its
own. -/
def Obligations.GroupsAreWrittenAndDeleted : Prop :=
  ∀ (s : State) (p : PortNo) (tag : Byte), s.Admits p → (s.port p).admin = true →
    (∀ body g (fields : GroupConfig), groupFields body = some (g, fields) →
      let new := { fields with maintenance := s.redirect fields.maintenance }
      ((s.group g).config = none →
        ∃ u, exec (.setGroup p tag body) s = .next (s.built u) ∧ Answered p tag .ok [] s u ∧
          s.apart u = { s with
            groups := s.groups.set g ⟨some new, [], [], none, none, false, (s.group g).rehunts⟩ }) ∧
      ∀ old, (s.group g).config = some old → new.profile = old.profile →
        ∃ u, exec (.setGroup p tag body) s = .next (s.built u) ∧ Answered p tag .ok [] s u ∧
          s.apart u = { s with groups := s.groups.update g fun r => { r with
            config := some new, cursor := if new.policy = old.policy then r.cursor else none } }) ∧
    ∀ b g, groupField b = some g → (s.group g).config ≠ none → (s.group g).members = [] →
      ∃ u, exec (.deleteGroup p tag [b]) s = .next u ∧ Answered p tag .ok [] s u ∧
        s.apart u = { s with groups := s.groups.update g fun r => { r with
          config := none, cursor := none, drainPort := none, drainReported := false
          rehunts := r.rehunts.map fun x => { x with orphaned := true } } }

/-- R38: a SET_GROUP that changes the profile number, every member being BLOCKED with LOCAL or DRAIN or in FAULT. Each
member reads its received condition from the new profile, a BLOCKED one sets REMOTE by it, and a position joins the dirty
set where the two profiles' BLOCK codes differ. R157, R159: each member's call part is checked before that, and a member
whose record is lost takes the steps of its line part all the same. What the request reads beforehand of a member with one
bit in error is the corrected call part (log 33), and of one with two it is open (log 10). R8: a member that is BLOCKED
after the change still has LOCAL or DRAIN. Where a member with at most one bit in error is held by neither a flag nor a
fault, the request is refused IN_USE. -/
def Obligations.ProfileChangesAreReadAtEveryMember : Prop :=
  (∀ (s : State) (p : PortNo) (tag : Byte) (body : List Byte) (g : GroupNo) (fields old : GroupConfig),
    s.Admits p → (s.port p).admin = true → groupFields body = some (g, fields) → (s.group g).config = some old →
    fields.profile ≠ old.profile →
    (∀ n ∈ (s.group g).members, s.groupOf n = some g ∧ (s.channel n).errors.length ≤ 2 ∧ s.heldMember n = true) →
    let new := { fields with maintenance := s.redirect fields.maintenance }
    ∃ u, exec (.setGroup p tag body) s = .next (s.built u) ∧ Answered p tag .ok [] s u ∧
      Reaches (fun n s t => ∃ w, MemberChecked n (some (p, .setGroup)) s w ∧
        (let heard : Option Received :=
           (w.line n).stable.map fun x => (w.profiles.get new.profile).receive.get x.toFin
         t.channel n = { w.channel n with
           line := { w.line n with received := heard }
           call := if (w.call n).state = .blocked then
             { w.call n with flags := { (w.call n).flags with remote := decide (heard = some (.is .block)) } }
             else w.call n }) ∧
        OnlyChannel n w t ∧
        t.link = (if (w.profiles.get old.profile).transmit.get 5 = (w.profiles.get new.profile).transmit.get 5 then
          w.link else (w.markDirty n).link) ∧
        t = { w with channels := t.channels, link := t.link })
        (s.group g).members
        { s with groups := s.groups.update g fun r => { r with
          config := some new, cursor := if new.policy = old.policy then r.cursor else none } }
        (s.apart u) ∧
      ∀ n ∈ (s.group g).members, (u.channel n).errors = [] ∧
        ((u.call n).state = .blocked → ((u.call n).flags.locally || (u.call n).flags.drain) = true)) ∧
  (∀ (s : State) (p : PortNo) (tag : Byte) (body : List Byte) (g : GroupNo) (fields old : GroupConfig) (n : ChannelNo),
    s.Admits p → (s.port p).admin = true → groupFields body = some (g, fields) → (s.group g).config = some old →
    fields.profile ≠ old.profile → n ∈ (s.group g).members → (s.channel n).errors.length ≤ 1 →
    (∀ x, (s.call n).state ≠ .fault x) →
    ((s.call n).state = .blocked → ((s.call n).flags.locally || (s.call n).flags.drain) = false) →
    ∃ t, exec (.setGroup p tag body) s = .next t ∧ Refused p tag .inUse s t) ∧
  ∀ (s : State) (p : PortNo) (tag : Byte) (body : List Byte) (g : GroupNo) (fields old : GroupConfig),
    s.Admits p → (s.port p).admin = true → groupFields body = some (g, fields) → (s.group g).config = some old →
    fields.profile ≠ old.profile → (s.group g).members.Nodup →
    (∀ n ∈ (s.group g).members, s.groupOf n = some g ∧ (s.channel n).errors = [] ∧
      ((s.call n).state = .blocked ∧ ((s.call n).flags.locally || (s.call n).flags.drain) = true ∨
        ∃ x, (s.call n).state = .fault x)) →
    let new := { fields with maintenance := s.redirect fields.maintenance }
    let heard (n : ChannelNo) : Option Received :=
      (s.line n).stable.map fun x => (s.profiles.get new.profile).receive.get x.toFin
    ∃ u v, exec (.setGroup p tag body) s = .next (s.built u) ∧ Answered p tag .ok [] s u ∧ s.apart u = v ∧
      v.group g = { s.group g with
        config := some new, cursor := if new.policy = old.policy then (s.group g).cursor else none } ∧
      (∀ h, h ≠ g → v.group h = s.group h) ∧
      (∀ n ∈ (s.group g).members, v.channel n = { s.channel n with
        line := { s.line n with received := heard n }
        call := { s.call n with flags := { (s.call n).flags with
          remote := if (s.call n).state = .blocked then decide (heard n = some (.is .block))
            else (s.call n).flags.remote } } }) ∧
      (∀ n, n ∉ (s.group g).members → v.channel n = s.channel n) ∧
      v.link = (if (s.profiles.get old.profile).transmit.get 5 = (s.profiles.get new.profile).transmit.get 5 then s
        else (s.group g).members.foldl (fun t n => t.markDirty n) s).link ∧
      v = { s with channels := v.channels, groups := v.groups, link := v.link }

/-- R19: LOAD_PROFILE writes all 22 fields of a profile that no group with a member names. -/
def Obligations.ProfilesAreLoaded : Prop :=
  ∀ (s : State) (p : PortNo) (tag b : Byte) (k : ProfileNo) (codes map : List Byte) (profile : Profile),
    s.Admits p → (s.port p).admin = true → profileField b = some k → codes.length = 6 → map.length = 16 →
    codes.map codeField = profile.transmit.cells.map some → map.map receivedField = profile.receive.cells.map some →
    profile.transmit.cells.Nodup →
    (∀ g c, (s.group g).config = some c → c.profile = k → (s.group g).members = []) →
    ∃ u, exec (.loadProfile p tag (b :: codes ++ map)) s = .next u ∧ Answered p tag .ok [] s u ∧
      s.apart u = { s with profiles := s.profiles.set k profile }

/-- R168, R169: SET_FAULT_CLASS writes the controls and the target port of a class and keeps its count; RECORD_LOST cannot
be minor. CLEAR_FAULTS empties the first-fault record and the later-majors set, and the counts where it says so. A field
out of its range is refused BAD_REQUEST. -/
def Obligations.FaultClassesAreSetAndCleared : Prop :=
  ∀ (s : State) (p : PortNo) (tag : Byte), s.Admits p → (s.port p).admin = true →
    (∀ a b c d e x detect reporting severity target, faultClassField a = some x → yesNoField b = some detect →
      yesNoField c = some reporting → severityField d = some severity → portField e = some target →
      (¬ (x = .recordLost ∧ severity = .minor) →
        ∃ u, exec (.setFaultClass p tag [a, b, c, d, e]) s = .next u ∧ Answered p tag .ok [] s u ∧
          s.apart u = { s with faults := { s.faults with classes := s.faults.classes.update (classNo x) fun r =>
            ⟨detect, reporting, severity, s.redirect target, r.count⟩ } }) ∧
      (x = .recordLost ∧ severity = .minor →
        ∃ t, exec (.setFaultClass p tag [a, b, c, d, e]) s = .next t ∧ Refused p tag .badRequest s t)) ∧
    (∀ a b c d e, faultClassField a = none ∨ yesNoField b = none ∨ yesNoField c = none ∨ severityField d = none ∨
        portField e = none →
      ∃ t, exec (.setFaultClass p tag [a, b, c, d, e]) s = .next t ∧ Refused p tag .badRequest s t) ∧
    (∀ b, yesNoField b = none →
      ∃ t, exec (.clearFaults p tag [b]) s = .next t ∧ Refused p tag .badRequest s t) ∧
    ∀ b zero, yesNoField b = some zero →
      ∃ u, exec (.clearFaults p tag [b]) s = .next u ∧ Answered p tag .ok [] s u ∧
        s.apart u = { s with faults := { s.faults with
          first := none, later := .fill 11 false
          classes := if zero then s.faults.classes.map fun r => { r with count := 0 } else s.faults.classes } }

/-- R188: SET_PORT writes the enable, the right and the attention enable of a port, unless the port has a part in a
transfer in flight, no enabled port with administrative right would be left, or a port to be disabled owns a reference.
R189, R163, R180: SET_DEVICE writes both settings; a timer whose setting changes is loaded with it, and one whose setting
does not runs on. A field out of its range is refused BAD_REQUEST. That a visit or a refresh which is due is dropped where its
interval changes is the model's choice (log 35). -/
def Obligations.PortsAndTheDeviceAreSet : Prop :=
  ∀ (s : State) (p : PortNo) (tag : Byte), s.Admits p → (s.port p).admin = true →
    (∀ a b c d k enabled admin attention, portField a = some k → yesNoField b = some enabled →
      yesNoField c = some admin → yesNoField d = some attention →
      let busy := ∃ t, s.transfer = some t ∧ (t.source = k ∨ t.target = k ∨ t.requester = k)
      let ruled := enabled = true ∧ admin = true ∨ ∃ q, q ≠ k ∧ (s.port q).enabled = true ∧ (s.port q).admin = true
      let owning := enabled = false ∧ ∃ set way e, (s.index.get set).get way = some e ∧ e.owner = k
      (¬ busy → ruled → ¬ owning →
        ∃ u v, exec (.setPort p tag [a, b, c, d]) s = .next u ∧ v = { s with
            ports := s.ports.update k fun r => { r with enabled := enabled, admin := admin, attention := attention } } ∧
          Answered p tag .ok [] v u ∧ u = { v with ports := u.ports, freeCount := u.freeCount }) ∧
      ∀ status, (busy ∧ status = .busy ∨ ¬ busy ∧ ¬ ruled ∧ status = .badRequest ∨
          ¬ busy ∧ ruled ∧ owning ∧ status = .inUse) →
        ∃ t, exec (.setPort p tag [a, b, c, d]) s = .next t ∧ Refused p tag status s t) ∧
    (∀ a b c d, portField a = none ∨ yesNoField b = none ∨ yesNoField c = none ∨ yesNoField d = none →
      ∃ t, exec (.setPort p tag [a, b, c, d]) s = .next t ∧ Refused p tag .badRequest s t) ∧
    (∀ b hi lo, (0 < (millisField hi lo).toNat ∧ (millisField hi lo).toNat < 100 ∨ 60000 < (millisField hi lo).toNat) →
      ∃ t, exec (.setDevice p tag [b, hi, lo]) s = .next t ∧ Refused p tag .badRequest s t) ∧
    ∀ b hi lo, (millisField hi lo = 0 ∨ 100 ≤ (millisField hi lo).toNat ∧ (millisField hi lo).toNat ≤ 60000) →
      ∃ u, exec (.setDevice p tag [b, hi, lo]) s = .next u ∧ Answered p tag .ok [] s u ∧
        s.apart u = { s with
          scrub := { s.scrub with
            interval := b
            timer := if b = s.scrub.interval then s.scrub.timer else if b = 0 then none else some b }
          link := { s.link with
            refreshInterval := millisField hi lo
            refreshTimer :=
              if millisField hi lo = s.link.refreshInterval then s.link.refreshTimer
              else if millisField hi lo = 0 then none else some (millisField hi lo) } }

/-- R102, R104, R13, R14, R36, R38, R39, R19: the checks of the configuration requests, each in its order; a request that
fails one is answered with that status, and nothing changes. R157, R159: EQUIP and UNEQUIP check the call part before the
state. The other clauses are about states in which no bit is in error. -/
def Obligations.ConfigurationIsRefusedInOrder : Prop :=
  (∀ (s : State) (p : PortNo) (tag hi lo : Byte) (n : ChannelNo), s.Admits p → (s.port p).admin = true →
    channelField hi lo = some n →
    (s.equipped n = true → RequestChecks (.unequip p tag [hi, lo]) p tag .unequip n s) ∧
    ∀ b rank d g c, groupField b = some g → directionField d ≠ none → (s.span (spanOf n)).config = some c →
      (positionOf n).val < c.count → (s.group g).config ≠ none →
      RequestChecks (.equip p tag [hi, lo, b, rank, d]) p tag .equip n s) ∧
  ∀ (s : State) (p : PortNo) (tag : Byte) (status : Status), s.Admits p → (s.port p).admin = true →
    (∀ n, (s.channel n).errors = []) →
    (∀ body, body.length = 9 →
      (spanFields body = none ∧ status = .badRequest ∨
       ∃ sp new old, spanFields body = some (sp, new) ∧ (s.span sp).config = some old ∧ new.count ≠ old.count ∧
         s.anyEquipped sp = true ∧ status = .inUse) →
      ∃ t, exec (.setSpan p tag body) s = .next t ∧ Refused p tag status s t) ∧
    (∀ b,
      (spanField b = none ∧ status = .badRequest ∨
       ∃ sp, spanField b = some sp ∧ ((s.span sp).config = none ∧ status = .badRequest ∨
         (s.span sp).config ≠ none ∧ s.anyEquipped sp = true ∧ status = .inUse)) →
      ∃ t, exec (.clearSpan p tag [b]) s = .next t ∧ Refused p tag status s t) ∧
    (∀ hi lo b rank d,
      (match channelField hi lo, groupField b, directionField d with
       | some n, some g, some _ =>
         match (s.span (spanOf n)).config with
         | none => some .badRequest
         | some c =>
           if c.count ≤ (positionOf n).val then some .badRequest
           else if (s.group g).config = none then some .badRequest
           else if (s.call n).state ≠ .unequipped then some .wrongState
           else none
       | _, _, _ => some Status.badRequest) = some status →
      ∃ t, exec (.equip p tag [hi, lo, b, rank, d]) s = .next t ∧ Refused p tag status s t) ∧
    (∀ hi lo,
      (match channelField hi lo with
       | none => some .badRequest
       | some n =>
         if s.equipped n = false then some .notEquipped
         else if (s.call n).state ∈ [.idle, .guard, .blocked, .fault .span, .fault .release] ∨
             (s.call n).state = .fault .record ∧ s.purgePending n = false then none
         else some .wrongState) = some status →
      ∃ t, exec (.unequip p tag [hi, lo]) s = .next t ∧ Refused p tag status s t) ∧
    (∀ body, body.length = 19 →
      (groupFields body = none ∧ status = .badRequest ∨
       ∃ g new old n, groupFields body = some (g, new) ∧ (s.group g).config = some old ∧ new.profile ≠ old.profile ∧
         n ∈ (s.group g).members ∧ status = .inUse ∧
         (∀ x, (s.call n).state ≠ .fault x) ∧
         ((s.call n).state = .blocked → ((s.call n).flags.locally || (s.call n).flags.drain) = false)) →
      ∃ t, exec (.setGroup p tag body) s = .next t ∧ Refused p tag status s t) ∧
    (∀ b,
      (groupField b = none ∧ status = .badRequest ∨
       ∃ g, groupField b = some g ∧ ((s.group g).config = none ∧ status = .badRequest ∨
         (s.group g).config ≠ none ∧ (s.group g).members ≠ [] ∧ status = .inUse)) →
      ∃ t, exec (.deleteGroup p tag [b]) s = .next t ∧ Refused p tag status s t) ∧
    ∀ body, body.length = 23 →
      (profileFields body = none ∧ status = .badRequest ∨
       ∃ k profile, profileFields body = some (k, profile) ∧ (¬ profile.transmit.cells.Nodup ∧ status = .badRequest ∨
         profile.transmit.cells.Nodup ∧ status = .inUse ∧
         ∃ g c, (s.group g).config = some c ∧ c.profile = k ∧ (s.group g).members ≠ [])) →
      ∃ t, exec (.loadProfile p tag body) s = .next t ∧ Refused p tag status s t

/-! ## Transfer and restart -/

/-- R148, R149: an accepted TRANSFER puts the record in flight, disables the source, gives its maintenance, drain and fault
roles to the target, and leaves its requester WORKING; a request that fails a check is answered BAD_REQUEST or BUSY. R150,
R153: a sweep visit gives the entries of one set to the target; the last one merges the source's list into the target's and
answers the requester OK. That a visit is due once a timebase step has been taken since the last is the model's choice
(log 6). -/
def Obligations.TransfersMoveEveryRole : Prop :=
  (∀ (s : State) (p : PortNo) (tag a b : Byte), s.Admits p → (s.port p).admin = true →
    portField a = none ∨ portField b = none →
    ∃ t, exec (.transfer p tag [a, b]) s = .next t ∧ Refused p tag .badRequest s t) ∧
  (∀ (s : State) (p : PortNo) (tag a b : Byte) (source target : PortNo), s.Admits p → (s.port p).admin = true →
    portField a = some source → portField b = some target →
    let barred := source = target ∨ source = p ∨ (s.port target).enabled = false
    (barred → ∃ t, exec (.transfer p tag [a, b]) s = .next t ∧ Refused p tag .badRequest s t) ∧
    (¬ barred → s.transfer ≠ none → ∃ t, exec (.transfer p tag [a, b]) s = .next t ∧ Refused p tag .busy s t) ∧
    (¬ barred → s.transfer = none →
      let gives (q : PortNo) : PortNo := if q = source then target else q
      ∃ u sdo, exec (.transfer p tag [a, b]) s = .next (s.built u) ∧
        u.port p = { s.port p with state := .working ⟨tag, .transfer⟩, sdo := sdo } ∧
        u.port source = { s.port source with enabled := false } ∧
        (∀ q, q ≠ p → q ≠ source → u.port q = s.port q) ∧
        s.apart u = { s with
          transfer := some ⟨source, target, p, 0, false⟩
          groups := s.groups.map fun r => { r with
            config := r.config.map fun c => { c with maintenance := gives c.maintenance }
            drainPort := r.drainPort.map gives }
          spans := s.spans.map fun r => { r with
            config := r.config.map fun c => { c with maintenance := gives c.maintenance } }
          faults := { s.faults with
            classes := s.faults.classes.map fun r => { r with target := gives r.target } } })) ∧
  ∀ (s : State) (t : Transfer), s.transfer = some t → t.visitDue = true →
    ∃ u, exec .sweepVisit s = .next u ∧
      (∀ k w, (u.index.get k).get w =
        if k = t.cursor then ((s.index.get k).get w).map fun e =>
          if e.owner = t.source then { e with owner := t.target } else e
        else (s.index.get k).get w) ∧
      (t.cursor ≠ 127 →
        u = { s with index := u.index, transfer := some { t with cursor := t.cursor + 1, visitDue := false } }) ∧
      (t.cursor = 127 → t.source ≠ t.target →
        (∀ long, (s.port t.requester).state = .working long →
          u.port t.requester = { s.port t.requester with
            state := .ready ⟨long.tag, .ok, (s.port t.requester).overrun, []⟩, overrun := false }) ∧
        (∀ q, q ≠ t.requester → u.port q = s.port q) ∧
        u.list t.source = [] ∧
        u.list t.target = ((s.list t.source).flatMap fun m => m.reasons.map fun r => (m.object, r)).foldl
          (fun l x => addReason x.1 x.2 l) (s.list t.target) ∧
        (∀ q, q ≠ t.source → q ≠ t.target → u.list q = s.list q) ∧
        u = { s with index := u.index, lists := u.lists, transfer := none, ports := u.ports })

/-- R194, R16, R54, R120, R137, R155, R163, R177, R180: a RESTART gives every block its restart values, ends a transfer in
flight with ABORTED, sets the other ports to IDLE and leaves its own WORKING for 16 ms. R195: its completion loads the
silence, scrub and refresh timers, builds an update if the transmitter is IDLE, and answers OK. Every code handed to a
position has been taken before (R176; log 7). The LOCAL and DRAIN flags that stay are those that the stored bits spell
(log 10), and the rehunts that wait are marked for R76 (log 21). -/
def Obligations.RestartReinitialisesAndCompletes : Prop :=
  (∀ (s : State) (p : PortNo) (tag : Byte), s.Admits p → (s.port p).admin = true →
    ∃ t u, CodesTaken (fun _ => true) s t ∧ exec (.restart p tag []) s = .next u ∧
      (∀ n, u.channel n = ⟨s.equipment n, ⟨none, none, 0, none⟩,
        if s.equipped n = true then ⟨.fault .span, .none, none, .is .block, none,
          { (t.seenCall n).flags with remote := false }, false, none⟩
        else ⟨.unequipped, .none, none, .fill, none, noFlags, false, none⟩, []⟩) ∧
      (∀ g, u.group g = { s.group g with
        idle := [], cursor := none, drainReported := false
        rehunts := (t.group g).rehunts.map fun x => { x with discarded := true } }) ∧
      (∀ sp, u.span sp = ⟨(s.span sp).config, if (s.span sp).config = none then .unused else .starting, 0, 0, none, none,
        false, 0, .fill 32 .none, .fill 32 none⟩) ∧
      (∀ k w, (u.index.get k).get w = none) ∧ u.purge = ⟨[], 0, false⟩ ∧ (∀ q, u.list q = []) ∧
      u.transfer = none ∧ u.scrub = { s.scrub with cursor := 0, timer := none } ∧
      (∀ sp, u.linkSpan sp = { t.linkSpan sp with
        dirty := match (s.span sp).config with
          | some c => .tabulate fun k => k.val < c.count
          | none => .fill 32 false }) ∧
      u.link = { t.link with spans := u.link.spans, servedLast := none, refreshTimer := none } ∧
      u.restart = some ⟨16, p⟩ ∧
      (∃ sdo, u.port p = { s.port p with state := .working ⟨tag, .restart⟩, sdo := sdo }) ∧
      (∀ q, q ≠ p → (∀ t, s.transfer = some t → t.requester ≠ q) →
        u.port q = { s.port q with state := .idle, overrun := false }) ∧
      (∀ q t long, q ≠ p → s.transfer = some t → t.requester = q → (s.port q).state = .working long →
        u.port q = { s.port q with
          state := .ready ⟨long.tag, .aborted, (s.port q).overrun, []⟩, overrun := false }) ∧
      u.profiles = s.profiles ∧ u.faults = t.faults ∧ u.millis = s.millis ∧ u.rstN = s.rstN ∧ u.pending = s.pending) ∧
  ∀ (s : State) (r : Restart) (long : LongRequest), s.restart = some r → r.timer = 0 →
    (s.port r.requester).state = .working long →
    ∃ u, exec .restartCompletion s = .next u ∧
      u.port r.requester = { s.port r.requester with
        state := .ready ⟨long.tag, .ok, (s.port r.requester).overrun, []⟩, overrun := false } ∧
      (∀ q, q ≠ r.requester → u.port q = s.port q) ∧
      { u with ports := s.ports } = State.buildIfIdle { s with
        restart := none
        spans := s.spans.map fun x => { x with
          silence := match x.config with
            | some c => load c.silence
            | none => x.silence }
        scrub := { s.scrub with timer := load s.scrub.interval }
        link := { s.link with refreshTimer := load s.link.refreshInterval } }

/-! ## The purge walk -/

/-- R134: a purge visit frees the entries of the set under the cursor whose channels are in the lost set, with RECORD_LOST
for each owner in way order; it takes one visit from every lost channel, drops those that have none left, and moves the
cursor on. -/
def Obligations.PurgeVisitsFreeStaleEntries : Prop :=
  ∀ s : State, s.purge.visitDue = true →
    let stale := (List.finRange 4).filterMap fun w =>
      ((s.index.get s.purge.cursor).get w).filter fun e => s.purgePending e.channel
    ∃ u, exec .purgeVisit s = .next u ∧
      (∀ k w, (u.index.get k).get w =
        if k = s.purge.cursor then ((s.index.get k).get w).filter fun e => !s.purgePending e.channel
        else (s.index.get k).get w) ∧
      Told (stale.map fun e => (e.owner, .channel e.channel, .channel .recordLost)) s u ∧
      u.purge = ⟨(s.purge.lost.filter fun l => 1 < l.remaining).map fun l => { l with remaining := l.remaining - 1 },
        s.purge.cursor + 1, false⟩ ∧
      u = { s with index := u.index, lists := u.lists, purge := u.purge }

/-! ## Spans and the line link -/

/-- R174, R172: a message that arrives while RST_N is Low is no event, and one during a restart leaves no trace; one that
fails its CRC check, is of another kind, names no span, an UNUSED span, or carries another count than its span's, leaves
one occurrence and nothing else. A kind other than SPAN_REPORT with a span character of 0..15 is reported with that
span. -/
def Obligations.LineMessagesAreRejectedInOrder : Prop :=
  (∀ (s : State) (m : List Byte), s.rstN = false → exec (.spanReport m) s = .next s) ∧
  ∀ (s : State) (m : List Byte), s.rstN = true →
    (s.restart ≠ none → exec (.spanReport m) s = .next s) ∧
    ∀ o : Occurrence, s.restart = none →
      (lineCrcPasses m = false ∧ o = ⟨.lineCheck, none, none, none, none, none⟩ ∨
       ∃ kind span sequence flags count rest, m = kind :: span :: sequence :: flags :: count :: rest ∧
         lineCrcPasses m = true ∧
         (kind ≠ 0x52#8 ∧ o = ⟨.lineFormat, numbered 16 span.toNat, none, none, none, none⟩ ∨
          kind = 0x52#8 ∧ 16 ≤ span.toNat ∧ o = ⟨.lineFormat, none, none, none, none, none⟩ ∨
          ∃ sp : SpanNo, kind = 0x52#8 ∧ span.toNat = sp.val ∧ o = ⟨.lineFormat, some sp, none, none, none, none⟩ ∧
            ((s.span sp).config = none ∨ ∃ c, (s.span sp).config = some c ∧
              (count.toNat ≠ c.count ∨ m.length ≠ 7 + count.toNat)))) →
      exec (.spanReport m) s = .next { s with faults := { s.faults with reported := s.faults.reported ++ [o] } }

/-- R105, R106, R107, R109, R110, R112, R116, R175, R21: an accepted report. Its sequence becomes the last one and the
silence timer is loaded; a gap is reported. The span moves by the table of R106: it stays, fails, fails again, is restored,
or resumes from SUSPECT; candidates are cleared by a gap and by entry to IN_SERVICE from any state but STARTING; the far
alarm follows its run; and the codes are handed to the positions if the span is then STARTING or IN_SERVICE. R176: the codes
that still wait from an earlier report are taken first (log 7). -/
def Obligations.AcceptedReportsMoveTheSpan : Prop :=
  ∀ (s : State) (sp : SpanNo) (sequence flags : Byte) (chars : List Byte) (c : SpanConfig)
    (state : SpanState) (faultRun cleanRun : Nat) (cleared : Bool) (notice : Notice → Notice)
    (adds : List (PortNo × AttentionObject × Reason)) (occurrences : List Occurrence)
    (farAlarm : Bool) (farRun : Nat) (farAdds : List (PortNo × AttentionObject × Reason)),
    s.rstN = true → s.restart = none → (s.span sp).config = some c → chars.length = c.count → c.count ≤ 32 →
    let r := s.span sp
    let faulty := flags.getLsbD 0 || flags.getLsbD 1 || flags.getLsbD 2
    let gap := r.lastSequence.any fun l => sequence ≠ l + 1
    let tells (x : SpanReason) : List (PortNo × AttentionObject × Reason) := [(c.maintenance, .span sp, .span x)]
    let stays := cleared = false ∧ notice = id ∧ adds = [] ∧ occurrences = []
    let fails := state = .failed .faulty ∧ faultRun = 0 ∧ cleanRun = 0 ∧ cleared = false ∧ notice = (fun _ => .down) ∧
      adds = tells .spanFailed ∧ occurrences = [⟨.spanFailed, some sp, none, none, none, none⟩]
    let serves := state = .inService ∧ faultRun = 0 ∧ cleanRun = 0 ∧ occurrences = []
    let restored := serves ∧ notice = upNotice ∧ adds = tells .spanRestored
    (r.state = .starting ∧ faulty = true ∧ state = .starting ∧ faultRun = r.faultRun ∧ cleanRun = 0 ∧ stays ∨
     r.state = .starting ∧ faulty = false ∧ r.cleanRun + 1 < c.nClear ∧ state = .starting ∧ faultRun = r.faultRun ∧
       cleanRun = r.cleanRun + 1 ∧ stays ∨
     r.state = .starting ∧ faulty = false ∧ c.nClear ≤ r.cleanRun + 1 ∧ restored ∧ cleared = false ∨
     r.state = .inService ∧ faulty = true ∧ c.nSet = 1 ∧ fails ∨
     r.state = .inService ∧ faulty = true ∧ c.nSet ≠ 1 ∧ state = .suspect ∧ faultRun = 1 ∧ cleanRun = r.cleanRun ∧
       stays ∨
     r.state = .inService ∧ faulty = false ∧ state = .inService ∧ faultRun = r.faultRun ∧ cleanRun = r.cleanRun ∧
       stays ∨
     r.state = .suspect ∧ faulty = true ∧ c.nSet ≤ r.faultRun + 1 ∧ fails ∨
     r.state = .suspect ∧ faulty = true ∧ r.faultRun + 1 < c.nSet ∧ state = .suspect ∧ faultRun = r.faultRun + 1 ∧
       cleanRun = r.cleanRun ∧ stays ∨
     r.state = .suspect ∧ faulty = false ∧ serves ∧ cleared = true ∧ notice = id ∧ adds = [] ∨
     (∃ x, r.state = .failed x ∧ faulty = true ∧ state = .failed x) ∧ faultRun = r.faultRun ∧ cleanRun = r.cleanRun ∧
       stays ∨
     (∃ x, r.state = .failed x ∧ faulty = false ∧ c.nClear ≠ 1 ∧ state = .recovering x) ∧ faultRun = 0 ∧
       cleanRun = 1 ∧ stays ∨
     (∃ x, r.state = .failed x) ∧ faulty = false ∧ c.nClear = 1 ∧ restored ∧ cleared = true ∨
     (∃ x, r.state = .recovering x) ∧ faulty = true ∧ state = .failed .faulty ∧ faultRun = 0 ∧ cleanRun = 0 ∧ stays ∨
     (∃ x, r.state = .recovering x ∧ state = .recovering x) ∧ faulty = false ∧ r.cleanRun + 1 < c.nClear ∧
       faultRun = r.faultRun ∧ cleanRun = r.cleanRun + 1 ∧ stays ∨
     (∃ x, r.state = .recovering x) ∧ faulty = false ∧ c.nClear ≤ r.cleanRun + 1 ∧ restored ∧ cleared = true) →
    (r.farAlarm = flags.getLsbD 3 ∧ farAlarm = r.farAlarm ∧ farRun = 0 ∧ farAdds = [] ∨
     r.farAlarm = false ∧ flags.getLsbD 3 = true ∧ r.farRun + 1 < c.nSet ∧ farAlarm = false ∧ farRun = r.farRun + 1 ∧
       farAdds = [] ∨
     r.farAlarm = false ∧ flags.getLsbD 3 = true ∧ c.nSet ≤ r.farRun + 1 ∧ farAlarm = true ∧ farRun = 0 ∧
       farAdds = tells .farAlarmOn ∨
     r.farAlarm = true ∧ flags.getLsbD 3 = false ∧ r.farRun + 1 < c.nClear ∧ farAlarm = true ∧ farRun = r.farRun + 1 ∧
       farAdds = [] ∨
     r.farAlarm = true ∧ flags.getLsbD 3 = false ∧ c.nClear ≤ r.farRun + 1 ∧ farAlarm = false ∧ farRun = 0 ∧
       farAdds = tells .farAlarmOff) →
    ∃ t u, CodesTaken (· = sp) s t ∧
      exec (.spanReport (withCrc16 ([0x52#8, BitVec.ofNat 8 sp.val, sequence, flags, BitVec.ofNat 8 c.count] ++
        chars))) s = .next (s.built u) ∧
      u.span sp = ⟨some c, state, faultRun, cleanRun, some sequence, load c.silence, farAlarm, farRun,
        (r.notices.mapIdx fun k x => if s.equipped (channelAt sp k) = true then notice x else x),
        if state = .starting ∨ state = .inService then .tabulate fun k => (chars[k.val]?).map (·.setWidth 4)
        else .fill 32 none⟩ ∧
      (∀ k, k ≠ sp → u.span k = t.span k) ∧
      (∀ n, u.channel n = if spanOf n = sp ∧ (gap || cleared) = true then
          { t.channel n with line := { t.line n with candidate := none, count := 0 } } else t.channel n) ∧
      Told (adds ++ farAdds) t u ∧
      Reported ((if gap then [⟨.lineGap, some sp, none, none, none, none⟩] else []) ++ occurrences) t u ∧
      u = { t with freeCount := u.freeCount, channels := u.channels, spans := u.spans, lists := u.lists, faults := u.faults }

/-- R113, R114, R115: a channel takes its pending notice, which becomes none. Span-down takes an equipped channel that is
not in FAULT to FAULT(SPAN), with REMOTE cleared, and ends a call with SPAN_DOWN; span-up takes it from FAULT(SPAN) to
GUARD; DOWN_UP is the one and then the other, in one event. R114, R157, R159: the call part is checked first; where the
record is lost the notice is taken all the same. -/
def Obligations.NoticesReachTheirChannel : Prop :=
  (∀ (s : State) (n : ChannelNo) (c : Instr),
    (c = .spanDown n ∧ s.noticeOf n = .down ∨ c = .spanUp n ∧ s.noticeOf n = .up ∨
     c = .downUp n ∧ s.noticeOf n = .downUp) →
    ChecksFirst c n s { s with
      spans := s.spans.update (spanOf n) fun r => { r with notices := r.notices.set (positionOf n) .none } }) ∧
  ∀ (s : State) (n : ChannelNo), (s.channel n).errors = [] →
    let taken := { s with
      spans := s.spans.update (spanOf n) fun r => { r with notices := r.notices.set (positionOf n) .none } }
    (s.noticeOf n = .down → ∃ u, exec (.spanDown n) s = .next (s.built u) ∧ TookDown n taken u) ∧
    (s.noticeOf n = .up → ∃ u, exec (.spanUp n) s = .next (s.built u) ∧ TookUp n taken u) ∧
    (s.noticeOf n = .downUp →
      ∃ u v, exec (.downUp n) s = .next (s.built u) ∧ TookDown n taken v ∧ TookUp n v u)

/-- R108, R109, R112: a silence expiry stops the timer, makes the last sequence absent and the far run 0. A span IN_SERVICE
or SUSPECT fails with cause SILENT: DOWN for every equipped position, SPAN_FAILED for the maintenance port, one occurrence
of SPAN_SILENT; one RECOVERING fails again without them; STARTING starts its count anew; FAILED stays. R176: the codes that
still wait are taken first (log 7). -/
def Obligations.SilenceFailsTheSpan : Prop :=
  ∀ (s : State) (sp : SpanNo) (c : SpanConfig), (s.span sp).silence = some 0 → (s.span sp).config = some c →
    let after := { s.span sp with lastSequence := none, farRun := 0, silence := none, handed := .fill 32 none }
    ((s.span sp).state = .inService ∨ (s.span sp).state = .suspect →
      ∃ t u, CodesTaken (· = sp) s t ∧ exec (.silenceExpiry sp) s = .next (s.built u) ∧
        u.span sp = { after with
          state := .failed .silent, faultRun := 0, cleanRun := 0
          notices := after.notices.mapIdx fun k x => if s.equipped (channelAt sp k) = true then .down else x } ∧
        (∀ k, k ≠ sp → u.span k = t.span k) ∧
        Told [(c.maintenance, .span sp, .span .spanFailed)] t u ∧
        Reported [⟨.spanSilent, some sp, none, none, none, none⟩] t u ∧
        u = { t with freeCount := u.freeCount, spans := u.spans, lists := u.lists, faults := u.faults }) ∧
    ∀ next,
      ((∃ x, (s.span sp).state = .recovering x) ∧
         next = { after with state := .failed .silent, faultRun := 0, cleanRun := 0 } ∨
       (∃ x, (s.span sp).state = .failed x) ∧ next = after ∨
       (s.span sp).state = .starting ∧ next = { after with cleanRun := 0 }) →
      ∃ t drawn, CodesTaken (· = sp) s t ∧ exec (.silenceExpiry sp) s = .next (s.built { t with
        spans := t.spans.set sp next, freeCount := drawn })

/-- R178, R179: with the transmitter IDLE and no restart in flight, a build serves the first span with an update pending in
the cyclic order after the one served last: its dirty positions in ascending order with the codes that stand, its alarm
request, and its sequence number, which advances; its dirty set is emptied. R181: at the end of sending the transmitter
becomes IDLE, or builds. R180: a refresh expiry marks every position of every configured span and loads the timer again. -/
def Obligations.UpdatesAreServedInTurn : Prop :=
  (∀ (s : State) (m : List Byte), s.link.transmitter = some m →
    exec .endOfSending s = .next (State.buildIfIdle { s with link := { s.link with transmitter := none } })) ∧
  (∀ s : State, s.link.transmitter = none → s.restart = none →
    ((∀ sp, s.updatePending sp = false) → s.buildIfIdle = s) ∧
    ∀ sp, s.updatePending sp = true →
      (match s.link.servedLast with
        | none => ∀ k, k < sp → s.updatePending k = false
        | some l => ∀ k, k - (l + 1) < sp - (l + 1) → s.updatePending k = false) →
      let dirty := (List.finRange 32).filter fun k => (s.linkSpan sp).dirty.get k
      (∀ k, (s.channel (channelAt sp k)).errors = []) →
      s.buildIfIdle = { s with link := { s.link with
        spans := s.link.spans.set sp ⟨.fill 32 false, s.alarmRequest sp, (s.linkSpan sp).sequence + 1⟩
        transmitter := some (spanUpdateMessage sp (s.linkSpan sp).sequence (s.alarmRequest sp)
          (dirty.map fun k => (k, s.presentCode (channelAt sp k))))
        servedLast := some sp } }) ∧
  (∀ s : State, s.link.transmitter ≠ none ∨ s.restart ≠ none → s.buildIfIdle = s) ∧
  ∀ s : State, s.link.refreshTimer = some 0 →
    ∃ u, exec .refreshExpiry s = .next (s.built u) ∧
      (∀ sp, u.linkSpan sp = match (s.span sp).config with
        | some c => { s.linkSpan sp with dirty := .tabulate fun k => k.val < c.count }
        | none => s.linkSpan sp) ∧
      u = { s with link := { s.link with spans := u.link.spans, refreshTimer := load s.link.refreshInterval } }

/-! ## Faults and errors -/

/-- R165, R166: the Fault Unit takes an occurrence. Of a class that is not detected it takes no notice; else the count
advances up to 255, the class joins the FAULT member of the target port where it is reported, and a major occurrence is
captured in an empty first-fault record, or joins the later majors. R167: FAULT_N is asserted while the first-fault record is
valid. -/
def Obligations.OccurrencesAreTakenByTheirClass : Prop :=
  (∀ s : State, s.faultAsserted = true ↔ s.faults.first ≠ none) ∧
  ∀ (s : State) (i : Nat) (o : Occurrence), s.faults.reported[i]? = some o →
    let r := s.faultClass o.cls
    let rest := s.faults.reported.eraseIdx i
    (r.detect = false → exec (.faultOccurrence i) s = .next { s with faults := { s.faults with reported := rest } }) ∧
    (r.detect = true →
      ∃ u, exec (.faultOccurrence i) s = .next u ∧
        u.faultClass o.cls = { r with count := if r.count = 255 then 255 else r.count + 1 } ∧
        (∀ c, c ≠ o.cls → u.faultClass c = s.faultClass c) ∧
        Told (if r.report then [(r.target, .fault, .fault o.cls)] else []) s u ∧
        u.faults.first = (if r.severity = .major ∧ s.faults.first = none then some ⟨o, s.millis⟩ else s.faults.first) ∧
        (∀ k, u.faults.later.get k = (s.faults.later.get k ||
          decide (r.severity = .major ∧ s.faults.first ≠ none ∧ k = classNo o.cls))) ∧
        u.faults.reported = rest ∧ u = { s with faults := u.faults, lists := u.lists })

/-- R156, R157, R158, R160, R161: a scrub visit checks the call part of the record under the cursor, moves the cursor on and
loads the timer. One bit in error is corrected, with one occurrence; two lose the record: FAULT(RECORD), out of the idle
queue, purge pending with 128 visits, its position dirty, with one occurrence and the drain check; reduced at an unequipped
channel, and without the drain check at one already in FAULT(RECORD) (log 15). A storage error brings bits into error
(log 9). -/
def Obligations.ChecksCorrectOrLoseTheRecord : Prop :=
  (∀ (s : State) (n : ChannelNo) (bits : List Nat),
    exec (.storageError n bits) s = .next { s with channels := s.channels.update n fun r => { r with
      errors := bits.foldl (fun errors b => toggleBit b errors) r.errors } }) ∧
  ∀ (s : State) (n : ChannelNo), s.scrub.timer = some 0 → s.scrub.cursor = n →
    let scrub := { s.scrub with cursor := n + 1, timer := load s.scrub.interval }
    ((s.channel n).errors = [] → exec .scrubVisit s = .next { s with scrub := scrub }) ∧
    (∀ b, (s.channel n).errors = [b] →
      exec .scrubVisit s = .next { s.corrected n none with scrub := scrub }) ∧
    ∀ a b, (s.channel n).errors = [a, b] →
      ∃ v, Lost n none s v ∧ exec .scrubVisit s = .next (s.built { v with scrub := scrub })

/-! ## What every step keeps -/

/-- Every step keeps these six laws, together, from any state that obeys them. R188: an administrator is present. R121,
R123: a valid entry stands in the set its reference selects, and no two hold one reference. R17, R19: the transmit codes of
a profile are distinct. R3, R25, R101: a candidate count is below its span's depth, and the depth is 1 to 7. R21, R176:
codes wait only at spans that are STARTING or IN_SERVICE. R138: no member stands twice in an attention list, and each
carries reasons of its kind, at least one and none twice. Other laws of the spec (R8, R35, R40, R41, R127, R130) are not
among them. -/
def Obligations.EveryStepKeepsTheLaws : Prop := ∀ s t : State, Lawful s → step s = .next t → Lawful t

/-- The six laws of the statement above hold right after reset. -/
def Obligations.ResetObeysTheLaws : Prop := Lawful State.reset

/-- R24: in every step that finds and leaves a span SUSPECT, FAILED or RECOVERING, no stable code of its positions
changes. A SET_SPAN may empty positions from the new channel count up. -/
def Obligations.FreezeKeepsStableCodes : Prop :=
  ∀ (s t : State) (n : ChannelNo), HandedInService s → step s = .next t →
    isFrozen (s.span (spanOf n)).state = true → isFrozen (t.span (spanOf n)).state = true →
    (∀ c, (t.span (spanOf n)).config = some c → (positionOf n).val < c.count) →
    (t.line n).stable = (s.line n).stable

/-- R165, R166, R171: a captured first fault stays as it was captured, whatever the command, but for CLEAR_FAULTS and
POWER_ON_RESET. -/
def Obligations.FirstFaultStays : Prop :=
  ∀ (c : Instr) (s t : State) (f : FirstFault), exec c s = .next t → c ≠ .powerOnReset →
    (∀ p tag body, c ≠ .clearFaults p tag body) → s.faults.first = some f → t.faults.first = some f
end

