-- ==== Sys2Proof/Laws/Tables.lean ====
section
/-! SUPPORT. What each operation of a table does, seen through the reading of one record. -/

namespace Sys2Proof.Table

set_option Elab.async false
variable {α β : Type} {n : Nat}

theorem get_eq_getElem (t : Table α n) (i : Fin n) :
    t.get i = t.cells[i.val]'(by rw [t.size]; exact i.isLt) := rfl

theorem ext_get {t u : Table α n} (h : ∀ i, t.get i = u.get i) : t = u := by
  obtain ⟨tc, ht⟩ := t
  obtain ⟨uc, hu⟩ := u
  have : tc = uc := by
    apply List.ext_getElem (ht.trans hu.symm)
    intro i h1 h2
    exact h ⟨i, ht ▸ h1⟩
  subst this
  rfl

theorem get_set (t : Table α n) (i j : Fin n) (a : α) : (t.set i a).get j = if j = i then a else t.get j := by
  simp only [get_eq_getElem, set, List.getElem_set]
  by_cases h : j = i
  · subst h; simp
  · rw [if_neg h, if_neg (fun e => h (Fin.ext e.symm))]

@[simp] theorem get_set_same (t : Table α n) (i : Fin n) (a : α) : (t.set i a).get i = a := by simp [get_set]

theorem get_set_other (t : Table α n) {i j : Fin n} (a : α) (h : j ≠ i) : (t.set i a).get j = t.get j := by
  simp [get_set, h]

theorem get_update (t : Table α n) (i j : Fin n) (f : α → α) :
    (t.update i f).get j = if j = i then f (t.get i) else t.get j := get_set ..

@[simp] theorem get_update_same (t : Table α n) (i : Fin n) (f : α → α) : (t.update i f).get i = f (t.get i) := by
  simp [get_update]

theorem get_update_other (t : Table α n) {i j : Fin n} (f : α → α) (h : j ≠ i) : (t.update i f).get j = t.get j := by
  simp [get_update, h]

@[simp] theorem get_map (f : α → β) (t : Table α n) (i : Fin n) : (t.map f).get i = f (t.get i) := by
  simp [get_eq_getElem, map]

@[simp] theorem get_mapIdx (f : Fin n → α → β) (t : Table α n) (i : Fin n) : (t.mapIdx f).get i = f i (t.get i) := by
  simp [get_eq_getElem, mapIdx]

@[simp] theorem get_fill (a : α) (i : Fin n) : (fill n a).get i = a := by simp [get_eq_getElem, fill]

@[simp] theorem get_tabulate (f : Fin n → α) (i : Fin n) : (tabulate f).get i = f i := by
  simp [get_eq_getElem, tabulate]

theorem set_get (t : Table α n) (i : Fin n) : t.set i (t.get i) = t := by
  apply ext_get
  intro j
  rw [get_set]
  split
  · next h => rw [h]
  · rfl

theorem update_id (t : Table α n) (i : Fin n) {f : α → α} (h : f (t.get i) = t.get i) : t.update i f = t := by
  rw [update, h, set_get]

theorem update_update (t : Table α n) (i : Fin n) (f g : α → α) :
    (t.update i f).update i g = t.update i (fun a => g (f a)) := by
  apply ext_get
  intro j
  simp only [get_update]
  split <;> simp

theorem mem_cells {t : Table α n} {a : α} : a ∈ t.cells ↔ ∃ i, t.get i = a := by
  rw [List.mem_iff_getElem]
  constructor
  · rintro ⟨i, h, e⟩
    exact ⟨⟨i, t.size ▸ h⟩, e⟩
  · rintro ⟨i, e⟩
    exact ⟨i.val, by rw [t.size]; exact i.isLt, e⟩

theorem any_iff {t : Table α n} {p : α → Bool} : t.any p = true ↔ ∃ i, p (t.get i) = true := by
  rw [any, List.any_eq_true]
  constructor
  · rintro ⟨a, h, e⟩
    obtain ⟨i, rfl⟩ := mem_cells.1 h
    exact ⟨i, e⟩
  · rintro ⟨i, e⟩
    exact ⟨_, mem_cells.2 ⟨i, rfl⟩, e⟩

/-- The places of a table whose values pass, in ascending order. -/
theorem indices_eq_filter {t : Table α n} {p : α → Bool} : t.indices p = (List.finRange n).filter fun i => p (t.get i) := by
  have z : (List.finRange n).zip t.cells = (List.finRange n).map fun i => (i, t.get i) :=
    List.ext_getElem (by simp [t.size]) fun i h1 h2 => by simp [get_eq_getElem]
  rw [indices, z, List.filterMap_map, ← List.filterMap_eq_filter]
  congr 1

theorem mem_indices {t : Table α n} {p : α → Bool} {i : Fin n} : i ∈ t.indices p ↔ p (t.get i) = true := by
  have key : ∀ j : Fin n, ((List.finRange n).zip t.cells)[j.val]'(by simp [t.size]) = (j, t.get j) := by
    intro j; simp [get_eq_getElem]
  rw [indices, List.mem_filterMap]
  constructor
  · rintro ⟨⟨j, a⟩, h, e⟩
    obtain ⟨k, hk, e'⟩ := List.mem_iff_getElem.1 h
    have hk' : k < n := by simpa [t.size] using hk
    have := key ⟨k, hk'⟩
    rw [e'] at this
    injection this with h1 h2
    subst h1 h2
    by_cases hp : p (t.get ⟨k, hk'⟩) = true
    · simp [hp] at e; subst e; exact hp
    · simp [hp] at e
  · intro h
    refine ⟨(i, t.get i), ?_, by simp [h]⟩
    rw [← key i]
    exact List.getElem_mem _

end Sys2Proof.Table
end

