-- ==== Sys2Proof/Laws/State.lean ====
section
/-! SUPPORT. What each update of one part of the state leaves as it stands, field by field, and what it reads back as:
no later proof unfolds a record update. -/

namespace Sys2Proof.Machine.State

set_option Elab.async false

variable (s : State)

@[simp] theorem modChannel_profiles {n f} : (s.modChannel n f).profiles = s.profiles := rfl
@[simp] theorem modChannel_groups {n f} : (s.modChannel n f).groups = s.groups := rfl
@[simp] theorem modChannel_spans {n f} : (s.modChannel n f).spans = s.spans := rfl
@[simp] theorem modChannel_index {n f} : (s.modChannel n f).index = s.index := rfl
@[simp] theorem modChannel_purge {n f} : (s.modChannel n f).purge = s.purge := rfl
@[simp] theorem modChannel_lists {n f} : (s.modChannel n f).lists = s.lists := rfl
@[simp] theorem modChannel_transfer {n f} : (s.modChannel n f).transfer = s.transfer := rfl
@[simp] theorem modChannel_faults {n f} : (s.modChannel n f).faults = s.faults := rfl
@[simp] theorem modChannel_scrub {n f} : (s.modChannel n f).scrub = s.scrub := rfl
@[simp] theorem modChannel_link {n f} : (s.modChannel n f).link = s.link := rfl
@[simp] theorem modChannel_ports {n f} : (s.modChannel n f).ports = s.ports := rfl
@[simp] theorem modChannel_restart {n f} : (s.modChannel n f).restart = s.restart := rfl
@[simp] theorem modChannel_millis {n f} : (s.modChannel n f).millis = s.millis := rfl
@[simp] theorem modChannel_rstN {n f} : (s.modChannel n f).rstN = s.rstN := rfl
@[simp] theorem modChannel_freeCount {n f} : (s.modChannel n f).freeCount = s.freeCount := rfl
@[simp] theorem modChannel_pending {n f} : (s.modChannel n f).pending = s.pending := rfl

@[simp] theorem modGroup_channels {g f} : (s.modGroup g f).channels = s.channels := rfl
@[simp] theorem modGroup_profiles {g f} : (s.modGroup g f).profiles = s.profiles := rfl
@[simp] theorem modGroup_spans {g f} : (s.modGroup g f).spans = s.spans := rfl
@[simp] theorem modGroup_index {g f} : (s.modGroup g f).index = s.index := rfl
@[simp] theorem modGroup_purge {g f} : (s.modGroup g f).purge = s.purge := rfl
@[simp] theorem modGroup_lists {g f} : (s.modGroup g f).lists = s.lists := rfl
@[simp] theorem modGroup_transfer {g f} : (s.modGroup g f).transfer = s.transfer := rfl
@[simp] theorem modGroup_faults {g f} : (s.modGroup g f).faults = s.faults := rfl
@[simp] theorem modGroup_scrub {g f} : (s.modGroup g f).scrub = s.scrub := rfl
@[simp] theorem modGroup_link {g f} : (s.modGroup g f).link = s.link := rfl
@[simp] theorem modGroup_ports {g f} : (s.modGroup g f).ports = s.ports := rfl
@[simp] theorem modGroup_restart {g f} : (s.modGroup g f).restart = s.restart := rfl
@[simp] theorem modGroup_millis {g f} : (s.modGroup g f).millis = s.millis := rfl
@[simp] theorem modGroup_rstN {g f} : (s.modGroup g f).rstN = s.rstN := rfl
@[simp] theorem modGroup_freeCount {g f} : (s.modGroup g f).freeCount = s.freeCount := rfl
@[simp] theorem modGroup_pending {g f} : (s.modGroup g f).pending = s.pending := rfl

@[simp] theorem modSpan_channels {sp f} : (s.modSpan sp f).channels = s.channels := rfl
@[simp] theorem modSpan_profiles {sp f} : (s.modSpan sp f).profiles = s.profiles := rfl
@[simp] theorem modSpan_groups {sp f} : (s.modSpan sp f).groups = s.groups := rfl
@[simp] theorem modSpan_index {sp f} : (s.modSpan sp f).index = s.index := rfl
@[simp] theorem modSpan_purge {sp f} : (s.modSpan sp f).purge = s.purge := rfl
@[simp] theorem modSpan_lists {sp f} : (s.modSpan sp f).lists = s.lists := rfl
@[simp] theorem modSpan_transfer {sp f} : (s.modSpan sp f).transfer = s.transfer := rfl
@[simp] theorem modSpan_faults {sp f} : (s.modSpan sp f).faults = s.faults := rfl
@[simp] theorem modSpan_scrub {sp f} : (s.modSpan sp f).scrub = s.scrub := rfl
@[simp] theorem modSpan_link {sp f} : (s.modSpan sp f).link = s.link := rfl
@[simp] theorem modSpan_ports {sp f} : (s.modSpan sp f).ports = s.ports := rfl
@[simp] theorem modSpan_restart {sp f} : (s.modSpan sp f).restart = s.restart := rfl
@[simp] theorem modSpan_millis {sp f} : (s.modSpan sp f).millis = s.millis := rfl
@[simp] theorem modSpan_rstN {sp f} : (s.modSpan sp f).rstN = s.rstN := rfl
@[simp] theorem modSpan_freeCount {sp f} : (s.modSpan sp f).freeCount = s.freeCount := rfl
@[simp] theorem modSpan_pending {sp f} : (s.modSpan sp f).pending = s.pending := rfl

@[simp] theorem modLinkSpan_channels {sp f} : (s.modLinkSpan sp f).channels = s.channels := rfl
@[simp] theorem modLinkSpan_profiles {sp f} : (s.modLinkSpan sp f).profiles = s.profiles := rfl
@[simp] theorem modLinkSpan_groups {sp f} : (s.modLinkSpan sp f).groups = s.groups := rfl
@[simp] theorem modLinkSpan_spans {sp f} : (s.modLinkSpan sp f).spans = s.spans := rfl
@[simp] theorem modLinkSpan_index {sp f} : (s.modLinkSpan sp f).index = s.index := rfl
@[simp] theorem modLinkSpan_purge {sp f} : (s.modLinkSpan sp f).purge = s.purge := rfl
@[simp] theorem modLinkSpan_lists {sp f} : (s.modLinkSpan sp f).lists = s.lists := rfl
@[simp] theorem modLinkSpan_transfer {sp f} : (s.modLinkSpan sp f).transfer = s.transfer := rfl
@[simp] theorem modLinkSpan_faults {sp f} : (s.modLinkSpan sp f).faults = s.faults := rfl
@[simp] theorem modLinkSpan_scrub {sp f} : (s.modLinkSpan sp f).scrub = s.scrub := rfl
@[simp] theorem modLinkSpan_ports {sp f} : (s.modLinkSpan sp f).ports = s.ports := rfl
@[simp] theorem modLinkSpan_restart {sp f} : (s.modLinkSpan sp f).restart = s.restart := rfl
@[simp] theorem modLinkSpan_millis {sp f} : (s.modLinkSpan sp f).millis = s.millis := rfl
@[simp] theorem modLinkSpan_rstN {sp f} : (s.modLinkSpan sp f).rstN = s.rstN := rfl
@[simp] theorem modLinkSpan_freeCount {sp f} : (s.modLinkSpan sp f).freeCount = s.freeCount := rfl
@[simp] theorem modLinkSpan_pending {sp f} : (s.modLinkSpan sp f).pending = s.pending := rfl

@[simp] theorem modPort_channels {p f} : (s.modPort p f).channels = s.channels := rfl
@[simp] theorem modPort_profiles {p f} : (s.modPort p f).profiles = s.profiles := rfl
@[simp] theorem modPort_groups {p f} : (s.modPort p f).groups = s.groups := rfl
@[simp] theorem modPort_spans {p f} : (s.modPort p f).spans = s.spans := rfl
@[simp] theorem modPort_index {p f} : (s.modPort p f).index = s.index := rfl
@[simp] theorem modPort_purge {p f} : (s.modPort p f).purge = s.purge := rfl
@[simp] theorem modPort_lists {p f} : (s.modPort p f).lists = s.lists := rfl
@[simp] theorem modPort_transfer {p f} : (s.modPort p f).transfer = s.transfer := rfl
@[simp] theorem modPort_faults {p f} : (s.modPort p f).faults = s.faults := rfl
@[simp] theorem modPort_scrub {p f} : (s.modPort p f).scrub = s.scrub := rfl
@[simp] theorem modPort_link {p f} : (s.modPort p f).link = s.link := rfl
@[simp] theorem modPort_restart {p f} : (s.modPort p f).restart = s.restart := rfl
@[simp] theorem modPort_millis {p f} : (s.modPort p f).millis = s.millis := rfl
@[simp] theorem modPort_rstN {p f} : (s.modPort p f).rstN = s.rstN := rfl
@[simp] theorem modPort_freeCount {p f} : (s.modPort p f).freeCount = s.freeCount := rfl
@[simp] theorem modPort_pending {p f} : (s.modPort p f).pending = s.pending := rfl

@[simp] theorem setLine_profiles {n l} : (s.setLine n l).profiles = s.profiles := rfl
@[simp] theorem setLine_groups {n l} : (s.setLine n l).groups = s.groups := rfl
@[simp] theorem setLine_spans {n l} : (s.setLine n l).spans = s.spans := rfl
@[simp] theorem setLine_index {n l} : (s.setLine n l).index = s.index := rfl
@[simp] theorem setLine_purge {n l} : (s.setLine n l).purge = s.purge := rfl
@[simp] theorem setLine_lists {n l} : (s.setLine n l).lists = s.lists := rfl
@[simp] theorem setLine_transfer {n l} : (s.setLine n l).transfer = s.transfer := rfl
@[simp] theorem setLine_faults {n l} : (s.setLine n l).faults = s.faults := rfl
@[simp] theorem setLine_scrub {n l} : (s.setLine n l).scrub = s.scrub := rfl
@[simp] theorem setLine_link {n l} : (s.setLine n l).link = s.link := rfl
@[simp] theorem setLine_ports {n l} : (s.setLine n l).ports = s.ports := rfl
@[simp] theorem setLine_restart {n l} : (s.setLine n l).restart = s.restart := rfl
@[simp] theorem setLine_millis {n l} : (s.setLine n l).millis = s.millis := rfl
@[simp] theorem setLine_rstN {n l} : (s.setLine n l).rstN = s.rstN := rfl
@[simp] theorem setLine_freeCount {n l} : (s.setLine n l).freeCount = s.freeCount := rfl
@[simp] theorem setLine_pending {n l} : (s.setLine n l).pending = s.pending := rfl

@[simp] theorem setCall_profiles {n c} : (s.setCall n c).profiles = s.profiles := rfl
@[simp] theorem setCall_groups {n c} : (s.setCall n c).groups = s.groups := rfl
@[simp] theorem setCall_spans {n c} : (s.setCall n c).spans = s.spans := rfl
@[simp] theorem setCall_index {n c} : (s.setCall n c).index = s.index := rfl
@[simp] theorem setCall_purge {n c} : (s.setCall n c).purge = s.purge := rfl
@[simp] theorem setCall_lists {n c} : (s.setCall n c).lists = s.lists := rfl
@[simp] theorem setCall_transfer {n c} : (s.setCall n c).transfer = s.transfer := rfl
@[simp] theorem setCall_faults {n c} : (s.setCall n c).faults = s.faults := rfl
@[simp] theorem setCall_scrub {n c} : (s.setCall n c).scrub = s.scrub := rfl
@[simp] theorem setCall_link {n c} : (s.setCall n c).link = s.link := rfl
@[simp] theorem setCall_ports {n c} : (s.setCall n c).ports = s.ports := rfl
@[simp] theorem setCall_restart {n c} : (s.setCall n c).restart = s.restart := rfl
@[simp] theorem setCall_millis {n c} : (s.setCall n c).millis = s.millis := rfl
@[simp] theorem setCall_rstN {n c} : (s.setCall n c).rstN = s.rstN := rfl
@[simp] theorem setCall_freeCount {n c} : (s.setCall n c).freeCount = s.freeCount := rfl
@[simp] theorem setCall_pending {n c} : (s.setCall n c).pending = s.pending := rfl

@[simp] theorem notify_channels {p o r} : (s.notify p o r).channels = s.channels := rfl
@[simp] theorem notify_profiles {p o r} : (s.notify p o r).profiles = s.profiles := rfl
@[simp] theorem notify_groups {p o r} : (s.notify p o r).groups = s.groups := rfl
@[simp] theorem notify_spans {p o r} : (s.notify p o r).spans = s.spans := rfl
@[simp] theorem notify_index {p o r} : (s.notify p o r).index = s.index := rfl
@[simp] theorem notify_purge {p o r} : (s.notify p o r).purge = s.purge := rfl
@[simp] theorem notify_transfer {p o r} : (s.notify p o r).transfer = s.transfer := rfl
@[simp] theorem notify_faults {p o r} : (s.notify p o r).faults = s.faults := rfl
@[simp] theorem notify_scrub {p o r} : (s.notify p o r).scrub = s.scrub := rfl
@[simp] theorem notify_link {p o r} : (s.notify p o r).link = s.link := rfl
@[simp] theorem notify_ports {p o r} : (s.notify p o r).ports = s.ports := rfl
@[simp] theorem notify_restart {p o r} : (s.notify p o r).restart = s.restart := rfl
@[simp] theorem notify_millis {p o r} : (s.notify p o r).millis = s.millis := rfl
@[simp] theorem notify_rstN {p o r} : (s.notify p o r).rstN = s.rstN := rfl
@[simp] theorem notify_freeCount {p o r} : (s.notify p o r).freeCount = s.freeCount := rfl
@[simp] theorem notify_pending {p o r} : (s.notify p o r).pending = s.pending := rfl

@[simp] theorem tell_channels {p n r} : (s.tell p n r).channels = s.channels := rfl
@[simp] theorem tell_profiles {p n r} : (s.tell p n r).profiles = s.profiles := rfl
@[simp] theorem tell_groups {p n r} : (s.tell p n r).groups = s.groups := rfl
@[simp] theorem tell_spans {p n r} : (s.tell p n r).spans = s.spans := rfl
@[simp] theorem tell_index {p n r} : (s.tell p n r).index = s.index := rfl
@[simp] theorem tell_purge {p n r} : (s.tell p n r).purge = s.purge := rfl
@[simp] theorem tell_transfer {p n r} : (s.tell p n r).transfer = s.transfer := rfl
@[simp] theorem tell_faults {p n r} : (s.tell p n r).faults = s.faults := rfl
@[simp] theorem tell_scrub {p n r} : (s.tell p n r).scrub = s.scrub := rfl
@[simp] theorem tell_link {p n r} : (s.tell p n r).link = s.link := rfl
@[simp] theorem tell_ports {p n r} : (s.tell p n r).ports = s.ports := rfl
@[simp] theorem tell_restart {p n r} : (s.tell p n r).restart = s.restart := rfl
@[simp] theorem tell_millis {p n r} : (s.tell p n r).millis = s.millis := rfl
@[simp] theorem tell_rstN {p n r} : (s.tell p n r).rstN = s.rstN := rfl
@[simp] theorem tell_freeCount {p n r} : (s.tell p n r).freeCount = s.freeCount := rfl
@[simp] theorem tell_pending {p n r} : (s.tell p n r).pending = s.pending := rfl

@[simp] theorem tellMaintenance_channels {n r} : (s.tellMaintenance n r).channels = s.channels := rfl
@[simp] theorem tellMaintenance_profiles {n r} : (s.tellMaintenance n r).profiles = s.profiles := rfl
@[simp] theorem tellMaintenance_groups {n r} : (s.tellMaintenance n r).groups = s.groups := rfl
@[simp] theorem tellMaintenance_spans {n r} : (s.tellMaintenance n r).spans = s.spans := rfl
@[simp] theorem tellMaintenance_index {n r} : (s.tellMaintenance n r).index = s.index := rfl
@[simp] theorem tellMaintenance_purge {n r} : (s.tellMaintenance n r).purge = s.purge := rfl
@[simp] theorem tellMaintenance_transfer {n r} : (s.tellMaintenance n r).transfer = s.transfer := rfl
@[simp] theorem tellMaintenance_faults {n r} : (s.tellMaintenance n r).faults = s.faults := rfl
@[simp] theorem tellMaintenance_scrub {n r} : (s.tellMaintenance n r).scrub = s.scrub := rfl
@[simp] theorem tellMaintenance_link {n r} : (s.tellMaintenance n r).link = s.link := rfl
@[simp] theorem tellMaintenance_ports {n r} : (s.tellMaintenance n r).ports = s.ports := rfl
@[simp] theorem tellMaintenance_restart {n r} : (s.tellMaintenance n r).restart = s.restart := rfl
@[simp] theorem tellMaintenance_millis {n r} : (s.tellMaintenance n r).millis = s.millis := rfl
@[simp] theorem tellMaintenance_rstN {n r} : (s.tellMaintenance n r).rstN = s.rstN := rfl
@[simp] theorem tellMaintenance_freeCount {n r} : (s.tellMaintenance n r).freeCount = s.freeCount := rfl
@[simp] theorem tellMaintenance_pending {n r} : (s.tellMaintenance n r).pending = s.pending := rfl

@[simp] theorem report_channels {o} : (s.report o).channels = s.channels := rfl
@[simp] theorem report_profiles {o} : (s.report o).profiles = s.profiles := rfl
@[simp] theorem report_groups {o} : (s.report o).groups = s.groups := rfl
@[simp] theorem report_spans {o} : (s.report o).spans = s.spans := rfl
@[simp] theorem report_index {o} : (s.report o).index = s.index := rfl
@[simp] theorem report_purge {o} : (s.report o).purge = s.purge := rfl
@[simp] theorem report_lists {o} : (s.report o).lists = s.lists := rfl
@[simp] theorem report_transfer {o} : (s.report o).transfer = s.transfer := rfl
@[simp] theorem report_scrub {o} : (s.report o).scrub = s.scrub := rfl
@[simp] theorem report_link {o} : (s.report o).link = s.link := rfl
@[simp] theorem report_ports {o} : (s.report o).ports = s.ports := rfl
@[simp] theorem report_restart {o} : (s.report o).restart = s.restart := rfl
@[simp] theorem report_millis {o} : (s.report o).millis = s.millis := rfl
@[simp] theorem report_rstN {o} : (s.report o).rstN = s.rstN := rfl
@[simp] theorem report_freeCount {o} : (s.report o).freeCount = s.freeCount := rfl
@[simp] theorem report_pending {o} : (s.report o).pending = s.pending := rfl

@[simp] theorem reportChannel_channels {c n} : (s.reportChannel c n).channels = s.channels := rfl
@[simp] theorem reportChannel_profiles {c n} : (s.reportChannel c n).profiles = s.profiles := rfl
@[simp] theorem reportChannel_groups {c n} : (s.reportChannel c n).groups = s.groups := rfl
@[simp] theorem reportChannel_spans {c n} : (s.reportChannel c n).spans = s.spans := rfl
@[simp] theorem reportChannel_index {c n} : (s.reportChannel c n).index = s.index := rfl
@[simp] theorem reportChannel_purge {c n} : (s.reportChannel c n).purge = s.purge := rfl
@[simp] theorem reportChannel_lists {c n} : (s.reportChannel c n).lists = s.lists := rfl
@[simp] theorem reportChannel_transfer {c n} : (s.reportChannel c n).transfer = s.transfer := rfl
@[simp] theorem reportChannel_scrub {c n} : (s.reportChannel c n).scrub = s.scrub := rfl
@[simp] theorem reportChannel_link {c n} : (s.reportChannel c n).link = s.link := rfl
@[simp] theorem reportChannel_ports {c n} : (s.reportChannel c n).ports = s.ports := rfl
@[simp] theorem reportChannel_restart {c n} : (s.reportChannel c n).restart = s.restart := rfl
@[simp] theorem reportChannel_millis {c n} : (s.reportChannel c n).millis = s.millis := rfl
@[simp] theorem reportChannel_rstN {c n} : (s.reportChannel c n).rstN = s.rstN := rfl
@[simp] theorem reportChannel_freeCount {c n} : (s.reportChannel c n).freeCount = s.freeCount := rfl
@[simp] theorem reportChannel_pending {c n} : (s.reportChannel c n).pending = s.pending := rfl

@[simp] theorem reportSpan_channels {c sp} : (s.reportSpan c sp).channels = s.channels := rfl
@[simp] theorem reportSpan_profiles {c sp} : (s.reportSpan c sp).profiles = s.profiles := rfl
@[simp] theorem reportSpan_groups {c sp} : (s.reportSpan c sp).groups = s.groups := rfl
@[simp] theorem reportSpan_spans {c sp} : (s.reportSpan c sp).spans = s.spans := rfl
@[simp] theorem reportSpan_index {c sp} : (s.reportSpan c sp).index = s.index := rfl
@[simp] theorem reportSpan_purge {c sp} : (s.reportSpan c sp).purge = s.purge := rfl
@[simp] theorem reportSpan_lists {c sp} : (s.reportSpan c sp).lists = s.lists := rfl
@[simp] theorem reportSpan_transfer {c sp} : (s.reportSpan c sp).transfer = s.transfer := rfl
@[simp] theorem reportSpan_scrub {c sp} : (s.reportSpan c sp).scrub = s.scrub := rfl
@[simp] theorem reportSpan_link {c sp} : (s.reportSpan c sp).link = s.link := rfl
@[simp] theorem reportSpan_ports {c sp} : (s.reportSpan c sp).ports = s.ports := rfl
@[simp] theorem reportSpan_restart {c sp} : (s.reportSpan c sp).restart = s.restart := rfl
@[simp] theorem reportSpan_millis {c sp} : (s.reportSpan c sp).millis = s.millis := rfl
@[simp] theorem reportSpan_rstN {c sp} : (s.reportSpan c sp).rstN = s.rstN := rfl
@[simp] theorem reportSpan_freeCount {c sp} : (s.reportSpan c sp).freeCount = s.freeCount := rfl
@[simp] theorem reportSpan_pending {c sp} : (s.reportSpan c sp).pending = s.pending := rfl

@[simp] theorem unbind_channels {r} : (s.unbind r).channels = s.channels := rfl
@[simp] theorem unbind_profiles {r} : (s.unbind r).profiles = s.profiles := rfl
@[simp] theorem unbind_groups {r} : (s.unbind r).groups = s.groups := rfl
@[simp] theorem unbind_spans {r} : (s.unbind r).spans = s.spans := rfl
@[simp] theorem unbind_purge {r} : (s.unbind r).purge = s.purge := rfl
@[simp] theorem unbind_lists {r} : (s.unbind r).lists = s.lists := rfl
@[simp] theorem unbind_transfer {r} : (s.unbind r).transfer = s.transfer := rfl
@[simp] theorem unbind_faults {r} : (s.unbind r).faults = s.faults := rfl
@[simp] theorem unbind_scrub {r} : (s.unbind r).scrub = s.scrub := rfl
@[simp] theorem unbind_link {r} : (s.unbind r).link = s.link := rfl
@[simp] theorem unbind_ports {r} : (s.unbind r).ports = s.ports := rfl
@[simp] theorem unbind_restart {r} : (s.unbind r).restart = s.restart := rfl
@[simp] theorem unbind_millis {r} : (s.unbind r).millis = s.millis := rfl
@[simp] theorem unbind_rstN {r} : (s.unbind r).rstN = s.rstN := rfl
@[simp] theorem unbind_freeCount {r} : (s.unbind r).freeCount = s.freeCount := rfl
@[simp] theorem unbind_pending {r} : (s.unbind r).pending = s.pending := rfl

@[simp] theorem drawn_channels : (s.drawn).channels = s.channels := rfl
@[simp] theorem drawn_profiles : (s.drawn).profiles = s.profiles := rfl
@[simp] theorem drawn_groups : (s.drawn).groups = s.groups := rfl
@[simp] theorem drawn_spans : (s.drawn).spans = s.spans := rfl
@[simp] theorem drawn_index : (s.drawn).index = s.index := rfl
@[simp] theorem drawn_purge : (s.drawn).purge = s.purge := rfl
@[simp] theorem drawn_lists : (s.drawn).lists = s.lists := rfl
@[simp] theorem drawn_transfer : (s.drawn).transfer = s.transfer := rfl
@[simp] theorem drawn_faults : (s.drawn).faults = s.faults := rfl
@[simp] theorem drawn_scrub : (s.drawn).scrub = s.scrub := rfl
@[simp] theorem drawn_link : (s.drawn).link = s.link := rfl
@[simp] theorem drawn_ports : (s.drawn).ports = s.ports := rfl
@[simp] theorem drawn_restart : (s.drawn).restart = s.restart := rfl
@[simp] theorem drawn_millis : (s.drawn).millis = s.millis := rfl
@[simp] theorem drawn_rstN : (s.drawn).rstN = s.rstN := rfl
@[simp] theorem drawn_pending : (s.drawn).pending = s.pending := rfl

@[simp] theorem clearCandidates_profiles {sp} : (s.clearCandidates sp).profiles = s.profiles :=
    by simp only [clearCandidates]
@[simp] theorem clearCandidates_groups {sp} : (s.clearCandidates sp).groups = s.groups := by simp only [clearCandidates]
@[simp] theorem clearCandidates_spans {sp} : (s.clearCandidates sp).spans = s.spans := by simp only [clearCandidates]
@[simp] theorem clearCandidates_index {sp} : (s.clearCandidates sp).index = s.index := by simp only [clearCandidates]
@[simp] theorem clearCandidates_purge {sp} : (s.clearCandidates sp).purge = s.purge := by simp only [clearCandidates]
@[simp] theorem clearCandidates_lists {sp} : (s.clearCandidates sp).lists = s.lists := by simp only [clearCandidates]
@[simp] theorem clearCandidates_transfer {sp} : (s.clearCandidates sp).transfer = s.transfer :=
    by simp only [clearCandidates]
@[simp] theorem clearCandidates_faults {sp} : (s.clearCandidates sp).faults = s.faults := by simp only [clearCandidates]
@[simp] theorem clearCandidates_scrub {sp} : (s.clearCandidates sp).scrub = s.scrub := by simp only [clearCandidates]
@[simp] theorem clearCandidates_link {sp} : (s.clearCandidates sp).link = s.link := by simp only [clearCandidates]
@[simp] theorem clearCandidates_ports {sp} : (s.clearCandidates sp).ports = s.ports := by simp only [clearCandidates]
@[simp] theorem clearCandidates_restart {sp} : (s.clearCandidates sp).restart = s.restart :=
    by simp only [clearCandidates]
@[simp] theorem clearCandidates_millis {sp} : (s.clearCandidates sp).millis = s.millis := by simp only [clearCandidates]
@[simp] theorem clearCandidates_rstN {sp} : (s.clearCandidates sp).rstN = s.rstN := by simp only [clearCandidates]
@[simp] theorem clearCandidates_freeCount {sp} : (s.clearCandidates sp).freeCount = s.freeCount :=
    by simp only [clearCandidates]
@[simp] theorem clearCandidates_pending {sp} : (s.clearCandidates sp).pending = s.pending :=
    by simp only [clearCandidates]

@[simp] theorem emptyLines_profiles {sp c} : (s.emptyLines sp c).profiles = s.profiles := by simp only [emptyLines]
@[simp] theorem emptyLines_groups {sp c} : (s.emptyLines sp c).groups = s.groups := by simp only [emptyLines]
@[simp] theorem emptyLines_spans {sp c} : (s.emptyLines sp c).spans = s.spans := by simp only [emptyLines]
@[simp] theorem emptyLines_index {sp c} : (s.emptyLines sp c).index = s.index := by simp only [emptyLines]
@[simp] theorem emptyLines_purge {sp c} : (s.emptyLines sp c).purge = s.purge := by simp only [emptyLines]
@[simp] theorem emptyLines_lists {sp c} : (s.emptyLines sp c).lists = s.lists := by simp only [emptyLines]
@[simp] theorem emptyLines_transfer {sp c} : (s.emptyLines sp c).transfer = s.transfer := by simp only [emptyLines]
@[simp] theorem emptyLines_faults {sp c} : (s.emptyLines sp c).faults = s.faults := by simp only [emptyLines]
@[simp] theorem emptyLines_scrub {sp c} : (s.emptyLines sp c).scrub = s.scrub := by simp only [emptyLines]
@[simp] theorem emptyLines_link {sp c} : (s.emptyLines sp c).link = s.link := by simp only [emptyLines]
@[simp] theorem emptyLines_ports {sp c} : (s.emptyLines sp c).ports = s.ports := by simp only [emptyLines]
@[simp] theorem emptyLines_restart {sp c} : (s.emptyLines sp c).restart = s.restart := by simp only [emptyLines]
@[simp] theorem emptyLines_millis {sp c} : (s.emptyLines sp c).millis = s.millis := by simp only [emptyLines]
@[simp] theorem emptyLines_rstN {sp c} : (s.emptyLines sp c).rstN = s.rstN := by simp only [emptyLines]
@[simp] theorem emptyLines_freeCount {sp c} : (s.emptyLines sp c).freeCount = s.freeCount := by simp only [emptyLines]
@[simp] theorem emptyLines_pending {sp c} : (s.emptyLines sp c).pending = s.pending := by simp only [emptyLines]

/-! ## One record of an updated table -/

section
variable {s : State}

theorem channel_modChannel {n m f} : (s.modChannel n f).channel m = if m = n then f (s.channel n) else s.channel m :=
  Table.get_update ..

theorem group_modGroup {g h f} : (s.modGroup g f).group h = if h = g then f (s.group g) else s.group h :=
  Table.get_update ..

theorem span_modSpan {sp q f} : (s.modSpan sp f).span q = if q = sp then f (s.span sp) else s.span q :=
  Table.get_update ..

theorem linkSpan_modLinkSpan {sp q f} :
    (s.modLinkSpan sp f).linkSpan q = if q = sp then f (s.linkSpan sp) else s.linkSpan q :=
  Table.get_update ..

theorem port_modPort {p q f} : (s.modPort p f).port q = if q = p then f (s.port p) else s.port q :=
  Table.get_update ..

theorem list_notify {p q o r} : (s.notify p o r).list q = if q = p then addReason o r (s.list p) else s.list q :=
  Table.get_update ..

theorem call_setCall {n m c} : (s.setCall n c).call m = if m = n then c else s.call m := by
  simp only [call, setCall, channel_modChannel]
  split <;> rfl

/-- With no bit in error the stored bits spell the call part last written (log 10). -/
theorem seenCall_clean {n} (h : (s.channel n).errors = []) : s.seenCall n = s.call n := by
  unfold seenCall ChannelRecord.seenCall
  rw [if_pos h]
  rfl

theorem errors_setCall {n m c} : ((s.setCall n c).channel m).errors = if m = n then [] else (s.channel m).errors := by
  simp only [setCall, channel_modChannel]
  split <;> rfl

theorem line_setCall {n m c} : (s.setCall n c).line m = s.line m := by
  simp only [line, setCall, channel_modChannel]
  split
  · next h => rw [h]
  · rfl

theorem equipment_setCall {n m c} : (s.setCall n c).equipment m = s.equipment m := by
  simp only [equipment, setCall, channel_modChannel]
  split
  · next h => rw [h]
  · rfl

theorem call_setLine {n m l} : (s.setLine n l).call m = s.call m := by
  simp only [call, setLine, channel_modChannel]
  split
  · next h => rw [h]
  · rfl

theorem line_setLine {n m l} : (s.setLine n l).line m = if m = n then l else s.line m := by
  simp only [line, setLine, channel_modChannel]
  split <;> rfl

theorem equipment_setLine {n m l} : (s.setLine n l).equipment m = s.equipment m := by
  simp only [equipment, setLine, channel_modChannel]
  split
  · next h => rw [h]
  · rfl

theorem errors_setLine {n m l} : ((s.setLine n l).channel m).errors = (s.channel m).errors := by
  simp only [setLine, channel_modChannel]
  split
  · next h => rw [h]
  · rfl

end

/-- Two states that agree in every field are one. -/
theorem eq_of_fields {s t : State}
    (channels : s.channels = t.channels)
    (profiles : s.profiles = t.profiles)
    (groups : s.groups = t.groups)
    (spans : s.spans = t.spans)
    (index : s.index = t.index)
    (purge : s.purge = t.purge)
    (lists : s.lists = t.lists)
    (transfer : s.transfer = t.transfer)
    (faults : s.faults = t.faults)
    (scrub : s.scrub = t.scrub)
    (link : s.link = t.link)
    (ports : s.ports = t.ports)
    (restart : s.restart = t.restart)
    (millis : s.millis = t.millis)
    (rstN : s.rstN = t.rstN)
    (freeCount : s.freeCount = t.freeCount)
    (pending : s.pending = t.pending) : s = t := by
  cases s
  cases t
  simp_all only

end Sys2Proof.Machine.State
end

