-- ==== Sys2Proof/Laws/Operations.lean ====
section
/-! SUPPORT. What each named operation leaves as it stands, field by field. -/

namespace Sys2Proof.Machine.State

set_option Elab.async false

variable (s : State)

@[simp] theorem bind_channels {e} : (s.bind e).channels = s.channels := by unfold bind; (repeat' split) <;> simp
@[simp] theorem bind_profiles {e} : (s.bind e).profiles = s.profiles := by unfold bind; (repeat' split) <;> simp
@[simp] theorem bind_groups {e} : (s.bind e).groups = s.groups := by unfold bind; (repeat' split) <;> simp
@[simp] theorem bind_spans {e} : (s.bind e).spans = s.spans := by unfold bind; (repeat' split) <;> simp
@[simp] theorem bind_purge {e} : (s.bind e).purge = s.purge := by unfold bind; (repeat' split) <;> simp
@[simp] theorem bind_lists {e} : (s.bind e).lists = s.lists := by unfold bind; (repeat' split) <;> simp
@[simp] theorem bind_transfer {e} : (s.bind e).transfer = s.transfer := by unfold bind; (repeat' split) <;> simp
@[simp] theorem bind_faults {e} : (s.bind e).faults = s.faults := by unfold bind; (repeat' split) <;> simp
@[simp] theorem bind_scrub {e} : (s.bind e).scrub = s.scrub := by unfold bind; (repeat' split) <;> simp
@[simp] theorem bind_link {e} : (s.bind e).link = s.link := by unfold bind; (repeat' split) <;> simp
@[simp] theorem bind_ports {e} : (s.bind e).ports = s.ports := by unfold bind; (repeat' split) <;> simp
@[simp] theorem bind_restart {e} : (s.bind e).restart = s.restart := by unfold bind; (repeat' split) <;> simp
@[simp] theorem bind_millis {e} : (s.bind e).millis = s.millis := by unfold bind; (repeat' split) <;> simp
@[simp] theorem bind_rstN {e} : (s.bind e).rstN = s.rstN := by unfold bind; (repeat' split) <;> simp
@[simp] theorem bind_freeCount {e} : (s.bind e).freeCount = s.freeCount := by unfold bind; (repeat' split) <;> simp
@[simp] theorem bind_pending {e} : (s.bind e).pending = s.pending := by unfold bind; (repeat' split) <;> simp

@[simp] theorem unbindCall_channels {n} : (s.unbindCall n).channels = s.channels :=
    by unfold unbindCall; (repeat' split) <;> simp
@[simp] theorem unbindCall_profiles {n} : (s.unbindCall n).profiles = s.profiles :=
    by unfold unbindCall; (repeat' split) <;> simp
@[simp] theorem unbindCall_groups {n} : (s.unbindCall n).groups = s.groups :=
    by unfold unbindCall; (repeat' split) <;> simp
@[simp] theorem unbindCall_spans {n} : (s.unbindCall n).spans = s.spans :=
    by unfold unbindCall; (repeat' split) <;> simp
@[simp] theorem unbindCall_purge {n} : (s.unbindCall n).purge = s.purge :=
    by unfold unbindCall; (repeat' split) <;> simp
@[simp] theorem unbindCall_lists {n} : (s.unbindCall n).lists = s.lists :=
    by unfold unbindCall; (repeat' split) <;> simp
@[simp] theorem unbindCall_transfer {n} : (s.unbindCall n).transfer = s.transfer :=
    by unfold unbindCall; (repeat' split) <;> simp
@[simp] theorem unbindCall_faults {n} : (s.unbindCall n).faults = s.faults :=
    by unfold unbindCall; (repeat' split) <;> simp
@[simp] theorem unbindCall_scrub {n} : (s.unbindCall n).scrub = s.scrub :=
    by unfold unbindCall; (repeat' split) <;> simp
@[simp] theorem unbindCall_link {n} : (s.unbindCall n).link = s.link := by unfold unbindCall; (repeat' split) <;> simp
@[simp] theorem unbindCall_ports {n} : (s.unbindCall n).ports = s.ports :=
    by unfold unbindCall; (repeat' split) <;> simp
@[simp] theorem unbindCall_restart {n} : (s.unbindCall n).restart = s.restart :=
    by unfold unbindCall; (repeat' split) <;> simp
@[simp] theorem unbindCall_millis {n} : (s.unbindCall n).millis = s.millis :=
    by unfold unbindCall; (repeat' split) <;> simp
@[simp] theorem unbindCall_rstN {n} : (s.unbindCall n).rstN = s.rstN := by unfold unbindCall; (repeat' split) <;> simp
@[simp] theorem unbindCall_freeCount {n} : (s.unbindCall n).freeCount = s.freeCount :=
    by unfold unbindCall; (repeat' split) <;> simp
@[simp] theorem unbindCall_pending {n} : (s.unbindCall n).pending = s.pending :=
    by unfold unbindCall; (repeat' split) <;> simp

@[simp] theorem tellSpan_channels {sp r} : (s.tellSpan sp r).channels = s.channels :=
    by unfold tellSpan; (repeat' split) <;> simp
@[simp] theorem tellSpan_profiles {sp r} : (s.tellSpan sp r).profiles = s.profiles :=
    by unfold tellSpan; (repeat' split) <;> simp
@[simp] theorem tellSpan_groups {sp r} : (s.tellSpan sp r).groups = s.groups :=
    by unfold tellSpan; (repeat' split) <;> simp
@[simp] theorem tellSpan_spans {sp r} : (s.tellSpan sp r).spans = s.spans :=
    by unfold tellSpan; (repeat' split) <;> simp
@[simp] theorem tellSpan_index {sp r} : (s.tellSpan sp r).index = s.index :=
    by unfold tellSpan; (repeat' split) <;> simp
@[simp] theorem tellSpan_purge {sp r} : (s.tellSpan sp r).purge = s.purge :=
    by unfold tellSpan; (repeat' split) <;> simp
@[simp] theorem tellSpan_transfer {sp r} : (s.tellSpan sp r).transfer = s.transfer :=
    by unfold tellSpan; (repeat' split) <;> simp
@[simp] theorem tellSpan_faults {sp r} : (s.tellSpan sp r).faults = s.faults :=
    by unfold tellSpan; (repeat' split) <;> simp
@[simp] theorem tellSpan_scrub {sp r} : (s.tellSpan sp r).scrub = s.scrub :=
    by unfold tellSpan; (repeat' split) <;> simp
@[simp] theorem tellSpan_link {sp r} : (s.tellSpan sp r).link = s.link := by unfold tellSpan; (repeat' split) <;> simp
@[simp] theorem tellSpan_ports {sp r} : (s.tellSpan sp r).ports = s.ports :=
    by unfold tellSpan; (repeat' split) <;> simp
@[simp] theorem tellSpan_restart {sp r} : (s.tellSpan sp r).restart = s.restart :=
    by unfold tellSpan; (repeat' split) <;> simp
@[simp] theorem tellSpan_millis {sp r} : (s.tellSpan sp r).millis = s.millis :=
    by unfold tellSpan; (repeat' split) <;> simp
@[simp] theorem tellSpan_rstN {sp r} : (s.tellSpan sp r).rstN = s.rstN := by unfold tellSpan; (repeat' split) <;> simp
@[simp] theorem tellSpan_freeCount {sp r} : (s.tellSpan sp r).freeCount = s.freeCount :=
    by unfold tellSpan; (repeat' split) <;> simp
@[simp] theorem tellSpan_pending {sp r} : (s.tellSpan sp r).pending = s.pending :=
    by unfold tellSpan; (repeat' split) <;> simp

@[simp] theorem leaveIdle_channels {n} : (s.leaveIdle n).channels = s.channels :=
    by unfold leaveIdle; (repeat' split) <;> simp
@[simp] theorem leaveIdle_profiles {n} : (s.leaveIdle n).profiles = s.profiles :=
    by unfold leaveIdle; (repeat' split) <;> simp
@[simp] theorem leaveIdle_spans {n} : (s.leaveIdle n).spans = s.spans := by unfold leaveIdle; (repeat' split) <;> simp
@[simp] theorem leaveIdle_index {n} : (s.leaveIdle n).index = s.index := by unfold leaveIdle; (repeat' split) <;> simp
@[simp] theorem leaveIdle_purge {n} : (s.leaveIdle n).purge = s.purge := by unfold leaveIdle; (repeat' split) <;> simp
@[simp] theorem leaveIdle_lists {n} : (s.leaveIdle n).lists = s.lists := by unfold leaveIdle; (repeat' split) <;> simp
@[simp] theorem leaveIdle_transfer {n} : (s.leaveIdle n).transfer = s.transfer :=
    by unfold leaveIdle; (repeat' split) <;> simp
@[simp] theorem leaveIdle_faults {n} : (s.leaveIdle n).faults = s.faults :=
    by unfold leaveIdle; (repeat' split) <;> simp
@[simp] theorem leaveIdle_scrub {n} : (s.leaveIdle n).scrub = s.scrub := by unfold leaveIdle; (repeat' split) <;> simp
@[simp] theorem leaveIdle_link {n} : (s.leaveIdle n).link = s.link := by unfold leaveIdle; (repeat' split) <;> simp
@[simp] theorem leaveIdle_ports {n} : (s.leaveIdle n).ports = s.ports := by unfold leaveIdle; (repeat' split) <;> simp
@[simp] theorem leaveIdle_restart {n} : (s.leaveIdle n).restart = s.restart :=
    by unfold leaveIdle; (repeat' split) <;> simp
@[simp] theorem leaveIdle_millis {n} : (s.leaveIdle n).millis = s.millis :=
    by unfold leaveIdle; (repeat' split) <;> simp
@[simp] theorem leaveIdle_rstN {n} : (s.leaveIdle n).rstN = s.rstN := by unfold leaveIdle; (repeat' split) <;> simp
@[simp] theorem leaveIdle_freeCount {n} : (s.leaveIdle n).freeCount = s.freeCount :=
    by unfold leaveIdle; (repeat' split) <;> simp
@[simp] theorem leaveIdle_pending {n} : (s.leaveIdle n).pending = s.pending :=
    by unfold leaveIdle; (repeat' split) <;> simp

@[simp] theorem joinIdle_channels {n} : (s.joinIdle n).channels = s.channels :=
    by unfold joinIdle; (repeat' split) <;> simp
@[simp] theorem joinIdle_profiles {n} : (s.joinIdle n).profiles = s.profiles :=
    by unfold joinIdle; (repeat' split) <;> simp
@[simp] theorem joinIdle_spans {n} : (s.joinIdle n).spans = s.spans := by unfold joinIdle; (repeat' split) <;> simp
@[simp] theorem joinIdle_index {n} : (s.joinIdle n).index = s.index := by unfold joinIdle; (repeat' split) <;> simp
@[simp] theorem joinIdle_purge {n} : (s.joinIdle n).purge = s.purge := by unfold joinIdle; (repeat' split) <;> simp
@[simp] theorem joinIdle_lists {n} : (s.joinIdle n).lists = s.lists := by unfold joinIdle; (repeat' split) <;> simp
@[simp] theorem joinIdle_transfer {n} : (s.joinIdle n).transfer = s.transfer :=
    by unfold joinIdle; (repeat' split) <;> simp
@[simp] theorem joinIdle_faults {n} : (s.joinIdle n).faults = s.faults := by unfold joinIdle; (repeat' split) <;> simp
@[simp] theorem joinIdle_scrub {n} : (s.joinIdle n).scrub = s.scrub := by unfold joinIdle; (repeat' split) <;> simp
@[simp] theorem joinIdle_link {n} : (s.joinIdle n).link = s.link := by unfold joinIdle; (repeat' split) <;> simp
@[simp] theorem joinIdle_ports {n} : (s.joinIdle n).ports = s.ports := by unfold joinIdle; (repeat' split) <;> simp
@[simp] theorem joinIdle_restart {n} : (s.joinIdle n).restart = s.restart :=
    by unfold joinIdle; (repeat' split) <;> simp
@[simp] theorem joinIdle_millis {n} : (s.joinIdle n).millis = s.millis := by unfold joinIdle; (repeat' split) <;> simp
@[simp] theorem joinIdle_rstN {n} : (s.joinIdle n).rstN = s.rstN := by unfold joinIdle; (repeat' split) <;> simp
@[simp] theorem joinIdle_freeCount {n} : (s.joinIdle n).freeCount = s.freeCount :=
    by unfold joinIdle; (repeat' split) <;> simp
@[simp] theorem joinIdle_pending {n} : (s.joinIdle n).pending = s.pending :=
    by unfold joinIdle; (repeat' split) <;> simp

@[simp] theorem markDirty_channels {n} : (s.markDirty n).channels = s.channels :=
    by unfold markDirty; (repeat' split) <;> simp
@[simp] theorem markDirty_profiles {n} : (s.markDirty n).profiles = s.profiles :=
    by unfold markDirty; (repeat' split) <;> simp
@[simp] theorem markDirty_groups {n} : (s.markDirty n).groups = s.groups :=
    by unfold markDirty; (repeat' split) <;> simp
@[simp] theorem markDirty_spans {n} : (s.markDirty n).spans = s.spans := by unfold markDirty; (repeat' split) <;> simp
@[simp] theorem markDirty_index {n} : (s.markDirty n).index = s.index := by unfold markDirty; (repeat' split) <;> simp
@[simp] theorem markDirty_purge {n} : (s.markDirty n).purge = s.purge := by unfold markDirty; (repeat' split) <;> simp
@[simp] theorem markDirty_lists {n} : (s.markDirty n).lists = s.lists := by unfold markDirty; (repeat' split) <;> simp
@[simp] theorem markDirty_transfer {n} : (s.markDirty n).transfer = s.transfer :=
    by unfold markDirty; (repeat' split) <;> simp
@[simp] theorem markDirty_faults {n} : (s.markDirty n).faults = s.faults :=
    by unfold markDirty; (repeat' split) <;> simp
@[simp] theorem markDirty_scrub {n} : (s.markDirty n).scrub = s.scrub := by unfold markDirty; (repeat' split) <;> simp
@[simp] theorem markDirty_ports {n} : (s.markDirty n).ports = s.ports := by unfold markDirty; (repeat' split) <;> simp
@[simp] theorem markDirty_restart {n} : (s.markDirty n).restart = s.restart :=
    by unfold markDirty; (repeat' split) <;> simp
@[simp] theorem markDirty_millis {n} : (s.markDirty n).millis = s.millis :=
    by unfold markDirty; (repeat' split) <;> simp
@[simp] theorem markDirty_rstN {n} : (s.markDirty n).rstN = s.rstN := by unfold markDirty; (repeat' split) <;> simp
@[simp] theorem markDirty_freeCount {n} : (s.markDirty n).freeCount = s.freeCount :=
    by unfold markDirty; (repeat' split) <;> simp
@[simp] theorem markDirty_pending {n} : (s.markDirty n).pending = s.pending :=
    by unfold markDirty; (repeat' split) <;> simp

@[simp] theorem markIfChanged_channels {n c} : (s.markIfChanged n c).channels = s.channels :=
    by unfold markIfChanged; (repeat' split) <;> simp
@[simp] theorem markIfChanged_profiles {n c} : (s.markIfChanged n c).profiles = s.profiles :=
    by unfold markIfChanged; (repeat' split) <;> simp
@[simp] theorem markIfChanged_groups {n c} : (s.markIfChanged n c).groups = s.groups :=
    by unfold markIfChanged; (repeat' split) <;> simp
@[simp] theorem markIfChanged_spans {n c} : (s.markIfChanged n c).spans = s.spans :=
    by unfold markIfChanged; (repeat' split) <;> simp
@[simp] theorem markIfChanged_index {n c} : (s.markIfChanged n c).index = s.index :=
    by unfold markIfChanged; (repeat' split) <;> simp
@[simp] theorem markIfChanged_purge {n c} : (s.markIfChanged n c).purge = s.purge :=
    by unfold markIfChanged; (repeat' split) <;> simp
@[simp] theorem markIfChanged_lists {n c} : (s.markIfChanged n c).lists = s.lists :=
    by unfold markIfChanged; (repeat' split) <;> simp
@[simp] theorem markIfChanged_transfer {n c} : (s.markIfChanged n c).transfer = s.transfer :=
    by unfold markIfChanged; (repeat' split) <;> simp
@[simp] theorem markIfChanged_faults {n c} : (s.markIfChanged n c).faults = s.faults :=
    by unfold markIfChanged; (repeat' split) <;> simp
@[simp] theorem markIfChanged_scrub {n c} : (s.markIfChanged n c).scrub = s.scrub :=
    by unfold markIfChanged; (repeat' split) <;> simp
@[simp] theorem markIfChanged_ports {n c} : (s.markIfChanged n c).ports = s.ports :=
    by unfold markIfChanged; (repeat' split) <;> simp
@[simp] theorem markIfChanged_restart {n c} : (s.markIfChanged n c).restart = s.restart :=
    by unfold markIfChanged; (repeat' split) <;> simp
@[simp] theorem markIfChanged_millis {n c} : (s.markIfChanged n c).millis = s.millis :=
    by unfold markIfChanged; (repeat' split) <;> simp
@[simp] theorem markIfChanged_rstN {n c} : (s.markIfChanged n c).rstN = s.rstN :=
    by unfold markIfChanged; (repeat' split) <;> simp
@[simp] theorem markIfChanged_freeCount {n c} : (s.markIfChanged n c).freeCount = s.freeCount :=
    by unfold markIfChanged; (repeat' split) <;> simp
@[simp] theorem markIfChanged_pending {n c} : (s.markIfChanged n c).pending = s.pending :=
    by unfold markIfChanged; (repeat' split) <;> simp

@[simp] theorem writeCall_profiles {n c} : (s.writeCall n c).profiles = s.profiles := by simp [writeCall]
@[simp] theorem writeCall_groups {n c} : (s.writeCall n c).groups = s.groups := by simp [writeCall]
@[simp] theorem writeCall_spans {n c} : (s.writeCall n c).spans = s.spans := by simp [writeCall]
@[simp] theorem writeCall_index {n c} : (s.writeCall n c).index = s.index := by simp [writeCall]
@[simp] theorem writeCall_purge {n c} : (s.writeCall n c).purge = s.purge := by simp [writeCall]
@[simp] theorem writeCall_lists {n c} : (s.writeCall n c).lists = s.lists := by simp [writeCall]
@[simp] theorem writeCall_transfer {n c} : (s.writeCall n c).transfer = s.transfer := by simp [writeCall]
@[simp] theorem writeCall_faults {n c} : (s.writeCall n c).faults = s.faults := by simp [writeCall]
@[simp] theorem writeCall_scrub {n c} : (s.writeCall n c).scrub = s.scrub := by simp [writeCall]
@[simp] theorem writeCall_ports {n c} : (s.writeCall n c).ports = s.ports := by simp [writeCall]
@[simp] theorem writeCall_restart {n c} : (s.writeCall n c).restart = s.restart := by simp [writeCall]
@[simp] theorem writeCall_millis {n c} : (s.writeCall n c).millis = s.millis := by simp [writeCall]
@[simp] theorem writeCall_rstN {n c} : (s.writeCall n c).rstN = s.rstN := by simp [writeCall]
@[simp] theorem writeCall_freeCount {n c} : (s.writeCall n c).freeCount = s.freeCount := by simp [writeCall]
@[simp] theorem writeCall_pending {n c} : (s.writeCall n c).pending = s.pending := by simp [writeCall]

@[simp] theorem drainCheck_channels {g} : (s.drainCheck g).channels = s.channels :=
    by unfold drainCheck; (repeat' split) <;> simp
@[simp] theorem drainCheck_profiles {g} : (s.drainCheck g).profiles = s.profiles :=
    by unfold drainCheck; (repeat' split) <;> simp
@[simp] theorem drainCheck_spans {g} : (s.drainCheck g).spans = s.spans :=
    by unfold drainCheck; (repeat' split) <;> simp
@[simp] theorem drainCheck_index {g} : (s.drainCheck g).index = s.index :=
    by unfold drainCheck; (repeat' split) <;> simp
@[simp] theorem drainCheck_purge {g} : (s.drainCheck g).purge = s.purge :=
    by unfold drainCheck; (repeat' split) <;> simp
@[simp] theorem drainCheck_transfer {g} : (s.drainCheck g).transfer = s.transfer :=
    by unfold drainCheck; (repeat' split) <;> simp
@[simp] theorem drainCheck_faults {g} : (s.drainCheck g).faults = s.faults :=
    by unfold drainCheck; (repeat' split) <;> simp
@[simp] theorem drainCheck_scrub {g} : (s.drainCheck g).scrub = s.scrub :=
    by unfold drainCheck; (repeat' split) <;> simp
@[simp] theorem drainCheck_link {g} : (s.drainCheck g).link = s.link := by unfold drainCheck; (repeat' split) <;> simp
@[simp] theorem drainCheck_ports {g} : (s.drainCheck g).ports = s.ports :=
    by unfold drainCheck; (repeat' split) <;> simp
@[simp] theorem drainCheck_restart {g} : (s.drainCheck g).restart = s.restart :=
    by unfold drainCheck; (repeat' split) <;> simp
@[simp] theorem drainCheck_millis {g} : (s.drainCheck g).millis = s.millis :=
    by unfold drainCheck; (repeat' split) <;> simp
@[simp] theorem drainCheck_rstN {g} : (s.drainCheck g).rstN = s.rstN := by unfold drainCheck; (repeat' split) <;> simp
@[simp] theorem drainCheck_freeCount {g} : (s.drainCheck g).freeCount = s.freeCount :=
    by unfold drainCheck; (repeat' split) <;> simp
@[simp] theorem drainCheck_pending {g} : (s.drainCheck g).pending = s.pending :=
    by unfold drainCheck; (repeat' split) <;> simp

@[simp] theorem drainCheckOf_channels {n} : (s.drainCheckOf n).channels = s.channels :=
    by unfold drainCheckOf; (repeat' split) <;> simp
@[simp] theorem drainCheckOf_profiles {n} : (s.drainCheckOf n).profiles = s.profiles :=
    by unfold drainCheckOf; (repeat' split) <;> simp
@[simp] theorem drainCheckOf_spans {n} : (s.drainCheckOf n).spans = s.spans :=
    by unfold drainCheckOf; (repeat' split) <;> simp
@[simp] theorem drainCheckOf_index {n} : (s.drainCheckOf n).index = s.index :=
    by unfold drainCheckOf; (repeat' split) <;> simp
@[simp] theorem drainCheckOf_purge {n} : (s.drainCheckOf n).purge = s.purge :=
    by unfold drainCheckOf; (repeat' split) <;> simp
@[simp] theorem drainCheckOf_transfer {n} : (s.drainCheckOf n).transfer = s.transfer :=
    by unfold drainCheckOf; (repeat' split) <;> simp
@[simp] theorem drainCheckOf_faults {n} : (s.drainCheckOf n).faults = s.faults :=
    by unfold drainCheckOf; (repeat' split) <;> simp
@[simp] theorem drainCheckOf_scrub {n} : (s.drainCheckOf n).scrub = s.scrub :=
    by unfold drainCheckOf; (repeat' split) <;> simp
@[simp] theorem drainCheckOf_link {n} : (s.drainCheckOf n).link = s.link :=
    by unfold drainCheckOf; (repeat' split) <;> simp
@[simp] theorem drainCheckOf_ports {n} : (s.drainCheckOf n).ports = s.ports :=
    by unfold drainCheckOf; (repeat' split) <;> simp
@[simp] theorem drainCheckOf_restart {n} : (s.drainCheckOf n).restart = s.restart :=
    by unfold drainCheckOf; (repeat' split) <;> simp
@[simp] theorem drainCheckOf_millis {n} : (s.drainCheckOf n).millis = s.millis :=
    by unfold drainCheckOf; (repeat' split) <;> simp
@[simp] theorem drainCheckOf_rstN {n} : (s.drainCheckOf n).rstN = s.rstN :=
    by unfold drainCheckOf; (repeat' split) <;> simp
@[simp] theorem drainCheckOf_freeCount {n} : (s.drainCheckOf n).freeCount = s.freeCount :=
    by unfold drainCheckOf; (repeat' split) <;> simp
@[simp] theorem drainCheckOf_pending {n} : (s.drainCheckOf n).pending = s.pending :=
    by unfold drainCheckOf; (repeat' split) <;> simp

@[simp] theorem allDirty_channels {sp} : (s.allDirty sp).channels = s.channels :=
    by unfold allDirty; (repeat' split) <;> simp
@[simp] theorem allDirty_profiles {sp} : (s.allDirty sp).profiles = s.profiles :=
    by unfold allDirty; (repeat' split) <;> simp
@[simp] theorem allDirty_groups {sp} : (s.allDirty sp).groups = s.groups := by unfold allDirty; (repeat' split) <;> simp
@[simp] theorem allDirty_spans {sp} : (s.allDirty sp).spans = s.spans := by unfold allDirty; (repeat' split) <;> simp
@[simp] theorem allDirty_index {sp} : (s.allDirty sp).index = s.index := by unfold allDirty; (repeat' split) <;> simp
@[simp] theorem allDirty_purge {sp} : (s.allDirty sp).purge = s.purge := by unfold allDirty; (repeat' split) <;> simp
@[simp] theorem allDirty_lists {sp} : (s.allDirty sp).lists = s.lists := by unfold allDirty; (repeat' split) <;> simp
@[simp] theorem allDirty_transfer {sp} : (s.allDirty sp).transfer = s.transfer :=
    by unfold allDirty; (repeat' split) <;> simp
@[simp] theorem allDirty_faults {sp} : (s.allDirty sp).faults = s.faults := by unfold allDirty; (repeat' split) <;> simp
@[simp] theorem allDirty_scrub {sp} : (s.allDirty sp).scrub = s.scrub := by unfold allDirty; (repeat' split) <;> simp
@[simp] theorem allDirty_ports {sp} : (s.allDirty sp).ports = s.ports := by unfold allDirty; (repeat' split) <;> simp
@[simp] theorem allDirty_restart {sp} : (s.allDirty sp).restart = s.restart :=
    by unfold allDirty; (repeat' split) <;> simp
@[simp] theorem allDirty_millis {sp} : (s.allDirty sp).millis = s.millis := by unfold allDirty; (repeat' split) <;> simp
@[simp] theorem allDirty_rstN {sp} : (s.allDirty sp).rstN = s.rstN := by unfold allDirty; (repeat' split) <;> simp
@[simp] theorem allDirty_freeCount {sp} : (s.allDirty sp).freeCount = s.freeCount :=
    by unfold allDirty; (repeat' split) <;> simp
@[simp] theorem allDirty_pending {sp} : (s.allDirty sp).pending = s.pending :=
    by unfold allDirty; (repeat' split) <;> simp

@[simp] theorem joinLost_channels {n} : (s.joinLost n).channels = s.channels :=
    by unfold joinLost; (repeat' split) <;> simp
@[simp] theorem joinLost_profiles {n} : (s.joinLost n).profiles = s.profiles :=
    by unfold joinLost; (repeat' split) <;> simp
@[simp] theorem joinLost_groups {n} : (s.joinLost n).groups = s.groups := by unfold joinLost; (repeat' split) <;> simp
@[simp] theorem joinLost_spans {n} : (s.joinLost n).spans = s.spans := by unfold joinLost; (repeat' split) <;> simp
@[simp] theorem joinLost_index {n} : (s.joinLost n).index = s.index := by unfold joinLost; (repeat' split) <;> simp
@[simp] theorem joinLost_lists {n} : (s.joinLost n).lists = s.lists := by unfold joinLost; (repeat' split) <;> simp
@[simp] theorem joinLost_transfer {n} : (s.joinLost n).transfer = s.transfer :=
    by unfold joinLost; (repeat' split) <;> simp
@[simp] theorem joinLost_faults {n} : (s.joinLost n).faults = s.faults := by unfold joinLost; (repeat' split) <;> simp
@[simp] theorem joinLost_scrub {n} : (s.joinLost n).scrub = s.scrub := by unfold joinLost; (repeat' split) <;> simp
@[simp] theorem joinLost_link {n} : (s.joinLost n).link = s.link := by unfold joinLost; (repeat' split) <;> simp
@[simp] theorem joinLost_ports {n} : (s.joinLost n).ports = s.ports := by unfold joinLost; (repeat' split) <;> simp
@[simp] theorem joinLost_restart {n} : (s.joinLost n).restart = s.restart :=
    by unfold joinLost; (repeat' split) <;> simp
@[simp] theorem joinLost_millis {n} : (s.joinLost n).millis = s.millis := by unfold joinLost; (repeat' split) <;> simp
@[simp] theorem joinLost_rstN {n} : (s.joinLost n).rstN = s.rstN := by unfold joinLost; (repeat' split) <;> simp
@[simp] theorem joinLost_freeCount {n} : (s.joinLost n).freeCount = s.freeCount :=
    by unfold joinLost; (repeat' split) <;> simp
@[simp] theorem joinLost_pending {n} : (s.joinLost n).pending = s.pending :=
    by unfold joinLost; (repeat' split) <;> simp

@[simp] theorem reportLoss_channels {n w} : (s.reportLoss n w).channels = s.channels := rfl
@[simp] theorem reportLoss_profiles {n w} : (s.reportLoss n w).profiles = s.profiles := rfl
@[simp] theorem reportLoss_groups {n w} : (s.reportLoss n w).groups = s.groups := rfl
@[simp] theorem reportLoss_spans {n w} : (s.reportLoss n w).spans = s.spans := rfl
@[simp] theorem reportLoss_index {n w} : (s.reportLoss n w).index = s.index := rfl
@[simp] theorem reportLoss_purge {n w} : (s.reportLoss n w).purge = s.purge := rfl
@[simp] theorem reportLoss_lists {n w} : (s.reportLoss n w).lists = s.lists := rfl
@[simp] theorem reportLoss_transfer {n w} : (s.reportLoss n w).transfer = s.transfer := rfl
@[simp] theorem reportLoss_scrub {n w} : (s.reportLoss n w).scrub = s.scrub := rfl
@[simp] theorem reportLoss_link {n w} : (s.reportLoss n w).link = s.link := rfl
@[simp] theorem reportLoss_ports {n w} : (s.reportLoss n w).ports = s.ports := rfl
@[simp] theorem reportLoss_restart {n w} : (s.reportLoss n w).restart = s.restart := rfl
@[simp] theorem reportLoss_millis {n w} : (s.reportLoss n w).millis = s.millis := rfl
@[simp] theorem reportLoss_rstN {n w} : (s.reportLoss n w).rstN = s.rstN := rfl
@[simp] theorem reportLoss_freeCount {n w} : (s.reportLoss n w).freeCount = s.freeCount := rfl
@[simp] theorem reportLoss_pending {n w} : (s.reportLoss n w).pending = s.pending := rfl

@[simp] theorem loseRecord_profiles {n w} : (s.loseRecord n w).profiles = s.profiles :=
    by unfold loseRecord; (repeat' split) <;> simp
@[simp] theorem loseRecord_spans {n w} : (s.loseRecord n w).spans = s.spans :=
    by unfold loseRecord; (repeat' split) <;> simp
@[simp] theorem loseRecord_index {n w} : (s.loseRecord n w).index = s.index :=
    by unfold loseRecord; (repeat' split) <;> simp
@[simp] theorem loseRecord_transfer {n w} : (s.loseRecord n w).transfer = s.transfer :=
    by unfold loseRecord; (repeat' split) <;> simp
@[simp] theorem loseRecord_scrub {n w} : (s.loseRecord n w).scrub = s.scrub :=
    by unfold loseRecord; (repeat' split) <;> simp
@[simp] theorem loseRecord_ports {n w} : (s.loseRecord n w).ports = s.ports :=
    by unfold loseRecord; (repeat' split) <;> simp
@[simp] theorem loseRecord_restart {n w} : (s.loseRecord n w).restart = s.restart :=
    by unfold loseRecord; (repeat' split) <;> simp
@[simp] theorem loseRecord_millis {n w} : (s.loseRecord n w).millis = s.millis :=
    by unfold loseRecord; (repeat' split) <;> simp
@[simp] theorem loseRecord_rstN {n w} : (s.loseRecord n w).rstN = s.rstN :=
    by unfold loseRecord; (repeat' split) <;> simp
@[simp] theorem loseRecord_freeCount {n w} : (s.loseRecord n w).freeCount = s.freeCount :=
    by unfold loseRecord; (repeat' split) <;> simp
@[simp] theorem loseRecord_pending {n w} : (s.loseRecord n w).pending = s.pending :=
    by unfold loseRecord; (repeat' split) <;> simp

@[simp] theorem correctRecord_profiles {n w} : (s.correctRecord n w).profiles = s.profiles := by simp [correctRecord]
@[simp] theorem correctRecord_groups {n w} : (s.correctRecord n w).groups = s.groups := by simp [correctRecord]
@[simp] theorem correctRecord_spans {n w} : (s.correctRecord n w).spans = s.spans := by simp [correctRecord]
@[simp] theorem correctRecord_index {n w} : (s.correctRecord n w).index = s.index := by simp [correctRecord]
@[simp] theorem correctRecord_purge {n w} : (s.correctRecord n w).purge = s.purge := by simp [correctRecord]
@[simp] theorem correctRecord_lists {n w} : (s.correctRecord n w).lists = s.lists := by simp [correctRecord]
@[simp] theorem correctRecord_transfer {n w} : (s.correctRecord n w).transfer = s.transfer := by simp [correctRecord]
@[simp] theorem correctRecord_scrub {n w} : (s.correctRecord n w).scrub = s.scrub := by simp [correctRecord]
@[simp] theorem correctRecord_link {n w} : (s.correctRecord n w).link = s.link := by simp [correctRecord]
@[simp] theorem correctRecord_ports {n w} : (s.correctRecord n w).ports = s.ports := by simp [correctRecord]
@[simp] theorem correctRecord_restart {n w} : (s.correctRecord n w).restart = s.restart := by simp [correctRecord]
@[simp] theorem correctRecord_millis {n w} : (s.correctRecord n w).millis = s.millis := by simp [correctRecord]
@[simp] theorem correctRecord_rstN {n w} : (s.correctRecord n w).rstN = s.rstN := by simp [correctRecord]
@[simp] theorem correctRecord_freeCount {n w} : (s.correctRecord n w).freeCount = s.freeCount := by simp [correctRecord]
@[simp] theorem correctRecord_pending {n w} : (s.correctRecord n w).pending = s.pending := by simp [correctRecord]

@[simp] theorem buildFor_channels {sp} : (s.buildFor sp).channels = s.channels := rfl
@[simp] theorem buildFor_profiles {sp} : (s.buildFor sp).profiles = s.profiles := rfl
@[simp] theorem buildFor_groups {sp} : (s.buildFor sp).groups = s.groups := rfl
@[simp] theorem buildFor_spans {sp} : (s.buildFor sp).spans = s.spans := rfl
@[simp] theorem buildFor_index {sp} : (s.buildFor sp).index = s.index := rfl
@[simp] theorem buildFor_purge {sp} : (s.buildFor sp).purge = s.purge := rfl
@[simp] theorem buildFor_lists {sp} : (s.buildFor sp).lists = s.lists := rfl
@[simp] theorem buildFor_transfer {sp} : (s.buildFor sp).transfer = s.transfer := rfl
@[simp] theorem buildFor_faults {sp} : (s.buildFor sp).faults = s.faults := rfl
@[simp] theorem buildFor_scrub {sp} : (s.buildFor sp).scrub = s.scrub := rfl
@[simp] theorem buildFor_ports {sp} : (s.buildFor sp).ports = s.ports := rfl
@[simp] theorem buildFor_restart {sp} : (s.buildFor sp).restart = s.restart := rfl
@[simp] theorem buildFor_millis {sp} : (s.buildFor sp).millis = s.millis := rfl
@[simp] theorem buildFor_rstN {sp} : (s.buildFor sp).rstN = s.rstN := rfl
@[simp] theorem buildFor_freeCount {sp} : (s.buildFor sp).freeCount = s.freeCount := rfl
@[simp] theorem buildFor_pending {sp} : (s.buildFor sp).pending = s.pending := rfl

@[simp] theorem buildEvent_channels : (s.buildEvent).channels = s.channels :=
    by unfold buildEvent; (repeat' split) <;> simp
@[simp] theorem buildEvent_profiles : (s.buildEvent).profiles = s.profiles :=
    by unfold buildEvent; (repeat' split) <;> simp
@[simp] theorem buildEvent_groups : (s.buildEvent).groups = s.groups := by unfold buildEvent; (repeat' split) <;> simp
@[simp] theorem buildEvent_spans : (s.buildEvent).spans = s.spans := by unfold buildEvent; (repeat' split) <;> simp
@[simp] theorem buildEvent_index : (s.buildEvent).index = s.index := by unfold buildEvent; (repeat' split) <;> simp
@[simp] theorem buildEvent_purge : (s.buildEvent).purge = s.purge := by unfold buildEvent; (repeat' split) <;> simp
@[simp] theorem buildEvent_lists : (s.buildEvent).lists = s.lists := by unfold buildEvent; (repeat' split) <;> simp
@[simp] theorem buildEvent_transfer : (s.buildEvent).transfer = s.transfer :=
    by unfold buildEvent; (repeat' split) <;> simp
@[simp] theorem buildEvent_faults : (s.buildEvent).faults = s.faults := by unfold buildEvent; (repeat' split) <;> simp
@[simp] theorem buildEvent_scrub : (s.buildEvent).scrub = s.scrub := by unfold buildEvent; (repeat' split) <;> simp
@[simp] theorem buildEvent_ports : (s.buildEvent).ports = s.ports := by unfold buildEvent; (repeat' split) <;> simp
@[simp] theorem buildEvent_restart : (s.buildEvent).restart = s.restart :=
    by unfold buildEvent; (repeat' split) <;> simp
@[simp] theorem buildEvent_millis : (s.buildEvent).millis = s.millis := by unfold buildEvent; (repeat' split) <;> simp
@[simp] theorem buildEvent_rstN : (s.buildEvent).rstN = s.rstN := by unfold buildEvent; (repeat' split) <;> simp
@[simp] theorem buildEvent_freeCount : (s.buildEvent).freeCount = s.freeCount :=
    by unfold buildEvent; (repeat' split) <;> simp
@[simp] theorem buildEvent_pending : (s.buildEvent).pending = s.pending :=
    by unfold buildEvent; (repeat' split) <;> simp

@[simp] theorem buildIfIdle_channels : (s.buildIfIdle).channels = s.channels :=
    by unfold buildIfIdle; (repeat' split) <;> simp
@[simp] theorem buildIfIdle_profiles : (s.buildIfIdle).profiles = s.profiles :=
    by unfold buildIfIdle; (repeat' split) <;> simp
@[simp] theorem buildIfIdle_groups : (s.buildIfIdle).groups = s.groups :=
    by unfold buildIfIdle; (repeat' split) <;> simp
@[simp] theorem buildIfIdle_spans : (s.buildIfIdle).spans = s.spans := by unfold buildIfIdle; (repeat' split) <;> simp
@[simp] theorem buildIfIdle_index : (s.buildIfIdle).index = s.index := by unfold buildIfIdle; (repeat' split) <;> simp
@[simp] theorem buildIfIdle_purge : (s.buildIfIdle).purge = s.purge := by unfold buildIfIdle; (repeat' split) <;> simp
@[simp] theorem buildIfIdle_lists : (s.buildIfIdle).lists = s.lists := by unfold buildIfIdle; (repeat' split) <;> simp
@[simp] theorem buildIfIdle_transfer : (s.buildIfIdle).transfer = s.transfer :=
    by unfold buildIfIdle; (repeat' split) <;> simp
@[simp] theorem buildIfIdle_faults : (s.buildIfIdle).faults = s.faults :=
    by unfold buildIfIdle; (repeat' split) <;> simp
@[simp] theorem buildIfIdle_scrub : (s.buildIfIdle).scrub = s.scrub := by unfold buildIfIdle; (repeat' split) <;> simp
@[simp] theorem buildIfIdle_ports : (s.buildIfIdle).ports = s.ports := by unfold buildIfIdle; (repeat' split) <;> simp
@[simp] theorem buildIfIdle_restart : (s.buildIfIdle).restart = s.restart :=
    by unfold buildIfIdle; (repeat' split) <;> simp
@[simp] theorem buildIfIdle_millis : (s.buildIfIdle).millis = s.millis :=
    by unfold buildIfIdle; (repeat' split) <;> simp
@[simp] theorem buildIfIdle_rstN : (s.buildIfIdle).rstN = s.rstN := by unfold buildIfIdle; (repeat' split) <;> simp
@[simp] theorem buildIfIdle_freeCount : (s.buildIfIdle).freeCount = s.freeCount :=
    by unfold buildIfIdle; (repeat' split) <;> simp
@[simp] theorem buildIfIdle_pending : (s.buildIfIdle).pending = s.pending :=
    by unfold buildIfIdle; (repeat' split) <;> simp

/-! ## The check of a call part -/

@[simp] theorem checkCall_profiles {n w} : (s.checkCall n w).1.profiles = s.profiles := by
  unfold checkCall; (repeat' split) <;> simp
@[simp] theorem checkCall_spans {n w} : (s.checkCall n w).1.spans = s.spans := by
  unfold checkCall; (repeat' split) <;> simp
@[simp] theorem checkCall_index {n w} : (s.checkCall n w).1.index = s.index := by
  unfold checkCall; (repeat' split) <;> simp
@[simp] theorem checkCall_transfer {n w} : (s.checkCall n w).1.transfer = s.transfer := by
  unfold checkCall; (repeat' split) <;> simp
@[simp] theorem checkCall_scrub {n w} : (s.checkCall n w).1.scrub = s.scrub := by
  unfold checkCall; (repeat' split) <;> simp
@[simp] theorem checkCall_ports {n w} : (s.checkCall n w).1.ports = s.ports := by
  unfold checkCall; (repeat' split) <;> simp
@[simp] theorem checkCall_restart {n w} : (s.checkCall n w).1.restart = s.restart := by
  unfold checkCall; (repeat' split) <;> simp
@[simp] theorem checkCall_millis {n w} : (s.checkCall n w).1.millis = s.millis := by
  unfold checkCall; (repeat' split) <;> simp
@[simp] theorem checkCall_rstN {n w} : (s.checkCall n w).1.rstN = s.rstN := by
  unfold checkCall; (repeat' split) <;> simp
@[simp] theorem checkCall_freeCount {n w} : (s.checkCall n w).1.freeCount = s.freeCount := by
  unfold checkCall; (repeat' split) <;> simp
@[simp] theorem checkCall_pending {n w} : (s.checkCall n w).1.pending = s.pending := by
  unfold checkCall; (repeat' split) <;> simp

end Sys2Proof.Machine.State
end

