-- ==== Sys2Proof/Laws/Channel.lean ====
section
/-! SUPPORT. What each transition of a call part leaves as it stands, field by field. -/

namespace Sys2Proof.Machine.State

set_option Elab.async false

variable (s : State)

@[simp] theorem enterOutSeized_profiles {n r o w} : (s.enterOutSeized n r o w).profiles = s.profiles :=
    by simp [enterOutSeized]
@[simp] theorem enterOutSeized_spans {n r o w} : (s.enterOutSeized n r o w).spans = s.spans := by simp [enterOutSeized]
@[simp] theorem enterOutSeized_purge {n r o w} : (s.enterOutSeized n r o w).purge = s.purge := by simp [enterOutSeized]
@[simp] theorem enterOutSeized_lists {n r o w} : (s.enterOutSeized n r o w).lists = s.lists := by simp [enterOutSeized]
@[simp] theorem enterOutSeized_transfer {n r o w} : (s.enterOutSeized n r o w).transfer = s.transfer :=
    by simp [enterOutSeized]
@[simp] theorem enterOutSeized_faults {n r o w} : (s.enterOutSeized n r o w).faults = s.faults :=
    by simp [enterOutSeized]
@[simp] theorem enterOutSeized_scrub {n r o w} : (s.enterOutSeized n r o w).scrub = s.scrub := by simp [enterOutSeized]
@[simp] theorem enterOutSeized_ports {n r o w} : (s.enterOutSeized n r o w).ports = s.ports := by simp [enterOutSeized]
@[simp] theorem enterOutSeized_restart {n r o w} : (s.enterOutSeized n r o w).restart = s.restart :=
    by simp [enterOutSeized]
@[simp] theorem enterOutSeized_millis {n r o w} : (s.enterOutSeized n r o w).millis = s.millis :=
    by simp [enterOutSeized]
@[simp] theorem enterOutSeized_rstN {n r o w} : (s.enterOutSeized n r o w).rstN = s.rstN := by simp [enterOutSeized]
@[simp] theorem enterOutSeized_freeCount {n r o w} : (s.enterOutSeized n r o w).freeCount = s.freeCount :=
    by simp [enterOutSeized]
@[simp] theorem enterOutSeized_pending {n r o w} : (s.enterOutSeized n r o w).pending = s.pending :=
    by simp [enterOutSeized]

@[simp] theorem enterOutWaitAnswer_profiles {n} : (s.enterOutWaitAnswer n).profiles = s.profiles :=
    by simp [enterOutWaitAnswer]
@[simp] theorem enterOutWaitAnswer_groups {n} : (s.enterOutWaitAnswer n).groups = s.groups :=
    by simp [enterOutWaitAnswer]
@[simp] theorem enterOutWaitAnswer_spans {n} : (s.enterOutWaitAnswer n).spans = s.spans := by simp [enterOutWaitAnswer]
@[simp] theorem enterOutWaitAnswer_index {n} : (s.enterOutWaitAnswer n).index = s.index := by simp [enterOutWaitAnswer]
@[simp] theorem enterOutWaitAnswer_purge {n} : (s.enterOutWaitAnswer n).purge = s.purge := by simp [enterOutWaitAnswer]
@[simp] theorem enterOutWaitAnswer_lists {n} : (s.enterOutWaitAnswer n).lists = s.lists := by simp [enterOutWaitAnswer]
@[simp] theorem enterOutWaitAnswer_transfer {n} : (s.enterOutWaitAnswer n).transfer = s.transfer :=
    by simp [enterOutWaitAnswer]
@[simp] theorem enterOutWaitAnswer_faults {n} : (s.enterOutWaitAnswer n).faults = s.faults :=
    by simp [enterOutWaitAnswer]
@[simp] theorem enterOutWaitAnswer_scrub {n} : (s.enterOutWaitAnswer n).scrub = s.scrub := by simp [enterOutWaitAnswer]
@[simp] theorem enterOutWaitAnswer_ports {n} : (s.enterOutWaitAnswer n).ports = s.ports := by simp [enterOutWaitAnswer]
@[simp] theorem enterOutWaitAnswer_restart {n} : (s.enterOutWaitAnswer n).restart = s.restart :=
    by simp [enterOutWaitAnswer]
@[simp] theorem enterOutWaitAnswer_millis {n} : (s.enterOutWaitAnswer n).millis = s.millis :=
    by simp [enterOutWaitAnswer]
@[simp] theorem enterOutWaitAnswer_rstN {n} : (s.enterOutWaitAnswer n).rstN = s.rstN := by simp [enterOutWaitAnswer]
@[simp] theorem enterOutWaitAnswer_freeCount {n} : (s.enterOutWaitAnswer n).freeCount = s.freeCount :=
    by simp [enterOutWaitAnswer]
@[simp] theorem enterOutWaitAnswer_pending {n} : (s.enterOutWaitAnswer n).pending = s.pending :=
    by simp [enterOutWaitAnswer]

@[simp] theorem enterConnected_profiles {n} : (s.enterConnected n).profiles = s.profiles := by simp [enterConnected]
@[simp] theorem enterConnected_groups {n} : (s.enterConnected n).groups = s.groups := by simp [enterConnected]
@[simp] theorem enterConnected_spans {n} : (s.enterConnected n).spans = s.spans := by simp [enterConnected]
@[simp] theorem enterConnected_index {n} : (s.enterConnected n).index = s.index := by simp [enterConnected]
@[simp] theorem enterConnected_purge {n} : (s.enterConnected n).purge = s.purge := by simp [enterConnected]
@[simp] theorem enterConnected_lists {n} : (s.enterConnected n).lists = s.lists := by simp [enterConnected]
@[simp] theorem enterConnected_transfer {n} : (s.enterConnected n).transfer = s.transfer := by simp [enterConnected]
@[simp] theorem enterConnected_faults {n} : (s.enterConnected n).faults = s.faults := by simp [enterConnected]
@[simp] theorem enterConnected_scrub {n} : (s.enterConnected n).scrub = s.scrub := by simp [enterConnected]
@[simp] theorem enterConnected_ports {n} : (s.enterConnected n).ports = s.ports := by simp [enterConnected]
@[simp] theorem enterConnected_restart {n} : (s.enterConnected n).restart = s.restart := by simp [enterConnected]
@[simp] theorem enterConnected_millis {n} : (s.enterConnected n).millis = s.millis := by simp [enterConnected]
@[simp] theorem enterConnected_rstN {n} : (s.enterConnected n).rstN = s.rstN := by simp [enterConnected]
@[simp] theorem enterConnected_freeCount {n} : (s.enterConnected n).freeCount = s.freeCount := by simp [enterConnected]
@[simp] theorem enterConnected_pending {n} : (s.enterConnected n).pending = s.pending := by simp [enterConnected]

@[simp] theorem enterInSeized_profiles {n f} : (s.enterInSeized n f).profiles = s.profiles := by simp [enterInSeized]
@[simp] theorem enterInSeized_spans {n f} : (s.enterInSeized n f).spans = s.spans := by simp [enterInSeized]
@[simp] theorem enterInSeized_index {n f} : (s.enterInSeized n f).index = s.index := by simp [enterInSeized]
@[simp] theorem enterInSeized_purge {n f} : (s.enterInSeized n f).purge = s.purge := by simp [enterInSeized]
@[simp] theorem enterInSeized_transfer {n f} : (s.enterInSeized n f).transfer = s.transfer := by simp [enterInSeized]
@[simp] theorem enterInSeized_faults {n f} : (s.enterInSeized n f).faults = s.faults := by simp [enterInSeized]
@[simp] theorem enterInSeized_scrub {n f} : (s.enterInSeized n f).scrub = s.scrub := by simp [enterInSeized]
@[simp] theorem enterInSeized_ports {n f} : (s.enterInSeized n f).ports = s.ports := by simp [enterInSeized]
@[simp] theorem enterInSeized_restart {n f} : (s.enterInSeized n f).restart = s.restart := by simp [enterInSeized]
@[simp] theorem enterInSeized_millis {n f} : (s.enterInSeized n f).millis = s.millis := by simp [enterInSeized]
@[simp] theorem enterInSeized_rstN {n f} : (s.enterInSeized n f).rstN = s.rstN := by simp [enterInSeized]
@[simp] theorem enterInSeized_freeCount {n f} : (s.enterInSeized n f).freeCount = s.freeCount := by simp [enterInSeized]
@[simp] theorem enterInSeized_pending {n f} : (s.enterInSeized n f).pending = s.pending := by simp [enterInSeized]

@[simp] theorem enterClearingLocal_profiles {n} : (s.enterClearingLocal n).profiles = s.profiles :=
    by simp [enterClearingLocal]
@[simp] theorem enterClearingLocal_groups {n} : (s.enterClearingLocal n).groups = s.groups :=
    by simp [enterClearingLocal]
@[simp] theorem enterClearingLocal_spans {n} : (s.enterClearingLocal n).spans = s.spans := by simp [enterClearingLocal]
@[simp] theorem enterClearingLocal_index {n} : (s.enterClearingLocal n).index = s.index := by simp [enterClearingLocal]
@[simp] theorem enterClearingLocal_purge {n} : (s.enterClearingLocal n).purge = s.purge := by simp [enterClearingLocal]
@[simp] theorem enterClearingLocal_lists {n} : (s.enterClearingLocal n).lists = s.lists := by simp [enterClearingLocal]
@[simp] theorem enterClearingLocal_transfer {n} : (s.enterClearingLocal n).transfer = s.transfer :=
    by simp [enterClearingLocal]
@[simp] theorem enterClearingLocal_faults {n} : (s.enterClearingLocal n).faults = s.faults :=
    by simp [enterClearingLocal]
@[simp] theorem enterClearingLocal_scrub {n} : (s.enterClearingLocal n).scrub = s.scrub := by simp [enterClearingLocal]
@[simp] theorem enterClearingLocal_ports {n} : (s.enterClearingLocal n).ports = s.ports := by simp [enterClearingLocal]
@[simp] theorem enterClearingLocal_restart {n} : (s.enterClearingLocal n).restart = s.restart :=
    by simp [enterClearingLocal]
@[simp] theorem enterClearingLocal_millis {n} : (s.enterClearingLocal n).millis = s.millis :=
    by simp [enterClearingLocal]
@[simp] theorem enterClearingLocal_rstN {n} : (s.enterClearingLocal n).rstN = s.rstN := by simp [enterClearingLocal]
@[simp] theorem enterClearingLocal_freeCount {n} : (s.enterClearingLocal n).freeCount = s.freeCount :=
    by simp [enterClearingLocal]
@[simp] theorem enterClearingLocal_pending {n} : (s.enterClearingLocal n).pending = s.pending :=
    by simp [enterClearingLocal]

@[simp] theorem enterClearingRemote_profiles {n} : (s.enterClearingRemote n).profiles = s.profiles :=
    by simp [enterClearingRemote]
@[simp] theorem enterClearingRemote_groups {n} : (s.enterClearingRemote n).groups = s.groups :=
    by simp [enterClearingRemote]
@[simp] theorem enterClearingRemote_spans {n} : (s.enterClearingRemote n).spans = s.spans :=
    by simp [enterClearingRemote]
@[simp] theorem enterClearingRemote_index {n} : (s.enterClearingRemote n).index = s.index :=
    by simp [enterClearingRemote]
@[simp] theorem enterClearingRemote_purge {n} : (s.enterClearingRemote n).purge = s.purge :=
    by simp [enterClearingRemote]
@[simp] theorem enterClearingRemote_lists {n} : (s.enterClearingRemote n).lists = s.lists :=
    by simp [enterClearingRemote]
@[simp] theorem enterClearingRemote_transfer {n} : (s.enterClearingRemote n).transfer = s.transfer :=
    by simp [enterClearingRemote]
@[simp] theorem enterClearingRemote_faults {n} : (s.enterClearingRemote n).faults = s.faults :=
    by simp [enterClearingRemote]
@[simp] theorem enterClearingRemote_scrub {n} : (s.enterClearingRemote n).scrub = s.scrub :=
    by simp [enterClearingRemote]
@[simp] theorem enterClearingRemote_ports {n} : (s.enterClearingRemote n).ports = s.ports :=
    by simp [enterClearingRemote]
@[simp] theorem enterClearingRemote_restart {n} : (s.enterClearingRemote n).restart = s.restart :=
    by simp [enterClearingRemote]
@[simp] theorem enterClearingRemote_millis {n} : (s.enterClearingRemote n).millis = s.millis :=
    by simp [enterClearingRemote]
@[simp] theorem enterClearingRemote_rstN {n} : (s.enterClearingRemote n).rstN = s.rstN := by simp [enterClearingRemote]
@[simp] theorem enterClearingRemote_freeCount {n} : (s.enterClearingRemote n).freeCount = s.freeCount :=
    by simp [enterClearingRemote]
@[simp] theorem enterClearingRemote_pending {n} : (s.enterClearingRemote n).pending = s.pending :=
    by simp [enterClearingRemote]

@[simp] theorem enterGuard_profiles {n f} : (s.enterGuard n f).profiles = s.profiles := by simp [enterGuard]
@[simp] theorem enterGuard_spans {n f} : (s.enterGuard n f).spans = s.spans := by simp [enterGuard]
@[simp] theorem enterGuard_purge {n f} : (s.enterGuard n f).purge = s.purge := by simp [enterGuard]
@[simp] theorem enterGuard_lists {n f} : (s.enterGuard n f).lists = s.lists := by simp [enterGuard]
@[simp] theorem enterGuard_transfer {n f} : (s.enterGuard n f).transfer = s.transfer := by simp [enterGuard]
@[simp] theorem enterGuard_faults {n f} : (s.enterGuard n f).faults = s.faults := by simp [enterGuard]
@[simp] theorem enterGuard_scrub {n f} : (s.enterGuard n f).scrub = s.scrub := by simp [enterGuard]
@[simp] theorem enterGuard_ports {n f} : (s.enterGuard n f).ports = s.ports := by simp [enterGuard]
@[simp] theorem enterGuard_restart {n f} : (s.enterGuard n f).restart = s.restart := by simp [enterGuard]
@[simp] theorem enterGuard_millis {n f} : (s.enterGuard n f).millis = s.millis := by simp [enterGuard]
@[simp] theorem enterGuard_rstN {n f} : (s.enterGuard n f).rstN = s.rstN := by simp [enterGuard]
@[simp] theorem enterGuard_freeCount {n f} : (s.enterGuard n f).freeCount = s.freeCount := by simp [enterGuard]
@[simp] theorem enterGuard_pending {n f} : (s.enterGuard n f).pending = s.pending := by simp [enterGuard]

@[simp] theorem enterBlocked_profiles {n f} : (s.enterBlocked n f).profiles = s.profiles := by simp [enterBlocked]
@[simp] theorem enterBlocked_spans {n f} : (s.enterBlocked n f).spans = s.spans := by simp [enterBlocked]
@[simp] theorem enterBlocked_purge {n f} : (s.enterBlocked n f).purge = s.purge := by simp [enterBlocked]
@[simp] theorem enterBlocked_lists {n f} : (s.enterBlocked n f).lists = s.lists := by simp [enterBlocked]
@[simp] theorem enterBlocked_transfer {n f} : (s.enterBlocked n f).transfer = s.transfer := by simp [enterBlocked]
@[simp] theorem enterBlocked_faults {n f} : (s.enterBlocked n f).faults = s.faults := by simp [enterBlocked]
@[simp] theorem enterBlocked_scrub {n f} : (s.enterBlocked n f).scrub = s.scrub := by simp [enterBlocked]
@[simp] theorem enterBlocked_ports {n f} : (s.enterBlocked n f).ports = s.ports := by simp [enterBlocked]
@[simp] theorem enterBlocked_restart {n f} : (s.enterBlocked n f).restart = s.restart := by simp [enterBlocked]
@[simp] theorem enterBlocked_millis {n f} : (s.enterBlocked n f).millis = s.millis := by simp [enterBlocked]
@[simp] theorem enterBlocked_rstN {n f} : (s.enterBlocked n f).rstN = s.rstN := by simp [enterBlocked]
@[simp] theorem enterBlocked_freeCount {n f} : (s.enterBlocked n f).freeCount = s.freeCount := by simp [enterBlocked]
@[simp] theorem enterBlocked_pending {n f} : (s.enterBlocked n f).pending = s.pending := by simp [enterBlocked]

@[simp] theorem enterFault_profiles {n c f} : (s.enterFault n c f).profiles = s.profiles := by simp [enterFault]
@[simp] theorem enterFault_spans {n c f} : (s.enterFault n c f).spans = s.spans := by simp [enterFault]
@[simp] theorem enterFault_purge {n c f} : (s.enterFault n c f).purge = s.purge := by simp [enterFault]
@[simp] theorem enterFault_lists {n c f} : (s.enterFault n c f).lists = s.lists := by simp [enterFault]
@[simp] theorem enterFault_transfer {n c f} : (s.enterFault n c f).transfer = s.transfer := by simp [enterFault]
@[simp] theorem enterFault_faults {n c f} : (s.enterFault n c f).faults = s.faults := by simp [enterFault]
@[simp] theorem enterFault_scrub {n c f} : (s.enterFault n c f).scrub = s.scrub := by simp [enterFault]
@[simp] theorem enterFault_ports {n c f} : (s.enterFault n c f).ports = s.ports := by simp [enterFault]
@[simp] theorem enterFault_restart {n c f} : (s.enterFault n c f).restart = s.restart := by simp [enterFault]
@[simp] theorem enterFault_millis {n c f} : (s.enterFault n c f).millis = s.millis := by simp [enterFault]
@[simp] theorem enterFault_rstN {n c f} : (s.enterFault n c f).rstN = s.rstN := by simp [enterFault]
@[simp] theorem enterFault_freeCount {n c f} : (s.enterFault n c f).freeCount = s.freeCount := by simp [enterFault]
@[simp] theorem enterFault_pending {n c f} : (s.enterFault n c f).pending = s.pending := by simp [enterFault]

@[simp] theorem enterIdle_profiles {n} : (s.enterIdle n).profiles = s.profiles := by simp [enterIdle]
@[simp] theorem enterIdle_spans {n} : (s.enterIdle n).spans = s.spans := by simp [enterIdle]
@[simp] theorem enterIdle_index {n} : (s.enterIdle n).index = s.index := by simp [enterIdle]
@[simp] theorem enterIdle_purge {n} : (s.enterIdle n).purge = s.purge := by simp [enterIdle]
@[simp] theorem enterIdle_lists {n} : (s.enterIdle n).lists = s.lists := by simp [enterIdle]
@[simp] theorem enterIdle_transfer {n} : (s.enterIdle n).transfer = s.transfer := by simp [enterIdle]
@[simp] theorem enterIdle_faults {n} : (s.enterIdle n).faults = s.faults := by simp [enterIdle]
@[simp] theorem enterIdle_scrub {n} : (s.enterIdle n).scrub = s.scrub := by simp [enterIdle]
@[simp] theorem enterIdle_ports {n} : (s.enterIdle n).ports = s.ports := by simp [enterIdle]
@[simp] theorem enterIdle_restart {n} : (s.enterIdle n).restart = s.restart := by simp [enterIdle]
@[simp] theorem enterIdle_millis {n} : (s.enterIdle n).millis = s.millis := by simp [enterIdle]
@[simp] theorem enterIdle_rstN {n} : (s.enterIdle n).rstN = s.rstN := by simp [enterIdle]
@[simp] theorem enterIdle_freeCount {n} : (s.enterIdle n).freeCount = s.freeCount := by simp [enterIdle]
@[simp] theorem enterIdle_pending {n} : (s.enterIdle n).pending = s.pending := by simp [enterIdle]

@[simp] theorem writeFlags_profiles {n f} : (s.writeFlags n f).profiles = s.profiles := by simp [writeFlags]
@[simp] theorem writeFlags_groups {n f} : (s.writeFlags n f).groups = s.groups := by simp [writeFlags]
@[simp] theorem writeFlags_spans {n f} : (s.writeFlags n f).spans = s.spans := by simp [writeFlags]
@[simp] theorem writeFlags_index {n f} : (s.writeFlags n f).index = s.index := by simp [writeFlags]
@[simp] theorem writeFlags_purge {n f} : (s.writeFlags n f).purge = s.purge := by simp [writeFlags]
@[simp] theorem writeFlags_lists {n f} : (s.writeFlags n f).lists = s.lists := by simp [writeFlags]
@[simp] theorem writeFlags_transfer {n f} : (s.writeFlags n f).transfer = s.transfer := by simp [writeFlags]
@[simp] theorem writeFlags_faults {n f} : (s.writeFlags n f).faults = s.faults := by simp [writeFlags]
@[simp] theorem writeFlags_scrub {n f} : (s.writeFlags n f).scrub = s.scrub := by simp [writeFlags]
@[simp] theorem writeFlags_ports {n f} : (s.writeFlags n f).ports = s.ports := by simp [writeFlags]
@[simp] theorem writeFlags_restart {n f} : (s.writeFlags n f).restart = s.restart := by simp [writeFlags]
@[simp] theorem writeFlags_millis {n f} : (s.writeFlags n f).millis = s.millis := by simp [writeFlags]
@[simp] theorem writeFlags_rstN {n f} : (s.writeFlags n f).rstN = s.rstN := by simp [writeFlags]
@[simp] theorem writeFlags_freeCount {n f} : (s.writeFlags n f).freeCount = s.freeCount := by simp [writeFlags]
@[simp] theorem writeFlags_pending {n f} : (s.writeFlags n f).pending = s.pending := by simp [writeFlags]

@[simp] theorem blockByCondition_profiles {n f} : (s.blockByCondition n f).profiles = s.profiles :=
    by simp [blockByCondition, apply_ite State.profiles]
@[simp] theorem blockByCondition_spans {n f} : (s.blockByCondition n f).spans = s.spans :=
    by simp [blockByCondition, apply_ite State.spans]
@[simp] theorem blockByCondition_purge {n f} : (s.blockByCondition n f).purge = s.purge :=
    by simp [blockByCondition, apply_ite State.purge]
@[simp] theorem blockByCondition_transfer {n f} : (s.blockByCondition n f).transfer = s.transfer :=
    by simp [blockByCondition, apply_ite State.transfer]
@[simp] theorem blockByCondition_faults {n f} : (s.blockByCondition n f).faults = s.faults :=
    by simp [blockByCondition, apply_ite State.faults]
@[simp] theorem blockByCondition_scrub {n f} : (s.blockByCondition n f).scrub = s.scrub :=
    by simp [blockByCondition, apply_ite State.scrub]
@[simp] theorem blockByCondition_ports {n f} : (s.blockByCondition n f).ports = s.ports :=
    by simp [blockByCondition, apply_ite State.ports]
@[simp] theorem blockByCondition_restart {n f} : (s.blockByCondition n f).restart = s.restart :=
    by simp [blockByCondition, apply_ite State.restart]
@[simp] theorem blockByCondition_millis {n f} : (s.blockByCondition n f).millis = s.millis :=
    by simp [blockByCondition, apply_ite State.millis]
@[simp] theorem blockByCondition_rstN {n f} : (s.blockByCondition n f).rstN = s.rstN :=
    by simp [blockByCondition, apply_ite State.rstN]
@[simp] theorem blockByCondition_freeCount {n f} : (s.blockByCondition n f).freeCount = s.freeCount :=
    by simp [blockByCondition, apply_ite State.freeCount]
@[simp] theorem blockByCondition_pending {n f} : (s.blockByCondition n f).pending = s.pending :=
    by simp [blockByCondition, apply_ite State.pending]

@[simp] theorem settle_profiles {n} : (s.settle n).profiles = s.profiles := by simp [settle, apply_ite State.profiles]
@[simp] theorem settle_spans {n} : (s.settle n).spans = s.spans := by simp [settle, apply_ite State.spans]
@[simp] theorem settle_purge {n} : (s.settle n).purge = s.purge := by simp [settle, apply_ite State.purge]
@[simp] theorem settle_transfer {n} : (s.settle n).transfer = s.transfer := by simp [settle, apply_ite State.transfer]
@[simp] theorem settle_scrub {n} : (s.settle n).scrub = s.scrub := by simp [settle, apply_ite State.scrub]
@[simp] theorem settle_ports {n} : (s.settle n).ports = s.ports := by simp [settle, apply_ite State.ports]
@[simp] theorem settle_restart {n} : (s.settle n).restart = s.restart := by simp [settle, apply_ite State.restart]
@[simp] theorem settle_millis {n} : (s.settle n).millis = s.millis := by simp [settle, apply_ite State.millis]
@[simp] theorem settle_rstN {n} : (s.settle n).rstN = s.rstN := by simp [settle, apply_ite State.rstN]
@[simp] theorem settle_freeCount {n} : (s.settle n).freeCount = s.freeCount :=
    by simp [settle, apply_ite State.freeCount]
@[simp] theorem settle_pending {n} : (s.settle n).pending = s.pending := by simp [settle, apply_ite State.pending]

@[simp] theorem changeInIdle_profiles {n c} : (s.changeInIdle n c).profiles = s.profiles :=
    by unfold changeInIdle; (repeat' split) <;> simp
@[simp] theorem changeInIdle_spans {n c} : (s.changeInIdle n c).spans = s.spans :=
    by unfold changeInIdle; (repeat' split) <;> simp
@[simp] theorem changeInIdle_purge {n c} : (s.changeInIdle n c).purge = s.purge :=
    by unfold changeInIdle; (repeat' split) <;> simp
@[simp] theorem changeInIdle_transfer {n c} : (s.changeInIdle n c).transfer = s.transfer :=
    by unfold changeInIdle; (repeat' split) <;> simp
@[simp] theorem changeInIdle_scrub {n c} : (s.changeInIdle n c).scrub = s.scrub :=
    by unfold changeInIdle; (repeat' split) <;> simp
@[simp] theorem changeInIdle_ports {n c} : (s.changeInIdle n c).ports = s.ports :=
    by unfold changeInIdle; (repeat' split) <;> simp
@[simp] theorem changeInIdle_restart {n c} : (s.changeInIdle n c).restart = s.restart :=
    by unfold changeInIdle; (repeat' split) <;> simp
@[simp] theorem changeInIdle_millis {n c} : (s.changeInIdle n c).millis = s.millis :=
    by unfold changeInIdle; (repeat' split) <;> simp
@[simp] theorem changeInIdle_rstN {n c} : (s.changeInIdle n c).rstN = s.rstN :=
    by unfold changeInIdle; (repeat' split) <;> simp
@[simp] theorem changeInIdle_freeCount {n c} : (s.changeInIdle n c).freeCount = s.freeCount :=
    by unfold changeInIdle; (repeat' split) <;> simp
@[simp] theorem changeInIdle_pending {n c} : (s.changeInIdle n c).pending = s.pending :=
    by unfold changeInIdle; (repeat' split) <;> simp

@[simp] theorem yieldGlare_profiles {n} : (s.yieldGlare n).profiles = s.profiles :=
    by unfold yieldGlare; (repeat' split) <;> simp
@[simp] theorem yieldGlare_spans {n} : (s.yieldGlare n).spans = s.spans :=
    by unfold yieldGlare; (repeat' split) <;> simp
@[simp] theorem yieldGlare_purge {n} : (s.yieldGlare n).purge = s.purge :=
    by unfold yieldGlare; (repeat' split) <;> simp
@[simp] theorem yieldGlare_transfer {n} : (s.yieldGlare n).transfer = s.transfer :=
    by unfold yieldGlare; (repeat' split) <;> simp
@[simp] theorem yieldGlare_faults {n} : (s.yieldGlare n).faults = s.faults :=
    by unfold yieldGlare; (repeat' split) <;> simp
@[simp] theorem yieldGlare_scrub {n} : (s.yieldGlare n).scrub = s.scrub :=
    by unfold yieldGlare; (repeat' split) <;> simp
@[simp] theorem yieldGlare_ports {n} : (s.yieldGlare n).ports = s.ports :=
    by unfold yieldGlare; (repeat' split) <;> simp
@[simp] theorem yieldGlare_restart {n} : (s.yieldGlare n).restart = s.restart :=
    by unfold yieldGlare; (repeat' split) <;> simp
@[simp] theorem yieldGlare_millis {n} : (s.yieldGlare n).millis = s.millis :=
    by unfold yieldGlare; (repeat' split) <;> simp
@[simp] theorem yieldGlare_rstN {n} : (s.yieldGlare n).rstN = s.rstN := by unfold yieldGlare; (repeat' split) <;> simp
@[simp] theorem yieldGlare_freeCount {n} : (s.yieldGlare n).freeCount = s.freeCount :=
    by unfold yieldGlare; (repeat' split) <;> simp
@[simp] theorem yieldGlare_pending {n} : (s.yieldGlare n).pending = s.pending :=
    by unfold yieldGlare; (repeat' split) <;> simp

@[simp] theorem changeInOutSeized_profiles {n c} : (s.changeInOutSeized n c).profiles = s.profiles :=
    by unfold changeInOutSeized; (repeat' split) <;> simp
@[simp] theorem changeInOutSeized_spans {n c} : (s.changeInOutSeized n c).spans = s.spans :=
    by unfold changeInOutSeized; (repeat' split) <;> simp
@[simp] theorem changeInOutSeized_purge {n c} : (s.changeInOutSeized n c).purge = s.purge :=
    by unfold changeInOutSeized; (repeat' split) <;> simp
@[simp] theorem changeInOutSeized_transfer {n c} : (s.changeInOutSeized n c).transfer = s.transfer :=
    by unfold changeInOutSeized; (repeat' split) <;> simp
@[simp] theorem changeInOutSeized_scrub {n c} : (s.changeInOutSeized n c).scrub = s.scrub :=
    by unfold changeInOutSeized; (repeat' split) <;> simp
@[simp] theorem changeInOutSeized_ports {n c} : (s.changeInOutSeized n c).ports = s.ports :=
    by unfold changeInOutSeized; (repeat' split) <;> simp
@[simp] theorem changeInOutSeized_restart {n c} : (s.changeInOutSeized n c).restart = s.restart :=
    by unfold changeInOutSeized; (repeat' split) <;> simp
@[simp] theorem changeInOutSeized_millis {n c} : (s.changeInOutSeized n c).millis = s.millis :=
    by unfold changeInOutSeized; (repeat' split) <;> simp
@[simp] theorem changeInOutSeized_rstN {n c} : (s.changeInOutSeized n c).rstN = s.rstN :=
    by unfold changeInOutSeized; (repeat' split) <;> simp
@[simp] theorem changeInOutSeized_freeCount {n c} : (s.changeInOutSeized n c).freeCount = s.freeCount :=
    by unfold changeInOutSeized; (repeat' split) <;> simp
@[simp] theorem changeInOutSeized_pending {n c} : (s.changeInOutSeized n c).pending = s.pending :=
    by unfold changeInOutSeized; (repeat' split) <;> simp

@[simp] theorem farClear_profiles {n} : (s.farClear n).profiles = s.profiles := by simp [farClear]
@[simp] theorem farClear_groups {n} : (s.farClear n).groups = s.groups := by simp [farClear]
@[simp] theorem farClear_spans {n} : (s.farClear n).spans = s.spans := by simp [farClear]
@[simp] theorem farClear_index {n} : (s.farClear n).index = s.index := by simp [farClear]
@[simp] theorem farClear_purge {n} : (s.farClear n).purge = s.purge := by simp [farClear]
@[simp] theorem farClear_transfer {n} : (s.farClear n).transfer = s.transfer := by simp [farClear]
@[simp] theorem farClear_faults {n} : (s.farClear n).faults = s.faults := by simp [farClear]
@[simp] theorem farClear_scrub {n} : (s.farClear n).scrub = s.scrub := by simp [farClear]
@[simp] theorem farClear_ports {n} : (s.farClear n).ports = s.ports := by simp [farClear]
@[simp] theorem farClear_restart {n} : (s.farClear n).restart = s.restart := by simp [farClear]
@[simp] theorem farClear_millis {n} : (s.farClear n).millis = s.millis := by simp [farClear]
@[simp] theorem farClear_rstN {n} : (s.farClear n).rstN = s.rstN := by simp [farClear]
@[simp] theorem farClear_freeCount {n} : (s.farClear n).freeCount = s.freeCount := by simp [farClear]
@[simp] theorem farClear_pending {n} : (s.farClear n).pending = s.pending := by simp [farClear]

@[simp] theorem changeInOutWaitAnswer_profiles {n c} : (s.changeInOutWaitAnswer n c).profiles = s.profiles :=
    by unfold changeInOutWaitAnswer; (repeat' split) <;> simp
@[simp] theorem changeInOutWaitAnswer_spans {n c} : (s.changeInOutWaitAnswer n c).spans = s.spans :=
    by unfold changeInOutWaitAnswer; (repeat' split) <;> simp
@[simp] theorem changeInOutWaitAnswer_purge {n c} : (s.changeInOutWaitAnswer n c).purge = s.purge :=
    by unfold changeInOutWaitAnswer; (repeat' split) <;> simp
@[simp] theorem changeInOutWaitAnswer_transfer {n c} : (s.changeInOutWaitAnswer n c).transfer = s.transfer :=
    by unfold changeInOutWaitAnswer; (repeat' split) <;> simp
@[simp] theorem changeInOutWaitAnswer_scrub {n c} : (s.changeInOutWaitAnswer n c).scrub = s.scrub :=
    by unfold changeInOutWaitAnswer; (repeat' split) <;> simp
@[simp] theorem changeInOutWaitAnswer_ports {n c} : (s.changeInOutWaitAnswer n c).ports = s.ports :=
    by unfold changeInOutWaitAnswer; (repeat' split) <;> simp
@[simp] theorem changeInOutWaitAnswer_restart {n c} : (s.changeInOutWaitAnswer n c).restart = s.restart :=
    by unfold changeInOutWaitAnswer; (repeat' split) <;> simp
@[simp] theorem changeInOutWaitAnswer_millis {n c} : (s.changeInOutWaitAnswer n c).millis = s.millis :=
    by unfold changeInOutWaitAnswer; (repeat' split) <;> simp
@[simp] theorem changeInOutWaitAnswer_rstN {n c} : (s.changeInOutWaitAnswer n c).rstN = s.rstN :=
    by unfold changeInOutWaitAnswer; (repeat' split) <;> simp
@[simp] theorem changeInOutWaitAnswer_freeCount {n c} : (s.changeInOutWaitAnswer n c).freeCount = s.freeCount :=
    by unfold changeInOutWaitAnswer; (repeat' split) <;> simp
@[simp] theorem changeInOutWaitAnswer_pending {n c} : (s.changeInOutWaitAnswer n c).pending = s.pending :=
    by unfold changeInOutWaitAnswer; (repeat' split) <;> simp

@[simp] theorem changeInInSeized_profiles {n c} : (s.changeInInSeized n c).profiles = s.profiles :=
    by unfold changeInInSeized; (repeat' split) <;> simp
@[simp] theorem changeInInSeized_spans {n c} : (s.changeInInSeized n c).spans = s.spans :=
    by unfold changeInInSeized; (repeat' split) <;> simp
@[simp] theorem changeInInSeized_purge {n c} : (s.changeInInSeized n c).purge = s.purge :=
    by unfold changeInInSeized; (repeat' split) <;> simp
@[simp] theorem changeInInSeized_transfer {n c} : (s.changeInInSeized n c).transfer = s.transfer :=
    by unfold changeInInSeized; (repeat' split) <;> simp
@[simp] theorem changeInInSeized_scrub {n c} : (s.changeInInSeized n c).scrub = s.scrub :=
    by unfold changeInInSeized; (repeat' split) <;> simp
@[simp] theorem changeInInSeized_ports {n c} : (s.changeInInSeized n c).ports = s.ports :=
    by unfold changeInInSeized; (repeat' split) <;> simp
@[simp] theorem changeInInSeized_restart {n c} : (s.changeInInSeized n c).restart = s.restart :=
    by unfold changeInInSeized; (repeat' split) <;> simp
@[simp] theorem changeInInSeized_millis {n c} : (s.changeInInSeized n c).millis = s.millis :=
    by unfold changeInInSeized; (repeat' split) <;> simp
@[simp] theorem changeInInSeized_rstN {n c} : (s.changeInInSeized n c).rstN = s.rstN :=
    by unfold changeInInSeized; (repeat' split) <;> simp
@[simp] theorem changeInInSeized_freeCount {n c} : (s.changeInInSeized n c).freeCount = s.freeCount :=
    by unfold changeInInSeized; (repeat' split) <;> simp
@[simp] theorem changeInInSeized_pending {n c} : (s.changeInInSeized n c).pending = s.pending :=
    by unfold changeInInSeized; (repeat' split) <;> simp

@[simp] theorem changeInCall_profiles {n c} : (s.changeInCall n c).profiles = s.profiles :=
    by unfold changeInCall; (repeat' split) <;> simp
@[simp] theorem changeInCall_spans {n c} : (s.changeInCall n c).spans = s.spans :=
    by unfold changeInCall; (repeat' split) <;> simp
@[simp] theorem changeInCall_purge {n c} : (s.changeInCall n c).purge = s.purge :=
    by unfold changeInCall; (repeat' split) <;> simp
@[simp] theorem changeInCall_transfer {n c} : (s.changeInCall n c).transfer = s.transfer :=
    by unfold changeInCall; (repeat' split) <;> simp
@[simp] theorem changeInCall_scrub {n c} : (s.changeInCall n c).scrub = s.scrub :=
    by unfold changeInCall; (repeat' split) <;> simp
@[simp] theorem changeInCall_ports {n c} : (s.changeInCall n c).ports = s.ports :=
    by unfold changeInCall; (repeat' split) <;> simp
@[simp] theorem changeInCall_restart {n c} : (s.changeInCall n c).restart = s.restart :=
    by unfold changeInCall; (repeat' split) <;> simp
@[simp] theorem changeInCall_millis {n c} : (s.changeInCall n c).millis = s.millis :=
    by unfold changeInCall; (repeat' split) <;> simp
@[simp] theorem changeInCall_rstN {n c} : (s.changeInCall n c).rstN = s.rstN :=
    by unfold changeInCall; (repeat' split) <;> simp
@[simp] theorem changeInCall_freeCount {n c} : (s.changeInCall n c).freeCount = s.freeCount :=
    by unfold changeInCall; (repeat' split) <;> simp
@[simp] theorem changeInCall_pending {n c} : (s.changeInCall n c).pending = s.pending :=
    by unfold changeInCall; (repeat' split) <;> simp

@[simp] theorem changeInClearingLocal_profiles {n c} : (s.changeInClearingLocal n c).profiles = s.profiles :=
    by unfold changeInClearingLocal; split <;> simp [apply_ite State.profiles]
@[simp] theorem changeInClearingLocal_spans {n c} : (s.changeInClearingLocal n c).spans = s.spans :=
    by unfold changeInClearingLocal; split <;> simp [apply_ite State.spans]
@[simp] theorem changeInClearingLocal_purge {n c} : (s.changeInClearingLocal n c).purge = s.purge :=
    by unfold changeInClearingLocal; split <;> simp [apply_ite State.purge]
@[simp] theorem changeInClearingLocal_transfer {n c} : (s.changeInClearingLocal n c).transfer = s.transfer :=
    by unfold changeInClearingLocal; split <;> simp [apply_ite State.transfer]
@[simp] theorem changeInClearingLocal_scrub {n c} : (s.changeInClearingLocal n c).scrub = s.scrub :=
    by unfold changeInClearingLocal; split <;> simp [apply_ite State.scrub]
@[simp] theorem changeInClearingLocal_ports {n c} : (s.changeInClearingLocal n c).ports = s.ports :=
    by unfold changeInClearingLocal; split <;> simp [apply_ite State.ports]
@[simp] theorem changeInClearingLocal_restart {n c} : (s.changeInClearingLocal n c).restart = s.restart :=
    by unfold changeInClearingLocal; split <;> simp [apply_ite State.restart]
@[simp] theorem changeInClearingLocal_millis {n c} : (s.changeInClearingLocal n c).millis = s.millis :=
    by unfold changeInClearingLocal; split <;> simp [apply_ite State.millis]
@[simp] theorem changeInClearingLocal_rstN {n c} : (s.changeInClearingLocal n c).rstN = s.rstN :=
    by unfold changeInClearingLocal; split <;> simp [apply_ite State.rstN]
@[simp] theorem changeInClearingLocal_freeCount {n c} : (s.changeInClearingLocal n c).freeCount = s.freeCount :=
    by unfold changeInClearingLocal; split <;> simp [apply_ite State.freeCount]
@[simp] theorem changeInClearingLocal_pending {n c} : (s.changeInClearingLocal n c).pending = s.pending :=
    by unfold changeInClearingLocal; split <;> simp [apply_ite State.pending]

@[simp] theorem changeInBlocked_profiles {n c} : (s.changeInBlocked n c).profiles = s.profiles :=
    by unfold changeInBlocked; split <;> simp [apply_ite State.profiles]
@[simp] theorem changeInBlocked_spans {n c} : (s.changeInBlocked n c).spans = s.spans :=
    by unfold changeInBlocked; split <;> simp [apply_ite State.spans]
@[simp] theorem changeInBlocked_purge {n c} : (s.changeInBlocked n c).purge = s.purge :=
    by unfold changeInBlocked; split <;> simp [apply_ite State.purge]
@[simp] theorem changeInBlocked_transfer {n c} : (s.changeInBlocked n c).transfer = s.transfer :=
    by unfold changeInBlocked; split <;> simp [apply_ite State.transfer]
@[simp] theorem changeInBlocked_scrub {n c} : (s.changeInBlocked n c).scrub = s.scrub :=
    by unfold changeInBlocked; split <;> simp [apply_ite State.scrub]
@[simp] theorem changeInBlocked_ports {n c} : (s.changeInBlocked n c).ports = s.ports :=
    by unfold changeInBlocked; split <;> simp [apply_ite State.ports]
@[simp] theorem changeInBlocked_restart {n c} : (s.changeInBlocked n c).restart = s.restart :=
    by unfold changeInBlocked; split <;> simp [apply_ite State.restart]
@[simp] theorem changeInBlocked_millis {n c} : (s.changeInBlocked n c).millis = s.millis :=
    by unfold changeInBlocked; split <;> simp [apply_ite State.millis]
@[simp] theorem changeInBlocked_rstN {n c} : (s.changeInBlocked n c).rstN = s.rstN :=
    by unfold changeInBlocked; split <;> simp [apply_ite State.rstN]
@[simp] theorem changeInBlocked_freeCount {n c} : (s.changeInBlocked n c).freeCount = s.freeCount :=
    by unfold changeInBlocked; split <;> simp [apply_ite State.freeCount]
@[simp] theorem changeInBlocked_pending {n c} : (s.changeInBlocked n c).pending = s.pending :=
    by unfold changeInBlocked; split <;> simp [apply_ite State.pending]

@[simp] theorem changeToInvalid_channels {n} : (s.changeToInvalid n).channels = s.channels := by simp [changeToInvalid]
@[simp] theorem changeToInvalid_profiles {n} : (s.changeToInvalid n).profiles = s.profiles := by simp [changeToInvalid]
@[simp] theorem changeToInvalid_groups {n} : (s.changeToInvalid n).groups = s.groups := by simp [changeToInvalid]
@[simp] theorem changeToInvalid_spans {n} : (s.changeToInvalid n).spans = s.spans := by simp [changeToInvalid]
@[simp] theorem changeToInvalid_index {n} : (s.changeToInvalid n).index = s.index := by simp [changeToInvalid]
@[simp] theorem changeToInvalid_purge {n} : (s.changeToInvalid n).purge = s.purge := by simp [changeToInvalid]
@[simp] theorem changeToInvalid_transfer {n} : (s.changeToInvalid n).transfer = s.transfer := by simp [changeToInvalid]
@[simp] theorem changeToInvalid_scrub {n} : (s.changeToInvalid n).scrub = s.scrub := by simp [changeToInvalid]
@[simp] theorem changeToInvalid_link {n} : (s.changeToInvalid n).link = s.link := by simp [changeToInvalid]
@[simp] theorem changeToInvalid_ports {n} : (s.changeToInvalid n).ports = s.ports := by simp [changeToInvalid]
@[simp] theorem changeToInvalid_restart {n} : (s.changeToInvalid n).restart = s.restart := by simp [changeToInvalid]
@[simp] theorem changeToInvalid_millis {n} : (s.changeToInvalid n).millis = s.millis := by simp [changeToInvalid]
@[simp] theorem changeToInvalid_rstN {n} : (s.changeToInvalid n).rstN = s.rstN := by simp [changeToInvalid]
@[simp] theorem changeToInvalid_freeCount {n} : (s.changeToInvalid n).freeCount = s.freeCount :=
    by simp [changeToInvalid]
@[simp] theorem changeToInvalid_pending {n} : (s.changeToInvalid n).pending = s.pending := by simp [changeToInvalid]

@[simp] theorem conditionChange_profiles {n c} : (s.conditionChange n c).profiles = s.profiles :=
    by unfold conditionChange; (repeat' split) <;> simp
@[simp] theorem conditionChange_spans {n c} : (s.conditionChange n c).spans = s.spans :=
    by unfold conditionChange; (repeat' split) <;> simp
@[simp] theorem conditionChange_purge {n c} : (s.conditionChange n c).purge = s.purge :=
    by unfold conditionChange; (repeat' split) <;> simp
@[simp] theorem conditionChange_transfer {n c} : (s.conditionChange n c).transfer = s.transfer :=
    by unfold conditionChange; (repeat' split) <;> simp
@[simp] theorem conditionChange_scrub {n c} : (s.conditionChange n c).scrub = s.scrub :=
    by unfold conditionChange; (repeat' split) <;> simp
@[simp] theorem conditionChange_ports {n c} : (s.conditionChange n c).ports = s.ports :=
    by unfold conditionChange; (repeat' split) <;> simp
@[simp] theorem conditionChange_restart {n c} : (s.conditionChange n c).restart = s.restart :=
    by unfold conditionChange; (repeat' split) <;> simp
@[simp] theorem conditionChange_millis {n c} : (s.conditionChange n c).millis = s.millis :=
    by unfold conditionChange; (repeat' split) <;> simp
@[simp] theorem conditionChange_rstN {n c} : (s.conditionChange n c).rstN = s.rstN :=
    by unfold conditionChange; (repeat' split) <;> simp
@[simp] theorem conditionChange_freeCount {n c} : (s.conditionChange n c).freeCount = s.freeCount :=
    by unfold conditionChange; (repeat' split) <;> simp
@[simp] theorem conditionChange_pending {n c} : (s.conditionChange n c).pending = s.pending :=
    by unfold conditionChange; (repeat' split) <;> simp

@[simp] theorem moveCursor_channels {g n} : (s.moveCursor g n).channels = s.channels := rfl
@[simp] theorem moveCursor_profiles {g n} : (s.moveCursor g n).profiles = s.profiles := rfl
@[simp] theorem moveCursor_spans {g n} : (s.moveCursor g n).spans = s.spans := rfl
@[simp] theorem moveCursor_index {g n} : (s.moveCursor g n).index = s.index := rfl
@[simp] theorem moveCursor_purge {g n} : (s.moveCursor g n).purge = s.purge := rfl
@[simp] theorem moveCursor_lists {g n} : (s.moveCursor g n).lists = s.lists := rfl
@[simp] theorem moveCursor_transfer {g n} : (s.moveCursor g n).transfer = s.transfer := rfl
@[simp] theorem moveCursor_faults {g n} : (s.moveCursor g n).faults = s.faults := rfl
@[simp] theorem moveCursor_scrub {g n} : (s.moveCursor g n).scrub = s.scrub := rfl
@[simp] theorem moveCursor_link {g n} : (s.moveCursor g n).link = s.link := rfl
@[simp] theorem moveCursor_ports {g n} : (s.moveCursor g n).ports = s.ports := rfl
@[simp] theorem moveCursor_restart {g n} : (s.moveCursor g n).restart = s.restart := rfl
@[simp] theorem moveCursor_millis {g n} : (s.moveCursor g n).millis = s.millis := rfl
@[simp] theorem moveCursor_rstN {g n} : (s.moveCursor g n).rstN = s.rstN := rfl
@[simp] theorem moveCursor_freeCount {g n} : (s.moveCursor g n).freeCount = s.freeCount := rfl
@[simp] theorem moveCursor_pending {g n} : (s.moveCursor g n).pending = s.pending := rfl

end Sys2Proof.Machine.State
end

