-- ==== Sys2Proof/Laws/Ports.lean ====
section
/-! SUPPORT. What each operation of the ports leaves as it stands, field by field; an event and its build. -/

namespace Sys2Proof.Machine.State

set_option Elab.async false

variable (s : State)

@[simp] theorem driveSdo_channels {p c} : (s.driveSdo p c).channels = s.channels :=
    by unfold driveSdo; (repeat' split) <;> simp
@[simp] theorem driveSdo_profiles {p c} : (s.driveSdo p c).profiles = s.profiles :=
    by unfold driveSdo; (repeat' split) <;> simp
@[simp] theorem driveSdo_groups {p c} : (s.driveSdo p c).groups = s.groups :=
    by unfold driveSdo; (repeat' split) <;> simp
@[simp] theorem driveSdo_spans {p c} : (s.driveSdo p c).spans = s.spans := by unfold driveSdo; (repeat' split) <;> simp
@[simp] theorem driveSdo_index {p c} : (s.driveSdo p c).index = s.index := by unfold driveSdo; (repeat' split) <;> simp
@[simp] theorem driveSdo_purge {p c} : (s.driveSdo p c).purge = s.purge := by unfold driveSdo; (repeat' split) <;> simp
@[simp] theorem driveSdo_lists {p c} : (s.driveSdo p c).lists = s.lists := by unfold driveSdo; (repeat' split) <;> simp
@[simp] theorem driveSdo_transfer {p c} : (s.driveSdo p c).transfer = s.transfer :=
    by unfold driveSdo; (repeat' split) <;> simp
@[simp] theorem driveSdo_faults {p c} : (s.driveSdo p c).faults = s.faults :=
    by unfold driveSdo; (repeat' split) <;> simp
@[simp] theorem driveSdo_scrub {p c} : (s.driveSdo p c).scrub = s.scrub := by unfold driveSdo; (repeat' split) <;> simp
@[simp] theorem driveSdo_link {p c} : (s.driveSdo p c).link = s.link := by unfold driveSdo; (repeat' split) <;> simp
@[simp] theorem driveSdo_restart {p c} : (s.driveSdo p c).restart = s.restart :=
    by unfold driveSdo; (repeat' split) <;> simp
@[simp] theorem driveSdo_millis {p c} : (s.driveSdo p c).millis = s.millis :=
    by unfold driveSdo; (repeat' split) <;> simp
@[simp] theorem driveSdo_rstN {p c} : (s.driveSdo p c).rstN = s.rstN := by unfold driveSdo; (repeat' split) <;> simp
@[simp] theorem driveSdo_pending {p c} : (s.driveSdo p c).pending = s.pending :=
    by unfold driveSdo; (repeat' split) <;> simp

@[simp] theorem respond_channels {p t c b} : (s.respond p t c b).channels = s.channels := rfl
@[simp] theorem respond_profiles {p t c b} : (s.respond p t c b).profiles = s.profiles := rfl
@[simp] theorem respond_groups {p t c b} : (s.respond p t c b).groups = s.groups := rfl
@[simp] theorem respond_spans {p t c b} : (s.respond p t c b).spans = s.spans := rfl
@[simp] theorem respond_index {p t c b} : (s.respond p t c b).index = s.index := rfl
@[simp] theorem respond_purge {p t c b} : (s.respond p t c b).purge = s.purge := rfl
@[simp] theorem respond_lists {p t c b} : (s.respond p t c b).lists = s.lists := rfl
@[simp] theorem respond_transfer {p t c b} : (s.respond p t c b).transfer = s.transfer := rfl
@[simp] theorem respond_faults {p t c b} : (s.respond p t c b).faults = s.faults := rfl
@[simp] theorem respond_scrub {p t c b} : (s.respond p t c b).scrub = s.scrub := rfl
@[simp] theorem respond_link {p t c b} : (s.respond p t c b).link = s.link := rfl
@[simp] theorem respond_restart {p t c b} : (s.respond p t c b).restart = s.restart := rfl
@[simp] theorem respond_millis {p t c b} : (s.respond p t c b).millis = s.millis := rfl
@[simp] theorem respond_rstN {p t c b} : (s.respond p t c b).rstN = s.rstN := rfl
@[simp] theorem respond_freeCount {p t c b} : (s.respond p t c b).freeCount = s.freeCount := rfl
@[simp] theorem respond_pending {p t c b} : (s.respond p t c b).pending = s.pending := rfl

@[simp] theorem finishLong_channels {p c} : (s.finishLong p c).channels = s.channels :=
    by unfold finishLong; (repeat' split) <;> simp
@[simp] theorem finishLong_profiles {p c} : (s.finishLong p c).profiles = s.profiles :=
    by unfold finishLong; (repeat' split) <;> simp
@[simp] theorem finishLong_groups {p c} : (s.finishLong p c).groups = s.groups :=
    by unfold finishLong; (repeat' split) <;> simp
@[simp] theorem finishLong_spans {p c} : (s.finishLong p c).spans = s.spans :=
    by unfold finishLong; (repeat' split) <;> simp
@[simp] theorem finishLong_index {p c} : (s.finishLong p c).index = s.index :=
    by unfold finishLong; (repeat' split) <;> simp
@[simp] theorem finishLong_purge {p c} : (s.finishLong p c).purge = s.purge :=
    by unfold finishLong; (repeat' split) <;> simp
@[simp] theorem finishLong_lists {p c} : (s.finishLong p c).lists = s.lists :=
    by unfold finishLong; (repeat' split) <;> simp
@[simp] theorem finishLong_transfer {p c} : (s.finishLong p c).transfer = s.transfer :=
    by unfold finishLong; (repeat' split) <;> simp
@[simp] theorem finishLong_faults {p c} : (s.finishLong p c).faults = s.faults :=
    by unfold finishLong; (repeat' split) <;> simp
@[simp] theorem finishLong_scrub {p c} : (s.finishLong p c).scrub = s.scrub :=
    by unfold finishLong; (repeat' split) <;> simp
@[simp] theorem finishLong_link {p c} : (s.finishLong p c).link = s.link :=
    by unfold finishLong; (repeat' split) <;> simp
@[simp] theorem finishLong_restart {p c} : (s.finishLong p c).restart = s.restart :=
    by unfold finishLong; (repeat' split) <;> simp
@[simp] theorem finishLong_millis {p c} : (s.finishLong p c).millis = s.millis :=
    by unfold finishLong; (repeat' split) <;> simp
@[simp] theorem finishLong_rstN {p c} : (s.finishLong p c).rstN = s.rstN :=
    by unfold finishLong; (repeat' split) <;> simp
@[simp] theorem finishLong_freeCount {p c} : (s.finishLong p c).freeCount = s.freeCount :=
    by unfold finishLong; (repeat' split) <;> simp
@[simp] theorem finishLong_pending {p c} : (s.finishLong p c).pending = s.pending :=
    by unfold finishLong; (repeat' split) <;> simp

@[simp] theorem beginLong_channels {p t c} : (s.beginLong p t c).channels = s.channels := rfl
@[simp] theorem beginLong_profiles {p t c} : (s.beginLong p t c).profiles = s.profiles := rfl
@[simp] theorem beginLong_groups {p t c} : (s.beginLong p t c).groups = s.groups := rfl
@[simp] theorem beginLong_spans {p t c} : (s.beginLong p t c).spans = s.spans := rfl
@[simp] theorem beginLong_index {p t c} : (s.beginLong p t c).index = s.index := rfl
@[simp] theorem beginLong_purge {p t c} : (s.beginLong p t c).purge = s.purge := rfl
@[simp] theorem beginLong_lists {p t c} : (s.beginLong p t c).lists = s.lists := rfl
@[simp] theorem beginLong_transfer {p t c} : (s.beginLong p t c).transfer = s.transfer := rfl
@[simp] theorem beginLong_faults {p t c} : (s.beginLong p t c).faults = s.faults := rfl
@[simp] theorem beginLong_scrub {p t c} : (s.beginLong p t c).scrub = s.scrub := rfl
@[simp] theorem beginLong_link {p t c} : (s.beginLong p t c).link = s.link := rfl
@[simp] theorem beginLong_restart {p t c} : (s.beginLong p t c).restart = s.restart := rfl
@[simp] theorem beginLong_millis {p t c} : (s.beginLong p t c).millis = s.millis := rfl
@[simp] theorem beginLong_rstN {p t c} : (s.beginLong p t c).rstN = s.rstN := rfl
@[simp] theorem beginLong_freeCount {p t c} : (s.beginLong p t c).freeCount = s.freeCount := rfl
@[simp] theorem beginLong_pending {p t c} : (s.beginLong p t c).pending = s.pending := rfl

@[simp] theorem answerBadFrame_channels {p} : (s.answerBadFrame p).channels = s.channels := rfl
@[simp] theorem answerBadFrame_profiles {p} : (s.answerBadFrame p).profiles = s.profiles := rfl
@[simp] theorem answerBadFrame_groups {p} : (s.answerBadFrame p).groups = s.groups := rfl
@[simp] theorem answerBadFrame_spans {p} : (s.answerBadFrame p).spans = s.spans := rfl
@[simp] theorem answerBadFrame_index {p} : (s.answerBadFrame p).index = s.index := rfl
@[simp] theorem answerBadFrame_purge {p} : (s.answerBadFrame p).purge = s.purge := rfl
@[simp] theorem answerBadFrame_lists {p} : (s.answerBadFrame p).lists = s.lists := rfl
@[simp] theorem answerBadFrame_transfer {p} : (s.answerBadFrame p).transfer = s.transfer := rfl
@[simp] theorem answerBadFrame_scrub {p} : (s.answerBadFrame p).scrub = s.scrub := rfl
@[simp] theorem answerBadFrame_link {p} : (s.answerBadFrame p).link = s.link := rfl
@[simp] theorem answerBadFrame_restart {p} : (s.answerBadFrame p).restart = s.restart := rfl
@[simp] theorem answerBadFrame_millis {p} : (s.answerBadFrame p).millis = s.millis := rfl
@[simp] theorem answerBadFrame_rstN {p} : (s.answerBadFrame p).rstN = s.rstN := rfl
@[simp] theorem answerBadFrame_freeCount {p} : (s.answerBadFrame p).freeCount = s.freeCount := rfl
@[simp] theorem answerBadFrame_pending {p} : (s.answerBadFrame p).pending = s.pending := rfl

/-! ## An event with its build -/

@[simp] theorem event_channels {f : State → State} : (event f s).channels = (f s).channels := by
  unfold event; split <;> simp
@[simp] theorem event_profiles {f : State → State} : (event f s).profiles = (f s).profiles := by
  unfold event; split <;> simp
@[simp] theorem event_groups {f : State → State} : (event f s).groups = (f s).groups := by
  unfold event; split <;> simp
@[simp] theorem event_spans {f : State → State} : (event f s).spans = (f s).spans := by
  unfold event; split <;> simp
@[simp] theorem event_index {f : State → State} : (event f s).index = (f s).index := by
  unfold event; split <;> simp
@[simp] theorem event_purge {f : State → State} : (event f s).purge = (f s).purge := by
  unfold event; split <;> simp
@[simp] theorem event_lists {f : State → State} : (event f s).lists = (f s).lists := by
  unfold event; split <;> simp
@[simp] theorem event_transfer {f : State → State} : (event f s).transfer = (f s).transfer := by
  unfold event; split <;> simp
@[simp] theorem event_faults {f : State → State} : (event f s).faults = (f s).faults := by
  unfold event; split <;> simp
@[simp] theorem event_scrub {f : State → State} : (event f s).scrub = (f s).scrub := by
  unfold event; split <;> simp
@[simp] theorem event_ports {f : State → State} : (event f s).ports = (f s).ports := by
  unfold event; split <;> simp
@[simp] theorem event_restart {f : State → State} : (event f s).restart = (f s).restart := by
  unfold event; split <;> simp
@[simp] theorem event_millis {f : State → State} : (event f s).millis = (f s).millis := by
  unfold event; split <;> simp
@[simp] theorem event_rstN {f : State → State} : (event f s).rstN = (f s).rstN := by
  unfold event; split <;> simp
@[simp] theorem event_freeCount {f : State → State} : (event f s).freeCount = (f s).freeCount := by
  unfold event; split <;> simp
@[simp] theorem event_pending {f : State → State} : (event f s).pending = (f s).pending := by
  unfold event; split <;> simp

end Sys2Proof.Machine.State
end

