-- ==== Sys2Proof/Laws/Keeps.lean ====
section
/-! SUPPORT. What each shared operation keeps: the laws of Safety.lean and a captured first fault. A step is a chain of
these operations, and `Keeps` and `Holds` compose. -/

namespace Sys2Proof.Machine

set_option Elab.async false

open State

/-- No position of the span waits to take a code. -/
def NoneHanded (s : State) (sp : SpanNo) : Prop := ∀ p, (s.span sp).handed.get p = none

/-- From s to t the laws stay, each on its own; a captured first fault stays, and so do the waiting commands. -/
structure Keeps (s t : State) : Prop where
  admin : AdminPresent s → AdminPresent t
  index : IndexLawful s → IndexLawful t
  codes : CodesDistinct s → CodesDistinct t
  counts : CountsLawful s → CountsLawful t
  handed : HandedInService s → HandedInService t
  lists : ListsLawful s → ListsLawful t
  first : ∀ f, s.faults.first = some f → t.faults.first = some f
  waits : t.pending = s.pending

/-- Where the span of channel n is SUSPECT, FAILED or RECOVERING and has no code waiting, it stays so, and the stable
code of n stays (R24). -/
abbrev StillAt (n : ChannelNo) (s t : State) : Prop :=
  isFrozen (s.span (spanOf n)).state = true → NoneHanded s (spanOf n) →
    isFrozen (t.span (spanOf n)).state = true ∧ NoneHanded t (spanOf n) ∧ (t.line n).stable = (s.line n).stable

/-- `Keeps`, and every frozen span stays still. The operations that can end the freeze of a span, or write a stable code
of one, keep the laws alone. -/
structure Holds (s t : State) : Prop extends Keeps s t where
  still : ∀ n, StillAt n s t

theorem StillAt.trans {n : ChannelNo} {s t u : State} (h : StillAt n s t) (k : StillAt n t u) : StillAt n s u :=
  fun a b => ⟨(k (h a b).1 (h a b).2.1).1, (k (h a b).1 (h a b).2.1).2.1,
    (k (h a b).1 (h a b).2.1).2.2.trans (h a b).2.2⟩

namespace Keeps

theorem refl (s : State) : Keeps s s := ⟨id, id, id, id, id, id, fun _ => id, rfl⟩

theorem trans {s t u : State} (h : Keeps s t) (k : Keeps t u) : Keeps s u :=
  ⟨k.admin ∘ h.admin, k.index ∘ h.index, k.codes ∘ h.codes, k.counts ∘ h.counts, k.handed ∘ h.handed, k.lists ∘ h.lists,
    fun f e => k.first f (h.first f e), k.waits.trans h.waits⟩

end Keeps

namespace Holds

theorem refl (s : State) : Holds s s := ⟨.refl s, fun _ h k => ⟨h, k, rfl⟩⟩

theorem trans {s t u : State} (h : Holds s t) (k : Holds t u) : Holds s u :=
  ⟨h.toKeeps.trans k.toKeeps, fun n => (h.still n).trans (k.still n)⟩

/-- Nothing that the laws speak of changed. -/
theorem of_same {s t : State} (ports : ∀ p, (t.port p).enabled = (s.port p).enabled ∧ (t.port p).admin =
    (s.port p).admin)
    (index : t.index = s.index) (line : ∀ n, t.line n = s.line n) (spans : t.spans = s.spans)
    (first : t.faults.first = s.faults.first) (profiles : t.profiles = s.profiles := by first | rfl | simp)
    (pending : t.pending = s.pending := by first | rfl | simp)
    (lists : t.lists = s.lists := by first | rfl | simp) : Holds s t where
  admin := fun ⟨p, h⟩ => ⟨p, by rw [(ports p).1, (ports p).2]; exact h⟩
  index := by rw [IndexLawful, IndexLawful, index]; exact id
  codes := by rw [CodesDistinct, CodesDistinct, profiles]; exact id
  counts := by simp only [CountsLawful, State.span, spans, line]; exact id
  handed := by simp only [HandedInService, State.span, spans]; exact id
  lists := by rw [ListsLawful, ListsLawful]; simp only [State.list, lists]; exact id
  first := fun f h => first.trans h
  waits := pending
  still := fun n h k => by simp only [NoneHanded, State.span, spans, line] at h k ⊢; exact ⟨h, k, trivial⟩

/-- Of the things the laws speak of, only the index changed. -/
theorem of_index {s t : State} (ports : t.ports = s.ports) (channels : t.channels = s.channels)
    (spans : t.spans = s.spans) (faults : t.faults = s.faults) (index : IndexLawful s → IndexLawful t)
    (profiles : t.profiles = s.profiles := by first | rfl | simp)
    (pending : t.pending = s.pending := by first | rfl | simp)
    (lists : t.lists = s.lists := by first | rfl | simp) : Holds s t where
  admin := by simp only [AdminPresent, State.port, ports]; exact id
  index := index
  codes := by rw [CodesDistinct, CodesDistinct, profiles]; exact id
  counts := by simp only [CountsLawful, State.span, spans, State.line, State.channel, channels]; exact id
  handed := by simp only [HandedInService, State.span, spans]; exact id
  lists := by rw [ListsLawful, ListsLawful]; simp only [State.list, lists]; exact id
  first := fun f h => by rw [faults]; exact h
  waits := pending
  still := fun n h k => by
    simp only [NoneHanded, State.span, spans, State.line, State.channel, channels] at h k ⊢
    exact ⟨h, k, trivial⟩

/-- Ports, index, channels, spans, faults and profiles are as they were. -/
theorem of_rest {s t : State} (ports : t.ports = s.ports) (index : t.index = s.index)
    (channels : t.channels = s.channels) (spans : t.spans = s.spans) (faults : t.faults = s.faults)
    (profiles : t.profiles = s.profiles := by first | rfl | simp)
    (pending : t.pending = s.pending := by first | rfl | simp)
    (lists : t.lists = s.lists := by first | rfl | simp) : Holds s t :=
  of_index ports channels spans faults (by rw [IndexLawful, IndexLawful, index]; exact id) profiles pending lists

/-- Only the attention lists changed. -/
theorem of_lists {s t : State} (h : ListsLawful s → ListsLawful t) (e : t = { s with lists := t.lists }) : Holds s t := by
  rw [e]
  exact ⟨⟨id, id, id, id, id, by rw [← e]; exact h, fun _ => id, rfl⟩, fun _ a b => ⟨a, b, rfl⟩⟩

end Holds

/-! ## The index -/

theorem freeWay_some {ways : Table (Option IndexEntry) 4} {w : WayNo} (h : freeWay ways = some w) :
    ways.get w = none ∧ ∀ v, v < w → (ways.get v).isSome = true := by
  rw [freeWay, List.find?_eq_some_iff_getElem] at h
  obtain ⟨hw, i, hi, e, hlt⟩ := h
  refine ⟨Option.isNone_iff_eq_none.1 hw, fun v hv => ?_⟩
  have hi' : i < 4 := by simpa using hi
  have : w = ⟨i, hi'⟩ := by rw [← e]; simp
  subst this
  have := hlt v.val hv
  simpa [Option.isSome_iff_ne_none] using this

theorem mem_validEntries {ways : Table (Option IndexEntry) 4} {e : IndexEntry} :
    e ∈ validEntries ways ↔ ∃ w, ways.get w = some e := by
  simp only [validEntries, List.mem_filterMap, id]
  constructor
  · rintro ⟨a, ha, rfl⟩
    exact Table.mem_cells.1 ha
  · rintro ⟨w, h⟩
    exact ⟨_, Table.mem_cells.2 ⟨w, rfl⟩, h⟩

/-- The lookup finds nothing exactly if no way of the reference's set holds it (R124). -/
theorem entryOf_none {s : State} {r : Reference} :
    s.entryOf r = none ↔ ∀ w e, (s.index.get (setOf r)).get w = some e → e.reference ≠ r := by
  rw [State.entryOf, List.find?_eq_none]
  constructor
  · intro h w e hw
    simpa using h e (mem_validEntries.2 ⟨w, hw⟩)
  · intro h e he
    obtain ⟨w, hw⟩ := mem_validEntries.1 he
    simpa using h w e hw

theorem referenceRefusal_none {s : State} {r : Reference} (h : s.referenceRefusal r = none) :
    s.entryOf r = none ∧ ∃ w, freeWay (s.index.get (setOf r)) = some w := by
  unfold State.referenceRefusal at h
  split at h
  · cases h
  · split at h
    · cases h
    · next h1 h2 =>
      refine ⟨by simpa using h1, ?_⟩
      cases hw : freeWay (s.index.get (setOf r)) with
      | none => simp [hw] at h2
      | some w => exact ⟨w, rfl⟩

theorem bind_index {s : State} {e : IndexEntry} {w : WayNo} (h : freeWay (s.index.get (setOf e.reference)) = some w) :
    (s.bind e).index = s.index.update (setOf e.reference) fun ways => ways.set w (some e) := by
  simp only [State.bind, h]

theorem IndexLawful.bind {s : State} (l : IndexLawful s) {e : IndexEntry} (h : s.entryOf e.reference = none) :
    IndexLawful (s.bind e) := by
  cases hw : freeWay (s.index.get (setOf e.reference)) with
  | none => simpa only [State.bind, hw] using l
  | some w =>
    have free := entryOf_none.1 h
    simp only [IndexLawful, bind_index hw, Table.get_update]
    have new : ∀ k v x, (if k = setOf e.reference then (s.index.get (setOf e.reference)).set w (some e)
        else s.index.get k).get v = some x →
        (k = setOf e.reference ∧ v = w ∧ x = e) ∨ ((s.index.get k).get v = some x ∧ x.reference ≠ e.reference) := by
      intro k v x hx
      split at hx
      · next hk =>
        rw [Table.get_set] at hx
        split at hx
        · next hv => left; exact ⟨hk, hv, by simpa using hx.symm⟩
        · right; exact ⟨by rw [hk]; exact hx, free v x hx⟩
      · next hk =>
        right
        exact ⟨hx, fun eq => hk (by rw [← l.1 k v x hx, eq])⟩
    constructor
    · intro k v x hx
      rcases new k v x hx with ⟨rfl, _, rfl⟩ | ⟨hx, _⟩
      · rfl
      · exact l.1 _ _ _ hx
    · intro k v x k' v' x' hx hx' eq
      rcases new k v x hx with ⟨rfl, rfl, rfl⟩ | ⟨hx, ne⟩ <;> rcases new k' v' x' hx' with ⟨rfl, rfl, rfl⟩ | ⟨hx', ne'⟩
      · exact ⟨rfl, rfl⟩
      · exact absurd eq.symm ne'
      · exact absurd eq ne
      · exact l.2 _ _ _ _ _ _ hx hx' eq

/-- An index each of whose entries stood in its place before, perhaps under another owner, is lawful. -/
theorem IndexLawful.of_subset {s t : State} (l : IndexLawful s)
    (h : ∀ k w e, (t.index.get k).get w = some e → ∃ o, (s.index.get k).get w = some { e with owner := o }) :
    IndexLawful t := by
  constructor
  · intro k w e he
    obtain ⟨o, ho⟩ := h k w e he
    exact l.1 k w { e with owner := o } ho
  · intro k w e k' w' e' he he' eq
    obtain ⟨o, ho⟩ := h k w e he
    obtain ⟨o', ho'⟩ := h k' w' e' he' 
    exact l.2 _ _ _ _ _ _ ho ho' eq

theorem get_unbind {s : State} {r : Reference} (k : SetNo) (w : WayNo) :
    ((s.unbind r).index.get k).get w =
      if k = setOf r ∧ ((s.index.get k).get w).any (fun e => e.reference = r) = true then none
      else (s.index.get k).get w := by
  simp only [State.unbind, Table.get_update]
  by_cases hk : k = setOf r
  · subst hk; simp
  · simp [hk]

theorem IndexLawful.unbind {s : State} (l : IndexLawful s) (r : Reference) : IndexLawful (s.unbind r) := by
  apply l.of_subset
  intro k w e he
  rw [get_unbind] at he
  split at he
  · cases he
  · exact ⟨e.owner, he⟩

/-! ## The attention lists -/

/-- What joining a list does to the objects of its members (R139). -/
theorem objects_addReason {o : AttentionObject} {r : Reason} {l : List Member} :
    (addReason o r l).map (·.object) = if o ∈ l.map (·.object) then l.map (·.object) else l.map (·.object) ++ [o] := by
  induction l with
  | nil => rfl
  | cons m ms ih =>
    unfold addReason
    by_cases h : m.object = o
    · have e : o ∈ (m :: ms).map (·.object) := h ▸ List.mem_cons_self ..
      rw [if_pos h, if_pos e]
      by_cases k : r ∈ m.reasons
      · rw [if_pos k]
      · rw [if_neg k]; rfl
    · rw [if_neg h, List.map_cons, ih]
      have e : o ∈ (m :: ms).map (·.object) ↔ o ∈ ms.map (·.object) := by
        rw [List.map_cons, List.mem_cons]; exact or_iff_right (Ne.symm h)
      by_cases k : o ∈ ms.map (·.object)
      · rw [if_pos k, if_pos (e.2 k)]; rfl
      · rw [if_neg k, if_neg (e.not.2 k)]; rfl

theorem mem_addReason {o : AttentionObject} {r : Reason} {l : List Member} {m : Member} (h : m ∈ addReason o r l) :
    m ∈ l ∨ m = ⟨o, [r]⟩ ∨ ∃ x ∈ l, x.object = o ∧ r ∉ x.reasons ∧ m = { x with reasons := x.reasons ++ [r] } := by
  induction l with
  | nil => exact .inr (.inl (List.mem_singleton.1 h))
  | cons y ys ih =>
    unfold addReason at h
    split at h
    · next e =>
      rcases List.mem_cons.1 h with h | h
      · split at h
        · exact .inl (h ▸ List.mem_cons_self ..)
        · next k => exact .inr (.inr ⟨y, List.mem_cons_self .., e, k, h⟩)
      · exact .inl (List.mem_cons_of_mem _ h)
    · rcases List.mem_cons.1 h with h | h
      · exact .inl (h ▸ List.mem_cons_self ..)
      · rcases ih h with h | h | ⟨x, hx, e⟩
        · exact .inl (List.mem_cons_of_mem _ h)
        · exact .inr (.inl h)
        · exact .inr (.inr ⟨x, List.mem_cons_of_mem _ hx, e⟩)

theorem ListLawful.nil : ListLawful [] := ⟨List.nodup_nil, fun _ h => absurd h List.not_mem_nil⟩

theorem ListLawful.addReason {o : AttentionObject} {r : Reason} {l : List Member} (h : ListLawful l)
    (kind : drawnFrom o r = true) : ListLawful (Sys2Proof.Machine.addReason o r l) := by
  refine ⟨?_, fun m hm => ?_⟩
  · rw [objects_addReason]
    split
    · exact h.1
    · next k => exact List.nodup_append.2 ⟨h.1, List.nodup_singleton _, fun a ha b hb e =>
        k (by rw [List.mem_singleton.1 hb] at e; exact e ▸ ha)⟩
  · rcases mem_addReason hm with hm | rfl | ⟨x, hx, rfl, k, rfl⟩
    · exact h.2 m hm
    · exact ⟨List.cons_ne_nil _ _, List.nodup_singleton _, fun a ha => List.mem_singleton.1 ha ▸ kind⟩
    · obtain ⟨_, b, c⟩ := h.2 x hx
      refine ⟨by simp, List.nodup_append.2 ⟨b, List.nodup_singleton _, fun a ha d hd e =>
        k (by rw [List.mem_singleton.1 hd] at e; exact e ▸ ha)⟩, fun a ha => ?_⟩
      rcases List.mem_append.1 ha with ha | ha
      · exact c a ha
      · exact List.mem_singleton.1 ha ▸ kind

theorem ListLawful.tail {m : Member} {l : List Member} (h : ListLawful (m :: l)) : ListLawful l :=
  ⟨(List.nodup_cons.1 h.1).2, fun x hx => h.2 x (List.mem_cons_of_mem _ hx)⟩

theorem ListLawful.addReasons {o : AttentionObject} {rs : List Reason} {l : List Member} (h : ListLawful l)
    (kinds : ∀ r ∈ rs, drawnFrom o r = true) :
    ListLawful (rs.foldl (fun l r => Sys2Proof.Machine.addReason o r l) l) := by
  induction rs generalizing l with
  | nil => exact h
  | cons r rs ih =>
    exact ih (h.addReason (kinds r (List.mem_cons_self ..))) fun x hx => kinds x (List.mem_cons_of_mem _ hx)

theorem ListLawful.merge {a b : List Member} (h : ListLawful a) (k : ListLawful b) : ListLawful (mergeLists a b) := by
  unfold mergeLists
  induction a generalizing b with
  | nil => exact k
  | cons m ms ih => exact ih h.tail (k.addReasons (h.2 m (List.mem_cons_self ..)).2.2)

theorem ListsLawful.set {s t : State} {q : PortNo} {l : List Member} (h : ListsLawful s) (k : ListLawful l)
    (e : t.lists = s.lists.set q l) : ListsLawful t := by
  intro p
  unfold State.list
  rw [e, Table.get_set]
  split
  · exact k
  · exact h p

/-! ## The operations -/

namespace Holds
variable {s : State}

theorem setCall {n c} : Holds s (s.setCall n c) :=
  of_same (fun _ => ⟨rfl, rfl⟩) rfl (fun _ => line_setCall) rfl rfl

theorem bind {e} (h : s.entryOf e.reference = none) : Holds s (s.bind e) :=
  of_index (by simp) (by simp) (by simp) (by simp) fun l => l.bind h

theorem unbind {r} : Holds s (s.unbind r) := of_index rfl rfl rfl rfl fun l => l.unbind r

theorem unbindCall {n} : Holds s (s.unbindCall n) := by
  unfold State.unbindCall
  split
  · exact unbind
  · exact refl s

theorem notify {p o r} (kind : drawnFrom o r = true) : Holds s (s.notify p o r) :=
  of_lists (fun h => h.set ((h p).addReason kind) rfl) rfl
theorem tell {p n r} : Holds s (s.tell p n r) := notify rfl
theorem tellMaintenance {n r} : Holds s (s.tellMaintenance n r) := tell
theorem tellSpan {sp r} : Holds s (s.tellSpan sp r) := by
  unfold State.tellSpan
  split
  · exact notify rfl
  · exact refl s
theorem report {o} : Holds s (s.report o) := of_same (fun _ => ⟨rfl, rfl⟩) rfl (fun _ => rfl) rfl rfl
theorem reportChannel {c n} : Holds s (s.reportChannel c n) := report
theorem reportSpan {c sp} : Holds s (s.reportSpan c sp) := report
theorem reportLoss {n w} : Holds s (s.reportLoss n w) := report
theorem modGroup {g f} : Holds s (s.modGroup g f) := of_rest rfl rfl rfl rfl rfl
theorem leaveIdle {n} : Holds s (s.leaveIdle n) := of_rest (by simp) (by simp) (by simp) (by simp) (by simp)
theorem joinIdle {n} : Holds s (s.joinIdle n) := of_rest (by simp) (by simp) (by simp) (by simp) (by simp)
theorem drainCheck {g} : Holds s (s.drainCheck g) := by
  unfold State.drainCheck
  (repeat' split) <;> first | exact modGroup.trans (notify rfl) | exact refl s
theorem drainCheckOf {n} : Holds s (s.drainCheckOf n) := by
  unfold State.drainCheckOf
  split
  · exact drainCheck
  · exact refl s
theorem joinLost {n} : Holds s (s.joinLost n) := of_rest (by simp) (by simp) (by simp) (by simp) (by simp)
theorem markDirty {n} : Holds s (s.markDirty n) := of_rest (by simp) (by simp) (by simp) (by simp) (by simp)
theorem markIfChanged {n c} : Holds s (s.markIfChanged n c) := of_rest (by simp) (by simp) (by simp) (by simp) (by simp)
theorem allDirty {sp} : Holds s (s.allDirty sp) := of_rest (by simp) (by simp) (by simp) (by simp) (by simp)
theorem modLinkSpan {sp f} : Holds s (s.modLinkSpan sp f) := of_rest rfl rfl rfl rfl rfl
theorem drawn : Holds s s.drawn := of_rest rfl rfl rfl rfl rfl
theorem writeCall {n c} : Holds s (s.writeCall n c) := setCall.trans markIfChanged

theorem buildIfIdle : Holds s s.buildIfIdle := of_rest (by simp) (by simp) (by simp) (by simp) (by simp)

theorem event {f : State → State} (h : Holds s (f s)) : Holds s (Sys2Proof.Machine.event f s) := by
  unfold Sys2Proof.Machine.event
  split
  · exact h.trans buildIfIdle
  · exact h

theorem loseRecord {n w} : Holds s (s.loseRecord n w) := by
  unfold State.loseRecord
  split
  · exact setCall.trans reportLoss
  · split
    · exact ((setCall.trans joinLost).trans markDirty).trans reportLoss
    · exact ((((setCall.trans leaveIdle).trans joinLost).trans markDirty).trans reportLoss).trans drainCheckOf

theorem correctRecord {n w} : Holds s (s.correctRecord n w) := setCall.trans report

theorem checkCall {n w} : Holds s (s.checkCall n w).1 := by
  unfold State.checkCall
  split
  · exact refl s
  · split
    · exact setCall
    · exact correctRecord
    · exact loseRecord

theorem checked {n w} {go : State → State} (h : ∀ t, Holds t (go t)) : Holds s (s.checked n w go) := by
  have k := @checkCall s n w
  unfold State.checked
  split <;> next e => rw [e] at k; first | with_reducible exact k.trans (h _) | with_reducible exact k

/-! ## The transitions of a call part -/

theorem enterOutSeized {n r owner from?} (h : s.entryOf r = none) : Holds s (s.enterOutSeized n r owner from?) := by
  refine (leaveIdle.trans writeCall).trans (bind ?_)
  have e : ∀ c, ((s.leaveIdle n).writeCall n c).index = s.index := by simp
  simpa only [State.entryOf, e] using h

theorem enterOutWaitAnswer {n} : Holds s (s.enterOutWaitAnswer n) := writeCall
theorem enterConnected {n} : Holds s (s.enterConnected n) := writeCall
theorem enterInSeized {n f} : Holds s (s.enterInSeized n f) := (leaveIdle.trans writeCall).trans tellMaintenance
theorem enterClearingLocal {n} : Holds s (s.enterClearingLocal n) := writeCall
theorem enterClearingRemote {n} : Holds s (s.enterClearingRemote n) := writeCall
theorem enterGuard {n f} : Holds s (s.enterGuard n f) := (leaveIdle.trans unbindCall).trans writeCall
theorem enterBlocked {n f} : Holds s (s.enterBlocked n f) := (leaveIdle.trans unbindCall).trans writeCall
theorem enterFault {n c f} : Holds s (s.enterFault n c f) := (leaveIdle.trans unbindCall).trans writeCall
theorem enterIdle {n} : Holds s (s.enterIdle n) := writeCall.trans joinIdle
theorem writeFlags {n f} : Holds s (s.writeFlags n f) := writeCall

theorem blockByCondition {n f} : Holds s (s.blockByCondition n f) := by
  unfold State.blockByCondition
  refine Holds.trans ?_ drainCheckOf
  split
  · exact enterBlocked.trans tellMaintenance
  · exact enterBlocked

theorem settle {n} : Holds s (s.settle n) := by
  unfold State.settle
  dsimp only
  (repeat' split)
  · exact blockByCondition
  · exact reportChannel.trans enterIdle
  · exact enterInSeized
  · exact enterIdle

theorem farClear {n} : Holds s (s.farClear n) := enterClearingRemote.trans tell

theorem yieldGlare {n} : Holds s (s.yieldGlare n) := by
  unfold State.yieldGlare
  dsimp only
  split
  · exact (unbindCall.trans enterInSeized).trans modGroup
  · exact (unbindCall.trans enterInSeized).trans tell

theorem changeInIdle {n c} : Holds s (s.changeInIdle n c) := by
  unfold State.changeInIdle
  (repeat' split)
  · exact refl s
  · exact reportChannel
  · exact enterInSeized
  · exact reportChannel
  · exact reportChannel
  · exact reportChannel
  · exact (enterBlocked.trans tellMaintenance).trans drainCheckOf

theorem changeInOutSeized {n c} : Holds s (s.changeInOutSeized n c) := by
  unfold State.changeInOutSeized
  (repeat' split)
  · exact refl s
  · exact reportChannel
  · exact enterOutWaitAnswer.trans tell
  · exact enterConnected.trans tell
  · exact refl s
  · exact yieldGlare
  · exact ((enterBlocked.trans tell).trans tellMaintenance).trans drainCheckOf

theorem changeInOutWaitAnswer {n c} : Holds s (s.changeInOutWaitAnswer n c) := by
  unfold State.changeInOutWaitAnswer
  split <;> first | with_reducible exact farClear | with_reducible exact enterConnected.trans tell | with_reducible exact reportChannel

theorem changeInInSeized {n c} : Holds s (s.changeInInSeized n c) := by
  unfold State.changeInInSeized
  split <;> first
    | with_reducible exact reportChannel
    | with_reducible exact enterGuard.trans tellMaintenance
    | with_reducible exact ((enterBlocked.trans tellMaintenance).trans tellMaintenance).trans drainCheckOf

theorem changeInCall {n c} : Holds s (s.changeInCall n c) := by
  unfold State.changeInCall
  split <;> first | with_reducible exact farClear | with_reducible exact reportChannel

theorem changeInClearingLocal {n c} : Holds s (s.changeInClearingLocal n c) := by
  unfold State.changeInClearingLocal
  dsimp only
  (repeat' split) <;> first | with_reducible exact refl s | with_reducible exact enterGuard.trans tell | with_reducible exact enterGuard

theorem writeFlagsAndTell {n f r} : Holds s ((s.writeFlags n f).tellMaintenance n r) := writeFlags.trans tellMaintenance

theorem changeInBlocked {n c} : Holds s (s.changeInBlocked n c) := by
  cases c <;> simp only [State.changeInBlocked]
  · (repeat' split)
    · exact writeFlagsAndTell
    · exact writeFlagsAndTell.trans settle
    · exact refl s
  · split
    · split
      · exact reportChannel.trans writeFlagsAndTell
      · exact reportChannel
    · split
      · exact writeFlagsAndTell.trans settle
      · exact reportChannel
  · exact reportChannel
  · exact reportChannel
  · exact reportChannel
  · split
    · exact reportChannel
    · exact writeFlagsAndTell

theorem conditionChange {n c} : Holds s (s.conditionChange n c) := by
  unfold State.conditionChange
  (repeat' split) <;> first
    | with_reducible exact tell.trans reportChannel
    | with_reducible exact refl s
    | with_reducible exact changeInIdle
    | with_reducible exact changeInOutSeized
    | with_reducible exact changeInOutWaitAnswer
    | with_reducible exact changeInInSeized
    | with_reducible exact changeInCall
    | with_reducible exact changeInClearingLocal
    | with_reducible exact changeInBlocked

/-! ## The ports -/

theorem modPort_settings {p f} (h : ∀ r, (f r).enabled = r.enabled ∧ (f r).admin = r.admin) (q : PortNo) :
    ((s.modPort p f).port q).enabled = (s.port q).enabled ∧ ((s.modPort p f).port q).admin = (s.port q).admin := by
  rw [port_modPort]
  split
  · next e => rw [e]; exact h _
  · exact ⟨rfl, rfl⟩

theorem modPort {p f} (h : ∀ r, (f r).enabled = r.enabled ∧ (f r).admin = r.admin) : Holds s (s.modPort p f) :=
  of_same (modPort_settings h) rfl (fun _ => rfl) rfl rfl

theorem driveSdo {p c} : Holds s (s.driveSdo p c) := by
  unfold State.driveSdo
  split
  · exact modPort fun _ => ⟨rfl, rfl⟩
  · exact modPort fun _ => ⟨rfl, rfl⟩
  · refine of_same (fun q => ?_) rfl (fun _ => rfl) rfl rfl
    dsimp only [State.modPort, State.port]
    rw [Table.get_update]
    split
    · next e => rw [e]; exact ⟨rfl, rfl⟩
    · exact ⟨rfl, rfl⟩

theorem respond {p t c b} : Holds s (s.respond p t c b) := modPort fun _ => ⟨rfl, rfl⟩
theorem beginLong {p t c} : Holds s (s.beginLong p t c) := modPort fun _ => ⟨rfl, rfl⟩
theorem answerBadFrame {p} : Holds s (s.answerBadFrame p) := report.trans respond

theorem finishLong {p c} : Holds s (s.finishLong p c) := by
  unfold State.finishLong
  split
  · exact respond
  · exact refl s
  · exact refl s

theorem checkedRule {n w} {rule : State → State × Answer} (h : ∀ t, Holds t (rule t).1) :
    Holds s (Sys2Proof.Machine.checkedRule n w rule s).1 := by
  have k := @checkCall s n (some w)
  unfold Sys2Proof.Machine.checkedRule
  split <;> next e => rw [e] at k; first | with_reducible exact k.trans (h _) | with_reducible exact k

/-- The events of a list are taken in some order, each keeping the laws. -/
theorem takeInFreeOrder {α : Type} {take : α → State → State} (h : ∀ a t, Holds t (take a t)) :
    ∀ (fuel : Nat) (l : List α) (s : State), Holds s (State.takeInFreeOrder take fuel l s)
  | 0, _, s => refl s
  | _ + 1, [], s => refl s
  | _ + 1, [a], s => h a s
  | fuel + 1, _ :: _ :: _, _ => drawn.trans ((h _ _).trans (takeInFreeOrder h fuel _ _))

end Holds

/-! ## Events and requests: what their own rules keep, they keep -/

/-- A relation of the kind of `Keeps` and `Holds`. -/
structure Around (R : State → State → Prop) : Prop where
  of_holds : ∀ {s t}, Holds s t → R s t
  trans : ∀ {s t u}, R s t → R t u → R s u

theorem Keeps.around : Around Keeps := ⟨Holds.toKeeps, Keeps.trans⟩
theorem Holds.around : Around Holds := ⟨id, Holds.trans⟩

namespace Around
variable {R : State → State → Prop} {s : State}

/-- The build that an event brings about touches the link alone. -/
theorem event (a : Around R) {f : State → State} (h : R s (f s)) : R s (Sys2Proof.Machine.event f s) := by
  unfold Sys2Proof.Machine.event
  split
  · exact a.trans h (a.of_holds Holds.buildIfIdle)
  · exact h

theorem requestArrives (a : Around R) {p k} {taken : State → State} (h : ∀ t, R t (taken t)) :
    R s (s.requestArrives p k taken) := by
  unfold State.requestArrives
  split
  · exact a.of_holds (Holds.refl s)
  · split
    · exact a.of_holds (Holds.driveSdo.trans (Holds.modPort fun _ => ⟨rfl, rfl⟩))
    · exact a.trans (a.of_holds Holds.driveSdo) (h _)
    · exact a.trans (a.of_holds Holds.driveSdo) (h _)

/-- A request reaches its own rule at an enabled port, with no restart in flight, and permitted (R187). -/
theorem serve (a : Around R) {p tag code body permitted} {go : State → State}
    (h : ∀ t, (t.port p).enabled = true → t.restart = none → permitted t = true → R t (go t)) :
    R s (Sys2Proof.Machine.serve p tag code body permitted go s) := by
  unfold Sys2Proof.Machine.serve
  refine a.requestArrives fun t => ?_
  (repeat' split)
  · exact a.of_holds Holds.answerBadFrame
  · exact a.of_holds Holds.respond
  · exact a.of_holds Holds.respond
  · exact a.of_holds Holds.respond
  · exact a.of_holds Holds.respond
  · next h1 h2 h3 h4 => exact h t (by simpa using h1) (by simpa using h2) (by simpa using h3)

theorem answering (a : Around R) {p tag} {rule : State → State × Answer} (h : R s (rule s).1) :
    R s (Sys2Proof.Machine.answering p tag rule s) := a.trans h (a.of_holds Holds.respond)

/-- A request whose rule answers at once. -/
theorem request (a : Around R) {p tag code body permitted} {rule : State → State × Answer}
    (h : ∀ t, R t (rule t).1) :
    R s (Sys2Proof.Machine.event (Sys2Proof.Machine.serve p tag code body permitted
      (Sys2Proof.Machine.answering p tag rule)) s) :=
  a.event (a.serve fun _ _ _ _ => a.answering (h _))

end Around

end Sys2Proof.Machine
end

