-- ==== Sys2Proof/Laws/Exec.lean ====
section
/-! SUPPORT. What exec answers to each command: the next state that the command's own rule gives. -/

namespace Sys2Proof.Machine

set_option Elab.async false

variable (s : State)

@[simp] theorem exec_powerOnReset :
    exec .powerOnReset s = .next (powerOnReset s) := rfl

@[simp] theorem exec_timebaseStep :
    exec .timebaseStep s = .next (timebaseStep s) := rfl

@[simp] theorem exec_responseRead {p : PortNo} {characters : Nat} :
    exec (.responseRead p characters) s = .next (readTransfer p characters s) := rfl

@[simp] theorem exec_badFrame {p : PortNo} {frame : List Byte} :
    exec (.badFrame p frame) s = .next (badFrameTransfer p frame s) := rfl

@[simp] theorem exec_overrun {p : PortNo} {frame : List Byte} :
    exec (.overrun p frame) s = .next (overrunTransfer p frame s) := rfl

@[simp] theorem exec_hunt {p : PortNo} {tag : Byte} {body : List Byte} :
    exec (.hunt p tag body) s =
      .next (event (serve p tag .hunt body permitAny (answering p tag (huntRule p body))) s) := rfl

@[simp] theorem exec_seize {p : PortNo} {tag : Byte} {body : List Byte} :
    exec (.seize p tag body) s =
      .next (event (serve p tag .seize body permitAny (answering p tag (seizeRule p body))) s) := rfl

@[simp] theorem exec_accept {p : PortNo} {tag : Byte} {body : List Byte} :
    exec (.accept p tag body) s =
      .next (event (serve p tag .accept body permitAny (answering p tag (acceptRule p body))) s) := rfl

@[simp] theorem exec_answer {p : PortNo} {tag : Byte} {body : List Byte} :
    exec (.answer p tag body) s =
      .next (event (serve p tag .answer body permitAny
        (answering p tag (atTarget resolveTarget (answerChannel p) body))) s) := rfl

@[simp] theorem exec_release {p : PortNo} {tag : Byte} {body : List Byte} :
    exec (.release p tag body) s =
      .next (event (serve p tag .release body permitAny
        (answering p tag (atTarget resolveTarget (releaseChannel p) body))) s) := rfl

@[simp] theorem exec_block {p : PortNo} {tag : Byte} {body : List Byte} :
    exec (.block p tag body) s =
      .next (event (serve p tag .block body (permitChannelMaintenance p body)
        (answering p tag (atChannel (blockChannel p) body))) s) := rfl

@[simp] theorem exec_unblock {p : PortNo} {tag : Byte} {body : List Byte} :
    exec (.unblock p tag body) s =
      .next (event (serve p tag .unblock body (permitChannelMaintenance p body)
        (answering p tag (atChannel (unblockChannel p) body))) s) := rfl

@[simp] theorem exec_resetChannel {p : PortNo} {tag : Byte} {body : List Byte} :
    exec (.resetChannel p tag body) s =
      .next (event (serve p tag .resetChannel body (permitAdmin p)
        (answering p tag (atChannel (resetChannelRule p) body))) s) := rfl

@[simp] theorem exec_drain {p : PortNo} {tag : Byte} {body : List Byte} :
    exec (.drain p tag body) s =
      .next (event (serve p tag .drain body (permitGroupMaintenance p body)
        (answering p tag (drainRule p body))) s) := rfl

@[simp] theorem exec_undrain {p : PortNo} {tag : Byte} {body : List Byte} :
    exec (.undrain p tag body) s =
      .next (event (serve p tag .undrain body (permitGroupMaintenance p body)
        (answering p tag (undrainRule p body))) s) := rfl

@[simp] theorem exec_readChannel {p : PortNo} {tag : Byte} {body : List Byte} :
    exec (.readChannel p tag body) s =
      .next (event (serve p tag .readChannel body permitAny
        (answering p tag (atTarget resolveQuery (readChannelRule p) body))) s) := rfl

@[simp] theorem exec_readGroup {p : PortNo} {tag : Byte} {body : List Byte} :
    exec (.readGroup p tag body) s =
      .next (event (serve p tag .readGroup body permitAny (answering p tag (readGroupRule body))) s) := rfl

@[simp] theorem exec_readSpan {p : PortNo} {tag : Byte} {body : List Byte} :
    exec (.readSpan p tag body) s =
      .next (event (serve p tag .readSpan body permitAny (answering p tag (readSpanRule body))) s) := rfl

@[simp] theorem exec_nextAttention {p : PortNo} {tag : Byte} {body : List Byte} :
    exec (.nextAttention p tag body) s =
      .next (event (serve p tag .nextAttention body permitAny (answering p tag (nextAttentionRule p))) s) := rfl

@[simp] theorem exec_readFaults {p : PortNo} {tag : Byte} {body : List Byte} :
    exec (.readFaults p tag body) s =
      .next (event (serve p tag .readFaults body permitAny (answering p tag readFaultsRule)) s) := rfl

@[simp] theorem exec_setSpan {p : PortNo} {tag : Byte} {body : List Byte} :
    exec (.setSpan p tag body) s =
      .next (event (serve p tag .setSpan body (permitAdmin p) (answering p tag (setSpanRule body))) s) := rfl

@[simp] theorem exec_clearSpan {p : PortNo} {tag : Byte} {body : List Byte} :
    exec (.clearSpan p tag body) s =
      .next (event (serve p tag .clearSpan body (permitAdmin p) (answering p tag (clearSpanRule body))) s) := rfl

@[simp] theorem exec_equip {p : PortNo} {tag : Byte} {body : List Byte} :
    exec (.equip p tag body) s =
      .next (event (serve p tag .equip body (permitAdmin p) (answering p tag (equipRequest p body))) s) := rfl

@[simp] theorem exec_unequip {p : PortNo} {tag : Byte} {body : List Byte} :
    exec (.unequip p tag body) s =
      .next (event (serve p tag .unequip body (permitAdmin p)
        (answering p tag (atChannel (unequipRule p) body))) s) := rfl

@[simp] theorem exec_setGroup {p : PortNo} {tag : Byte} {body : List Byte} :
    exec (.setGroup p tag body) s =
      .next (event (serve p tag .setGroup body (permitAdmin p) (answering p tag (setGroupRule p body))) s) := rfl

@[simp] theorem exec_deleteGroup {p : PortNo} {tag : Byte} {body : List Byte} :
    exec (.deleteGroup p tag body) s =
      .next (event (serve p tag .deleteGroup body (permitAdmin p) (answering p tag (deleteGroupRule body))) s) := rfl

@[simp] theorem exec_loadProfile {p : PortNo} {tag : Byte} {body : List Byte} :
    exec (.loadProfile p tag body) s =
      .next (event (serve p tag .loadProfile body (permitAdmin p) (answering p tag (loadProfileRule body))) s) := rfl

@[simp] theorem exec_setFaultClass {p : PortNo} {tag : Byte} {body : List Byte} :
    exec (.setFaultClass p tag body) s =
      .next (event (serve p tag .setFaultClass body (permitAdmin p)
        (answering p tag (setFaultClassRule body))) s) := rfl

@[simp] theorem exec_clearFaults {p : PortNo} {tag : Byte} {body : List Byte} :
    exec (.clearFaults p tag body) s =
      .next (event (serve p tag .clearFaults body (permitAdmin p) (answering p tag (clearFaultsRule body))) s) := rfl

@[simp] theorem exec_setPort {p : PortNo} {tag : Byte} {body : List Byte} :
    exec (.setPort p tag body) s =
      .next (event (serve p tag .setPort body (permitAdmin p) (answering p tag (setPortRule body))) s) := rfl

@[simp] theorem exec_setDevice {p : PortNo} {tag : Byte} {body : List Byte} :
    exec (.setDevice p tag body) s =
      .next (event (serve p tag .setDevice body (permitAdmin p) (answering p tag (setDeviceRule body))) s) := rfl

@[simp] theorem exec_transfer {p : PortNo} {tag : Byte} {body : List Byte} :
    exec (.transfer p tag body) s =
      .next (event (serve p tag .transfer body (permitAdmin p) (State.transferRequest p tag body)) s) := rfl

@[simp] theorem exec_restart {p : PortNo} {tag : Byte} {body : List Byte} :
    exec (.restart p tag body) s =
      .next (event (serve p tag .restart body (permitAdmin p) (State.beginRestart p tag)) s) := rfl

@[simp] theorem exec_restartCompletion :
    exec .restartCompletion s = .next (takeRestartCompletion s) := rfl

@[simp] theorem exec_spanReport {m : List Byte} :
    exec (.spanReport m) s = .next (event (State.messageArrives m) s) := rfl

@[simp] theorem exec_positionIntegration {n : ChannelNo} :
    exec (.positionIntegration n) s = .next (event (State.integrate n) s) := rfl

@[simp] theorem exec_rehunt {g : GroupNo} :
    exec (.rehunt g) s = .next (event (takeRehunt g) s) := rfl

@[simp] theorem exec_spanDown {n : ChannelNo} :
    exec (.spanDown n) s =
      .next (event (State.takeNotice n .down (State.spanDownEffect n)) s) := rfl

@[simp] theorem exec_spanUp {n : ChannelNo} :
    exec (.spanUp n) s =
      .next (event (State.takeNotice n .up (State.spanUpEffect n)) s) := rfl

@[simp] theorem exec_downUp {n : ChannelNo} :
    exec (.downUp n) s =
      .next (event (State.takeNotice n .downUp fun t => (t.spanDownEffect n).spanUpEffect n) s) := rfl

@[simp] theorem exec_guardExpiry {n : ChannelNo} :
    exec (.guardExpiry n) s = .next (event (expireGuard n) s) := rfl

@[simp] theorem exec_proceedTimeout {n : ChannelNo} :
    exec (.proceedTimeout n) s = .next (event (expireProceed n) s) := rfl

@[simp] theorem exec_answerTimeout {n : ChannelNo} :
    exec (.answerTimeout n) s = .next (event (expireAnswer n) s) := rfl

@[simp] theorem exec_offerTimeout {n : ChannelNo} :
    exec (.offerTimeout n) s = .next (event (expireOffer n) s) := rfl

@[simp] theorem exec_releaseStuck {n : ChannelNo} :
    exec (.releaseStuck n) s = .next (event (expireRelease n) s) := rfl

@[simp] theorem exec_autoReleased {n : ChannelNo} :
    exec (.autoReleased n) s = .next (event (expireFarClear n) s) := rfl

@[simp] theorem exec_silenceExpiry {sp : SpanNo} :
    exec (.silenceExpiry sp) s = .next (event (expireSilence sp) s) := rfl

@[simp] theorem exec_purgeVisit :
    exec .purgeVisit s = .next (takePurgeVisit s) := rfl

@[simp] theorem exec_sweepVisit :
    exec .sweepVisit s = .next (takeSweepVisit s) := rfl

@[simp] theorem exec_scrubVisit :
    exec .scrubVisit s = .next (event takeScrubVisit s) := rfl

@[simp] theorem exec_refreshExpiry :
    exec .refreshExpiry s = .next (event expireRefresh s) := rfl

@[simp] theorem exec_endOfSending :
    exec .endOfSending s = .next (endSending s) := rfl

@[simp] theorem exec_faultOccurrence {index : Nat} :
    exec (.faultOccurrence index) s = .next (s.takeReported index) := rfl

@[simp] theorem exec_storageError {n : ChannelNo} {bits : List Nat} :
    exec (.storageError n bits) s = .next (storageError n bits s) := rfl

@[simp] theorem exec_rstNRise :
    exec .rstNRise s = .next (rstNRise s) := rfl

end Sys2Proof.Machine
end

