-- ==== Sys2Proof/Laws/Requests.lean ====
section
/-! SUPPORT. Requests: what a transfer leaves at its port, what admission comes to, and when an event brings about no
build. -/

namespace Sys2Proof.Machine

set_option Elab.async false

open State

variable {s t u : State}

/-! ## A transfer at a port -/

theorem driveSdo_notReady {p k} (h : ∀ r, (s.port p).state ≠ .ready r) :
    s.driveSdo p k = { s with ports := s.ports.update p fun r => { r with sdo := List.replicate k 0 } } := by
  unfold driveSdo
  split
  · rfl
  · rfl
  · next e => exact absurd e (h _)

theorem driveSdo_ports {p k} : ∃ sdo, (s.driveSdo p k).ports = s.ports.update p fun r => { r with sdo := sdo } := by
  unfold driveSdo
  split
  · exact ⟨_, rfl⟩
  · exact ⟨_, rfl⟩
  · exact ⟨_, rfl⟩

/-- A transfer changes the characters on SDO and the drawn counter alone. -/
theorem driveSdo_eq {p k} :
    s.driveSdo p k = { s with ports := (s.driveSdo p k).ports, freeCount := (s.driveSdo p k).freeCount } := by
  unfold driveSdo
  split
  · rfl
  · rfl
  · rfl

theorem driveSdo_port {p k} : ∃ sdo, (s.driveSdo p k).port p = { s.port p with sdo := sdo } := by
  obtain ⟨sdo, h⟩ := driveSdo_ports (s := s) (p := p) (k := k)
  exact ⟨sdo, by unfold State.port; rw [h, Table.get_update_same]⟩

theorem driveSdo_port_other {p k q} (h : q ≠ p) : (s.driveSdo p k).port q = s.port q := by
  obtain ⟨sdo, e⟩ := driveSdo_ports (s := s) (p := p) (k := k)
  unfold State.port
  rw [e, Table.get_update_other _ _ h]

theorem respond_answered {p k tag status body} (hb : status = .ok ∨ body = []) :
    Answered p tag status body s ((s.driveSdo p k).respond p tag status body) := by
  obtain ⟨sdo, h⟩ := driveSdo_port (s := s) (p := p) (k := k)
  have hb' : (if status = .ok then body else []) = body := by
    split
    · rfl
    · rcases hb with h | h
      · contradiction
      · exact h.symm
  refine ⟨⟨sdo, ?_⟩, fun q hq => ?_⟩
  · unfold State.respond
    rw [port_modPort, if_pos rfl, h, hb']
  · unfold State.respond
    rw [port_modPort, if_neg hq, driveSdo_port_other hq]

theorem respond_refused {p k tag status} : Refused p tag status s ((s.driveSdo p k).respond p tag status []) := by
  refine ⟨respond_answered (.inr rfl), ?_⟩
  conv_lhs => rw [driveSdo_eq]
  rfl

/-- What answers a bad frame: BAD_FRAME with tag 0, and one occurrence. -/
theorem answerBadFrame_effect {p k} :
    Answered p 0 .badFrame [] s ((s.driveSdo p k).answerBadFrame p) ∧
    Reported [⟨.portFrame, none, none, some p, none, none⟩] s ((s.driveSdo p k).answerBadFrame p) ∧
    (s.driveSdo p k).answerBadFrame p = { s with
      ports := ((s.driveSdo p k).answerBadFrame p).ports, faults := ((s.driveSdo p k).answerBadFrame p).faults
      freeCount := ((s.driveSdo p k).answerBadFrame p).freeCount } := by
  have key : ∀ t : State, (t.answerBadFrame p).port p =
      { t.port p with state := .ready ⟨0, .badFrame, (t.port p).overrun, []⟩, overrun := false } := fun t => by
    unfold State.answerBadFrame State.respond
    rw [port_modPort, if_pos rfl]
    rfl
  have other : ∀ (t : State) q, q ≠ p → (t.answerBadFrame p).port q = t.port q := fun t q hq => by
    unfold State.answerBadFrame State.respond
    rw [port_modPort, if_neg hq]
    rfl
  have rest : ∀ t : State, t.answerBadFrame p = { t with
      ports := (t.answerBadFrame p).ports, faults := (t.answerBadFrame p).faults } := fun t => rfl
  refine ⟨?_, ?_, ?_⟩
  · obtain ⟨sdo, h⟩ := driveSdo_port (s := s) (p := p) (k := k)
    exact ⟨⟨sdo, by rw [key, h]⟩, fun q hq => by rw [other _ _ hq]; exact driveSdo_port_other hq⟩
  · unfold Reported State.answerBadFrame State.respond State.report
    rw [driveSdo_faults]; rfl
  · generalize hd : s.driveSdo p k = t
    have e : t = { s with ports := t.ports, freeCount := t.freeCount } := by rw [← hd]; exact driveSdo_eq
    rw [rest t]
    conv_lhs => rw [e]
    rw [e]

/-! ## Admission -/

theorem serve_low {p tag code body permitted go} (h : s.rstN = false) : serve p tag code body permitted go s = s := by
  unfold serve requestArrives
  rw [h]; rfl

theorem serve_working {p tag code body permitted go} (hr : s.rstN = true) (hw : (s.port p).state.isWorking = true) :
    serve p tag code body permitted go s = { s with ports := s.ports.update p fun r =>
      { r with overrun := true, sdo := List.replicate (4 + body.length) 0 } } := by
  unfold serve requestArrives
  rw [if_neg (by simp [hr])]
  split
  · next e =>
    rw [driveSdo_notReady (by rw [e]; intro r h; cases h)]
    unfold modPort
    simp only [Table.update_update]
  · next e => rw [e] at hw; cases hw
  · next e => rw [e] at hw; cases hw

theorem serve_taken {p tag code body permitted go} (hr : s.rstN = true) (hw : (s.port p).state.isWorking = false) :
    serve p tag code body permitted go s = (
      let t := s.driveSdo p (4 + body.length)
      if maxBody < body.length then t.answerBadFrame p
      else if !(t.port p).enabled then t.respond p tag .denied []
      else if t.restart.isSome then t.respond p tag .restarting []
      else if !permitted t then t.respond p tag .denied []
      else if body.length ≠ bodyLength code then t.respond p tag .badRequest []
      else go t) := by
  unfold serve requestArrives
  rw [if_neg (by simp [hr])]
  split
  · next e => rw [e] at hw; cases hw
  · rfl
  · rfl

/-- An admitted request of the catalogue's length reaches its own rule. -/
theorem serve_admitted {p tag code body permitted go} (h : s.Admits p)
    (hp : permitted (s.driveSdo p (4 + body.length)) = true) (hl : body.length = bodyLength code) :
    serve p tag code body permitted go s = go (s.driveSdo p (4 + body.length)) := by
  obtain ⟨h1, h2, h3, h4⟩ := h
  obtain ⟨sdo, e⟩ := driveSdo_port (s := s) (p := p) (k := 4 + body.length)
  have hm : ¬ maxBody < body.length := by rw [hl]; cases code <;> decide
  rw [serve_taken h1 h2]
  dsimp only
  rw [if_neg hm, if_neg (by rw [e]; simp [h3]), if_neg (by simp [h4]), if_neg (by simp [hp]), if_neg (by simp [hl])]

theorem driveSdo_maintenanceOf {p k g} : maintenanceOf (s.driveSdo p k) g = maintenanceOf s g := by
  unfold maintenanceOf State.group
  rw [driveSdo_groups]

theorem driveSdo_groupOf {p k n} : (s.driveSdo p k).groupOf n = s.groupOf n := by
  unfold groupOf equipment channel
  rw [driveSdo_channels]

theorem permission_driveSdo {p k body code} : permission p body (s.driveSdo p k) code = permission p body s code := by
  obtain ⟨sdo, h⟩ := driveSdo_port (s := s) (p := p) (k := k)
  have a : ((s.driveSdo p k).port p).admin = (s.port p).admin := by rw [h]
  have c : channelMaintenance body (s.driveSdo p k) = channelMaintenance body s := by
    unfold channelMaintenance
    simp only [driveSdo_maintenanceOf, driveSdo_groupOf]
  have g : groupMaintenance body (s.driveSdo p k) = groupMaintenance body s := by
    unfold groupMaintenance
    simp only [driveSdo_maintenanceOf]
  unfold permission
  split
  all_goals first
    | rfl
    | (unfold permitChannelMaintenance; rw [a, c])
    | (unfold permitGroupMaintenance; rw [a, g])
    | exact a

/-- Every request of the catalogue is served in one way: admission with its permission, then its own rule. -/
theorem exec_request {c : Instr} {p tag code body} (h : requestOfCommand c = some (p, tag, code, body)) :
    ∃ permitted go, (∀ s, permitted s = permission p body s code) ∧
      ∀ s, exec c s = .next (event (serve p tag code body permitted go) s) := by
  cases c <;> (try (cases h)) <;> exact ⟨_, _, fun _ => rfl, fun _ => rfl⟩

/-! ## Builds -/

theorem gains_false (link : u.link = s.link) (spans : u.spans = s.spans) : s.gains u = false := by
  unfold gains
  rw [List.any_eq_false]
  intro sp _
  have : u.updatePending sp = s.updatePending sp := by
    unfold updatePending alarmRequest linkSpan span
    rw [link, spans]
  rw [this]
  simp

/-- An event that touches neither the line link nor a span brings about no build. -/
theorem event_quiet {f : State → State} (h : f s = u) (link : u.link = s.link) (spans : u.spans = s.spans) :
    event f s = u := by
  unfold event
  rw [h, gains_false link spans]
  rfl

theorem built_quiet (link : u.link = s.link) (spans : u.spans = s.spans) : s.built u = u := by
  unfold built
  rw [gains_false link spans]
  rfl

theorem event_built {f : State → State} (h : f s = u) : event f s = s.built u := by
  unfold event built
  rw [h]

end Sys2Proof.Machine
end

