-- ==== Sys2Proof/Laws/Effects.lean ====
section
/-! SUPPORT. What the shared operations do, in the words of the claims: one lemma for each. -/

namespace Sys2Proof.Machine

set_option Elab.async false

open State

variable {s t u v : State}

/-! ## The call part and the dirty mark -/

/-- What a transmitted code depends on beside the channel's own record stayed as it was. -/
structure SameCodes (s u : State) : Prop where
  spans : u.spans = s.spans
  profiles : u.profiles = s.profiles
  config : ∀ g, (u.group g).config = (s.group g).config

namespace SameCodes

theorem refl (s : State) : SameCodes s s := ⟨rfl, rfl, fun _ => rfl⟩

theorem trans (h : SameCodes s t) (k : SameCodes t u) : SameCodes s u :=
  ⟨k.spans.trans h.spans, k.profiles.trans h.profiles, fun g => (k.config g).trans (h.config g)⟩

theorem of_groups (groups : u.groups = s.groups) (spans : u.spans = s.spans) (profiles : u.profiles = s.profiles) :
    SameCodes s u := ⟨spans, profiles, fun g => by unfold State.group; rw [groups]⟩

theorem config_eq {n} (h : SameCodes s u) (equipment : u.equipment n = s.equipment n) : u.config n = s.config n := by
  unfold State.config groupOf
  rw [equipment]
  split
  · rw [h.config]
  · rfl

theorem codeFor_eq {n c} (h : SameCodes s u) (equipment : u.equipment n = s.equipment n) :
    u.codeFor n c = s.codeFor n c := by
  have e : u.equipped n = s.equipped n := by unfold equipped groupOf; rw [equipment]
  have f : u.spanFill (spanOf n) = s.spanFill (spanOf n) := by unfold spanFill span; rw [h.spans]
  unfold codeFor profileCode
  rw [e, f, h.config_eq equipment, h.profiles]

theorem markDirty_link {n} (h : SameCodes s u) (link : u.link = s.link) :
    (u.markDirty n).link = (s.markDirty n).link := by
  unfold markDirty span
  rw [h.spans]
  split
  · split
    · unfold modLinkSpan; rw [link]
    · exact link
  · exact link

end SameCodes

theorem setCall_written {n c} : CallWritten n c s (s.setCall n c) := by
  refine ⟨?_, fun m hm => ?_⟩
  · unfold setCall; rw [channel_modChannel, if_pos rfl]
  · unfold setCall; rw [channel_modChannel, if_neg hm]

theorem State.CallWritten.of_channels {n c} (h : CallWritten n c s t) (e : u.channels = t.channels) : CallWritten n c
    s u := by
  have e' : ∀ m, u.channel m = t.channel m := fun m => by unfold channel; rw [e]
  exact ⟨by rw [e', h.1], fun m hm => by rw [e', h.2 m hm]⟩

theorem State.CallWritten.after {n c} (h : CallWritten n c t u) (e : t.channels = s.channels) : CallWritten n c s u :=
    by
  have e' : ∀ m, t.channel m = s.channel m := fun m => by unfold channel; rw [e]
  exact ⟨by rw [h.1, e'], fun m hm => by rw [h.2 m hm, e']⟩

theorem State.CallWritten.equipment_eq {n c} (h : CallWritten n c s u) (m : ChannelNo) : u.equipment m = s.equipment
    m := by
  unfold equipment
  by_cases e : m = n
  · subst e; rw [h.1]
  · rw [h.2 m e]

theorem State.CallWritten.line_eq {n c} (h : CallWritten n c s u) (m : ChannelNo) : u.line m = s.line m := by
  unfold line
  by_cases e : m = n
  · subst e; rw [h.1]
  · rw [h.2 m e]

theorem State.CallWritten.call_eq {n c} (h : CallWritten n c s u) : u.call n = c := by
  unfold call; rw [h.1]

theorem writeCall_channels {n c} : (s.writeCall n c).channels = (s.setCall n c).channels := by
  unfold writeCall; simp

theorem writeCall_written {n c} : CallWritten n c s (s.writeCall n c) :=
  setCall_written.of_channels writeCall_channels

/-- The whole of a call-part write: the channels and the line link. -/
theorem writeCall_eq {n c} :
    s.writeCall n c = { s with channels := (s.writeCall n c).channels, link := (s.writeCall n c).link } := by
  have key : ∀ t : State, t.markDirty n = { t with link := (t.markDirty n).link } := fun t => by
    unfold markDirty
    split
    · split <;> rfl
    · rfl
  unfold writeCall markIfChanged
  split
  · rfl
  · rw [key]; rfl

theorem presentCode_of_written {n c} (h : SameCodes s u) (w : CallWritten n c s u) :
    u.presentCode n = s.codeFor n c.transmitted := by
  unfold presentCode
  rw [w.call_eq, h.codeFor_eq (w.equipment_eq n)]

theorem writeCall_link {n c} : (s.writeCall n c).link =
    if s.codeFor n c.transmitted = s.presentCode n then s.link else (s.markDirty n).link := by
  have k : SameCodes s (s.setCall n c) := .of_groups rfl rfl rfl
  unfold writeCall markIfChanged
  rw [presentCode_of_written k setCall_written]
  split
  · rfl
  · exact k.markDirty_link rfl

/-- The mark of a write seen from the state before the event and from the state after it. -/
theorem State.Marked.of_writeCall {n c} (before : SameCodes s v) (channels : v.channels = s.channels)
    (link : v.link = s.link)
    (after : SameCodes s u) (w : CallWritten n c s u) (e : u.link = (v.writeCall n c).link) : Marked n s u := by
  have eq : ∀ m, v.equipment m = s.equipment m := fun m => by unfold equipment channel; rw [channels]
  have p : v.presentCode n = s.presentCode n := by
    unfold presentCode call channel
    rw [channels]
    exact before.codeFor_eq (eq n)
  unfold Marked
  rw [e, writeCall_link, presentCode_of_written after w, before.codeFor_eq (eq n), p, before.markDirty_link link, link]

/-! ## Groups -/

theorem leaveIdle_left {n} : LeftIdle n s (s.leaveIdle n) := by
  intro g
  unfold leaveIdle
  cases h : s.groupOf n with
  | none => simp
  | some k =>
    rw [group_modGroup]
    by_cases e : g = k
    · subst e; simp
    · have : ¬ k = g := fun x => e x.symm
      simp [e, this]

theorem State.LeftIdle.of_groups {n} (h : LeftIdle n s t) (e : u.groups = t.groups) : LeftIdle n s u := by
  intro g
  have := h g
  unfold State.group at this ⊢
  rw [e, this]

theorem leaveIdle_sameCodes {n} : SameCodes s (s.leaveIdle n) :=
  ⟨by simp, by simp, fun g => by rw [leaveIdle_left g]⟩

/-! ## The Reference Index -/

theorem bind_bound {e : IndexEntry} {w} (h : freeWay (s.index.get (setOf e.reference)) = some w) :
    Bound e s (s.bind e) :=
  ⟨w, (freeWay_some h).1, (freeWay_some h).2, bind_index h⟩

theorem State.Bound.congr {e : IndexEntry} {s' u' : State} (h : Bound e s u) (hs : s'.index = s.index)
    (hu : u'.index = u.index) : Bound e s' u' := by
  unfold Bound
  rw [hs, hu]
  exact h

theorem unbind_freed {r : Reference} : Freed (some r) s (s.unbind r) := by
  intro k w
  rw [get_unbind]
  simp

theorem unbindCall_freed {n} : Freed (s.call n).reference s (s.unbindCall n) := by
  unfold unbindCall
  split
  · next r h => rw [h]; exact unbind_freed
  · next h => intro k w; rw [h]; rfl

theorem State.Freed.congr {r} {s' u' : State} (h : Freed r s u) (hs : s'.index = s.index) (hu : u'.index = u.index) :
    Freed r s' u' := by
  intro k w
  rw [hs, hu]
  exact h k w

/-- The checks of R124 pass: the reference is not in use, and its set has a free way. -/
theorem referenceRefusal_passes {r : Reference} (h : s.entryOf r = none)
    (f : ∃ w, (s.index.get (setOf r)).get w = none) :
    s.referenceRefusal r = none ∧ ∃ w, freeWay (s.index.get (setOf r)) = some w := by
  have k : ∃ w, freeWay (s.index.get (setOf r)) = some w := by
    obtain ⟨w, hw⟩ := f
    unfold freeWay
    cases e : (List.finRange 4).find? fun w => ((s.index.get (setOf r)).get w).isNone with
    | some x => exact ⟨x, rfl⟩
    | none =>
      have := List.find?_eq_none.1 e w (List.mem_finRange w)
      rw [hw] at this
      exact absurd rfl this
  refine ⟨?_, k⟩
  obtain ⟨w, hw⟩ := k
  unfold referenceRefusal
  rw [h, hw]
  rfl

/-! ## Attention lists and occurrences -/

theorem told_nil (h : u.lists = s.lists) : Told [] s u := fun q => by unfold State.list; rw [h]; rfl

theorem State.Told.tell {adds p n r} (h : Told adds s t) : Told (adds ++ [(p, .channel n, .channel r)]) s
    (t.tell p n r) := by
  intro q
  have := h q
  unfold State.tell
  rw [list_notify, List.foldl_append, ← this]
  simp only [List.foldl_cons, List.foldl_nil]
  by_cases e : q = p
  · subst e; simp
  · have : ¬ p = q := fun x => e x.symm
    simp [e, this]

theorem State.Told.of_lists {adds} (h : Told adds s t) (e : u.lists = t.lists) : Told adds s u := fun q => by
  have := h q
  unfold State.list at this ⊢
  rw [e, this]

theorem State.Told.after {adds} (h : Told adds t u) (e : t.lists = s.lists) : Told adds s u := fun q => by
  have := h q
  unfold State.list at this ⊢
  rw [this, e]

/-! ## Entries to the call states -/

theorem State.Marked.after {n} (h : Marked n t u) (channels : t.channels = s.channels) (link : t.link = s.link)
    (same : SameCodes s t) : Marked n s u := by
  have p : t.presentCode n = s.presentCode n := by
    unfold presentCode call channel
    rw [channels]
    exact same.codeFor_eq (by unfold equipment channel; rw [channels])
  unfold Marked at h ⊢
  rw [h, p, link, same.markDirty_link link]

theorem writeCall_effect {n c} : CallWritten n c s (s.writeCall n c) ∧ Marked n s (s.writeCall n c) :=
  ⟨writeCall_written, .of_writeCall (.refl s) rfl rfl (.of_groups (by simp) (by simp) (by simp)) writeCall_written rfl⟩

/-- Out of the idle queue, the call part written, the entry bound. -/
theorem enterOutSeized_effect {n r owner loser w} (h : freeWay (s.index.get (setOf r)) = some w) :
    CallWritten n (outSeizedCall (s.config n) r loser) s (s.enterOutSeized n r owner loser) ∧
    Marked n s (s.enterOutSeized n r owner loser) ∧ LeftIdle n s (s.enterOutSeized n r owner loser) ∧
    Bound ⟨r, n, owner⟩ s (s.enterOutSeized n r owner loser) ∧
    s.enterOutSeized n r owner loser = { s with
      channels := (s.enterOutSeized n r owner loser).channels, groups := (s.enterOutSeized n r owner loser).groups
      index := (s.enterOutSeized n r owner loser).index, link := (s.enterOutSeized n r owner loser).link } := by
  have k : SameCodes s (s.leaveIdle n) := leaveIdle_sameCodes
  have c : (s.leaveIdle n).config n = s.config n := k.config_eq (by unfold equipment channel; simp)
  have w1 : CallWritten n (outSeizedCall (s.config n) r loser) s (s.enterOutSeized n r owner loser) := by
    refine State.CallWritten.of_channels (t := (s.leaveIdle n).writeCall n (outSeizedCall (s.config n) r loser)) ?_ ?_
    · exact writeCall_written.after (by simp)
    · unfold enterOutSeized
      rw [bind_channels]
      rfl
  refine ⟨w1, ?_, ?_, ?_, ?_⟩
  · refine .of_writeCall k (by simp) (by simp) ?_ w1 ?_
    · exact k.trans (.of_groups (by unfold enterOutSeized; simp) (by simp) (by simp))
    · unfold enterOutSeized
      rw [bind_link]
      rfl
  · exact leaveIdle_left.of_groups (by unfold enterOutSeized; simp)
  · refine (bind_bound (s := (s.leaveIdle n).writeCall n (outSeizedCall (s.config n) r loser)) (e := ⟨r, n, owner⟩)
      (w := w) (by simpa using h)).congr (by simp) ?_
    rfl
  · apply State.eq_of_fields <;> first | rfl | simp

theorem moveCursor_group {g n h} {c : GroupConfig} (hc : (s.group g).config = some c) :
    (s.moveCursor g n).group h = { s.group h with cursor := if h = g ∧ c.policy = .rotate then some n else (s.group h).cursor } := by
  unfold moveCursor
  rw [group_modGroup]
  by_cases e : h = g
  · subst e
    rw [if_pos rfl]
    by_cases k : c.policy = .rotate
    · simp [k, hc]
    · rw [hc]
      simp only [k, if_false, and_false]
  · simp [e]

/-- A hunt's seizure, with the rotate cursor (R44, R46). -/
theorem seizeChosen_effect {g n r owner loser w} {c : GroupConfig} (hc : (s.group g).config = some c)
    (h : freeWay (s.index.get (setOf r)) = some w) :
    CallWritten n (outSeizedCall (s.config n) r loser) s (s.seizeChosen g n r owner loser) ∧
    Marked n s (s.seizeChosen g n r owner loser) ∧
    Bound ⟨r, n, owner⟩ s (s.seizeChosen g n r owner loser) ∧
    (∀ h, (s.seizeChosen g n r owner loser).group h = { s.group h with
        idle := if s.groupOf n = some h then (s.group h).idle.filter (· ≠ n) else (s.group h).idle
        cursor := if h = g ∧ c.policy = .rotate then some n else (s.group h).cursor }) ∧
    s.seizeChosen g n r owner loser = { s with
      channels := (s.seizeChosen g n r owner loser).channels, groups := (s.seizeChosen g n r owner loser).groups
      index := (s.seizeChosen g n r owner loser).index, link := (s.seizeChosen g n r owner loser).link } := by
  obtain ⟨w1, m, l, b, e⟩ := enterOutSeized_effect (s := s) (n := n) (owner := owner) (loser := loser) h
  unfold seizeChosen
  generalize s.enterOutSeized n r owner loser = t at *
  have hc' : (t.group g).config = some c := by rw [l g]; exact hc
  have w2 : CallWritten n (outSeizedCall (s.config n) r loser) s (t.moveCursor g n) := w1.of_channels rfl
  refine ⟨w2, ?_, b.congr rfl rfl, fun h => ?_, ?_⟩
  · have sc : SameCodes t (t.moveCursor g n) := ⟨rfl, rfl, fun k => by rw [moveCursor_group hc']⟩
    unfold Marked at m ⊢
    have : (t.moveCursor g n).presentCode n = t.presentCode n := by
      unfold presentCode
      exact sc.codeFor_eq rfl
    rw [this]; exact m
  · rw [moveCursor_group hc', l h]
  · rw [e]; rfl

/-- An entry that ends what the channel held: out of the idle queue, its reference unbound, the call part written. -/
theorem endCall_effect {n c} :
    CallWritten n c s (((s.leaveIdle n).unbindCall n).writeCall n c) ∧
    Marked n s (((s.leaveIdle n).unbindCall n).writeCall n c) ∧
    LeftIdle n s (((s.leaveIdle n).unbindCall n).writeCall n c) ∧
    Freed (s.call n).reference s (((s.leaveIdle n).unbindCall n).writeCall n c) ∧
    ((s.leaveIdle n).unbindCall n).writeCall n c = { s with
      channels := (((s.leaveIdle n).unbindCall n).writeCall n c).channels
      groups := (((s.leaveIdle n).unbindCall n).writeCall n c).groups
      index := (((s.leaveIdle n).unbindCall n).writeCall n c).index
      link := (((s.leaveIdle n).unbindCall n).writeCall n c).link } := by
  have k : SameCodes s ((s.leaveIdle n).unbindCall n) :=
    (leaveIdle_sameCodes (n := n)).trans (.of_groups (by simp) (by simp) (by simp))
  have w : CallWritten n c s (((s.leaveIdle n).unbindCall n).writeCall n c) := writeCall_written.after (by simp)
  refine ⟨w, .of_writeCall k (by simp) (by simp) (k.trans (.of_groups (by simp) (by simp) (by simp))) w rfl,
    leaveIdle_left.of_groups (by simp), ?_, ?_⟩
  · have e : ((s.leaveIdle n).call n).reference = (s.call n).reference := by unfold call channel; simp
    have := unbindCall_freed (s := s.leaveIdle n) (n := n)
    rw [e] at this
    exact this.congr (by simp) (by simp)
  · apply State.eq_of_fields <;> first | rfl | simp

theorem endCall_config {n} : ((s.leaveIdle n).unbindCall n).config n = s.config n :=
  ((leaveIdle_sameCodes (n := n)).trans (.of_groups (by simp) (by simp) (by simp))).config_eq (by unfold equipment channel; simp)

theorem enterGuard_eq {n f} :
    s.enterGuard n f = ((s.leaveIdle n).unbindCall n).writeCall n (guardCall (s.config n) f) := rfl

theorem enterBlocked_eq {n f} : s.enterBlocked n f = ((s.leaveIdle n).unbindCall n).writeCall n (blockedCall f) := rfl

theorem enterFault_eq {n x f} : s.enterFault n x f = ((s.leaveIdle n).unbindCall n).writeCall n (faultCall x f) := rfl

/-- Entry to IN_SEIZED: out of the idle queue, the call part written, OFFERED for the maintenance port. -/
theorem enterInSeized_effect {n f} :
    CallWritten n (inSeizedCall (s.config n) f) s (s.enterInSeized n f) ∧ Marked n s (s.enterInSeized n f) ∧
    LeftIdle n s (s.enterInSeized n f) ∧
    Told [((s.config n).maintenance, .channel n, .channel .offered)] s (s.enterInSeized n f) ∧
    s.enterInSeized n f = { s with
      channels := (s.enterInSeized n f).channels, groups := (s.enterInSeized n f).groups
      link := (s.enterInSeized n f).link, lists := (s.enterInSeized n f).lists } := by
  have k : SameCodes s (s.leaveIdle n) := leaveIdle_sameCodes
  have w : CallWritten n (inSeizedCall (s.config n) f) s
      ((s.leaveIdle n).writeCall n (inSeizedCall (s.config n) f)) := writeCall_written.after (by simp)
  have k2 : SameCodes s ((s.leaveIdle n).writeCall n (inSeizedCall (s.config n) f)) :=
    k.trans (.of_groups (by simp) (by simp) (by simp))
  have m : (((s.leaveIdle n).writeCall n (inSeizedCall (s.config n) f)).config n).maintenance =
      (s.config n).maintenance := by
    rw [k2.config_eq (w.equipment_eq n)]
  have e : s.enterInSeized n f =
      State.tell (s.config n).maintenance n .offered ((s.leaveIdle n).writeCall n (inSeizedCall (s.config n) f)) := by
    rw [← m]
    rfl
  rw [e]
  refine ⟨w.of_channels (by simp), .of_writeCall k (by simp) (by simp)
    (k2.trans (.of_groups (by simp) (by simp) (by simp))) (w.of_channels (by simp)) (by simp), leaveIdle_left.of_groups (by simp),
    (told_nil (by simp)).tell, ?_⟩
  apply State.eq_of_fields <;> first | rfl | simp

/-! ## A call part with no bit in error -/

theorem checkCall_clean {n w} (h : (s.channel n).errors = []) : s.checkCall n w = (s, true) := by
  unfold checkCall
  rw [h]

theorem checked_clean {n w} {go : State → State} (h : (s.channel n).errors = []) : s.checked n w go = go s := by
  unfold checked
  rw [checkCall_clean h]

theorem checkedRule_clean {n w rule} (h : (s.channel n).errors = []) : checkedRule n w rule s = rule s := by
  unfold checkedRule
  rw [checkCall_clean h]

/-! ## A request that is admitted and completes in its own event -/

/-- The state in which an admitted request's rule runs differs from the one before it in the characters on SDO and the
drawn counter alone; the answer then goes to the port. -/
theorem answered_event {p tag code body permitted rule status answer} {v : State} (h : s.Admits p)
    (hp : permitted (s.driveSdo p (4 + body.length)) = true) (hl : body.length = bodyLength code)
    (hr : rule (s.driveSdo p (4 + body.length)) = (v, ⟨status, answer⟩)) :
    event (serve p tag code body permitted (answering p tag rule)) s = s.built (v.respond p tag status answer) := by
  apply event_built
  rw [serve_admitted h hp hl]
  unfold answering
  rw [hr]

theorem driveSdo_form {p k} : ∃ ports count, s.driveSdo p k = { s with ports := ports, freeCount := count } :=
  ⟨_, _, driveSdo_eq⟩

/-- The answer at the port, where the rule left the ports as it found them. -/
theorem answered_of_ports {p k tag status body} (hb : status = .ok ∨ body = [])
    (hv : v.ports = (s.driveSdo p k).ports) :
    Answered p tag status body s (v.respond p tag status body) := by
  have := respond_answered (s := s) (p := p) (k := k) (tag := tag) hb
  have e : ∀ q, (v.respond p tag status body).port q =
      ((s.driveSdo p k).respond p tag status body).port q := fun q => by
    unfold State.respond
    rw [port_modPort, port_modPort]
    unfold State.port
    rw [hv]
  exact ⟨by rw [e]; exact this.1, fun q hq => by rw [e]; exact this.2 q hq⟩

/-! ## The state in which a request's rule runs -/

/-- The state d is s but for the ports and the drawn counter. -/
def Driven (s d : State) : Prop := ∃ ports count, d = { s with ports := ports, freeCount := count }

namespace Driven

variable {d : State}

theorem channels (h : Driven s d) : d.channels = s.channels := by obtain ⟨_, _, rfl⟩ := h; rfl
theorem profiles (h : Driven s d) : d.profiles = s.profiles := by obtain ⟨_, _, rfl⟩ := h; rfl
theorem groups (h : Driven s d) : d.groups = s.groups := by obtain ⟨_, _, rfl⟩ := h; rfl
theorem spans (h : Driven s d) : d.spans = s.spans := by obtain ⟨_, _, rfl⟩ := h; rfl
theorem index (h : Driven s d) : d.index = s.index := by obtain ⟨_, _, rfl⟩ := h; rfl
theorem purge (h : Driven s d) : d.purge = s.purge := by obtain ⟨_, _, rfl⟩ := h; rfl
theorem lists (h : Driven s d) : d.lists = s.lists := by obtain ⟨_, _, rfl⟩ := h; rfl
theorem transfer (h : Driven s d) : d.transfer = s.transfer := by obtain ⟨_, _, rfl⟩ := h; rfl
theorem faults (h : Driven s d) : d.faults = s.faults := by obtain ⟨_, _, rfl⟩ := h; rfl
theorem scrub (h : Driven s d) : d.scrub = s.scrub := by obtain ⟨_, _, rfl⟩ := h; rfl
theorem link (h : Driven s d) : d.link = s.link := by obtain ⟨_, _, rfl⟩ := h; rfl
theorem restart (h : Driven s d) : d.restart = s.restart := by obtain ⟨_, _, rfl⟩ := h; rfl
theorem millis (h : Driven s d) : d.millis = s.millis := by obtain ⟨_, _, rfl⟩ := h; rfl
theorem rstN (h : Driven s d) : d.rstN = s.rstN := by obtain ⟨_, _, rfl⟩ := h; rfl
theorem pending (h : Driven s d) : d.pending = s.pending := by obtain ⟨_, _, rfl⟩ := h; rfl

theorem channel (h : Driven s d) (n) : d.channel n = s.channel n := by unfold State.channel; rw [h.channels]
theorem call (h : Driven s d) (n) : d.call n = s.call n := by unfold State.call; rw [h.channel]
theorem line (h : Driven s d) (n) : d.line n = s.line n := by unfold State.line; rw [h.channel]
theorem equipment (h : Driven s d) (n) : d.equipment n = s.equipment n := by unfold State.equipment; rw [h.channel]
theorem group (h : Driven s d) (g) : d.group g = s.group g := by unfold State.group; rw [h.groups]
theorem span (h : Driven s d) (sp) : d.span sp = s.span sp := by unfold State.span; rw [h.spans]
theorem list (h : Driven s d) (p) : d.list p = s.list p := by unfold State.list; rw [h.lists]
theorem groupOf (h : Driven s d) (n) : d.groupOf n = s.groupOf n := by unfold State.groupOf; rw [h.equipment]
theorem equipped (h : Driven s d) (n) : d.equipped n = s.equipped n := by unfold State.equipped; rw [h.groupOf]
theorem sameCodes (h : Driven s d) : SameCodes s d := .of_groups h.groups h.spans h.profiles
theorem config (h : Driven s d) (n) : d.config n = s.config n := h.sameCodes.config_eq (h.equipment n)
theorem entryOf (h : Driven s d) (r) : d.entryOf r = s.entryOf r := by unfold State.entryOf; rw [h.index]
theorem ownerOf (h : Driven s d) (n) : d.ownerOf n = s.ownerOf n := by
  unfold State.ownerOf
  rw [h.call]
  split
  · rw [h.entryOf]
  · rfl

theorem callPort (h : Driven s d) (n) : d.callPort n = s.callPort n := by
  unfold State.callPort
  rw [h.ownerOf, h.config]

theorem purgePending (h : Driven s d) (n) : d.purgePending n = s.purgePending n := by
  unfold State.purgePending
  rw [h.purge]

theorem referenceRefusal (h : Driven s d) (r) : d.referenceRefusal r = s.referenceRefusal r := by
  unfold State.referenceRefusal
  rw [h.entryOf, h.index]

theorem chosen (h : Driven s d) (g) : d.chosen g = s.chosen g := by
  obtain ⟨_, _, rfl⟩ := h
  rfl

theorem resolveTarget (h : Driven s d) (target) :
    Sys2Proof.Machine.resolveTarget d target = Sys2Proof.Machine.resolveTarget s target := by
  cases target <;>
    simp only [Sys2Proof.Machine.resolveTarget, Sys2Proof.Machine.lookup, h.equipped, h.entryOf, h.purgePending]

theorem resolveQuery (h : Driven s d) (target) :
    Sys2Proof.Machine.resolveQuery d target = Sys2Proof.Machine.resolveQuery s target := by
  cases target <;> simp only [Sys2Proof.Machine.resolveQuery, Sys2Proof.Machine.lookup, h.entryOf, h.purgePending]

theorem redirect (h : Driven s d) (p) : d.redirect p = s.redirect p := by
  unfold State.redirect
  rw [h.transfer]

theorem written (h : Driven s d) {n c} (k : CallWritten n c d u) : CallWritten n c s u := k.after h.channels
theorem marked (h : Driven s d) {n} (k : Marked n d u) : Marked n s u := k.after h.channels h.link h.sameCodes
theorem bound (h : Driven s d) {e} (k : Bound e d u) : Bound e s u := k.congr h.index.symm rfl
theorem freed (h : Driven s d) {r} (k : Freed r d u) : Freed r s u := k.congr h.index.symm rfl
theorem told (h : Driven s d) {adds} (k : Told adds d u) : Told adds s u := k.after h.lists
theorem left (h : Driven s d) {n} (k : LeftIdle n d u) : LeftIdle n s u := fun g => by
  rw [k g, h.group, h.groupOf]

theorem reported (h : Driven s d) {l} (k : Reported l d u) : Reported l s u := by
  unfold Reported at k ⊢
  rw [k, h.faults]

end Driven

/-- An admitted request that its rule accepts: the state that its event leaves is the rule's own, with the answer at the
port. What the rule leaves is said of the state before the event, but for SDO and the drawn counter. -/
theorem request_completes {p tag code body permitted rule status answer} {Q : State → Prop} (h : s.Admits p)
    (hp : ∀ d, (d.port p).admin = (s.port p).admin → d.groups = s.groups → d.channels = s.channels →
      permitted d = true)
    (hl : body.length = bodyLength code) (hb : status = .ok ∨ answer = [])
    (main : ∀ d, Driven s d → ∃ v, rule d = (v, ⟨status, answer⟩) ∧ v.ports = d.ports ∧ Q v) :
    ∃ v u, event (serve p tag code body permitted (answering p tag rule)) s = s.built u ∧
      Answered p tag status answer s u ∧ Q v ∧ u = { v with ports := u.ports } := by
  obtain ⟨v, hv, hvp, hq⟩ := main (s.driveSdo p (4 + body.length)) driveSdo_form
  obtain ⟨sdo, hpp⟩ := driveSdo_port (s := s) (p := p) (k := 4 + body.length)
  refine ⟨v, v.respond p tag status answer, answered_event h ?_ hl ?_,
    answered_of_ports (k := 4 + body.length) hb ?_, hq, rfl⟩
  · exact hp _ (by rw [hpp]) (by simp) (by simp)
  · exact hv
  · exact hvp

/-- An admitted request that its rule refuses. -/
theorem request_refused {p tag code body permitted rule status} (h : s.Admits p)
    (hp : ∀ d, (d.port p).admin = (s.port p).admin → d.groups = s.groups → d.channels = s.channels →
      permitted d = true)
    (hl : body.length = bodyLength code) (main : ∀ d, Driven s d → rule d = refuse status d) :
    ∃ u, event (serve p tag code body permitted (answering p tag rule)) s = u ∧ Refused p tag status s u := by
  obtain ⟨sdo, hpp⟩ := driveSdo_port (s := s) (p := p) (k := 4 + body.length)
  have e := answered_event (tag := tag) (rule := rule) (status := status) (answer := [])
    (v := s.driveSdo p (4 + body.length)) h (hp _ (by rw [hpp]) (by simp) (by simp)) hl (main _ driveSdo_form)
  rw [built_quiet (by simp) (by simp)] at e
  exact ⟨_, e, respond_refused⟩

/-- The whole of a state that a rule leaves, from the state in which it ran. -/
theorem Driven.settle {d : State} (h : Driven s d) :
    d.profiles = s.profiles ∧ d.spans = s.spans ∧ d.purge = s.purge ∧ d.transfer = s.transfer ∧ d.scrub = s.scrub ∧
    d.restart = s.restart ∧ d.millis = s.millis ∧ d.rstN = s.rstN ∧ d.pending = s.pending :=
  ⟨h.profiles, h.spans, h.purge, h.transfer, h.scrub, h.restart, h.millis, h.rstN, h.pending⟩

/-! ## A condition change (R22, R23, R27, R28) -/

theorem adopted_eq {n x} : s.adopted n x = ((s.modSpan (spanOf n) fun r =>
    { r with handed := r.handed.set (positionOf n) none }).setLine n ⟨some x, none, 0, some (s.meaning n x)⟩) := rfl

theorem takeCode_adopts {n x d} (h : (s.line n).stable ≠ some x)
    (a : (s.line n).candidate = some x ∧ (s.line n).count + 1 = d ∨ (s.line n).candidate ≠ some x ∧ d = 1) :
    s.takeCode n x d = s.adopt n x := by
  unfold takeCode
  dsimp only
  rw [if_neg h]
  rcases a with ⟨a, b⟩ | ⟨a, b⟩
  · rw [if_pos a, if_pos b]
  · rw [if_neg a, if_pos b]

/-- The code is taken out of the waiting ones, and adopted. -/
theorem integrate_adopts {n x} (h : s.Adopts n x) : s.integrate n =
    (s.modSpan (spanOf n) fun r => { r with handed := r.handed.set (positionOf n) none }).adopt n x := by
  obtain ⟨h1, h2, c, h3, h4⟩ := h
  unfold integrate
  rw [h1, h3]
  exact takeCode_adopts h2 h4

/-- An adoption that raises a condition change hands it to the call part, which is checked first. -/
theorem integrate_raises {n x r} (h : s.Raises n x r) :
    s.integrate n = (s.adopted n x).checked n none fun u => u.conditionChange n r := by
  obtain ⟨h1, h2, h3, h5⟩ := h
  rw [integrate_adopts h1]
  set t := s.modSpan (spanOf n) fun r => { r with handed := r.handed.set (positionOf n) none } with ht
  have e : t.equipped n = true := h2
  have m : t.meaning n x = r := h3
  have l : t.line n = s.line n := rfl
  have raises : raisesChange (t.line n).received r = true := by
    unfold raisesChange
    rw [l]
    rcases h5 with ⟨h5, h6⟩ | ⟨old, h5, h6⟩
    · rw [h5]; simp [h6]
    · rw [h5]; simpa [bne_iff_ne] using fun e => h6 e.symm
  unfold adopt
  dsimp only
  rw [if_pos e, m, if_pos raises]
  unfold adopted
  rw [h3]
  rfl

theorem integrate_brings {n x r} (h : s.Brings n x r) : s.integrate n = (s.adopted n x).conditionChange n r := by
  rw [integrate_raises h.1, checked_clean]
  show ((s.channels.update n _).get n).errors = []
  rw [Table.get_update, if_pos rfl]
  exact h.2

/-! ## The drain completion check (R51) -/

theorem outOfUse_eq {n} (h : t.channels = s.channels) : t.outOfUse n = s.outOfUse n := by
  unfold outOfUse seenCall channel
  rw [h]

theorem State.Told.notify {adds p o r} (h : Told adds s t) : Told (adds ++ [(p, o, r)]) s (t.notify p o r) := by
  intro q
  have := h q
  rw [list_notify, List.foldl_append, ← this]
  simp only [List.foldl_cons, List.foldl_nil]
  by_cases e : q = p
  · subst e; simp
  · have : ¬ p = q := fun x => e x.symm
    simp [e, this]

theorem State.Told.append {adds more} (h : Told adds s t) (k : Told more t u) : Told (adds ++ more) s u := by
  intro q
  rw [k q, h q, List.foldl_append]

/-- After an entry that took the channel out of its idle queue, the check sets drain reported and adds DRAINED exactly
where the drain ends. -/
theorem drainCheckOf_effect {n} (l : LeftIdle n s t) (g : t.groupOf n = s.groupOf n) :
    LeftIdleChecked n s (t.drainCheckOf n) ∧ Told (drainAdds n s (t.drainCheckOf n)) t (t.drainCheckOf n) ∧
    t.drainCheckOf n = { t with groups := (t.drainCheckOf n).groups, lists := (t.drainCheckOf n).lists } := by
  have oo : ∀ m, (t.drainCheckOf n).outOfUse m = t.outOfUse m := fun m => outOfUse_eq (by simp)
  cases hg : s.groupOf n with
  | none =>
    have e : t.drainCheckOf n = t := by unfold drainCheckOf; rw [g, hg]
    have d : drainEnds n s t = none := by unfold drainEnds; rw [hg]
    rw [e]
    refine ⟨fun k => ?_, ?_, rfl⟩
    · rw [l k, d, hg]; simp
    · unfold drainAdds; rw [d]; exact told_nil rfl
  | some k =>
    have e : t.drainCheckOf n = t.drainCheck k := by unfold drainCheckOf; rw [g, hg]
    have gk : t.group k = { s.group k with idle := (s.group k).idle.filter (· ≠ n) } := by
      rw [l k, hg]; simp
    cases hp : (s.group k).drainPort with
    | none =>
      have e2 : t.drainCheck k = t := by unfold drainCheck; rw [gk]; simp only [hp]
      have d : drainEnds n s t = none := by unfold drainEnds; rw [hg]; simp only [hp]
      rw [e, e2]
      refine ⟨fun j => ?_, ?_, rfl⟩
      · rw [l j, d, hg]; simp
      · unfold drainAdds; rw [d]; exact told_nil rfl
    | some q =>
      by_cases c : (!(s.group k).drainReported && (s.group k).members.all (t.outOfUse ·)) = true
      · have e2 : t.drainCheck k =
            (t.modGroup k fun r => { r with drainReported := true }).notify q (.group k) .drained := by
          unfold drainCheck
          rw [gk]
          simp only [hp]
          rw [if_pos (by simpa using c)]
        have d : drainEnds n s (t.drainCheckOf n) = some (k, q) := by
          unfold drainEnds
          rw [hg]
          simp only [hp, oo]
          rw [if_pos c]
        refine ⟨fun j => ?_, ?_, ?_⟩
        · rw [d, e, e2]
          show (t.modGroup k fun r => { r with drainReported := true }).group j = _
          rw [group_modGroup, hg]
          by_cases x : j = k
          · subst x; rw [if_pos rfl, gk]; simp
          · have y : ¬ k = j := fun z => x z.symm
            rw [if_neg x, l j, hg]; simp [y]
        · unfold drainAdds
          rw [d, e, e2]
          exact State.Told.notify (adds := []) (told_nil rfl)
        · rw [e, e2]; rfl
      · have e2 : t.drainCheck k = t := by
          unfold drainCheck
          rw [gk]
          simp only [hp]
          rw [if_neg (by simpa using c)]
        have d : drainEnds n s t = none := by
          unfold drainEnds
          rw [hg]
          simp only [hp]
          rw [if_neg c]
        rw [e, e2]
        refine ⟨fun j => ?_, ?_, rfl⟩
        · rw [l j, d, hg]; simp
        · unfold drainAdds; rw [d]; exact told_nil rfl

theorem State.CallWritten.groupOf_eq {n c} (h : CallWritten n c s u) (m) : u.groupOf m = s.groupOf m := by
  unfold groupOf
  rw [State.CallWritten.equipment_eq h]

end Sys2Proof.Machine
end

