-- ==== Sys2Proof/Laws/Changes.lean ====
section
/-! SUPPORT. A condition change, seen from the state before the code was taken; and the entries that end what a channel
held, with the reasons, the occurrences and the drain check that follow them. -/

namespace Sys2Proof.Machine

set_option Elab.async false

open State

variable {s t u v w : State}

/-! ## The state at a condition change -/

section
variable {n : ChannelNo} {x : LineCode}

theorem exec_brings {r} (h : s.Brings n x r) :
    exec (.positionIntegration n) s = .next (s.built ((s.adopted n x).conditionChange n r)) := by
  rw [exec_positionIntegration, event_built (integrate_brings h)]

theorem lineTaken_channel {l} (m) :
    (s.lineTaken n l).channel m = if m = n then { s.channel n with line := l } else s.channel m := by
  unfold State.channel State.lineTaken
  dsimp only
  rw [Table.get_update]

theorem adopted_call (m) : (s.adopted n x).call m = s.call m := by
  unfold State.call State.adopted
  rw [lineTaken_channel]
  split
  · next e => rw [e]
  · rfl

theorem adopted_equipment (m) : (s.adopted n x).equipment m = s.equipment m := by
  unfold State.equipment State.adopted
  rw [lineTaken_channel]
  split
  · next e => rw [e]
  · rfl

theorem adopted_groupOf (m) : (s.adopted n x).groupOf m = s.groupOf m := by
  unfold State.groupOf
  rw [adopted_equipment]

theorem adopted_config (m) : (s.adopted n x).config m = s.config m := by
  unfold State.config
  rw [adopted_groupOf]
  rfl

theorem adopted_ownerOf (m) : (s.adopted n x).ownerOf m = s.ownerOf m := by
  unfold State.ownerOf
  rw [adopted_call]
  rfl

theorem adopted_callPort (m) : (s.adopted n x).callPort m = s.callPort m := by
  unfold State.callPort
  rw [adopted_config, adopted_ownerOf]

theorem left_of_adopted (h : LeftIdle n (s.adopted n x) u) : LeftIdle n s u := fun g => by
  rw [h g, adopted_groupOf]
  rfl

theorem told_of_adopted {adds} (h : Told adds (s.adopted n x) u) : Told adds s u := h.after rfl

theorem freed_of_adopted {r} (h : Freed r (s.adopted n x) u) : Freed r s u := h.congr rfl rfl

theorem adopted_drainEnds : drainEnds n (s.adopted n x) u = drainEnds n s u := by
  unfold drainEnds
  rw [adopted_groupOf]
  rfl

theorem leftChecked_of_adopted (h : LeftIdleChecked n (s.adopted n x) u) : LeftIdleChecked n s u := fun g => by
  rw [h g, adopted_groupOf, adopted_drainEnds]
  rfl

theorem adopted_drainAdds : drainAdds n (s.adopted n x) u = drainAdds n s u := by
  unfold drainAdds
  rw [adopted_drainEnds]

end

/-! ## Entries that end what a channel held -/

/-- Reasons and occurrences that follow leave the rest of such an entry as it is. -/
theorem endCall_told {n c}
    (hv : v = { ((w.leaveIdle n).unbindCall n).writeCall n c with lists := v.lists, faults := v.faults }) :
    CallWritten n c w v ∧ Marked n w v ∧ LeftIdle n w v ∧ Freed (w.call n).reference w v ∧
    v = { w with channels := v.channels, groups := v.groups, index := v.index, link := v.link, lists := v.lists, faults := v.faults } := by
  obtain ⟨a, m, l, fr, fm⟩ := endCall_effect (s := w) (n := n) (c := c)
  generalize ((w.leaveIdle n).unbindCall n).writeCall n c = b at *
  have ch : ∀ m, v.channel m = b.channel m := by intro m; unfold State.channel; rw [hv]
  refine ⟨a.of_channels (by rw [hv]), ?_, l.of_groups (by rw [hv]), fr.congr rfl (by rw [hv]), by rw [hv, fm]⟩
  unfold Marked at m ⊢
  have : v.presentCode n = b.presentCode n := by
    have sc : SameCodes b v := .of_groups (by rw [hv]) (by rw [hv]) (by rw [hv])
    unfold presentCode
    have : v.call n = b.call n := by unfold State.call; rw [ch]
    rw [this]
    exact sc.codeFor_eq (by unfold State.equipment; rw [ch])
  rw [this, ← m, hv]

/-- The drain completion check after such an entry. -/
theorem endCall_checked {n c adds}
    (hv : v = { ((w.leaveIdle n).unbindCall n).writeCall n c with lists := v.lists, faults := v.faults })
    (ht : Told adds w v) :
    CallWritten n c w (v.drainCheckOf n) ∧ Marked n w (v.drainCheckOf n) ∧ LeftIdleChecked n w (v.drainCheckOf n) ∧
    Freed (w.call n).reference w (v.drainCheckOf n) ∧
    Told (adds ++ drainAdds n w (v.drainCheckOf n)) w (v.drainCheckOf n) ∧
    (v.drainCheckOf n).faults = v.faults ∧
    v.drainCheckOf n = { w with channels := (v.drainCheckOf n).channels, groups := (v.drainCheckOf n).groups, index := (v.drainCheckOf n).index, link := (v.drainCheckOf n).link, lists := (v.drainCheckOf n).lists, faults := (v.drainCheckOf n).faults } := by
  obtain ⟨a, m, l, fr, fm⟩ := endCall_told hv
  obtain ⟨d1, d2, d3⟩ := drainCheckOf_effect (s := w) (t := v) l (a.groupOf_eq n)
  refine ⟨a.of_channels (by simp), ?_, d1, fr.congr rfl (by rw [d3]), ht.append d2, by rw [d3], ?_⟩
  · unfold Marked at m ⊢
    have : (v.drainCheckOf n).presentCode n = v.presentCode n := by
      have sc : SameCodes v (v.drainCheckOf n) := ⟨by rw [d3], by rw [d3], fun g => by rw [d1 g, l g]⟩
      unfold presentCode
      have ch : ∀ m, (v.drainCheckOf n).channel m = v.channel m := by intro m; unfold State.channel; rw [d3]
      have : (v.drainCheckOf n).call n = v.call n := by unfold State.call; rw [ch]
      rw [this]
      exact sc.codeFor_eq (by unfold State.equipment; rw [ch])
    rw [this, d3]
    exact m
  · rw [d3, fm]

/-- The configuration of the channel's group is read alike before and after such an entry. -/
theorem endCall_written_config {n c} : (((w.leaveIdle n).unbindCall n).writeCall n c).config n = w.config n := by
  have := endCall_effect (s := w) (n := n) (c := c)
  exact SameCodes.config_eq ⟨by simp, by simp, fun g => by rw [this.2.2.1 g]⟩ (this.1.equipment_eq n)

theorem endCall_lists {n c} : (((w.leaveIdle n).unbindCall n).writeCall n c).lists = w.lists := by simp

theorem endCall_faults {n c} : (((w.leaveIdle n).unbindCall n).writeCall n c).faults = w.faults := by simp

end Sys2Proof.Machine
end

