-- ==== Sys2Proof/Laws/Apart.lean ====
section
/-! SUPPORT. The shared operations neither read nor write the ports and the drawn counter, so what a request's rule leaves
is said of the state before its event. -/

namespace Sys2Proof.Machine

set_option Elab.async false

open State

/-- The state with other ports and another drawn counter. -/
def withPorts (P : Table PortRecord 4) (c : Nat) (s : State) : State := { s with ports := P, freeCount := c }

variable {s t u : State} {P : Table PortRecord 4} {c : Nat} {n : ChannelNo}

namespace State

theorem setCall_withPorts {x} : (withPorts P c s).setCall n x = withPorts P c (s.setCall n x) := rfl
theorem setLine_withPorts {x} : (withPorts P c s).setLine n x = withPorts P c (s.setLine n x) := rfl
theorem modGroup_withPorts {g f} : (withPorts P c s).modGroup g f = withPorts P c (s.modGroup g f) := rfl
theorem tell_withPorts {p r} : (withPorts P c s).tell p n r = withPorts P c (s.tell p n r) := rfl
theorem notify_withPorts {p o r} : (withPorts P c s).notify p o r = withPorts P c (s.notify p o r) := rfl
theorem tellMaintenance_withPorts {r} :
    (withPorts P c s).tellMaintenance n r = withPorts P c (s.tellMaintenance n r) := rfl
theorem reportChannel_withPorts {x} : (withPorts P c s).reportChannel x n = withPorts P c (s.reportChannel x n) := rfl

theorem markDirty_withPorts : (withPorts P c s).markDirty n = withPorts P c (s.markDirty n) := by
  unfold markDirty
  have e : ((withPorts P c s).span (spanOf n)).config = (s.span (spanOf n)).config := rfl
  rw [e]
  cases (s.span (spanOf n)).config with
  | none => rfl
  | some d => dsimp only; split <;> rfl

theorem markIfChanged_withPorts {x} : (withPorts P c s).markIfChanged n x = withPorts P c (s.markIfChanged n x) := by
  unfold markIfChanged
  rw [markDirty_withPorts]
  have e : (withPorts P c s).presentCode n = s.presentCode n := rfl
  rw [e]
  split <;> rfl

theorem writeCall_withPorts {x} : (withPorts P c s).writeCall n x = withPorts P c (s.writeCall n x) := by
  unfold writeCall
  rw [setCall_withPorts, markIfChanged_withPorts]
  rfl

theorem leaveIdle_withPorts : (withPorts P c s).leaveIdle n = withPorts P c (s.leaveIdle n) := by
  unfold leaveIdle
  have e : (withPorts P c s).groupOf n = s.groupOf n := rfl
  rw [e]
  cases s.groupOf n <;> rfl

theorem joinIdle_withPorts : (withPorts P c s).joinIdle n = withPorts P c (s.joinIdle n) := by
  unfold joinIdle
  have e : (withPorts P c s).groupOf n = s.groupOf n := rfl
  rw [e]
  cases s.groupOf n <;> rfl

theorem unbindCall_withPorts : (withPorts P c s).unbindCall n = withPorts P c (s.unbindCall n) := by
  unfold unbindCall
  have e : (withPorts P c s).call n = s.call n := rfl
  rw [e]
  cases (s.call n).reference <;> rfl

theorem drainCheck_withPorts {g} : (withPorts P c s).drainCheck g = withPorts P c (s.drainCheck g) := by
  unfold drainCheck
  have e : (withPorts P c s).group g = s.group g := rfl
  have o : (withPorts P c s).outOfUse = s.outOfUse := rfl
  rw [e, o]
  cases (s.group g).drainPort with
  | none => rfl
  | some q => dsimp only; split <;> rfl

theorem drainCheckOf_withPorts : (withPorts P c s).drainCheckOf n = withPorts P c (s.drainCheckOf n) := by
  unfold drainCheckOf
  simp only [drainCheck_withPorts]
  have e : (withPorts P c s).groupOf n = s.groupOf n := rfl
  rw [e]
  cases s.groupOf n <;> rfl

theorem enterGuard_withPorts {f} : (withPorts P c s).enterGuard n f = withPorts P c (s.enterGuard n f) := by
  unfold enterGuard
  rw [leaveIdle_withPorts, unbindCall_withPorts, writeCall_withPorts]; rfl

theorem enterBlocked_withPorts {f} : (withPorts P c s).enterBlocked n f = withPorts P c (s.enterBlocked n f) := by
  unfold enterBlocked
  rw [leaveIdle_withPorts, unbindCall_withPorts, writeCall_withPorts]

theorem enterInSeized_withPorts {f} : (withPorts P c s).enterInSeized n f = withPorts P c (s.enterInSeized n f) := by
  unfold enterInSeized
  rw [leaveIdle_withPorts, writeCall_withPorts, tellMaintenance_withPorts]; rfl

theorem enterIdle_withPorts : (withPorts P c s).enterIdle n = withPorts P c (s.enterIdle n) := by
  unfold enterIdle
  rw [writeCall_withPorts, joinIdle_withPorts]

theorem writeFlags_withPorts {f} : (withPorts P c s).writeFlags n f = withPorts P c (s.writeFlags n f) := by
  unfold writeFlags
  rw [writeCall_withPorts]; rfl

theorem blockByCondition_withPorts {f} :
    (withPorts P c s).blockByCondition n f = withPorts P c (s.blockByCondition n f) := by
  unfold blockByCondition
  dsimp only
  rw [enterBlocked_withPorts, tellMaintenance_withPorts]
  have : (withPorts P c s).receivesBlock n = s.receivesBlock n := rfl
  rw [this, ← drainCheckOf_withPorts]
  congr 1
  split <;> rfl

theorem settle_withPorts : (withPorts P c s).settle n = withPorts P c (s.settle n) := by
  unfold settle
  dsimp only
  rw [blockByCondition_withPorts, reportChannel_withPorts, enterIdle_withPorts, enterIdle_withPorts, enterInSeized_withPorts]
  have a : (withPorts P c s).receivesBlock n = s.receivesBlock n := rfl
  have b : (withPorts P c s).call n = s.call n := rfl
  have d : (withPorts P c s).line n = s.line n := rfl
  have e : (withPorts P c s).equipment n = s.equipment n := rfl
  rw [a, b, d, e]
  split
  · rfl
  · split
    · split <;> rfl
    · rfl

theorem liftFlag_withPorts {f} : (withPorts P c s).liftFlag n f = withPorts P c (s.liftFlag n f) := by
  unfold liftFlag
  rw [writeFlags_withPorts, settle_withPorts]
  have e : (withPorts P c s).call n = s.call n := rfl
  rw [e]
  split <;> rfl

theorem blockLocally_withPorts : (withPorts P c s).blockLocally n =
    (withPorts P c (s.blockLocally n).1, (s.blockLocally n).2) := by
  unfold blockLocally
  dsimp only
  rw [writeFlags_withPorts, enterBlocked_withPorts, drainCheckOf_withPorts, blockByCondition_withPorts]
  have e : (withPorts P c s).call n = s.call n := rfl
  rw [e]
  cases (s.call n).state <;> rfl

theorem resetCall_withPorts : (withPorts P c s).resetCall n = withPorts P c (s.resetCall n) := by
  unfold resetCall
  simp only [enterGuard_withPorts, tell_withPorts]
  have e : (withPorts P c s).call n = s.call n := rfl
  have k : (withPorts P c s).callPort n = s.callPort n := rfl
  have d : (withPorts P c s).groupDrains n = s.groupDrains n := rfl
  rw [e, k, d]
  cases (s.call n).state with
  | fault x => cases x <;> rfl
  | _ => rfl

end State

/-- An admitted request whose rule neither reads nor writes the ports: apart from the answer, its event leaves the state
that its rule leaves. -/
theorem request_apart {p tag code body permitted rule status answer} {w : State} (h : s.Admits p)
    (hp : permitted s = true) (hpp : ∀ d, (d.port p).admin = (s.port p).admin → d.groups = s.groups → d.channels = s.channels → permitted d = permitted s)
    (hl : body.length = bodyLength code) (hb : status = .ok ∨ answer = [])
    (hr : ∀ P c, rule (withPorts P c s) = (withPorts P c w, ⟨status, answer⟩))
    (hw : w.ports = s.ports) (hc : w.freeCount = s.freeCount) :
    ∃ u, event (serve p tag code body permitted (answering p tag rule)) s = s.built u ∧
      Answered p tag status answer s u ∧ s.apart u = w := by
  obtain ⟨P, c, hd⟩ := driveSdo_form (s := s) (p := p) (k := 4 + body.length)
  obtain ⟨sdo, hpo⟩ := driveSdo_port (s := s) (p := p) (k := 4 + body.length)
  refine ⟨(withPorts P c w).respond p tag status answer, answered_event h ?_ hl ?_, answered_of_ports (k := 4 + body.length) hb ?_, ?_⟩
  · rw [hpp _ (by rw [hpo]) (by simp) (by simp), hp]
  · rw [hd]; exact hr P c
  · rw [hd]; rfl
  · show { w with ports := s.ports, freeCount := s.freeCount } = w
    rw [← hw, ← hc]

end Sys2Proof.Machine
end

