-- ==== Sys2Proof/Laws/Settling.lean ====
section
/-! SUPPORT. Settling: what a channel that settles leaves, by the case of R90 that holds, also where a flag is lifted
first. -/

namespace Sys2Proof.Machine

set_option Elab.async false

open State
variable {s t u v w : State} {n : ChannelNo}

theorem joinIdle_joined : JoinedIdle n s (s.joinIdle n) := by
  intro g
  unfold joinIdle
  cases hg : s.groupOf n with
  | none => simp
  | some h =>
    rw [group_modGroup]
    by_cases x : g = h
    · subst x; simp
    · have y : ¬ h = g := fun z => x z.symm
      simp [x, y]

theorem joinIdle_eq : s.joinIdle n = { s with groups := (s.joinIdle n).groups } := by
  unfold joinIdle
  cases s.groupOf n <;> rfl

theorem joinIdle_sameCodes : SameCodes s (s.joinIdle n) :=
  ⟨by rw [joinIdle_eq], by rw [joinIdle_eq], fun g => by rw [joinIdle_joined g]⟩

/-- Entry to IDLE: the call part, the mark and the idle queue. -/
theorem enterIdle_effect : CallWritten n idleCall s (s.enterIdle n) ∧ Marked n s (s.enterIdle n) ∧
    JoinedIdle n s (s.enterIdle n) ∧
    s.enterIdle n = { s with
      channels := (s.enterIdle n).channels, groups := (s.enterIdle n).groups, link := (s.enterIdle n).link } := by
  have e : s.enterIdle n = (s.writeCall n idleCall).joinIdle n := rfl
  obtain ⟨a, m⟩ := writeCall_effect (s := s) (n := n) (c := idleCall)
  have f := writeCall_eq (s := s) (n := n) (c := idleCall)
  have go := a.groupOf_eq n
  have gr : ∀ g, (s.writeCall n idleCall).group g = s.group g := fun g => by unfold State.group; rw [f]
  rw [e]
  have j := joinIdle_joined (s := s.writeCall n idleCall) (n := n)
  have k := joinIdle_eq (s := s.writeCall n idleCall) (n := n)
  have sc := joinIdle_sameCodes (s := s.writeCall n idleCall) (n := n)
  generalize s.writeCall n idleCall = x at *
  generalize x.joinIdle n = y at *
  have a' : CallWritten n idleCall s y := a.of_channels (by rw [k])
  refine ⟨a', ?_, fun g => by rw [j g, go, gr], by rw [k, f]⟩
  unfold Marked at m ⊢
  have : y.presentCode n = x.presentCode n := by
    unfold presentCode
    rw [a'.call_eq, a.call_eq]
    exact sc.codeFor_eq (by rw [a'.equipment_eq, a.equipment_eq])
  rw [this, k]
  exact m

theorem blockByCondition_effect {f : BlockFlags} :
    let remote := decide ((s.line n).received = some (.is .block))
    let u := s.blockByCondition n f
    CallWritten n (blockedCall { f with remote := remote }) s u ∧ Marked n s u ∧ LeftIdleChecked n s u ∧
    Freed (s.call n).reference s u ∧
    Told ((if remote && !f.remote then [((s.config n).maintenance, .channel n, .channel .farBlocked)] else []) ++
      drainAdds n s u) s u ∧
    u = { s with channels := u.channels, groups := u.groups, index := u.index, link := u.link, lists := u.lists } := by
  dsimp only
  have e : s.blockByCondition n f =
      ((if s.receivesBlock n && !f.remote then (((s.leaveIdle n).unbindCall n).writeCall n
        (blockedCall { f with remote := s.receivesBlock n })).tell (s.config n).maintenance n .farBlocked
      else ((s.leaveIdle n).unbindCall n).writeCall n (blockedCall { f with remote := s.receivesBlock n }))).drainCheckOf n := by
    unfold blockByCondition tellMaintenance
    simp only [enterBlocked_eq, endCall_written_config]
  have r : s.receivesBlock n = decide ((s.line n).received = some (.is .block)) := rfl
  rw [r] at e
  generalize decide ((s.line n).received = some (.is .block)) = remote at *
  cases hb : remote && !f.remote with
  | true =>
    simp only [hb, if_true] at e ⊢
    obtain ⟨a, m, l, fr, t, ff, fm⟩ := endCall_checked (w := s) (n := n) (c := blockedCall { f with remote := remote })
      (v := (((s.leaveIdle n).unbindCall n).writeCall n (blockedCall { f with remote := remote })).tell (s.config n).maintenance n .farBlocked)
      rfl (Told.tell (told_nil endCall_lists))
    rw [← e] at a m l fr t ff fm
    refine ⟨a, m, l, fr, t, ?_⟩
    have : (s.blockByCondition n f).faults = s.faults := by rw [ff]; exact endCall_faults
    rw [this] at fm
    exact fm
  | false =>
    simp only [hb, if_false, Bool.false_eq_true] at e ⊢
    obtain ⟨a, m, l, fr, t, ff, fm⟩ := endCall_checked (w := s) (n := n) (c := blockedCall { f with remote := remote })
      (v := (((s.leaveIdle n).unbindCall n).writeCall n (blockedCall { f with remote := remote })))
      rfl (told_nil endCall_lists)
    rw [← e] at a m l fr t ff fm
    refine ⟨a, m, l, fr, t, ?_⟩
    have : (s.blockByCondition n f).faults = s.faults := by rw [ff]; exact endCall_faults
    rw [this] at fm
    exact fm

/-- What settling leaves, by the case of R90 that holds. -/
theorem settle_settled : Settled n (s.call n).flags s (s.settle n) := by
  unfold Settled settle
  dsimp only
  have r : s.receivesBlock n = decide ((s.line n).received = some (.is .block)) := rfl
  rw [r]
  split
  · exact blockByCondition_effect
  · next hb =>
    by_cases hz : (s.line n).received = some (.is .seize)
    · simp only [hz, true_and, if_true]
      by_cases d : (s.equipment n).direction = .outgoingOnly
      · simp only [d, ne_eq, not_true_eq_false, if_false, if_true]
        obtain ⟨a, m, j, f⟩ := enterIdle_effect (s := s.reportChannel .sequence n) (n := n)
        refine ⟨a.after rfl, m.after rfl rfl (.of_groups rfl rfl rfl), j, ?_, ?_⟩
        · unfold Reported; rw [f]; rfl
        · conv_lhs => rw [f]
          have : ((s.reportChannel .sequence n).enterIdle n).faults = (s.reportChannel .sequence n).faults := by rw [f]
          rw [this]; rfl
      · simp only [d, ne_eq, not_false_eq_true, if_true, if_false]
        obtain ⟨a, m, l, t, f⟩ := enterInSeized_effect (s := s) (n := n) (f := noFlags)
        exact ⟨a, m, l, t, f⟩
    · simp only [hz, false_and, if_false]
      obtain ⟨a, m, j, f⟩ := enterIdle_effect (s := s) (n := n)
      refine ⟨a, m, j, ?_, ?_⟩
      · unfold Reported; rw [f]; simp
      · conv_lhs => rw [f]
        have : (s.enterIdle n).faults = s.faults := by rw [f]
        rw [this]

theorem markDirty_idem (link : w.link = (s.markDirty n).link) (spans : w.spans = s.spans) :
    (w.markDirty n).link = (s.markDirty n).link := by
  have sp : ∀ k, w.span k = s.span k := fun k => by unfold State.span; rw [spans]
  unfold markDirty at link ⊢
  rw [sp]
  cases h : (s.span (spanOf n)).config with
  | none => rw [h] at link; exact link
  | some d =>
    rw [h] at link
    dsimp only at link ⊢
    split
    · next x =>
      rw [if_pos x] at link
      unfold modLinkSpan at link ⊢
      dsimp only at link ⊢
      rw [link]
      simp only [Table.update_update]
      congr 1
      congr 1
      funext l
      cases l
      congr 1
      exact Table.ext_get fun i => by simp only [Table.get_set]; split <;> rfl
    · next x => rw [if_neg x] at link; exact link

theorem codes_distinct (d : CodesDistinct s) (he : s.equipped n = true) {a b : Condition} (h : a ≠ b) :
    s.codeFor n (.is a) ≠ s.codeFor n (.is b) := by
  unfold codeFor profileCode
  rw [he]
  dsimp only
  intro e
  have := d (s.config n).profile
  rw [List.nodup_iff_injective_get] at this
  have e2 := this e
  have e3 : conditionNo a = conditionNo b := by simpa [Fin.ext_iff] using e2
  revert e3 h
  cases a <;> cases b <;> decide

theorem codes_unequipped (he : s.equipped n = false) {a b : Transmitted} : s.codeFor n a = s.codeFor n b := by
  unfold codeFor; rw [he]

theorem liftFlag_settled (hs : (s.call n).state = .blocked) (ht : (s.call n).transmitted = .is .block)
    (d : CodesDistinct s) : Settled n noFlags s (s.liftFlag n noFlags) := by
  set c1 : CallPart := { s.call n with flags := noFlags, transmitted := .is .free } with hc1
  have W : s.liftFlag n noFlags = (s.writeCall n c1).settle n := by
    unfold liftFlag writeFlags; rw [hs]; simp only [and_self, if_true]; rfl
  rw [W]
  obtain ⟨a, m⟩ := writeCall_effect (s := s) (n := n) (c := c1)
  have f := writeCall_eq (s := s) (n := n) (c := c1)
  have S := settle_settled (s := s.writeCall n c1) (n := n)
  have sc : SameCodes s (s.writeCall n c1) := .of_groups (by rw [f]) (by rw [f]) (by rw [f])
  generalize s.writeCall n c1 = w at *
  generalize w.settle n = u at *
  have cf : w.config n = s.config n := sc.config_eq (a.equipment_eq n)
  have go := a.groupOf_eq n
  have gr : ∀ g, w.group g = s.group g := fun g => by unfold State.group; rw [f]
  have wp : w.presentCode n = s.codeFor n (.is .free) := by
    unfold presentCode; rw [a.call_eq]; exact sc.codeFor_eq (a.equipment_eq n)
  have sp : s.presentCode n = s.codeFor n (.is .block) := by unfold presentCode; rw [ht]
  have mark : ∀ c, CallWritten n c w u → (c.transmitted = .is .free ∨ c.transmitted = .is .proceed) → SameCodes w u → Marked n w u → Marked n s u := by
    intro c k hc sc2 m2
    have up : u.presentCode n = s.codeFor n c.transmitted := by
      unfold presentCode
      rw [k.call_eq]
      rw [sc2.codeFor_eq (k.equipment_eq n)]
      exact sc.codeFor_eq (a.equipment_eq n)
    unfold Marked at m m2 ⊢
    cases he : s.equipped n with
    | false =>
      rw [up, sp, if_pos (codes_unequipped he)]
      rw [wp, sp, if_pos (codes_unequipped he)] at m
      rw [up, wp, if_pos (codes_unequipped he)] at m2
      rw [m2, m]
    | true =>
      rw [wp, sp, if_neg (codes_distinct d he (by decide))] at m
      rw [if_neg]
      · split at m2
        · rw [m2, m]
        · rw [m2]; exact markDirty_idem m (by rw [f])
      · rw [up, sp]
        rcases hc with h|h <;> rw [h]
        · exact codes_distinct d he (by decide)
        · exact codes_distinct d he (by decide)
  have comp : ∀ c, CallWritten n c w u → CallWritten n c s u := by
    intro c k
    refine ⟨?_, fun m hm => by rw [k.2 m hm, a.2 m hm]⟩
    rw [k.1, a.1]
  have left : LeftIdle n w u → LeftIdle n s u := fun l g => by rw [l g, gr, go]
  have de : drainEnds n w u = drainEnds n s u := by unfold drainEnds; rw [go]; simp only [gr]
  have leftc : LeftIdleChecked n w u → LeftIdleChecked n s u := fun l g => by rw [l g, gr, go, de]
  have ix : w.index = s.index := by rw [f]
  have li : w.lists = s.lists := by rw [f]
  have fa : w.faults = s.faults := by rw [f]
  unfold Settled at S ⊢
  rw [a.call_eq, a.line_eq, a.equipment_eq, cf] at S
  dsimp only at S ⊢
  have hf : c1.flags = noFlags := rfl
  have hr : c1.reference = (s.call n).reference := rfl
  have hst : c1.state = (s.call n).state := rfl
  rw [hf, hr, hst] at S
  have da : drainAdds n w u = drainAdds n s u := by unfold drainAdds; rw [de]
  split at S
  · next hh =>
    obtain ⟨k, m2, l, fr, t, fm⟩ := S
    rw [if_pos hh]
    refine ⟨comp _ k, mark _ k ?_ ?_ m2, leftc l, fr.congr ix.symm rfl, ?_, by rw [fm, f]⟩
    · left; rfl
    · exact ⟨by rw [fm], by rw [fm], fun g => by rw [l g]⟩
    · rw [← da]; exact t.after li
  · next hh =>
    rw [if_neg hh]
    split at S
    · next h2 =>
      obtain ⟨k, m2, l, t, fm⟩ := S
      rw [if_pos h2]
      refine ⟨comp _ k, mark _ k (.inr rfl) ⟨by rw [fm], by rw [fm], fun g => by rw [l g]⟩ m2, left l, t.after li, by rw [fm, f]⟩
    · next h2 =>
      obtain ⟨k, m2, l, t, fm⟩ := S
      rw [if_neg h2]
      refine ⟨comp _ k, mark _ k (.inl rfl) ⟨by rw [fm], by rw [fm], fun g => by rw [l g]⟩ m2, fun g => by rw [l g, gr, go], ?_, by rw [fm, f]⟩
      unfold Reported at t ⊢
      rw [t, fa]

end Sys2Proof.Machine
end

