-- ==== Sys2Proof/Laws/Answers.lean ====
section
/-! SUPPORT. Requests with a permission of their own, seen apart from their answers. -/

namespace Sys2Proof.Machine

set_option Elab.async false

open State

theorem writeFlags_other {s : State} {n f} (h : (s.call n).state ≠ .blocked) :
   s.writeFlags n f = { s with channels := (s.writeFlags n f).channels } ∧ CallWritten n { s.call n with flags := f } s (s.writeFlags n f) := by
  have e : s.writeFlags n f = s.writeCall n { s.call n with flags := f } := by unfold writeFlags; rw [if_neg h]
  rw [e]
  refine ⟨?_, writeCall_written⟩
  conv_lhs => rw [writeCall_eq]
  have : (s.writeCall n { s.call n with flags := f }).link = s.link := by
    rw [writeCall_link]; exact if_pos rfl
  rw [this]

theorem apart_ports {s w : State} (h : w =
    {s with channels := w.channels, groups := w.groups, index := w.index, link := w.link, lists := w.lists, faults :=
    w.faults}) : w.ports = s.ports ∧ w.freeCount = s.freeCount := by
  rw [h]; exact ⟨rfl, rfl⟩

theorem permitChannel_stable {s : State} {p body} : ∀ d : State, (d.port p).admin = (s.port p).admin → d.groups =
    s.groups → d.channels = s.channels → permitChannelMaintenance p body d = permitChannelMaintenance p body s := by
  intro d h1 h2 h3
  unfold permitChannelMaintenance channelMaintenance maintenanceOf groupOf equipment channel group
  rw [h1, h2, h3]

theorem permitGroup_stable {s : State} {p body} : ∀ d : State, (d.port p).admin = (s.port p).admin → d.groups =
    s.groups → d.channels = s.channels → permitGroupMaintenance p body d = permitGroupMaintenance p body s := by
  intro d h1 h2 h3
  unfold permitGroupMaintenance groupMaintenance maintenanceOf group
  rw [h1, h2]

theorem atChannel_ok {s : State} {n hi lo rule} (h : channelField hi lo = some n) (he : s.equipped n = true) :
    atChannel rule [hi, lo] s = rule n s := by
  unfold atChannel; simp [h, he]

theorem withPorts_equipped {s : State} {P c n} : (withPorts P c s).equipped n = s.equipped n := rfl

theorem settled_frame {s u : State} {n f} (h : Settled n f s u) : u.ports = s.ports ∧ u.freeCount = s.freeCount := by
  unfold Settled at h; dsimp only at h
  split at h
  · obtain ⟨_, _, _, _, _, e⟩ := h; rw [e]; exact ⟨rfl, rfl⟩
  · split at h
    · obtain ⟨_, _, _, _, e⟩ := h; rw [e]; exact ⟨rfl, rfl⟩
    · obtain ⟨_, _, _, _, e⟩ := h; rw [e]; exact ⟨rfl, rfl⟩


theorem built_apart {s u w : State} (h : s.apart u = w) (l : w.link = s.link) (sp : w.spans = s.spans) : s.built u =
    u :=
  built_quiet (by rw [← l, ← h]; rfl) (by rw [← sp, ← h]; rfl)

theorem takeHanded_none {s : State} {sp} (h : ∀ k, (s.span sp).handed.get k = none) : s.takeHanded sp = s := by
  unfold takeHanded
  have : (s.span sp).handed.indices (·.isSome) = [] := by
    rw [List.eq_nil_iff_forall_not_mem]
    intro k hk
    rw [Table.mem_indices, h k] at hk
    cases hk
  dsimp only
  rw [this]
  rfl

/-- The one request lemma for admin requests whose rule gives OK. -/
theorem admin_apart {s w : State} {p tag code body rule answer} (h : s.Admits p) (hp : (s.port p).admin = true)
    (hl : body.length = bodyLength code)
    (hr : ∀ P c, rule (withPorts P c s) = (withPorts P c w, ⟨.ok, answer⟩))
    (hw : w.ports = s.ports) (hc : w.freeCount = s.freeCount) :
    ∃ u, event (serve p tag code body (permitAdmin p) (answering p tag rule)) s = s.built u ∧
      Answered p tag .ok answer s u ∧ s.apart u = w :=
  request_apart h hp (fun _ h _ _ => h) hl (.inl rfl) hr hw hc

theorem admin_refused {s : State} {p tag code body rule status} (h : s.Admits p) (hp : (s.port p).admin = true)
    (hl : body.length = bodyLength code) (main : ∀ d, Driven s d → rule d = refuse status d) :
    ∃ u, event (serve p tag code body (permitAdmin p) (answering p tag rule)) s = u ∧ Refused p tag status s u :=
  request_refused h (fun d a _ _ => by unfold permitAdmin; rw [a]; exact hp) hl main

end Sys2Proof.Machine
end

