-- ==== Sys2Proof/Laws/Checks.lean ====
section
/-! SUPPORT. The check of a call part, said once for all that read one: what it leaves of a record with one bit in error
and of one with two, and how it stands at the start of an event and of a request. -/

namespace Sys2Proof.Machine

set_option Elab.async false

open State

variable {s t u v d : State} {n : ChannelNo} {w : Finder}

/-! ## One bit in error: the correction -/

theorem checkCall_single {b} (h : (s.channel n).errors = [b]) : s.checkCall n w = (s.corrected n w, true) := by
  have c : s.correctRecord n w = s.corrected n w := by
    unfold correctRecord
    have : correctedCall (s.call n) (s.channel n).errors = s.call n := by rw [h]; rfl
    rw [this]
    unfold State.corrected State.report setCall modChannel
    rfl
  unfold checkCall
  rw [h]
  simp only [classify, c]

namespace State

theorem channel_corrected (m) :
    (s.corrected n w).channel m = if m = n then { s.channel n with errors := [] } else s.channel m := by
  unfold corrected channel
  dsimp only
  rw [Table.get_update]

@[simp] theorem corrected_errors : ((s.corrected n w).channel n).errors = [] := by rw [channel_corrected, if_pos rfl]
@[simp] theorem corrected_profiles : (s.corrected n w).profiles = s.profiles := rfl
@[simp] theorem corrected_groups : (s.corrected n w).groups = s.groups := rfl
@[simp] theorem corrected_spans : (s.corrected n w).spans = s.spans := rfl
@[simp] theorem corrected_index : (s.corrected n w).index = s.index := rfl
@[simp] theorem corrected_purge : (s.corrected n w).purge = s.purge := rfl
@[simp] theorem corrected_lists : (s.corrected n w).lists = s.lists := rfl
@[simp] theorem corrected_transfer : (s.corrected n w).transfer = s.transfer := rfl
@[simp] theorem corrected_scrub : (s.corrected n w).scrub = s.scrub := rfl
@[simp] theorem corrected_link : (s.corrected n w).link = s.link := rfl
@[simp] theorem corrected_ports : (s.corrected n w).ports = s.ports := rfl
@[simp] theorem corrected_restart : (s.corrected n w).restart = s.restart := rfl
@[simp] theorem corrected_millis : (s.corrected n w).millis = s.millis := rfl
@[simp] theorem corrected_rstN : (s.corrected n w).rstN = s.rstN := rfl
@[simp] theorem corrected_freeCount : (s.corrected n w).freeCount = s.freeCount := rfl
@[simp] theorem corrected_pending : (s.corrected n w).pending = s.pending := rfl

@[simp] theorem corrected_equipment (m) : (s.corrected n w).equipment m = s.equipment m := by
  unfold equipment; rw [channel_corrected]; split
  · next h => rw [h]
  · rfl

@[simp] theorem corrected_line (m) : (s.corrected n w).line m = s.line m := by
  unfold line; rw [channel_corrected]; split
  · next h => rw [h]
  · rfl

@[simp] theorem corrected_call (m) : (s.corrected n w).call m = s.call m := by
  unfold call; rw [channel_corrected]; split
  · next h => rw [h]
  · rfl

theorem admits_corrected {p} (h : s.Admits p) : (s.corrected n w).Admits p := h

theorem corrected_driveSdo {p k} : (s.corrected n w).driveSdo p k = (s.driveSdo p k).corrected n w := by
  unfold driveSdo
  have e : ((s.corrected n w).port p).state = (s.port p).state := rfl
  rw [e]
  cases (s.port p).state <;> rfl

end State

/-! ## Two bits in error: the loss -/

theorem checkCall_double {a b} (h : (s.channel n).errors = [a, b]) : s.checkCall n w = (s.loseRecord n w, false) := by
  unfold checkCall
  rw [h]
  rfl

theorem markDirty_link_only : s.markDirty n = { s with link := (s.markDirty n).link } := by
  unfold markDirty
  cases (s.span (spanOf n)).config with
  | none => rfl
  | some c => dsimp only; split <;> rfl

theorem leaveIdle_groups_only : s.leaveIdle n = { s with groups := (s.leaveIdle n).groups } := by
  unfold leaveIdle
  cases s.groupOf n <;> rfl

theorem joinLost_eq : s.joinLost n = { s with
    purge := if s.purgePending n = true then s.purge else { s.purge with lost := s.purge.lost ++ [⟨n, 128⟩] } } := by
  unfold joinLost
  split <;> rfl

/-- The loss of a record does what its claim says, in the reduced cases of R160 too. -/
theorem loseRecord_lost : Lost n w s (s.loseRecord n w) := by
  unfold Lost
  by_cases q : s.equipped n = false
  · rw [if_pos q]
    have e : s.loseRecord n w = (s.setCall n unequippedCall).reportLoss n w := by
      unfold loseRecord; rw [if_pos (by simp [q])]
    rw [e]
    exact ⟨rfl, setCall_written.of_channels rfl, rfl⟩
  · rw [if_neg q]
    by_cases f : (s.call n).state = .fault .record
    · rw [if_pos f]
      have e : s.loseRecord n w = (((s.setCall n lostCall).joinLost n).markDirty n).reportLoss n w := by
        unfold loseRecord; rw [if_neg (by simp [q]), if_pos f]
      have j := joinLost_eq (s := s.setCall n lostCall) (n := n)
      have pp : (s.setCall n lostCall).purgePending n = s.purgePending n := rfl
      rw [pp] at j
      have sc : SameCodes s ((s.setCall n lostCall).joinLost n) := .of_groups (by rw [j]; rfl) (by rw [j]; rfl) (by rw [j]; rfl)
      have m := markDirty_link_only (s := (s.setCall n lostCall).joinLost n) (n := n)
      rw [sc.markDirty_link (by rw [j]; rfl), j] at m
      rw [e, j, m]
      exact ⟨rfl, setCall_written.of_channels rfl, rfl, rfl, rfl⟩
    · rw [if_neg f]
      have e : s.loseRecord n w =
          (((((s.setCall n lostCall).leaveIdle n).joinLost n).markDirty n).reportLoss n w).drainCheckOf n := by
        unfold loseRecord; rw [if_neg (by simp [q]), if_neg f]
      have l0 := leaveIdle_left (s := s.setCall n lostCall) (n := n)
      have li := leaveIdle_groups_only (s := s.setCall n lostCall) (n := n)
      have go : (s.setCall n lostCall).groupOf n = s.groupOf n :=
        (setCall_written (s := s) (n := n) (c := lostCall)).groupOf_eq n
      have j := joinLost_eq (s := (s.setCall n lostCall).leaveIdle n) (n := n)
      have pp : ((s.setCall n lostCall).leaveIdle n).purgePending n = s.purgePending n := by
        unfold purgePending; rw [li]; rfl
      have pu : ((s.setCall n lostCall).leaveIdle n).purge = s.purge := by rw [li]; rfl
      rw [pp, pu] at j
      have sc : SameCodes s (((s.setCall n lostCall).leaveIdle n).joinLost n) := by
        refine ⟨by rw [j, li]; rfl, by rw [j, li]; rfl, fun g => ?_⟩
        rw [j]
        show (((s.setCall n lostCall).leaveIdle n).group g).config = _
        rw [l0 g]; rfl
      have m := markDirty_link_only (s := ((s.setCall n lostCall).leaveIdle n).joinLost n) (n := n)
      rw [sc.markDirty_link (by rw [j, li]; rfl)] at m
      rw [e]
      have ve : (((((s.setCall n lostCall).leaveIdle n).joinLost n).markDirty n).reportLoss n w) =
          { s with
            channels := (s.setCall n lostCall).channels
            groups := ((s.setCall n lostCall).leaveIdle n).groups
            purge := if s.purgePending n = true then s.purge else { s.purge with lost := s.purge.lost ++ [⟨n, 128⟩] }
            link := (s.markDirty n).link
            faults := { s.faults with reported := s.faults.reported ++
              [⟨.recordLost, some (spanOf n), some n, w.map (·.1), w.map (·.2), none⟩] } } := by
        rw [m, j, li]; rfl
      rw [ve]
      generalize hv : ({ s with
            channels := (s.setCall n lostCall).channels
            groups := ((s.setCall n lostCall).leaveIdle n).groups
            purge := if s.purgePending n = true then s.purge else { s.purge with lost := s.purge.lost ++ [⟨n, 128⟩] }
            link := (s.markDirty n).link
            faults := { s.faults with reported := s.faults.reported ++
              [⟨.recordLost, some (spanOf n), some n, w.map (·.1), w.map (·.2), none⟩] } } : State) = v
      have cw : CallWritten n lostCall s v := setCall_written.of_channels (by rw [← hv])
      have le : LeftIdle n s v := fun g => by
        have := l0 g
        rw [go] at this
        rw [← hv]
        exact this
      obtain ⟨d1, d2, d3⟩ := drainCheckOf_effect (s := s) (t := v) le (cw.groupOf_eq n)
      generalize v.drainCheckOf n = x at d1 d2 d3
      subst hv
      refine ⟨?_, cw.of_channels (by rw [d3]), by rw [d3], by rw [d3], d1, d2.after rfl, ?_⟩
      · unfold Reported; rw [d3]
      · rw [d3]

/-! ## What a check will find, before it is made -/

theorem foundCall_clean (h : (s.channel n).errors = []) : s.foundCall n = s.call n := by
  unfold foundCall
  rw [h]
  exact seenCall_clean h

theorem foundCall_single {b} (h : (s.channel n).errors = [b]) : s.foundCall n = s.call n := by
  unfold foundCall
  rw [h]
  rfl

/-- A check that lets the event go on brings into force the call part that was found, and leaves no bit in error. -/
theorem checkCall_found (h : (s.checkCall n w).2 = true) :
    (s.checkCall n w).1.call n = s.foundCall n ∧ ((s.checkCall n w).1.channel n).errors = [] := by
  have written : ∀ c, (s.setCall n c).channel n = { s.channel n with call := c, errors := [] } := fun c => setCall_written.1
  unfold checkCall at h ⊢
  unfold foundCall
  cases e : (s.channel n).errors with
  | nil => exact ⟨(seenCall_clean e).symm, e⟩
  | cons a l =>
    rw [e] at h
    dsimp only at h ⊢
    cases k : classify (s.call n) (a :: l) with
    | clean =>
      dsimp only
      exact ⟨by unfold State.call; rw [written], by rw [written]⟩
    | single =>
      dsimp only
      unfold correctRecord
      rw [e]
      exact ⟨by show ((s.setCall n _).channel n).call = _; rw [written],
        by show ((s.setCall n _).channel n).errors = _; rw [written]⟩
    | double => rw [k] at h; cases h

/-- A check that ends the event leaves the channel in FAULT(RECORD), or UNEQUIPPED where it is not equipped. -/
theorem checkCall_lost (h : (s.checkCall n w).2 = false) :
    (s.checkCall n w).1.call n = lostCall ∨ (s.checkCall n w).1.call n = unequippedCall := by
  have e : (s.checkCall n w).1 = s.loseRecord n w := by
    unfold checkCall at h ⊢
    cases e : (s.channel n).errors with
    | nil => rw [e] at h; cases h
    | cons a l =>
      rw [e] at h
      dsimp only at h ⊢
      cases k : classify (s.call n) (a :: l) with
      | clean => rw [k] at h; cases h
      | single => rw [k] at h; cases h
      | double => rfl
  rw [e]
  obtain ⟨-, l⟩ := loseRecord_lost (s := s) (n := n) (w := w)
  unfold State.call
  split at l
  · exact .inr (by rw [l.1.1]; rfl)
  · exact .inl (by rw [l.1.1]; rfl)

/-- A member held by a flag before a profile change is held by it after, if it is BLOCKED then (R8, R38 step 3). -/
theorem changeProfileOf_held {found old} (h : s.heldMember n = true) :
    let t := State.changeProfileOf found old s n
    (t.call n).state = .blocked → ((t.call n).flags.locally || (t.call n).flags.drain) = true := by
  have keep : (((s.checkCall n (some found)).1.call n).state = .blocked →
      (((s.checkCall n (some found)).1.call n).flags.locally ||
        ((s.checkCall n (some found)).1.call n).flags.drain) = true) := by
    intro b
    cases e : (s.checkCall n (some found)).2 with
    | true =>
      rw [(checkCall_found e).1] at b ⊢
      unfold heldMember at h
      rw [b] at h
      exact h
    | false => rcases checkCall_lost e with k | k <;> rw [k] at b <;> cases b
  unfold State.changeProfileOf
  generalize (s.checkCall n (some found)).1 = c at keep
  dsimp only
  have l : ∀ x, (c.setLine n x).call n = c.call n := fun x => by
    unfold State.call State.setLine modChannel State.channel; dsimp only; rw [Table.get_update, if_pos rfl]
  generalize hv : c.setLine n { c.line n with received := c.derivedCondition n } = v
  have kv : v.call n = c.call n := by rw [← hv, l]
  rw [← kv] at keep
  have m : ∀ x : State, (if x.profileCode n .block ≠ (x.profiles.get old).transmit.get (conditionNo .block) then x.markDirty n
      else x).call n = x.call n := fun x => by
    split
    · rw [markDirty_link_only]; rfl
    · rfl
  rw [m]
  split
  · next b =>
    intro _
    have := keep b
    unfold State.call
    rw [setCall_written.1]
    exact this
  · exact keep

theorem State.Lost.ports (h : Lost n w s u) : u.ports = s.ports ∧ u.freeCount = s.freeCount := by
  obtain ⟨_, h⟩ := h
  split at h
  · obtain ⟨_, e⟩ := h; rw [e]; exact ⟨rfl, rfl⟩
  · obtain ⟨_, _, _, h⟩ := h
    split at h
    · rw [h]; exact ⟨rfl, rfl⟩
    · obtain ⟨_, _, e⟩ := h; rw [e]; exact ⟨rfl, rfl⟩

theorem loseRecord_withPorts {P c} :
    (withPorts P c s).loseRecord n w = withPorts P c (s.loseRecord n w) := by
  have j : ∀ t : State, (withPorts P c t).joinLost n = withPorts P c (t.joinLost n) := fun t => by
    rw [joinLost_eq, joinLost_eq]; rfl
  have r : ∀ t : State, (withPorts P c t).reportLoss n w = withPorts P c (t.reportLoss n w) := fun t => rfl
  have e : (withPorts P c s).equipped n = s.equipped n := rfl
  have k : (withPorts P c s).call n = s.call n := rfl
  unfold loseRecord
  rw [e, k, setCall_withPorts, setCall_withPorts, leaveIdle_withPorts, j, j, markDirty_withPorts, markDirty_withPorts, r, r,
    r, drainCheckOf_withPorts]
  split
  · rfl
  · split <;> rfl

/-- What the loss of a record leaves as it was: every other channel record, the members, the drain and the rest of the
groups, and all that no event of one channel reaches. -/
theorem State.Lost.frame (h : Lost n w s u) :
    OnlyChannel n s u ∧ (u.channel n).errors = [] ∧ u.equipment n = s.equipment n ∧ u.line n = s.line n ∧
    (∀ g, u.group g = { s.group g with idle := (u.group g).idle, drainReported := (u.group g).drainReported }) ∧
    u.profiles = s.profiles ∧ u.spans = s.spans ∧ u.index = s.index ∧ u.transfer = s.transfer ∧ u.scrub = s.scrub ∧
    u.restart = s.restart ∧ u.millis = s.millis ∧ u.rstN = s.rstN ∧ u.pending = s.pending := by
  have written : ∀ {c}, CallWritten n c s u →
      OnlyChannel n s u ∧ (u.channel n).errors = [] ∧ u.equipment n = s.equipment n ∧ u.line n = s.line n := fun k =>
    ⟨k.2, by rw [k.1], k.equipment_eq n, k.line_eq n⟩
  have groups : u.groups = s.groups → ∀ g, u.group g =
      { s.group g with idle := (u.group g).idle, drainReported := (u.group g).drainReported } := fun e g => by
    unfold State.group; rw [e]
  obtain ⟨_, h⟩ := h
  split at h
  · obtain ⟨k, e⟩ := h
    obtain ⟨a, b, c, d⟩ := written k
    exact ⟨a, b, c, d, groups (by rw [e]), by rw [e], by rw [e], by rw [e], by rw [e], by rw [e], by rw [e], by rw [e],
      by rw [e], by rw [e]⟩
  · obtain ⟨k, _, _, h⟩ := h
    obtain ⟨a, b, c, d⟩ := written k
    split at h
    · exact ⟨a, b, c, d, groups (by rw [h]), by rw [h], by rw [h], by rw [h], by rw [h], by rw [h], by rw [h], by rw [h],
        by rw [h], by rw [h]⟩
    · obtain ⟨l, _, e⟩ := h
      exact ⟨a, b, c, d, fun g => by rw [l g], by rw [e], by rw [e], by rw [e], by rw [e], by rw [e], by rw [e],
        by rw [e], by rw [e], by rw [e]⟩

theorem checkCall_withPorts {P c} :
    (withPorts P c s).checkCall n w = (withPorts P c (s.checkCall n w).1, (s.checkCall n w).2) := by
  unfold checkCall
  have e : ((withPorts P c s).channel n).errors = (s.channel n).errors := rfl
  have k : (withPorts P c s).call n = s.call n := rfl
  rw [e, k]
  cases (s.channel n).errors with
  | nil => rfl
  | cons a l =>
    dsimp only
    cases classify (s.call n) (a :: l) with
    | clean => rfl
    | single => rfl
    | double => exact Prod.ext loseRecord_withPorts rfl

theorem checked_withPorts {P c} {go : State → State} (h : ∀ t, go (withPorts P c t) = withPorts P c (go t)) :
    (withPorts P c s).checked n w go = withPorts P c (s.checked n w go) := by
  unfold checked
  rw [checkCall_withPorts]
  rcases s.checkCall n w with ⟨t, _ | _⟩
  · rfl
  · exact h t

/-! ## The check at the start of an event -/

/-- The check of a record with at most two bits in error: whether the event goes on, and what it goes on from. -/
theorem checkCall_member (h : (s.channel n).errors.length ≤ 2) :
    MemberChecked n w s (s.checkCall n w).1 ∧ (s.checkCall n w).2 = decide ((s.channel n).errors.length < 2) := by
  unfold MemberChecked
  rcases e : (s.channel n).errors with _ | ⟨a, _ | ⟨b, _ | ⟨c, l⟩⟩⟩
  · rw [checkCall_clean e]; exact ⟨rfl, rfl⟩
  · rw [checkCall_single e]; exact ⟨rfl, rfl⟩
  · rw [checkCall_double e]; exact ⟨loseRecord_lost, rfl⟩
  · rw [e] at h; simp at h

theorem checkCall_errors (h : (s.channel n).errors.length ≤ 2) : (((s.checkCall n w).1).channel n).errors = [] := by
  rcases e : (s.channel n).errors with _ | ⟨a, _ | ⟨b, _ | ⟨c, l⟩⟩⟩
  · rw [checkCall_clean e]; exact e
  · rw [checkCall_single e]; exact corrected_errors
  · rw [checkCall_double e]; exact (loseRecord_lost).frame.2.1
  · rw [e] at h; simp at h

/-- A member that a request reaches: the rest of the request where the check passes. -/
theorem checked_atMember {go : State → State} {rest : State → State → Prop} (h : (s.channel n).errors.length ≤ 2)
    (r : (s.channel n).errors.length < 2 → rest (s.checkCall n w).1 (go (s.checkCall n w).1)) :
    AtMember n w rest s (s.checked n w go) := by
  obtain ⟨m, p⟩ := checkCall_member (w := w) h
  refine ⟨_, m, ?_⟩
  unfold checked
  rcases e : s.checkCall n w with ⟨t, k⟩
  rw [e] at p r
  dsimp only at p r ⊢
  subst p
  by_cases q : (s.channel n).errors.length < 2
  · rw [if_pos q, decide_eq_true q]; exact r q
  · rw [if_neg q, decide_eq_false q]

theorem checked_single {b} {go : State → State} (h : (s.channel n).errors = [b]) :
    s.checked n w go = go (s.corrected n w) := by
  unfold checked
  rw [checkCall_single h]

theorem checked_double {a b} {go : State → State} (h : (s.channel n).errors = [a, b]) :
    s.checked n w go = s.loseRecord n w := by
  unfold checked
  rw [checkCall_double h]

theorem checkedRule_single {b rule} {f : PortNo × RequestCode} (h : (s.channel n).errors = [b]) :
    checkedRule n f rule s = rule (s.corrected n (some f)) := by
  unfold checkedRule
  rw [checkCall_single h]

theorem checkedRule_double {a b rule} {f : PortNo × RequestCode} (h : (s.channel n).errors = [a, b]) :
    checkedRule n f rule s = (s.loseRecord n (some f), ⟨.recordFault, []⟩) := by
  unfold checkedRule
  rw [checkCall_double h]

theorem gains_congr (link : t.link = s.link) (spans : t.spans = s.spans) : s.gains u = t.gains u := by
  have e : ∀ sp, t.updatePending sp = s.updatePending sp := fun sp => by
    unfold updatePending alarmRequest span linkSpan
    rw [link, spans]
  unfold gains
  simp only [e]

/-- What the correction leaves is taken on by the rest of the event. -/
theorem event_corrected {f : State → State} (h : f s = f (s.corrected n w)) : event f s = event f (s.corrected n w) := by
  unfold event
  rw [← h, gains_congr (s := s) (t := s.corrected n w) rfl rfl]

/-- An event that begins with the check of a call part. -/
theorem checksFirst {c : Instr} {f : State → State} {begun : State} (he : ∀ t, exec c t = .next (event f t))
    (one : ∀ b, (s.channel n).errors = [b] → f s = f (s.corrected n none))
    (two : ∀ a b, (s.channel n).errors = [a, b] → f s = begun.loseRecord n none) : ChecksFirst c n s begun := by
  refine ⟨fun b h => ?_, fun a b h => ⟨begun.loseRecord n none, ?_, loseRecord_lost⟩⟩
  · rw [he, he, event_corrected (one b h)]
  · rw [he, event_built (two a b h)]

/-! ## The check in a request -/

theorem meaning_corrected {x} : (s.corrected n w).meaning n x = s.meaning n x := by
  unfold meaning State.config groupOf
  rw [corrected_equipment]
  rfl

theorem adopted_corrected {x} : (s.corrected n w).adopted n x = (s.adopted n x).corrected n w := by
  have c := adopted_call (s := s) (n := n) (x := x) n
  have m := meaning_corrected (s := s) (n := n) (w := w) (x := x)
  unfold State.corrected at m ⊢
  rw [c]
  unfold State.adopted
  rw [m]
  unfold State.lineTaken
  simp only [Table.update_update]

/-- What a request reads before and beside a check is the same in d as in s. -/
structure Alike (s d : State) : Prop where
  equipment : ∀ n, d.equipment n = s.equipment n
  line : ∀ n, d.line n = s.line n
  call : ∀ n, d.call n = s.call n
  profiles : d.profiles = s.profiles
  groups : d.groups = s.groups
  spans : d.spans = s.spans
  index : d.index = s.index
  purge : d.purge = s.purge
  lists : d.lists = s.lists
  transfer : d.transfer = s.transfer

namespace Alike

theorem of_driven (h : Driven s d) : Alike s d :=
  ⟨h.equipment, h.line, h.call, h.profiles, h.groups, h.spans, h.index, h.purge, h.lists, h.transfer⟩

theorem corrected : Alike s (s.corrected n w) :=
  ⟨corrected_equipment, corrected_line, corrected_call, rfl, rfl, rfl, rfl, rfl, rfl, rfl⟩

theorem trans (h : Alike s t) (k : Alike t u) : Alike s u :=
  ⟨fun n => (k.equipment n).trans (h.equipment n), fun n => (k.line n).trans (h.line n),
    fun n => (k.call n).trans (h.call n), k.profiles.trans h.profiles, k.groups.trans h.groups, k.spans.trans h.spans,
    k.index.trans h.index, k.purge.trans h.purge, k.lists.trans h.lists, k.transfer.trans h.transfer⟩

theorem groupOf (h : Alike s d) (m) : d.groupOf m = s.groupOf m := by unfold State.groupOf; rw [h.equipment]
theorem equipped (h : Alike s d) (m) : d.equipped m = s.equipped m := by unfold State.equipped; rw [h.groupOf]
theorem group (h : Alike s d) (g) : d.group g = s.group g := by unfold State.group; rw [h.groups]
theorem span (h : Alike s d) (sp) : d.span sp = s.span sp := by unfold State.span; rw [h.spans]
theorem entryOf (h : Alike s d) (r) : d.entryOf r = s.entryOf r := by unfold State.entryOf; rw [h.index]

theorem purgePending (h : Alike s d) (m) : d.purgePending m = s.purgePending m := by
  unfold State.purgePending
  rw [h.purge]

theorem referenceRefusal (h : Alike s d) (r) : d.referenceRefusal r = s.referenceRefusal r := by
  unfold State.referenceRefusal
  rw [h.entryOf, h.index]

theorem eligible (h : Alike s d) (g m) : d.eligible g m = s.eligible g m := by
  unfold State.eligible
  rw [h.group, h.equipment, h.span]

theorem chosen (h : Alike s d) (g) : d.chosen g = s.chosen g := by
  unfold State.chosen State.huntOrder
  have e : d.eligible g = s.eligible g := funext (h.eligible g)
  rw [h.group, e]

theorem resolveTarget (h : Alike s d) (target) :
    Sys2Proof.Machine.resolveTarget d target = Sys2Proof.Machine.resolveTarget s target := by
  cases target <;>
    simp only [Sys2Proof.Machine.resolveTarget, Sys2Proof.Machine.lookup, h.equipped, h.entryOf, h.purgePending]

theorem resolveQuery (h : Alike s d) (target) :
    Sys2Proof.Machine.resolveQuery d target = Sys2Proof.Machine.resolveQuery s target := by
  cases target <;> simp only [Sys2Proof.Machine.resolveQuery, Sys2Proof.Machine.lookup, h.entryOf, h.purgePending]

theorem channelMaintenance (h : Alike s d) (body) :
    Sys2Proof.Machine.channelMaintenance body d = Sys2Proof.Machine.channelMaintenance body s := by
  unfold Sys2Proof.Machine.channelMaintenance
  have e : maintenanceOf d = maintenanceOf s := funext fun g => by unfold maintenanceOf; rw [h.group]
  have f : d.groupOf = s.groupOf := funext h.groupOf
  rw [e, f]

theorem permitChannelMaintenance (h : Alike s d) {p body} (a : (d.port p).admin = (s.port p).admin) :
    Sys2Proof.Machine.permitChannelMaintenance p body d = Sys2Proof.Machine.permitChannelMaintenance p body s := by
  unfold Sys2Proof.Machine.permitChannelMaintenance
  rw [a, h.channelMaintenance]

end Alike

/-- A request whose rule comes to the check of n's call part, with all the checks before it passed. -/
theorem request_checks {c : Instr} {p tag code body permitted rule} {inner : State → State × Answer}
    (he : ∀ t, exec c t = .next (event (serve p tag code body permitted (answering p tag rule)) t))
    (h : s.Admits p) (hl : body.length = bodyLength code)
    (hp : ∀ d, Alike s d → (d.port p).admin = (s.port p).admin → permitted d = true)
    (hr : ∀ d, Alike s d → rule d = checkedRule n (p, code) inner d) : RequestChecks c p tag code n s := by
  have dr : Driven s (s.driveSdo p (4 + body.length)) := driveSdo_form
  have al := Alike.of_driven dr
  obtain ⟨sdo, hpo⟩ := driveSdo_port (s := s) (p := p) (k := 4 + body.length)
  have ad : ((s.driveSdo p (4 + body.length)).port p).admin = (s.port p).admin := by rw [hpo]
  have e := serve_admitted (tag := tag) (go := answering p tag rule) h (hp _ al ad) hl
  refine ⟨fun b he1 => ?_, fun a b he2 => ?_⟩
  · rw [he, he]
    congr 1
    refine event_corrected ?_
    have e' := serve_admitted (s := s.corrected n (some (p, code))) (tag := tag) (go := answering p tag rule)
      (permitted := permitted) (body := body) (code := code) (admits_corrected h)
      (by rw [corrected_driveSdo]; exact hp _ (al.trans .corrected) ad) hl
    rw [e, e', corrected_driveSdo]
    unfold answering
    rw [hr _ al, hr _ (al.trans .corrected), checkedRule_single (b := b) (by rw [dr.channel]; exact he1),
      checkedRule_clean corrected_errors]
  · have r : rule (s.driveSdo p (4 + body.length)) =
        ((s.driveSdo p (4 + body.length)).loseRecord n (some (p, code)), ⟨.recordFault, []⟩) := by
      rw [hr _ al, checkedRule_double (a := a) (b := b) (by rw [dr.channel]; exact he2)]
    refine ⟨((s.driveSdo p (4 + body.length)).loseRecord n (some (p, code))).respond p tag .recordFault [], ?_,
      answered_of_ports (k := 4 + body.length) (.inr rfl) (by simp), ?_⟩
    · rw [he, answered_event h (hp _ al ad) hl r]
    · obtain ⟨P, k, hd⟩ := dr
      rw [hd]
      have := loseRecord_withPorts (s := s) (n := n) (w := some (p, code)) (P := P) (c := k)
      unfold withPorts at this
      rw [this]
      have l := loseRecord_lost (s := s) (n := n) (w := some (p, code))
      have q : s.apart (({ s.loseRecord n (some (p, code)) with ports := P, freeCount := k } : State).respond p tag
          .recordFault []) = s.loseRecord n (some (p, code)) := by
        show { s.loseRecord n (some (p, code)) with ports := s.ports, freeCount := s.freeCount } = _
        rw [← l.ports.1, ← l.ports.2]
      rw [q]
      exact l

end Sys2Proof.Machine
end

