-- ==== Sys2Proof/Laws/Line.lean ====
section
/-! SUPPORT. Integration and the codes that wait: what taking a code leaves of the span records, and that a span whose
codes are taken has none waiting. -/

namespace Sys2Proof.Machine

set_option Elab.async false

namespace State
variable {s : State}

@[simp] theorem checked_spans {n w} {go : State → State} (h : ∀ t, (go t).spans = t.spans) :
    (s.checked n w go).spans = s.spans := by
  have k := checkCall_spans s (n := n) (w := w)
  unfold checked
  split <;> next e => rw [e] at k; first | exact (h _).trans k | exact k

theorem adopt_spans {n x} : (s.adopt n x).spans = s.spans := by
  unfold adopt
  dsimp only
  (repeat' split)
  · rw [checked_spans (fun t => by simp)]; rfl
  · rfl
  · rfl

theorem takeCode_spans {n x d} : (s.takeCode n x d).spans = s.spans := by
  unfold takeCode
  dsimp only
  (repeat' split) <;> first | exact adopt_spans | rfl

/-- The span records after a position has taken its code: the code no longer waits, and nothing else changed. -/
theorem integrate_spans {n} : (s.integrate n).spans =
    if ((s.span (spanOf n)).config).isSome then
      s.spans.update (spanOf n) fun r => { r with handed := r.handed.set (positionOf n) none }
    else s.spans := by
  unfold integrate
  cases hc : (s.span (spanOf n)).config with
  | none => split <;> simp_all
  | some c =>
    cases hx : (s.span (spanOf n)).handed.get (positionOf n) with
    | some x => simp only [Option.isSome_some, if_true, takeCode_spans]; rfl
    | none =>
      simp only [Option.isSome_some, if_true]
      refine (Table.update_id _ _ ?_).symm
      have e : (s.spans.get (spanOf n)).handed.set (positionOf n) none = (s.spans.get (spanOf n)).handed := by
        conv_lhs => rw [← hx]
        exact Table.set_get _ _
      rw [e]

theorem spanOf_channelAt (sp : SpanNo) (p : Position) : spanOf (channelAt sp p) = sp := by
  apply Fin.ext; simp only [spanOf, channelAt]; omega

theorem positionOf_channelAt (sp : SpanNo) (p : Position) : positionOf (channelAt sp p) = p := by
  apply Fin.ext; simp only [positionOf, channelAt]; omega

theorem channelAt_spanOf (n : ChannelNo) : channelAt (spanOf n) (positionOf n) = n := by
  apply Fin.ext; simp only [spanOf, positionOf, channelAt]; omega

theorem span_integrate {sp q p} (h : ((s.span sp).config).isSome = true) :
    (event (integrate (channelAt sp p)) s).span q =
      if q = sp then { s.span sp with handed := (s.span sp).handed.set p none } else s.span q := by
  unfold State.span
  rw [event_spans, integrate_spans, spanOf_channelAt, if_pos h, Table.get_update, positionOf_channelAt]

end State

/-- What every event keeps, the events of a list keep, in whatever order they are taken. -/
theorem takeInFreeOrder_keep {α : Type} {take : α → State → State} {Q : State → Prop}
    (keep : ∀ a t, Q t → Q (take a t)) (keepDrawn : ∀ t, Q t → Q t.drawn) :
    ∀ (fuel : Nat) (l : List α) (s : State), Q s → Q (State.takeInFreeOrder take fuel l s)
  | 0, _, _, q => q
  | _ + 1, [], _, q => q
  | _ + 1, [a], s, q => keep a s q
  | fuel + 1, _ :: _ :: _, _, q => takeInFreeOrder_keep keep keepDrawn fuel _ _ (keep _ _ (keepDrawn _ q))

theorem State.config_integrate {s : State} {n : ChannelNo} (q : SpanNo) :
    ((event (State.integrate n) s).span q).config = (s.span q).config := by
  unfold State.span
  rw [event_spans, State.integrate_spans]
  split
  · rw [Table.get_update]
    split
    · next e => rw [e]
    · rfl
  · rfl

theorem State.config_takeHanded {s : State} {sp : SpanNo} (q : SpanNo) :
    ((s.takeHanded sp).span q).config = (s.span q).config :=
  takeInFreeOrder_keep (Q := fun t => (t.span q).config = (s.span q).config)
    (fun _ _ h => (State.config_integrate q).trans h) (fun _ => id) _ _ _ rfl

/-- Every event of a list is taken: what each brings about, and no other undoes, holds at the end. -/
theorem takeInFreeOrder_all {α : Type} {take : α → State → State} {Q : State → Prop} {P : α → State → Prop}
    (keep : ∀ a t, Q t → Q (take a t)) (keepDrawn : ∀ t, Q t → Q t.drawn)
    (taken : ∀ a t, Q t → P a (take a t)) (stays : ∀ a b t, Q t → P a t → P a (take b t))
    (staysDrawn : ∀ a t, P a t → P a t.drawn) :
    ∀ (fuel : Nat) (l : List α) (s : State), l.length ≤ fuel → Q s →
      Q (State.takeInFreeOrder take fuel l s) ∧
      (∀ a, P a s → P a (State.takeInFreeOrder take fuel l s)) ∧
      ∀ a ∈ l, P a (State.takeInFreeOrder take fuel l s)
  | 0, [], s, _, q => ⟨q, fun _ => id, by simp⟩
  | 0, _ :: _, _, h, _ => absurd h (by simp)
  | _ + 1, [], s, _, q => ⟨q, fun _ => id, by simp⟩
  | _ + 1, [a], s, _, q =>
    ⟨keep a s q, fun b => stays b a s q, fun b hb => by rw [List.mem_singleton.1 hb]; exact taken a s q⟩
  | fuel + 1, a :: b :: rest, s, h, q => by
    rw [State.takeInFreeOrder]
    set l := a :: b :: rest with hl
    set k := Config.order s.freeCount % l.length with hk
    have hlen : k < l.length := Nat.mod_lt _ (by simp [hl])
    have qd := keepDrawn s q
    have q' := keep (l.getD k a) s.drawn qd
    have len : (l.eraseIdx k).length ≤ fuel := by
      rw [List.length_eraseIdx_of_lt hlen]; omega
    obtain ⟨h1, h2, h3⟩ := takeInFreeOrder_all keep keepDrawn taken stays staysDrawn fuel (l.eraseIdx k)
      (take (l.getD k a) s.drawn) len q'
    refine ⟨h1, fun c hc => h2 c (stays _ _ _ qd (staysDrawn _ _ hc)), fun c hc => ?_⟩
    by_cases hck : c = l.getD k a
    · rw [hck]; exact h2 _ (taken _ _ qd)
    · apply h3
      rw [List.mem_eraseIdx_iff_getElem]
      obtain ⟨i, hi, e⟩ := List.mem_iff_getElem.1 hc
      refine ⟨i, hi, fun eq => hck ?_, e⟩
      subst eq
      rw [← e, List.getD_eq_getElem _ _ hi]

/-- A span whose positions have taken their codes: none waits, and nothing else of any span record changed. -/
theorem State.span_takeHanded {s : State} {sp : SpanNo} (h : ((s.span sp).config).isSome = true) (q : SpanNo) :
    (s.takeHanded sp).span q = if q = sp then { s.span sp with handed := .fill 32 none } else s.span q := by
  set waiting := (s.span sp).handed.indices (·.isSome) with hw
  obtain ⟨⟨h1, h1'⟩, -, h3⟩ := takeInFreeOrder_all
    (take := fun p => event (State.integrate (channelAt sp p)))
    (Q := fun t => (∀ q, q ≠ sp → t.span q = s.span q) ∧ ∃ hd : Table (Option LineCode) 32,
      t.span sp = { s.span sp with handed := hd } ∧ ∀ p, hd.get p = none ∨ hd.get p = (s.span sp).handed.get p)
    (P := fun p t => (t.span sp).handed.get p = none)
    (by
      rintro p t ⟨h1, hd, h2, h3⟩
      have hc : ((t.span sp).config).isSome = true := by rw [h2]; exact h
      refine ⟨fun q hq => by rw [State.span_integrate hc, if_neg hq, h1 q hq], hd.set p none, ?_, fun p' => ?_⟩
      · rw [State.span_integrate hc, if_pos rfl, h2]
      · rw [Table.get_set]; split
        · exact .inl rfl
        · exact h3 p')
    (fun t => id)
    (by
      rintro p t ⟨-, hd, h2, -⟩
      have hc : ((t.span sp).config).isSome = true := by rw [h2]; exact h
      rw [State.span_integrate hc, if_pos rfl]
      simp)
    (by
      rintro p p' t ⟨-, hd, h2, -⟩ hp
      have hc : ((t.span sp).config).isSome = true := by rw [h2]; exact h
      rw [State.span_integrate hc, if_pos rfl]
      dsimp only
      rw [Table.get_set]
      split
      · rfl
      · exact hp)
    (fun _ _ => id) waiting.length waiting s le_rfl ⟨fun _ _ => rfl, _, rfl, fun _ => .inr rfl⟩
  have e : s.takeHanded sp = State.takeInFreeOrder (fun p => event (State.integrate (channelAt sp p))) waiting.length
      waiting s := rfl
  rw [e]
  split
  · next hq =>
    subst hq
    obtain ⟨hd, h2, h4⟩ := h1'
    rw [h2]
    suffices hh : hd = .fill 32 none by rw [hh]
    apply Table.ext_get
    intro p
    rw [Table.get_fill]
    by_cases hp : p ∈ waiting
    · have := h3 p hp
      rwa [h2] at this
    · rcases h4 p with h4 | h4
      · exact h4
      · rw [h4]
        rw [hw, Table.mem_indices] at hp
        simpa using hp
  · next hq => exact h1 q hq

end Sys2Proof.Machine
end

