-- ==== Sys2Proof/Laws/KeepsLine.lean ====
section
/-! SUPPORT. What the line side keeps: integration, the span state machine, the acceptance of a report, and the wholesale
writes of line parts. -/

namespace Sys2Proof.Machine

set_option Elab.async false

/-- `Holds`, but for the stable code of channel n. -/
structure HoldsBut (n : ChannelNo) (s t : State) : Prop extends Keeps s t where
  still : ∀ m, m ≠ n → StillAt m s t

theorem Holds.but {n s t} (h : Holds s t) : HoldsBut n s t := ⟨h.toKeeps, fun m _ => h.still m⟩

namespace HoldsBut
variable {s : State}

theorem trans {n} {s t u : State} (h : HoldsBut n s t) (k : HoldsBut n t u) : HoldsBut n s u :=
  ⟨h.toKeeps.trans k.toKeeps, fun m e => (h.still m e).trans (k.still m e)⟩

/-- A line part whose count the laws allow. -/
theorem setLine {n l} (known : ∀ c, (s.span (spanOf n)).config = some c → CountsLawful s → l.count < c.depth)
    (unknown : (s.span (spanOf n)).config = none → CountsLawful s → l.count = 0)
    (zero : CountsLawful s → l.candidate = none → l.count = 0) : HoldsBut n s (s.setLine n l) where
  admin := id
  index := id
  codes := id
  lists := id
  counts := fun k => by
    refine ⟨k.1, fun m c hc => ?_, fun m hc => ?_, fun m hm => ?_⟩ <;> rw [State.line_setLine] at * <;> split
    · next e => exact known c (by rw [← e]; exact hc) k
    · exact k.2.1 m c hc
    · next e => exact unknown (by rw [← e]; exact hc) k
    · exact k.2.2.1 m hc
    · next e => rw [if_pos e] at hm; exact zero k hm
    · next e => rw [if_neg e] at hm; exact k.2.2.2 m hm
  handed := id
  first := fun _ => id
  waits := rfl
  still := fun m e h k => ⟨h, k, by rw [State.line_setLine, if_neg e]⟩

theorem setLineZero {n l} (h : l.count = 0) : HoldsBut n s (s.setLine n l) :=
  setLine (fun _ e k => by rw [h]; exact (k.1 _ _ e).1) (fun _ _ => h) (fun _ _ => h)

theorem adopt {n x} : HoldsBut n s (s.adopt n x) := by
  unfold State.adopt
  dsimp only
  (repeat' split)
  · exact (setLineZero rfl).trans (Holds.checked fun _ => Holds.conditionChange).but
  · exact setLineZero rfl
  · exact setLineZero rfl

theorem takeCode {n x c} (h : (s.span (spanOf n)).config = some c) : HoldsBut n s (s.takeCode n x c.depth) := by
  unfold State.takeCode
  dsimp only
  have known {d : SpanConfig} (hd : (s.span (spanOf n)).config = some d) : d = c := Option.some.inj (hd.symm.trans h)
  have absurdNone {P : Prop} (hn : (s.span (spanOf n)).config = none) : P := by rw [h] at hn; cases hn
  (repeat' split)
  · exact setLineZero rfl
  · exact adopt
  · next hcand ne =>
    refine setLine (fun d hd k => ?_) (fun hn _ => absurdNone hn) (fun _ hc => ?_)
    · have := k.2.1 n d hd
      rw [known hd] at this ⊢
      dsimp only
      omega
    · dsimp only at hc
      rw [hcand] at hc
      cases hc
  · exact adopt
  · next ne =>
    refine setLine (fun d hd k => ?_) (fun hn _ => absurdNone hn) (fun _ hc => ?_)
    · have := k.1 _ d hd
      rw [known hd] at this ⊢
      dsimp only
      omega
    · cases hc

end HoldsBut

/-- A span record changed in what the laws do not speak of, or by taking codes away. -/
theorem Keeps.modSpan {s : State} {sp f} (config : (f (s.span sp)).config = (s.span sp).config)
    (handed : HandedInService s → ∀ p, ((f (s.span sp)).handed.get p).isSome = true →
      ((s.span sp).handed.get p).isSome = true ∧ (f (s.span sp)).state = (s.span sp).state) :
    Keeps s (s.modSpan sp f) where
  admin := id
  index := id
  codes := id
  lists := id
  counts := fun k => by
    have e : ∀ q, ((s.modSpan sp f).span q).config = (s.span q).config := fun q => by
      rw [State.span_modSpan]; split
      · next e => rw [e, config]
      · rfl
    simp only [CountsLawful, e]
    exact k
  handed := fun k q p h => by
    rw [State.span_modSpan] at *
    split
    · next e =>
      rw [if_pos e] at h
      obtain ⟨h1, h2⟩ := handed k p h
      rw [h2, config]
      exact k sp p h1
    · next e => rw [if_neg e] at h; exact k q p h
  first := fun _ => id
  waits := rfl

namespace Holds
variable {s : State}

theorem modSpan {sp f} (config : (f (s.span sp)).config = (s.span sp).config)
    (handed : HandedInService s → ∀ p, ((f (s.span sp)).handed.get p).isSome = true →
      ((s.span sp).handed.get p).isSome = true ∧ (f (s.span sp)).state = (s.span sp).state)
    (still : isFrozen (s.span sp).state = true → NoneHanded s sp →
      isFrozen (f (s.span sp)).state = true ∧ ∀ p, (f (s.span sp)).handed.get p = none) :
    Holds s (s.modSpan sp f) where
  toKeeps := Keeps.modSpan config handed
  still := fun n h k => by
    simp only [NoneHanded, State.span_modSpan]
    split
    · next e =>
      rw [e] at h k
      exact ⟨(still h k).1, (still h k).2, rfl⟩
    · exact ⟨h, k, rfl⟩

theorem modSpanSameHanded {sp f} (config : (f (s.span sp)).config = (s.span sp).config)
    (handed : (f (s.span sp)).handed = (s.span sp).handed) (state : (f (s.span sp)).state = (s.span sp).state) :
    Holds s (s.modSpan sp f) :=
  modSpan config (fun _ p h => ⟨by rwa [handed] at h, state⟩) fun h k => ⟨by rwa [state], by rw [handed]; exact k⟩

/-- A code that waits is taken only where one waits: not at a frozen span without one. -/
theorem integrate {n} : Holds s (s.integrate n) := by
  unfold State.integrate
  split
  · next x c hx hc =>
    have k : HoldsBut n (s.modSpan (spanOf n) fun r => { r with handed := r.handed.set (positionOf n) none }) _ :=
      HoldsBut.takeCode (x := x) (c := c) (by rw [State.span_modSpan, if_pos rfl]; exact hc)
    refine ⟨(Keeps.modSpan rfl fun _ p h => ⟨?_, rfl⟩).trans k.toKeeps, fun m => ?_⟩
    · dsimp only at h
      rw [Table.get_set] at h
      split at h
      · cases h
      · exact h
    · by_cases e : spanOf m = spanOf n
      · intro _ none
        rw [e] at none
        rw [none] at hx
        cases hx
      · refine StillAt.trans (fun a b => ?_) (k.still m fun h => e (by rw [h]))
        simp only [NoneHanded, State.span_modSpan, if_neg e]
        exact ⟨a, b, rfl⟩
  · exact refl s

theorem takeHanded {sp} : Holds s (s.takeHanded sp) := takeInFreeOrder (fun _ _ => event integrate) _ _ _

end Holds

namespace Holds
variable {s : State}

theorem modSpanNoneHanded {sp f} (none : HandedInService s → NoneHanded s sp)
    (config : (f (s.span sp)).config = (s.span sp).config)
    (handed : (f (s.span sp)).handed = (s.span sp).handed) (frozen : isFrozen (f (s.span sp)).state = true) :
    Holds s (s.modSpan sp f) :=
  modSpan config (fun k p h => by rw [handed, none k p] at h; cases h) fun _ k => ⟨frozen, by rw [handed]; exact k⟩

theorem generate {sp f} : Holds s (s.generate sp f) := modSpanSameHanded rfl rfl rfl

theorem failFromService {sp c} (h : HandedInService s → NoneHanded s sp) : Holds s (s.failFromService sp c) :=
  (((modSpanNoneHanded h rfl rfl rfl).trans generate).trans tellSpan).trans reportSpan

theorem failAgain {sp c} (h : HandedInService s → NoneHanded s sp) : Holds s (s.failAgain sp c) :=
  modSpanNoneHanded h rfl rfl rfl

theorem trackFarAlarm {sp c b} : Holds s (s.trackFarAlarm sp c b) := by
  unfold State.trackFarAlarm
  dsimp only
  (repeat' split)
  · exact (modSpanSameHanded rfl rfl rfl).trans tellSpan
  · exact modSpanSameHanded rfl rfl rfl
  · exact (modSpanSameHanded rfl rfl rfl).trans tellSpan
  · exact modSpanSameHanded rfl rfl rfl
  · exact modSpanSameHanded rfl rfl rfl
  · exact modSpanSameHanded rfl rfl rfl

end Holds

namespace Keeps
variable {s : State}

/-- The counts become 0 or stay, as where candidates are cleared or line parts emptied (R25, R26). -/
theorem ofChannels {t : State} {cs : Table ChannelRecord 512}
    (h : ∀ n, (cs.get n).line = s.line n ∨ (cs.get n).line.count = 0)
    (e : t = { s with channels := cs }) : Keeps s t := by
  subst e
  refine ⟨id, id, id, fun k => ?_, id, id, fun _ => id, rfl⟩
  refine ⟨k.1, fun m c hc => ?_, fun m hc => ?_, fun m hm => ?_⟩
  · rcases h m with h | h
    · exact (congrArg LinePart.count h).trans_lt (k.2.1 m c hc)
    · exact h.trans_lt (k.1 _ c hc).1
  · rcases h m with h | h
    · exact (congrArg LinePart.count h).trans (k.2.2.1 m hc)
    · exact h
  · rcases h m with h | h
    · exact (congrArg LinePart.count h).trans (k.2.2.2 m ((congrArg LinePart.candidate h).symm.trans hm))
    · exact h

theorem clearCandidates {sp} : Keeps s (s.clearCandidates sp) := by
  refine ofChannels (fun n => ?_) (by unfold State.clearCandidates; rfl)
  rw [Table.get_mapIdx]
  split
  · exact .inr rfl
  · exact .inl rfl

theorem emptyLines {sp c} : Keeps s (s.emptyLines sp c) := by
  refine ofChannels (fun n => ?_) (by unfold State.emptyLines; rfl)
  rw [Table.get_mapIdx]
  split
  · exact .inr rfl
  · exact .inl rfl

/-! ## The span state machine: entries to FAILED and SUSPECT need that no code waits at the span (R176) -/

/-- No code waits at a span that is not configured. -/
theorem noneHanded_of_unconfigured {sp} (h : (s.span sp).config = none) (k : HandedInService s) : NoneHanded s sp := by
  intro p
  cases e : (s.span sp).handed.get p with
  | none => rfl
  | some x =>
    have := (k sp p (by rw [e]; rfl)).1
    rw [h] at this
    cases this

/-- After its codes are taken, no code waits at a span. -/
theorem noneHanded_takeHanded {sp} (k : HandedInService (s.takeHanded sp)) : NoneHanded (s.takeHanded sp) sp := by
  by_cases h : ((s.span sp).config).isSome = true
  · intro p
    rw [State.span_takeHanded h, if_pos rfl]
    exact Table.get_fill _ _
  · refine noneHanded_of_unconfigured ?_ k
    rw [State.config_takeHanded]
    simpa using h

theorem modSpanNoneHanded {sp f} (none : HandedInService s → NoneHanded s sp)
    (config : (f (s.span sp)).config = (s.span sp).config)
    (handed : (f (s.span sp)).handed = (s.span sp).handed) : Keeps s (s.modSpan sp f) :=
  modSpan config fun k p h => by rw [handed, none k p] at h; cases h

theorem enterService {sp} (h : HandedInService s → NoneHanded s sp) : Keeps s (s.enterService sp) := by
  unfold State.enterService
  dsimp only
  have k := @modSpanNoneHanded s sp (fun r => { r with state := .inService, faultRun := 0, cleanRun := 0 }) h rfl rfl
  split
  · exact k.trans clearCandidates
  · exact (k.trans Holds.generate.toKeeps).trans Holds.tellSpan.toKeeps
  all_goals exact ((k.trans clearCandidates).trans Holds.generate.toKeeps).trans Holds.tellSpan.toKeeps

theorem evaluate {sp c b} (h : HandedInService s → NoneHanded s sp) : Keeps s (s.evaluate sp c b) := by
  unfold State.evaluate
  dsimp only
  (repeat' split) <;> first
    | with_reducible exact refl s
    | with_reducible exact enterService h
    | with_reducible exact (Holds.failFromService h).toKeeps
    | with_reducible exact (Holds.failAgain h).toKeeps
    | exact modSpanNoneHanded h rfl rfl

/-- The configuration of every span is as it was. -/
def SameConfig (s t : State) : Prop := ∀ q, (t.span q).config = (s.span q).config

namespace SameConfig

theorem trans {s t u : State} (h : SameConfig s t) (k : SameConfig t u) : SameConfig s u := fun q => (k q).trans (h q)

theorem of_spans {s t : State} (h : t.spans = s.spans) : SameConfig s t := fun q => by unfold State.span; rw [h]

theorem modSpan {s : State} {sp f} (h : (f (s.span sp)).config = (s.span sp).config) : SameConfig s (s.modSpan sp f) :=
  fun q => by
    rw [State.span_modSpan]; split
    · next e => rw [e, h]
    · rfl

theorem generate {s : State} {sp f} : SameConfig s (s.generate sp f) := modSpan rfl
theorem tellSpan {s : State} {sp r} : SameConfig s (s.tellSpan sp r) := of_spans (by simp)
theorem clearCandidates {s : State} {sp} : SameConfig s (s.clearCandidates sp) := of_spans (by simp)

theorem failFromService {s : State} {sp c} : SameConfig s (s.failFromService sp c) := by
  unfold State.failFromService
  have k : SameConfig s (s.modSpan sp fun r => { r with state := .failed c, faultRun := 0, cleanRun := 0 }) := modSpan rfl
  exact ((k.trans generate).trans tellSpan).trans (of_spans rfl)

theorem enterService {s : State} {sp} : SameConfig s (s.enterService sp) := by
  unfold State.enterService
  dsimp only
  have k : SameConfig s (s.modSpan sp fun r => { r with state := .inService, faultRun := 0, cleanRun := 0 }) := modSpan rfl
  split
  · exact k.trans clearCandidates
  · exact (k.trans generate).trans tellSpan
  all_goals exact ((k.trans clearCandidates).trans generate).trans tellSpan

theorem evaluate {s : State} {sp c b} : SameConfig s (s.evaluate sp c b) := by
  unfold State.evaluate
  dsimp only
  (repeat' split) <;> first
    | with_reducible exact of_spans rfl
    | with_reducible exact enterService
    | with_reducible exact failFromService
    | exact modSpan rfl

theorem trackFarAlarm {s : State} {sp c b} : SameConfig s (s.trackFarAlarm sp c b) := by
  unfold State.trackFarAlarm
  dsimp only
  (repeat' split)
  · refine SameConfig.trans ?_ tellSpan
    exact modSpan rfl
  · exact modSpan rfl
  · refine SameConfig.trans ?_ tellSpan
    exact modSpan rfl
  all_goals exact modSpan rfl

end SameConfig

theorem handCodes {sp codes} (some : (s.span sp).config.isSome = true) : Keeps s (s.handCodes sp codes) := by
  have k (hs : (s.span sp).state = .starting ∨ (s.span sp).state = .inService) (f : SpanRecord → SpanRecord)
      (config : (f (s.span sp)).config = (s.span sp).config) (state : (f (s.span sp)).state = (s.span sp).state) :
      Keeps s (s.modSpan sp f) :=
    { admin := id, index := id, codes := id, lists := id, first := fun _ => id, waits := rfl
      counts := fun k => by
        have e := SameConfig.modSpan config
        unfold SameConfig at e
        simp only [CountsLawful, e]
        exact k
      handed := fun k q p h => by
        rw [State.span_modSpan] at *
        split
        · rw [state, config]; exact ⟨some, hs⟩
        · next e => rw [if_neg e] at h; exact k q p h }
  unfold State.handCodes
  split
  · next e => exact k (.inl e) _ rfl rfl
  · next e => exact k (.inr e) _ rfl rfl
  all_goals exact refl s

/-- An accepted report, at a span no position of which waits for a code (R105, R175). -/
theorem acceptReport {sp c q f codes} (h : NoneHanded s sp) (some : (s.span sp).config.isSome = true) :
    Keeps s (s.acceptReport sp c q f codes) := by
  unfold State.acceptReport
  dsimp only
  generalize s.hasGap sp q = gap
  have step : ∃ u, Keeps s u ∧ NoneHanded u sp ∧ SameConfig s u ∧
      u = (if gap then (State.modSpan sp (fun r => { r with lastSequence := Option.some q, silence := load c.silence })
        (if gap then s.reportSpan .lineGap sp else s)).clearCandidates sp else
        State.modSpan sp (fun r => { r with lastSequence := Option.some q, silence := load c.silence })
        (if gap then s.reportSpan .lineGap sp else s)) := by
    refine ⟨_, ?_, ?_, ?_, rfl⟩
    · cases gap
      · exact (Holds.modSpanSameHanded rfl rfl rfl).toKeeps
      · exact (Holds.reportSpan.trans (Holds.modSpanSameHanded rfl rfl rfl)).toKeeps.trans clearCandidates
    · intro p
      cases gap
      · simp only [Bool.false_eq_true, if_false, State.span_modSpan, if_true]; exact h p
      · simp only [if_true, State.span, State.clearCandidates_spans]
        have := State.span_modSpan (s := s.reportSpan .lineGap sp) (sp := sp) (q := sp)
          (f := fun r => { r with lastSequence := Option.some q, silence := load c.silence })
        unfold State.span at this
        rw [this, if_pos rfl]
        exact h p
    · cases gap
      · exact SameConfig.modSpan rfl
      · exact (SameConfig.modSpan (s := s.reportSpan .lineGap sp) rfl).trans SameConfig.clearCandidates
  obtain ⟨u, ku, nu, cu, e⟩ := step
  rw [← e]
  have cu' := (cu.trans (SameConfig.evaluate (c := c) (b := f.faulty) (sp := sp))).trans
    (SameConfig.trackFarAlarm (c := c) (b := f.farAlarm) (sp := sp))
  exact ((ku.trans (evaluate fun _ => nu)).trans Holds.trackFarAlarm.toKeeps).trans (handCodes (by rw [cu' sp]; exact some))

end Keeps

end Sys2Proof.Machine
end

