-- ==== Sys2Proof/Laws/KeepsRules.lean ====
section
/-! SUPPORT. What each command's own rule keeps. The rules of SET_SPAN, CLEAR_SPAN, RESTART and SPAN_REPORT can end the
freeze of a span or empty a stable code, and keep the laws alone; every other one holds frozen spans still as well. -/

namespace Sys2Proof.Machine

set_option Elab.async false

namespace Holds
variable {s : State}

theorem refuse {st} : Holds s (Sys2Proof.Machine.refuse st s).1 := refl s

theorem seizeChosen {g n r o w} (h : s.entryOf r = none) : Holds s (s.seizeChosen g n r o w) :=
  (enterOutSeized h).trans modGroup

theorem checkedRuleOnIndex {n w} {rule : State → State × Answer} (h : ∀ t, t.index = s.index → Holds t (rule t).1) :
    Holds s (Sys2Proof.Machine.checkedRule n w rule s).1 := by
  have k := @checkCall s n (some w)
  unfold Sys2Proof.Machine.checkedRule
  have i := State.checkCall_index s (n := n) (w := some w)
  split <;> next e => rw [e] at k i; first | exact k.trans (h _ i) | exact k

theorem hunt {p body} : Holds s (huntRule p body s).1 := by
  unfold huntRule
  split
  · split
    · unfold huntGroup
      split; · exact refuse
      split; · exact refuse
      split; · exact refuse
      split
      · exact refuse
      · exact refuse
      · next h _ =>
        refine checkedRuleOnIndex fun t i => seizeChosen ?_
        have := (referenceRefusal_none h).1
        simpa only [State.entryOf, i] using this
    · exact refuse
  · exact refuse

theorem seize {p body} : Holds s (seizeRule p body s).1 := by
  unfold seizeRule
  split
  · split
    · unfold seizeChannel
      split; · exact refuse
      split; · exact refuse
      split; · exact refuse
      split; · exact refuse
      next h =>
      split; · exact refuse
      refine checkedRuleOnIndex fun t i => ?_
      split
      · refine enterOutSeized ?_
        simpa only [State.entryOf, i] using (referenceRefusal_none h).1
      · exact refuse
    · exact refuse
  · exact refuse

theorem accept {p body} : Holds s (acceptRule p body s).1 := by
  unfold acceptRule
  split
  · split
    · unfold acceptChannel
      split; · exact refuse
      refine checkedRule fun t => ?_
      split; · exact refuse
      split; · exact refuse
      split; · exact refuse
      next h =>
      refine writeCall.trans (bind ?_)
      have e : ∀ n c, (t.writeCall n c).index = t.index := by simp
      simpa only [State.entryOf, e] using (referenceRefusal_none h).1
    · exact refuse
  · exact refuse

theorem atTarget {res rule body} (h : ∀ n, Holds s (rule n s).1) : Holds s
    (Sys2Proof.Machine.atTarget res rule body s).1 := by
  unfold Sys2Proof.Machine.atTarget
  (repeat' split) <;> first | exact refuse | exact h _

theorem atChannel {rule body} (h : ∀ n, Holds s (rule n s).1) : Holds s (Sys2Proof.Machine.atChannel rule body s).1 :=
    by
  unfold Sys2Proof.Machine.atChannel
  (repeat' split) <;> first | exact refuse | exact h _

theorem answer {p n} : Holds s (answerChannel p n s).1 := by
  unfold answerChannel
  refine checkedRule fun t => ?_
  split; · exact refuse
  split; · exact refuse
  exact enterConnected

theorem release {p n} : Holds s (releaseChannel p n s).1 := by
  unfold releaseChannel
  refine checkedRule fun t => ?_
  (repeat' split)
  · exact refuse
  · show Holds t (t.releaseCall n)
    unfold State.releaseCall
    split <;> first | with_reducible exact refl _ | with_reducible exact enterGuard | with_reducible exact enterClearingLocal

theorem blockLocally {p n} : Holds s (blockChannel p n s).1 := by
  unfold blockChannel
  refine checkedRule fun t => ?_
  (repeat' split)
  · exact refuse
  · show Holds t (t.blockLocally n).1
    unfold State.blockLocally
    dsimp only
    split
    · exact enterBlocked.trans drainCheckOf
    · exact blockByCondition
    all_goals exact writeFlags

theorem liftFlag {n f} : Holds s (s.liftFlag n f) := by
  unfold State.liftFlag
  split
  · exact writeFlags.trans settle
  · exact writeFlags

theorem unblock {p n} : Holds s (unblockChannel p n s).1 := by
  unfold unblockChannel
  refine checkedRule fun t => ?_
  split
  · exact liftFlag
  · exact refuse

theorem reset {p n} : Holds s (resetChannelRule p n s).1 := by
  unfold resetChannelRule
  refine checkedRule fun t => ?_
  split; · exact refuse
  split; · exact refuse
  show Holds t (t.resetCall n)
  unfold State.resetCall
  have k1 : ∀ f p r, Holds t ((t.enterGuard n f).tell p n r) := fun _ _ _ => enterGuard.trans tell
  split <;> first | with_reducible exact k1 _ _ _ | with_reducible exact enterGuard

/-- A walk over a list, each visit of which holds. -/
theorem foldl {α} {f : State → α → State} (h : ∀ t a, Holds t (f t a)) (l : List α) (s : State) : Holds s
    (l.foldl f s) := by
  induction l generalizing s with
  | nil => exact refl s
  | cons a l ih => exact (h s a).trans (ih _)

theorem drain {p body} : Holds s (drainRule p body s).1 := by
  unfold drainRule
  (repeat' split) <;> try with_reducible exact refuse
  show Holds s (s.startDrain p _)
  unfold State.startDrain
  dsimp only
  refine modGroup.trans ((foldl ?_ _ _).trans drainCheck)
  intro t n
  refine checked fun u => ?_
  split
  · exact enterBlocked
  · exact writeFlags

theorem undrain {p body} : Holds s (undrainRule p body s).1 := by
  unfold undrainRule
  (repeat' split) <;> try with_reducible exact refuse
  show Holds s (s.endDrain p _)
  unfold State.endDrain
  dsimp only
  refine modGroup.trans (foldl ?_ _ _)
  intro t n
  refine checked fun u => liftFlag

theorem nextAttention {p} : Holds s (nextAttentionRule p s).1 := by
  unfold nextAttentionRule
  split
  · exact refl s
  · next m rest e =>
    show Holds s (State.takeSnapshot _ _ _).1
    refine Holds.trans (of_lists (fun h => h.set (ListLawful.tail (m := m) (by rw [← e]; exact h p)) rfl) rfl) (t := { s with lists := s.lists.set p rest }) ?_
    unfold State.takeSnapshot
    split
    · next n _ =>
      have k := @checkCall { s with lists := s.lists.set p rest } n (some (p, .nextAttention))
      split <;> next e => rw [e] at k; exact k
    all_goals exact refl _

theorem readFaults : Holds s (readFaultsRule s).1 := by
  unfold readFaultsRule
  show Holds s (if _ then _ else _)
  split
  · exact drawn
  · exact refl s

/-! ## Configuration -/

/-- The line parts are as they were, up to the received conditions. -/
theorem of_lines {t : State} (ports : t.ports = s.ports) (index : t.index = s.index) (spans : t.spans = s.spans)
    (faults : t.faults = s.faults) (profiles : t.profiles = s.profiles) (pending : t.pending = s.pending)
    (h : ∀ n, (t.line n).count = (s.line n).count ∧ (t.line n).candidate = (s.line n).candidate ∧
      (t.line n).stable = (s.line n).stable)
    (lists : t.lists = s.lists := by first | rfl | simp) : Holds s t where
  admin := by simp only [AdminPresent, State.port, ports]; exact id
  index := by simp only [IndexLawful, index]; exact id
  codes := by simp only [CodesDistinct, profiles]; exact id
  lists := by simp only [ListsLawful, State.list, lists]; exact id
  counts := by simp only [CountsLawful, State.span, spans, h]; exact id
  handed := by simp only [HandedInService, State.span, spans]; exact id
  first := by rw [faults]; exact fun _ => id
  waits := pending
  still := fun n a b => by
    simp only [NoneHanded, State.span, spans, h] at a b ⊢
    exact ⟨a, b, trivial⟩

theorem modChannel_lines {n f} (h : ∀ r : ChannelRecord, (f r).line.count = r.line.count ∧
    (f r).line.candidate = r.line.candidate ∧ (f r).line.stable = r.line.stable) : Holds s (s.modChannel n f) := by
  refine of_lines rfl rfl rfl rfl rfl rfl fun m => ?_
  unfold State.line
  rw [State.channel_modChannel]
  split
  · next e => rw [e]; exact h _
  · exact ⟨rfl, rfl, rfl⟩

theorem setLine_received {n r} : Holds s (s.setLine n { s.line n with received := r }) := by
  refine of_lines rfl rfl rfl rfl rfl rfl fun m => ?_
  rw [State.line_setLine]
  split
  · next e => rw [e]; exact ⟨rfl, rfl, rfl⟩
  · exact ⟨rfl, rfl, rfl⟩

theorem equip {p body} : Holds s (equipRequest p body s).1 := by
  unfold equipRequest
  (repeat' split) <;> try with_reducible exact refuse
  unfold equipRule
  refine checkedRule fun t => ?_
  split
  · exact refuse
  · show Holds t (t.equipChannel _ _ _ _)
    unfold State.equipChannel
    dsimp only
    refine Holds.trans ?_ markIfChanged
    refine Holds.trans ?_ setCall
    refine Holds.trans ?_ setLine_received
    refine Holds.trans ?_ modGroup
    exact modChannel_lines fun r => ⟨rfl, rfl, rfl⟩

theorem unequip {p n} : Holds s (unequipRule p n s).1 := by
  unfold unequipRule
  refine checkedRule fun t => ?_
  split
  · show Holds t (t.unequipChannel _)
    unfold State.unequipChannel
    dsimp only
    refine Holds.trans ?_ markIfChanged
    refine Holds.trans ?_ (modSpanSameHanded rfl rfl rfl)
    refine Holds.trans ?_ (modChannel_lines fun r => ⟨rfl, rfl, rfl⟩)
    refine Holds.trans (t := t.leaveIdle n) leaveIdle ?_
    generalize t.leaveIdle n = u
    unfold State.leaveGroup
    split
    · exact modGroup.trans drainCheck
    · exact refl _
  · exact refuse

theorem setGroup {p body} : Holds s (setGroupRule p body s).1 := by
  unfold setGroupRule
  split
  · exact refuse
  · dsimp only
    split
    · exact modGroup
    · split
      · exact refuse
      · show Holds s (s.replaceGroup _ _ _ _)
        unfold State.replaceGroup
        dsimp only
        split
        · exact modGroup
        · refine modGroup.trans (foldl ?_ _ _)
          intro t n
          unfold State.changeProfileOf
          dsimp only
          have a : Holds t ((t.checkCall n (some (p, RequestCode.setGroup))).1) := checkCall
          refine a.trans ?_
          generalize (t.checkCall n (some (p, RequestCode.setGroup))).1 = u
          refine Holds.trans setLine_received (t := u.setLine n { u.line n with received := u.derivedCondition n }) ?_
          generalize u.setLine n { u.line n with received := u.derivedCondition n } = v
          split <;> split
          · exact setCall.trans markDirty
          · exact setCall
          · exact markDirty
          · exact refl _

theorem deleteGroup {body} : Holds s (deleteGroupRule body s).1 := by
  unfold deleteGroupRule
  (repeat' split) <;> try with_reducible exact refuse
  exact modGroup

/-- A profile that LOAD_PROFILE writes has distinct transmit codes (R19). -/
theorem loadProfile {body} : Holds s (loadProfileRule body s).1 := by
  unfold loadProfileRule
  (repeat' split) <;> try with_reducible exact refuse
  next k profile _ nodup _ =>
  refine ⟨⟨id, id, fun h q => ?_, id, id, id, fun _ => id, rfl⟩, fun _ a b => ⟨a, b, rfl⟩⟩
  show (((s.profiles.set k profile).get q).transmit.cells).Nodup
  rw [Table.get_set]
  split
  · simpa using nodup
  · exact h q

theorem setFaultClass {body} : Holds s (setFaultClassRule body s).1 := by
  unfold setFaultClassRule
  (repeat' split) <;> try with_reducible exact refuse
  exact of_same (fun _ => ⟨rfl, rfl⟩) rfl (fun _ => rfl) rfl rfl

theorem setPort {body} : Holds s (setPortRule body s).1 := by
  unfold setPortRule
  (repeat' split) <;> try with_reducible exact refuse
  unfold writePortRule
  split; · exact refuse
  split; · exact refuse
  next h =>
  split; · exact refuse
  refine ⟨⟨fun _ => ?_, id, id, id, id, id, fun _ => id, rfl⟩, fun _ a b => ⟨a, b, rfl⟩⟩
  simp only [Bool.not_eq_eq_eq_not, Bool.not_true] at h
  rw [Bool.not_eq_false] at h
  unfold State.hasAdmin at h
  obtain ⟨q, hq⟩ := Table.any_iff.1 h
  rw [Bool.and_eq_true] at hq
  exact ⟨q, hq⟩

theorem setDevice {body} : Holds s (setDeviceRule body s).1 := by
  unfold setDeviceRule
  (repeat' split) <;> try with_reducible exact refuse
  exact of_rest rfl rfl rfl rfl rfl

/-! ## Transfer, restart, notices, expiries and walks -/

theorem transfer {p tag body} (he : (s.port p).enabled = true) (ha : (s.port p).admin = true) : Holds s
    (State.transferRequest p tag body s) := by
  unfold State.transferRequest
  split
  · split
    · next source target _ _ =>
      split; · exact respond
      split; · exact respond
      next h _ =>
      refine Holds.trans (t := s.startTransfer source target p) ?_ beginLong
      refine ⟨⟨fun _ => ⟨p, ?_⟩, id, id, ?_, ?_, id, fun _ => id, rfl⟩, ?_⟩
      · have : p ≠ source := fun e => h (.inr (.inl e.symm))
        have : (s.startTransfer source target p).port p = s.port p := by
          unfold State.startTransfer State.port
          dsimp only
          rw [Table.get_update_other _ _ this]
        rw [this]; exact ⟨he, ha⟩
      · have e : ∀ sp, (s.startTransfer source target p).span sp = { s.span sp with config := (s.span sp).config.map fun c => { c with maintenance := moved source target c.maintenance } } := by
          intro sp; unfold State.startTransfer State.span; dsimp only; rw [Table.get_map]
        have l : ∀ n, (s.startTransfer source target p).line n = s.line n := fun n => rfl
        intro k
        refine ⟨fun q d h => ?_, fun n d h => ?_, fun n h => ?_, fun n h => ?_⟩
        · rw [e] at h
          obtain ⟨c, hc, rfl⟩ := Option.map_eq_some_iff.1 h
          exact k.1 q c hc
        · rw [e] at h
          obtain ⟨c, hc, rfl⟩ := Option.map_eq_some_iff.1 h
          exact k.2.1 n c hc
        · rw [e] at h
          exact k.2.2.1 n (by simpa using h)
        · exact k.2.2.2 n h
      · intro k q x h
        have e : ∀ sp, (s.startTransfer source target p).span sp = { s.span sp with config := (s.span sp).config.map fun c => { c with maintenance := moved source target c.maintenance } } := by
          intro sp; unfold State.startTransfer State.span; dsimp only; rw [Table.get_map]
        rw [e] at h ⊢
        obtain ⟨h1, h2⟩ := k q x h
        exact ⟨by simpa using h1, h2⟩
      · intro n a b
        have e : ∀ sp, ((s.startTransfer source target p).span sp).state = (s.span sp).state ∧
            ((s.startTransfer source target p).span sp).handed = (s.span sp).handed := by
          intro sp; unfold State.startTransfer State.span; dsimp only; rw [Table.get_map]; exact ⟨rfl, rfl⟩
        unfold NoneHanded
        rw [(e _).1, (e _).2]
        exact ⟨a, b, rfl⟩
    · exact respond
  · exact respond

theorem completeRestart {r} : Holds s (s.completeRestart r) := by
  unfold State.completeRestart
  refine Holds.trans (Holds.trans (t := { s with
      restart := none
      spans := s.spans.map fun x =>
        match x.config with
        | some c => { x with silence := load c.silence }
        | none => x
      scrub := { s.scrub with timer := load s.scrub.interval }
      link := { s.link with refreshTimer := load s.link.refreshInterval } }) ?_ buildIfIdle) finishLong
  generalize hf : (fun x : SpanRecord => match x.config with
        | some c => { x with silence := load c.silence }
        | none => x) = f
  have e : ∀ x, (f x).config = x.config ∧ (f x).handed = x.handed ∧ (f x).state = x.state := by
    intro x; rw [← hf]; dsimp only; split <;> simp_all
  refine ⟨⟨id, id, id, fun k => ?_, fun k => ?_, id, fun _ => id, rfl⟩, fun n a b => ?_⟩
  · refine ⟨fun q d h => ?_, fun n d h => ?_, fun n h => ?_, fun n h => k.2.2.2 n h⟩
    · change ((s.spans.map f).get q).config = _ at h
      rw [Table.get_map, (e _).1] at h; exact k.1 q d h
    · change ((s.spans.map f).get _).config = _ at h
      rw [Table.get_map, (e _).1] at h; exact k.2.1 n d h
    · change ((s.spans.map f).get _).config = _ at h
      rw [Table.get_map, (e _).1] at h; exact k.2.2.1 n h
  · intro q x h
    change (((s.spans.map f).get q).handed.get x).isSome = true at h
    rw [Table.get_map, (e _).2.1] at h
    have := k q x h
    show ((s.spans.map f).get q).config.isSome = true ∧ (((s.spans.map f).get q).state = _ ∨ ((s.spans.map f).get q).state = _)
    rw [Table.get_map, (e _).2.2, (e _).1]
    exact this
  · have x : ∀ sp, (({ s with spans := s.spans.map f } : State).span sp).state = (s.span sp).state ∧
        (({ s with spans := s.spans.map f } : State).span sp).handed = (s.span sp).handed := by
      intro sp
      change ((s.spans.map f).get sp).state = _ ∧ ((s.spans.map f).get sp).handed = _
      rw [Table.get_map, (e _).2.1, (e _).2.2]
      exact ⟨rfl, rfl⟩
    have y := x (spanOf n)
    refine ⟨?_, fun q => ?_, rfl⟩
    · exact (congrArg isFrozen y.1).trans a
    · exact (congrArg (fun t : Table (Option LineCode) 32 => t.get q) y.2).trans (b q)

theorem takeRestartCompletion : Holds s (takeRestartCompletion s) := by
  unfold Sys2Proof.Machine.takeRestartCompletion
  (repeat' split) <;> first | exact completeRestart | exact refl s

theorem takeNotice {n k eff} (h : ∀ t, Holds t (eff t)) : Holds s (s.takeNotice n k eff) := by
  unfold State.takeNotice
  split
  · exact Holds.trans (modSpanSameHanded rfl rfl rfl) (checked h)
  · exact refl s

theorem spanDownEffect {n} : Holds s (s.spanDownEffect n) := by
  unfold State.spanDownEffect
  dsimp only
  have k1 : ∀ f, Holds s ((s.enterFault n .span f).drainCheckOf n) := fun _ => enterFault.trans drainCheckOf
  have k2 : ∀ f p r, Holds s (((s.enterFault n .span f).tell p n r).drainCheckOf n) :=
    fun _ _ _ => (enterFault.trans tell).trans drainCheckOf
  split
  · exact refl s
  · exact writeFlags
  · exact k1 _
  · exact k1 _
  · exact k1 _
  all_goals exact k2 _ _ _

theorem spanUpEffect {n} : Holds s (s.spanUpEffect n) := by
  unfold State.spanUpEffect
  split
  · exact enterGuard
  · exact refl s

theorem expire {n st} {eff : State → State} (h : ∀ t, Holds t (eff t)) : Holds s
    (Sys2Proof.Machine.expire n st eff s) := by
  unfold Sys2Proof.Machine.expire
  split
  · refine checked fun t => ?_
    split
    · exact h t
    · exact refl t
  · exact refl s

theorem expireGuard {n} : Holds s (Sys2Proof.Machine.expireGuard n s) := expire fun _ => settle
theorem expireProceed {n} : Holds s (Sys2Proof.Machine.expireProceed n s) := expire fun _ => enterClearingLocal.trans
    tell
theorem expireAnswer {n} : Holds s (Sys2Proof.Machine.expireAnswer n s) := expire fun _ => enterClearingLocal.trans tell
theorem expireOffer {n} : Holds s (Sys2Proof.Machine.expireOffer n s) := expire fun _ => enterClearingLocal.trans
    tellMaintenance
theorem expireRelease {n} : Holds s (Sys2Proof.Machine.expireRelease n s) := expire fun _ =>
    ((enterFault.trans tell).trans report).trans drainCheckOf
theorem expireFarClear {n} : Holds s (Sys2Proof.Machine.expireFarClear n s) := expire fun _ => enterGuard.trans tell

theorem expireSilence {sp} : Holds s (Sys2Proof.Machine.expireSilence sp s) := by
  unfold Sys2Proof.Machine.expireSilence
  split
  · have k1 : Holds s (s.takeHanded sp) := takeHanded
    have hn : HandedInService (s.takeHanded sp) → NoneHanded (s.takeHanded sp) sp := Keeps.noneHanded_takeHanded
    generalize s.takeHanded sp = t at k1 hn ⊢
    refine k1.trans ?_
    unfold State.silenceEffect
    dsimp only
    have k0 : Holds t (t.modSpan sp fun r => { r with lastSequence := none, farRun := 0, silence := none }) := modSpanSameHanded rfl rfl rfl
    have hn' : HandedInService (t.modSpan sp fun r => { r with lastSequence := none, farRun := 0, silence := none }) →
        NoneHanded (t.modSpan sp fun r => { r with lastSequence := none, farRun := 0, silence := none }) sp := by
      intro k p
      by_cases hh : HandedInService t
      · rw [State.span_modSpan, if_pos rfl]; exact hn hh p
      · refine absurd (fun q x h => ?_) hh
        by_cases e : q = sp
        · subst e
          have := k q x (by rw [State.span_modSpan, if_pos rfl]; exact h)
          rw [State.span_modSpan, if_pos rfl] at this
          exact this
        · have := k q x (by rw [State.span_modSpan, if_neg e]; exact h)
          rw [State.span_modSpan, if_neg e] at this
          exact this
    split
    · exact k0.trans (failFromService hn')
    · exact k0.trans (failFromService hn')
    · exact k0.trans (failAgain hn')
    · exact k0
    · exact k0
    · exact k0.trans (modSpanSameHanded rfl rfl rfl)
  · exact refl s

theorem takeOccurrence {o} : Holds s (s.takeOccurrence o) := by
  unfold State.takeOccurrence
  dsimp only
  split
  · exact refl s
  · have k1 : Holds s { s with faults := { s.faults with classes := s.faults.classes.update (classNo o.cls) fun r =>
      { r with count := if r.count = 255 then r.count else r.count + 1 } } } := of_same (fun _ => ⟨rfl, rfl⟩) rfl (fun _ => rfl) rfl rfl
    generalize ({ s with faults := { s.faults with classes := s.faults.classes.update (classNo o.cls) fun r =>
      { r with count := if r.count = 255 then r.count else r.count + 1 } } } : State) = t at k1 ⊢
    have k2 : Holds s (if (s.faultClass o.cls).report = true then t.notify (s.faultClass o.cls).target .fault (.fault o.cls) else t) := by
      split
      · exact k1.trans (notify rfl)
      · exact k1
    generalize (if (s.faultClass o.cls).report = true then t.notify (s.faultClass o.cls).target .fault (.fault o.cls) else t) = u at k2 ⊢
    split
    · refine k2.trans ?_
      unfold State.captureOrJoin
      split
      · next h => exact ⟨⟨id, id, id, id, id, id, fun f e => absurd e (by rw [h]; exact nofun), rfl⟩, fun _ a b => ⟨a, b, rfl⟩⟩
      · exact of_same (fun _ => ⟨rfl, rfl⟩) rfl (fun _ => rfl) rfl rfl
    · exact k2

theorem takeReported {i} : Holds s (s.takeReported i) := by
  unfold State.takeReported
  split
  · exact refl s
  · exact Holds.trans (t := { s with faults := { s.faults with reported := s.faults.reported.eraseIdx i } }) (of_same (fun _ => ⟨rfl, rfl⟩) rfl (fun _ => rfl) rfl rfl) takeOccurrence

theorem purgeVisit : Holds s (takePurgeVisit s) := by
  unfold takePurgeVisit
  split
  · unfold State.purgeVisit
    have k1 : Holds s (s.freeStale s.purge.cursor) := by
      unfold State.freeStale
      dsimp only
      refine Holds.trans ?_ (foldl (fun t e => tell) _ _)
      refine of_index rfl rfl rfl rfl fun l => l.of_subset fun k w e h => ?_
      change ((s.index.update _ _).get k).get w = _ at h
      rw [Table.get_update] at h
      split at h
      · next e =>
        rw [Table.get_map] at h
        subst e
        refine ⟨_, ((Option.filter_eq_some_iff).1 h).1⟩
      · exact ⟨_, h⟩
    refine k1.trans ?_
    exact of_rest rfl rfl rfl rfl rfl
  · exact refl s

theorem sweepVisit : Holds s (takeSweepVisit s) := by
  unfold takeSweepVisit
  split
  · next t _ =>
    split
    · unfold State.sweepVisit
      dsimp only
      have k1 : Holds s (s.sweepSet t) := by
        unfold State.sweepSet
        refine of_index rfl rfl rfl rfl fun l => l.of_subset fun k w e h => ?_
        change ((s.index.update _ _).get k).get w = _ at h
        rw [Table.get_update] at h
        split at h
        · next e =>
          rw [Table.get_map] at h
          subst e
          obtain ⟨x, hx, he⟩ := Option.map_eq_some_iff.1 h
          refine ⟨x.owner, ?_⟩
          rw [hx, ← he]
          split <;> rfl
        · exact ⟨_, h⟩
      split
      · refine k1.trans ?_
        unfold State.completeTransfer
        dsimp only
        generalize s.sweepSet t = u
        have merged : Holds u { u with
            lists := (u.lists.set t.target (mergeLists (u.list t.source) (u.list t.target))).set t.source [] } :=
          of_lists (fun h => ListsLawful.set (s := { u with
            lists := u.lists.set t.target (mergeLists (u.list t.source) (u.list t.target)) })
            (h.set ((h t.source).merge (h t.target)) rfl) ListLawful.nil rfl) rfl
        refine Holds.trans (merged.trans ?_) finishLong
        exact of_rest rfl rfl rfl rfl rfl
      · exact k1.trans (of_rest rfl rfl rfl rfl rfl)
    · exact refl s
  · exact refl s

theorem scrubVisit : Holds s (takeScrubVisit s) := by
  unfold takeScrubVisit
  split
  · unfold State.scrubVisit
    dsimp only
    refine Holds.trans (checked fun t => refl t) ?_ (t := s.checked s.scrub.cursor none id)
    exact of_rest rfl rfl rfl rfl rfl
  · exact refl s

theorem refresh : Holds s (expireRefresh s) := by
  unfold expireRefresh
  split
  · dsimp only
    refine Holds.trans (of_rest rfl rfl rfl rfl rfl) (foldl ?_ _ _) (t := { s with link := { s.link with refreshTimer := load s.link.refreshInterval } })
    intro t sp
    split
    · exact allDirty
    · exact refl t
  · exact refl s

theorem sendingEnds : Holds s (endSending s) := by
  unfold endSending
  split
  · exact refl s
  · exact Holds.trans (of_rest rfl rfl rfl rfl rfl) buildIfIdle (t := { s with link := { s.link with transmitter := none } })

theorem supervision {n} : Holds s (expireSupervision n s) := by
  unfold expireSupervision
  split
  · exact expireGuard
  · exact expireProceed
  · exact expireAnswer
  · exact expireOffer
  · exact expireRelease
  · exact expireFarClear
  all_goals exact refl s

theorem span_countStep (sp : SpanNo) :
    (Sys2Proof.Machine.countStep s).span sp = { s.span sp with silence := countDown (s.span sp).silence } := Table.get_map ..

theorem line_countStep (n : ChannelNo) : (Sys2Proof.Machine.countStep s).line n = s.line n := by
  unfold State.line State.channel Sys2Proof.Machine.countStep
  dsimp only
  rw [Table.get_map]

theorem countStep : Holds s (Sys2Proof.Machine.countStep s) where
  admin := id
  index := id
  codes := id
  lists := id
  counts := by simp only [CountsLawful, line_countStep, span_countStep]; exact id
  handed := by simp only [HandedInService, span_countStep]; exact id
  first := fun _ => id
  waits := rfl
  still := fun n a b => by
    simp only [NoneHanded, line_countStep, span_countStep]
    exact ⟨a, b, trivial⟩

theorem dueEvent {d} : Holds s (takeDue d s) := by
  unfold takeDue
  split
  · exact event supervision
  · exact event expireSilence
  · exact purgeVisit
  · exact sweepVisit
  · exact event scrubVisit
  · exact event refresh
  · exact takeRestartCompletion

theorem timebase : Holds s (timebaseStep s) := by
  unfold timebaseStep
  exact (takeInFreeOrder (fun _ _ => dueEvent) _ _ _).trans countStep

theorem readAtPort {p c} : Holds s (readTransfer p c s) := by
  unfold readTransfer
  split
  · exact refl s
  · dsimp only
    split
    · exact driveSdo
    · exact driveSdo
    · split
      · exact driveSdo.trans (modPort fun _ => ⟨rfl, rfl⟩)
      · exact driveSdo

theorem rehunt {g} : Holds s (takeRehunt g s) := by
  unfold takeRehunt
  split
  · exact refl s
  · next r rest _ =>
    dsimp only
    have k1 : Holds s (s.modGroup g fun x => { x with rehunts := rest }) := modGroup
    generalize s.modGroup g (fun x => { x with rehunts := rest }) = t at k1 ⊢
    split
    · exact k1
    · split
      · refine k1.trans ?_
        unfold State.rehuntCall
        dsimp only
        split
        · exact tell
        · split
          · exact tell
          · exact tell
          · next n h _ =>
            have kc := @checkCall t n none
            have i := State.checkCall_index t (n := n) (w := none)
            split
            · next e => rw [e] at kc; exact kc.trans tell
            · next e =>
              rw [e] at kc i
              dsimp only at i
              refine kc.trans (Holds.trans (seizeChosen ?_) tell)
              simpa only [State.entryOf, i] using (referenceRefusal_none h).1
      · exact k1.trans tell

end Holds

namespace Keeps
variable {s : State}

/-! ## SET_SPAN, CLEAR_SPAN, RESTART and SPAN_REPORT -/

theorem depth_spanFields {body sp c} (h : spanFields body = some (sp, c)) : 1 ≤ c.depth ∧ c.depth ≤ 7 := by
  unfold spanFields at h
  split at h
  · simp only [Option.bind_eq_bind, Option.bind_eq_some_iff] at h
    obtain ⟨_, _, _, _, d, hd, _, _, _, _, _, _, _, _, _, _, h⟩ := h
    cases h
    unfold rangeField at hd
    split at hd
    · cases hd; assumption
    · cases hd
  · cases h

theorem configureSpan {sp c} (hd : 1 ≤ c.depth ∧ c.depth ≤ 7) (hn : (s.span sp).config = none) : Keeps s
    (s.configureSpan sp c) := by
  unfold State.configureSpan
  refine Keeps.trans ?_ (Holds.modLinkSpan.trans Holds.allDirty).toKeeps
  refine ⟨id, id, id, fun k => ?_, fun k => ?_, id, fun _ => id, rfl⟩
  · refine ⟨fun q d h => ?_, fun n d h => ?_, fun n h => ?_, fun n h => k.2.2.2 n h⟩
    · rw [State.span_modSpan] at h; split at h
      · cases h; exact hd
      · exact k.1 q d h
    · show (s.line n).count < _
      rw [State.span_modSpan] at h; split at h
      · next e => cases h; rw [k.2.2.1 n (by rw [e]; exact hn)]; exact hd.1
      · exact k.2.1 n d h
    · show (s.line n).count = 0
      rw [State.span_modSpan] at h; split at h
      · cases h
      · exact k.2.2.1 n h
  · intro q p h
    rw [State.span_modSpan] at h ⊢
    split
    · exact ⟨rfl, .inl rfl⟩
    · next e => rw [if_neg e] at h; exact k q p h

theorem clearSpan {sp} : Keeps s (s.clearSpan sp) := by
  unfold State.clearSpan
  have k1 : ∀ n, (((s.modSpan sp fun _ => powerOnSpan).modLinkSpan sp fun _ => powerOnLinkSpan).emptyLines sp 0).line n =
     if spanOf n = sp then emptyLine else s.line n := by
    intro n
    unfold State.emptyLines State.line State.channel
    dsimp only
    rw [Table.get_mapIdx]
    simp only [Nat.zero_le, and_true]
    split <;> rfl
  have k2 : ∀ q, (((s.modSpan sp fun _ => powerOnSpan).modLinkSpan sp fun _ => powerOnLinkSpan).emptyLines sp 0).span q =
     if q = sp then powerOnSpan else s.span q := by
    intro q
    have : (((s.modSpan sp fun _ => powerOnSpan).modLinkSpan sp fun _ => powerOnLinkSpan).emptyLines sp 0).spans = (s.modSpan sp fun _ => powerOnSpan).spans := by simp
    unfold State.span; rw [this]; exact State.span_modSpan
  have keepC : (((s.modSpan sp fun _ => powerOnSpan).modLinkSpan sp fun _ => powerOnLinkSpan).emptyLines sp 0).profiles = s.profiles := by simp
  have keepW : (((s.modSpan sp fun _ => powerOnSpan).modLinkSpan sp fun _ => powerOnLinkSpan).emptyLines sp 0).pending = s.pending := by simp
  have keepRest : (((s.modSpan sp fun _ => powerOnSpan).modLinkSpan sp fun _ => powerOnLinkSpan).emptyLines sp 0).ports = s.ports := by simp
  have keepI : (((s.modSpan sp fun _ => powerOnSpan).modLinkSpan sp fun _ => powerOnLinkSpan).emptyLines sp 0).index = s.index := by simp
  have keepF : (((s.modSpan sp fun _ => powerOnSpan).modLinkSpan sp fun _ => powerOnLinkSpan).emptyLines sp 0).faults = s.faults := by simp
  have keepL : (((s.modSpan sp fun _ => powerOnSpan).modLinkSpan sp fun _ => powerOnLinkSpan).emptyLines sp 0).lists = s.lists := by simp
  revert k1 k2 keepC keepW keepRest keepI keepF keepL
  generalize ((s.modSpan sp fun _ => powerOnSpan).modLinkSpan sp fun _ => powerOnLinkSpan).emptyLines sp 0 = t
  intro k1 k2 kc kw kp ki kf kl
  refine ⟨by simp only [AdminPresent, State.port, kp]; exact id, by simp only [IndexLawful, ki]; exact id, by simp only [CodesDistinct, kc]; exact id, fun k => ?_, fun k => ?_, by simp only [ListsLawful, State.list, kl]; exact id, by rw [kf]; exact fun _ => id, kw⟩
  · refine ⟨fun q d h => ?_, fun n d h => ?_, fun n h => ?_, fun n h => ?_⟩
    · rw [k2] at h; split at h; · cases h
      · exact k.1 q d h
    · rw [k2] at h; split at h; · cases h
      · next e => rw [k1, if_neg e]; exact k.2.1 n d h
    · rw [k2] at h; rw [k1]; split at h
      · next e => rw [if_pos e]; rfl
      · next e => rw [if_neg e]; exact k.2.2.1 n h
    · rw [k1] at h ⊢; split
      · rfl
      · next e => rw [if_neg e] at h; exact k.2.2.2 n h
  · intro q p h
    rw [k2] at h ⊢
    split
    · next e => rw [if_pos e] at h; simp [powerOnSpan] at h
    · next e => rw [if_neg e] at h; exact k q p h

theorem replaceSpan {sp old new} (hd : 1 ≤ new.depth ∧ new.depth ≤ 7) (ho : (s.span sp).config = some old) :
   Keeps s (s.replaceSpan sp old new) := by
  have key : ∀ n, (s.replaceSpan sp old new).line n = s.line n ∧ (spanOf n = sp → old.depth ≤ new.depth) ∨
      (s.replaceSpan sp old new).line n = emptyLine ∧ spanOf n = sp ∨ spanOf n = sp ∧ ((s.replaceSpan sp old new).line n).count = 0 ∧
        ((s.replaceSpan sp old new).line n).candidate = none := by
    intro n
    unfold State.replaceSpan
    dsimp only
    by_cases hs : spanOf n = sp
    · by_cases h2 : new.depth < old.depth
      · right; right
        refine ⟨hs, ?_⟩
        rw [if_pos h2]
        unfold State.clearCandidates State.line State.channel
        dsimp only
        rw [Table.get_mapIdx, if_pos hs]
        exact ⟨rfl, rfl⟩
      · rw [if_neg h2]
        split
        · by_cases h3 : new.count ≤ (positionOf n).val
          · right; left
            unfold State.emptyLines State.line State.channel
            dsimp only
            rw [Table.get_mapIdx, if_pos ⟨hs, h3⟩]
            exact ⟨rfl, hs⟩
          · left
            unfold State.emptyLines State.line State.channel
            dsimp only
            rw [Table.get_mapIdx, if_neg (fun h => h3 h.2)]
            exact ⟨rfl, fun _ => by omega⟩
        · left; exact ⟨rfl, fun _ => by omega⟩
    · left
      refine ⟨?_, fun h => absurd h hs⟩
      have a : ∀ u : State, (u.clearCandidates sp).line n = u.line n := by
        intro u
        unfold State.clearCandidates State.line State.channel
        dsimp only
        rw [Table.get_mapIdx, if_neg hs]
      have b : ∀ u : State, ∀ c, (u.emptyLines sp c).line n = u.line n := by
        intro u c
        unfold State.emptyLines State.line State.channel
        dsimp only
        rw [Table.get_mapIdx, if_neg (fun h => hs h.1)]
      split <;> split <;> (try simp only [a, b]) <;> rfl
  have k2 : ∀ q, (s.replaceSpan sp old new).span q = if q = sp then { s.span sp with config := some new } else s.span q := by
    intro q
    unfold State.replaceSpan
    dsimp only
    have k := @State.span_modSpan s sp q (fun r => { r with config := some new })
    have key : ∀ u : State, u.spans = (s.modSpan sp fun r => { r with config := some new }).spans → u.span q = if q = sp then { s.span sp with config := some new } else s.span q := by
      intro u hu; rw [← k]; unfold State.span; rw [hu]
    split <;> split <;> apply key
    · simp
    · simp
    · simp
    · rfl
  have kp : (s.replaceSpan sp old new).ports = s.ports := by
    unfold State.replaceSpan; dsimp only; split <;> split <;> simp
  have kw : (s.replaceSpan sp old new).pending = s.pending := by
    unfold State.replaceSpan; dsimp only; split <;> split <;> simp
  have kc : (s.replaceSpan sp old new).profiles = s.profiles := by
    unfold State.replaceSpan; dsimp only; split <;> split <;> simp
  have ki : (s.replaceSpan sp old new).index = s.index := by
    unfold State.replaceSpan; dsimp only; split <;> split <;> simp
  have kf : (s.replaceSpan sp old new).faults = s.faults := by
    unfold State.replaceSpan; dsimp only; split <;> split <;> simp
  have kl : (s.replaceSpan sp old new).lists = s.lists := by
    unfold State.replaceSpan; dsimp only; split <;> split <;> simp
  revert key k2 kc kw kp ki kf kl
  generalize s.replaceSpan sp old new = t
  intro key k2 kp kw kc ki kf kl
  refine ⟨by simp only [AdminPresent, State.port, kp]; exact id, by simp only [IndexLawful, ki]; exact id, by simp only [CodesDistinct, kc]; exact id, fun k => ?_, fun k => ?_, by simp only [ListsLawful, State.list, kl]; exact id, by rw [kf]; exact fun _ => id, kw⟩
  · refine ⟨fun q d h => ?_, fun n d h => ?_, fun n h => ?_, fun n h => ?_⟩
    · rw [k2] at h; split at h
      · cases h; exact hd
      · exact k.1 q d h
    · rw [k2] at h
      rcases key n with ⟨e, h2⟩ | ⟨e, h2⟩ | ⟨h2, e, _⟩
      · rw [e]; split at h
        · next hs => cases h; exact (k.2.1 n old (by rw [hs]; exact ho)).trans_le (h2 hs)
        · exact k.2.1 n d h
      · rw [if_pos h2] at h; cases h; rw [e]; exact hd.1
      · rw [if_pos h2] at h; cases h; rw [e]; exact hd.1
    · rw [k2] at h; split at h
      · cases h
      · next hs =>
        rcases key n with ⟨e, h2⟩ | ⟨e, h2⟩ | ⟨h2, e, _⟩
        · rw [e]; exact k.2.2.1 n h
        · exact absurd h2 hs
        · exact absurd h2 hs
    · rcases key n with ⟨e, h2⟩ | ⟨e, h2⟩ | ⟨h2, e, _⟩
      · rw [e] at h ⊢; exact k.2.2.2 n h
      · rw [e]; rfl
      · exact e
  · intro q p h
    rw [k2] at h ⊢
    split
    · next e => rw [if_pos e] at h; exact ⟨rfl, (k sp p h).2⟩
    · next e => rw [if_neg e] at h; exact k q p h

theorem setSpan {body} : Keeps s (setSpanRule body s).1 := by
  unfold setSpanRule
  split
  · exact refl s
  · next h =>
    dsimp only
    split
    · next hn => exact configureSpan (by have := depth_spanFields h; exact this) hn
    · next old ho =>
      split
      · exact refl s
      · refine Keeps.trans Holds.takeHanded.toKeeps (replaceSpan (by have := depth_spanFields h; exact this) ?_)
        rw [State.span_takeHanded (by rw [ho]; rfl), if_pos rfl]; exact ho

theorem clearSpanRequest {body} : Keeps s (clearSpanRule body s).1 := by
  unfold clearSpanRule
  (repeat' split) <;> try with_reducible exact Holds.refuse.toKeeps
  show Keeps s ((s.takeHanded _).clearSpan _)
  next sp _ _ _ =>
  have k1 : Keeps s (s.takeHanded sp) := Holds.takeHanded.toKeeps
  generalize s.takeHanded sp = u at k1 ⊢
  show Keeps s (State.clearSpan sp u)
  exact Keeps.trans k1 clearSpan

theorem restart {p tag} : Keeps s (State.beginRestart p tag s) := by
  unfold State.beginRestart
  dsimp only
  have k1 : Keeps s s.takeAllHanded := (Holds.takeInFreeOrder (fun _ _ => Holds.event Holds.integrate) _ _ _).toKeeps
  refine k1.trans ?_
  generalize s.takeAllHanded = t
  have k2 : Keeps t t.abortTransfer := by
    unfold State.abortTransfer
    split
    · have a : Holds t { t with transfer := none } := Holds.of_rest rfl rfl rfl rfl rfl
      exact (a.trans Holds.finishLong).toKeeps
    · exact refl _
  generalize t.transfer.map _ = ab
  refine k2.trans ?_
  generalize t.abortTransfer = u
  have p1 : ∀ q, (restartPort p ab tag q (u.port q)).enabled = (u.port q).enabled ∧ (restartPort p ab tag q (u.port q)).admin = (u.port q).admin := by
    intro q; unfold restartPort; split; · exact ⟨rfl, rfl⟩
    split <;> exact ⟨rfl, rfl⟩
  refine ⟨?_, ?_, id, ?_, ?_, ?_, ?_, rfl⟩
  · rintro ⟨q, h⟩
    refine ⟨q, ?_⟩
    show ((u.ports.mapIdx (restartPort p ab tag)).get q).enabled = true ∧ ((u.ports.mapIdx (restartPort p ab tag)).get q).admin = true
    rw [Table.get_mapIdx]
    show (restartPort p ab tag q (u.port q)).enabled = true ∧ (restartPort p ab tag q (u.port q)).admin = true
    rw [(p1 q).1, (p1 q).2]; exact h
  · intro _
    have : ∀ k w, ((Table.fill 128 (Table.fill 4 (none : Option IndexEntry))).get k).get w = none := by simp
    constructor
    · intro k w e h
      change ((Table.fill 128 (Table.fill 4 (none : Option IndexEntry))).get k).get w = _ at h
      rw [this] at h; cases h
    · intro k w e k' w' e' h
      change ((Table.fill 128 (Table.fill 4 (none : Option IndexEntry))).get k).get w = _ at h
      rw [this] at h; cases h
  · intro k
    refine ⟨fun q d h => ?_, fun n d h => ?_, fun n h => ?_, fun n h => ?_⟩
    · change ((u.spans.map restartSpan).get q).config = _ at h
      rw [Table.get_map] at h
      exact k.1 q d h
    · change ((u.spans.map restartSpan).get _).config = _ at h
      rw [Table.get_map] at h
      change ((u.channels.map restartChannel).get n).line.count < _
      rw [Table.get_map]
      exact (k.1 _ d h).1
    · change ((u.channels.map restartChannel).get n).line.count = _
      rw [Table.get_map]; rfl
    · change ((u.channels.map restartChannel).get n).line.count = _
      rw [Table.get_map]; rfl
  · intro k q x h
    change (((u.spans.map restartSpan).get q).handed.get x).isSome = true at h
    rw [Table.get_map] at h
    simp [restartSpan, powerOnSpan] at h
  · intro _ q
    change ListLawful ((Table.fill 4 ([] : List Member)).get q)
    rw [Table.get_fill]
    exact ListLawful.nil
  · exact fun _ => id

theorem checkedMessage {m} : Keeps s (s.checkedMessage m) := by
  rcases m with _ | ⟨kind, _ | ⟨span, _ | ⟨sequence, _ | ⟨flags, _ | ⟨count, rest⟩⟩⟩⟩⟩
  · exact refl s
  · exact refl s
  · exact refl s
  · exact refl s
  · exact refl s
  unfold State.checkedMessage
  dsimp only
  split; · exact Holds.report.toKeeps
  cases numbered 16 span.toNat with
  | none => exact Holds.report.toKeeps
  | some sp =>
    dsimp only
    cases hc : (s.span sp).config with
    | none => exact Holds.reportSpan.toKeeps
    | some c =>
      dsimp only
      split; · exact Holds.reportSpan.toKeeps
      refine Holds.takeHanded.toKeeps.trans (acceptReport ?_ ?_)
      · intro p
        rw [State.span_takeHanded (by rw [hc]; rfl), if_pos rfl]; simp
      · rw [State.span_takeHanded (by rw [hc]; rfl), if_pos rfl]; rw [hc]; rfl

theorem messageArrives {m} : Keeps s (s.messageArrives m) := by
  unfold State.messageArrives
  split; · exact refl s
  split; · exact Holds.report.toKeeps
  exact checkedMessage

end Keeps

end Sys2Proof.Machine
end

