-- ==== Sys2Proof/Laws/Orders.lean ====
section
/-! SUPPORT. Waiting events that are taken in a free order: some order of all of them, and the codes that wait so taken. -/

namespace Sys2Proof.Machine

set_option Elab.async false

open State

variable {s : State}

/-- Events taken in a free order are taken in some order of theirs, each at what those before it left but for the drawn
counter. -/
theorem takeInFreeOrder_reaches {α : Type} {take : α → State → State} {one : α → State → State → Prop}
    (h : ∀ a u k, one a u (take a { u with freeCount := k })) :
    ∀ (fuel : Nat) (l : List α) (s : State), l.length ≤ fuel →
      ∃ order : List α, order.Perm l ∧ Reaches one order s (State.takeInFreeOrder take fuel l s)
  | 0, [], _, _ => ⟨[], .refl _, rfl⟩
  | 0, _ :: _, _, k => absurd k (by simp)
  | _ + 1, [], _, _ => ⟨[], .refl _, rfl⟩
  | _ + 1, [a], s, _ => ⟨[a], .refl _, _, h a s s.freeCount, rfl⟩
  | fuel + 1, a :: b :: rest, s, k => by
    rw [State.takeInFreeOrder]
    set l := a :: b :: rest with hl
    set i := Config.order s.freeCount % l.length with hi
    have hlen : i < l.length := Nat.mod_lt _ (by simp [hl])
    have len : (l.eraseIdx i).length ≤ fuel := by
      rw [List.length_eraseIdx_of_lt hlen]; omega
    obtain ⟨order, p, r⟩ := takeInFreeOrder_reaches h fuel (l.eraseIdx i) (take (l.getD i a) s.drawn) len
    refine ⟨l.getD i a :: order, (p.cons _).trans ?_, _, h _ s (s.freeCount + 1), r⟩
    rw [List.getD_eq_getElem _ _ hlen]
    exact List.getElem_cons_eraseIdx_perm hlen

theorem takeInFreeOrder_map {α β : Type} {take : β → State → State} {f : α → β} :
    ∀ (fuel : Nat) (l : List α) (s : State),
      State.takeInFreeOrder (fun a => take (f a)) fuel l s = State.takeInFreeOrder take fuel (l.map f) s
  | 0, _, _ => rfl
  | _ + 1, [], _ => rfl
  | _ + 1, [_], _ => rfl
  | fuel + 1, a :: b :: rest, s => by
    rw [State.takeInFreeOrder, takeInFreeOrder_map fuel, List.map_cons, List.map_cons, State.takeInFreeOrder]
    have e : f a :: f b :: rest.map f = (a :: b :: rest).map f := rfl
    rw [e, List.length_map]
    set l := a :: b :: rest with hl
    have hlen : Config.order s.freeCount % l.length < l.length := Nat.mod_lt _ (by simp [hl])
    rw [List.getD_eq_getElem _ _ hlen, List.getD_eq_getElem _ _ (by rw [List.length_map]; exact hlen),
      List.getElem_map, List.eraseIdx_map]

namespace State

theorem reaches_integrations (fuel : Nat) (l : List ChannelNo) (h : l.length ≤ fuel) :
    ∃ order : List ChannelNo, order.Perm l ∧
      Reaches (fun n u v => ∃ k, exec (.positionIntegration n) { u with freeCount := k } = .next v) order s
        (takeInFreeOrder (fun n => event (integrate n)) fuel l s) :=
  takeInFreeOrder_reaches (fun _ _ k => ⟨k, rfl⟩) fuel l s h

/-- The codes of one span, taken before its next event. -/
theorem codesTaken_takeHanded {sp : SpanNo} :
    CodesTaken (· = sp) s { s.takeHanded sp with freeCount := s.freeCount } := by
  unfold takeHanded
  dsimp only
  rw [takeInFreeOrder_map (take := fun n => event (integrate n)) (f := channelAt sp)]
  obtain ⟨order, p, r⟩ := reaches_integrations (s := s) ((s.span sp).handed.indices (·.isSome)).length
    (((s.span sp).handed.indices (·.isSome)).map (channelAt sp)) (by simp)
  refine ⟨order, _, p.trans ?_, r, rfl⟩
  refine (List.perm_ext_iff_of_nodup (List.Nodup.map (fun a b e => ?_) ?_) ?_).2 fun n => ?_
  · rw [← positionOf_channelAt sp a, e, positionOf_channelAt]
  · rw [Table.indices_eq_filter]; exact (List.nodup_finRange _).filter _
  · exact (List.nodup_finRange _).filter _
  · simp only [List.mem_map, Table.mem_indices, List.mem_filter, List.mem_finRange, true_and, Bool.and_eq_true,
      decide_eq_true_eq]
    constructor
    · rintro ⟨k, hk, rfl⟩
      rw [spanOf_channelAt, positionOf_channelAt]
      exact ⟨rfl, hk⟩
    · rintro ⟨rfl, hk⟩
      exact ⟨positionOf n, hk, channelAt_spanOf n⟩

/-- The codes of every span, taken before a restart. -/
theorem codesTaken_takeAllHanded : CodesTaken (fun _ => true) s { s.takeAllHanded with freeCount := s.freeCount } := by
  unfold takeAllHanded
  dsimp only
  obtain ⟨order, p, r⟩ := reaches_integrations (s := s)
    ((List.finRange 512).filter fun n => ((s.span (spanOf n)).handed.get (positionOf n)).isSome).length
    ((List.finRange 512).filter fun n => ((s.span (spanOf n)).handed.get (positionOf n)).isSome) le_rfl
  exact ⟨order, _, by simpa using p, r, rfl⟩

/-! ## What an integration leaves as it was -/

/-- No equipment part changed, and of a group record only the idle queue, the drain's report and the pending rehunts. -/
structure Within (s t : State) : Prop where
  equipment : ∀ n, t.equipment n = s.equipment n
  group : ∀ g, t.group g = { s.group g with
    idle := (t.group g).idle, drainReported := (t.group g).drainReported, rehunts := (t.group g).rehunts }

namespace Within

theorem refl (s : State) : Within s s := ⟨fun _ => rfl, fun _ => rfl⟩

theorem trans {s t u : State} (h : Within s t) (k : Within t u) : Within s u :=
  ⟨fun n => (k.equipment n).trans (h.equipment n), fun g => by rw [k.group g, h.group g]⟩

theorem of_same {s t : State} (channels : t.channels = s.channels) (groups : t.groups = s.groups) : Within s t :=
  ⟨fun n => by unfold State.equipment State.channel; rw [channels], fun g => by unfold State.group; rw [groups]⟩

theorem setCall {n c} : Within s (s.setCall n c) := ⟨fun _ => equipment_setCall, fun _ => rfl⟩
theorem setLine {n l} : Within s (s.setLine n l) := ⟨fun _ => equipment_setLine, fun _ => rfl⟩
theorem markDirty {n} : Within s (s.markDirty n) := of_same (by simp) (by simp)
theorem markIfChanged {n x} : Within s (s.markIfChanged n x) := of_same (by simp) (by simp)
theorem writeCall {n c} : Within s (s.writeCall n c) := setCall.trans markIfChanged
theorem unbindCall {n} : Within s (s.unbindCall n) := of_same (by simp) (by simp)
theorem notify {p o r} : Within s (s.notify p o r) := of_same rfl rfl
theorem tell {p n r} : Within s (s.tell p n r) := of_same rfl rfl
theorem modSpan {sp f} : Within s (s.modSpan sp f) := of_same rfl rfl
theorem withFreeCount {k} : Within s { s with freeCount := k } := of_same rfl rfl
theorem tellMaintenance {n r} : Within s (s.tellMaintenance n r) := of_same rfl rfl
theorem report {o} : Within s (s.report o) := of_same rfl rfl
theorem reportChannel {c n} : Within s (s.reportChannel c n) := of_same rfl rfl
theorem joinLost {n} : Within s (s.joinLost n) := of_same (by simp) (by simp)
theorem buildIfIdle : Within s s.buildIfIdle := of_same (by simp) (by simp)

theorem modGroup {g f} (h : ∀ r : GroupRecord, f r = { r with
    idle := (f r).idle, drainReported := (f r).drainReported, rehunts := (f r).rehunts }) : Within s (s.modGroup g f) :=
  ⟨fun _ => rfl, fun q => by
    rw [group_modGroup]
    split
    · next e => rw [e]; exact h _
    · rfl⟩

theorem leaveIdle {n} : Within s (s.leaveIdle n) := by
  unfold State.leaveIdle
  cases s.groupOf n with
  | none => exact refl s
  | some g => exact modGroup fun _ => rfl

theorem joinIdle {n} : Within s (s.joinIdle n) := by
  unfold State.joinIdle
  cases s.groupOf n with
  | none => exact refl s
  | some g => exact modGroup fun _ => rfl

theorem drainCheckOf {n} : Within s (s.drainCheckOf n) := by
  unfold State.drainCheckOf State.drainCheck
  (repeat' split)
  · exact (modGroup fun _ => rfl).trans notify
  · exact refl s
  · exact refl s
  · exact refl s

theorem enterGuard {n f} : Within s (s.enterGuard n f) := (leaveIdle.trans unbindCall).trans writeCall
theorem enterBlocked {n f} : Within s (s.enterBlocked n f) := (leaveIdle.trans unbindCall).trans writeCall
theorem enterInSeized {n f} : Within s (s.enterInSeized n f) := (leaveIdle.trans writeCall).trans tellMaintenance
theorem enterIdle {n} : Within s (s.enterIdle n) := writeCall.trans joinIdle
theorem enterOutWaitAnswer {n} : Within s (s.enterOutWaitAnswer n) := writeCall
theorem enterConnected {n} : Within s (s.enterConnected n) := writeCall
theorem farClear {n} : Within s (s.farClear n) := Within.trans writeCall tell
theorem writeFlags {n f} : Within s (s.writeFlags n f) := writeCall

theorem loseRecord {n w} : Within s (s.loseRecord n w) := by
  have r : ∀ t : State, Within t (t.reportLoss n w) := fun _ => of_same rfl rfl
  unfold State.loseRecord
  split
  · exact setCall.trans (r _)
  · split
    · exact ((setCall.trans joinLost).trans markDirty).trans (r _)
    · exact ((((setCall.trans leaveIdle).trans joinLost).trans markDirty).trans (r _)).trans drainCheckOf

theorem checkCall {n w} : Within s (s.checkCall n w).1 := by
  unfold State.checkCall
  split
  · exact refl s
  · split
    · exact setCall
    · exact setCall.trans report
    · exact loseRecord

theorem checked {n w} {go : State → State} (h : ∀ t, Within t (go t)) : Within s (s.checked n w go) := by
  have k := @checkCall s n w
  unfold State.checked
  rcases e : s.checkCall n w with ⟨t, _ | _⟩ <;> rw [e] at k
  · exact k
  · exact k.trans (h t)

theorem settle {n} : Within s (s.settle n) := by
  unfold State.settle State.blockByCondition
  dsimp only
  (repeat' split)
  · exact (enterBlocked.trans tellMaintenance).trans drainCheckOf
  · exact enterBlocked.trans drainCheckOf
  · exact reportChannel.trans enterIdle
  · exact enterInSeized
  · exact enterIdle

theorem yieldGlare {n} : Within s (s.yieldGlare n) := by
  unfold State.yieldGlare
  dsimp only
  split
  · exact (unbindCall.trans enterInSeized).trans (modGroup fun _ => rfl)
  · exact (unbindCall.trans enterInSeized).trans tell

theorem changeInIdle {n c} : Within s (s.changeInIdle n c) := by
  unfold State.changeInIdle
  (repeat' split)
  · exact refl s
  · exact reportChannel
  · exact enterInSeized
  · exact reportChannel
  · exact reportChannel
  · exact reportChannel
  · exact (enterBlocked.trans tellMaintenance).trans drainCheckOf

theorem changeInOutSeized {n c} : Within s (s.changeInOutSeized n c) := by
  unfold State.changeInOutSeized
  (repeat' split)
  · exact refl s
  · exact reportChannel
  · exact enterOutWaitAnswer.trans tell
  · exact enterConnected.trans tell
  · exact refl s
  · exact yieldGlare
  · exact ((enterBlocked.trans tell).trans tellMaintenance).trans drainCheckOf

theorem changeInOutWaitAnswer {n c} : Within s (s.changeInOutWaitAnswer n c) := by
  cases c
  · exact farClear
  · exact reportChannel
  · exact reportChannel
  · exact enterConnected.trans tell
  · exact farClear
  · exact farClear

theorem changeInInSeized {n c} : Within s (s.changeInInSeized n c) := by
  cases c
  · exact enterGuard.trans tellMaintenance
  · exact reportChannel
  · exact reportChannel
  · exact reportChannel
  · exact enterGuard.trans tellMaintenance
  · exact ((enterBlocked.trans tellMaintenance).trans tellMaintenance).trans drainCheckOf

theorem changeInCall {n c} : Within s (s.changeInCall n c) := by
  cases c
  · exact farClear
  · exact reportChannel
  · exact reportChannel
  · exact reportChannel
  · exact farClear
  · exact farClear

theorem changeInClearingLocal {n c} : Within s (s.changeInClearingLocal n c) := by
  have g : ∀ f x, Within s (if f = true then (s.enterGuard n x).tell (s.callPort n) n .clearDone else s.enterGuard n x) :=
    fun f x => by
      split
      · exact enterGuard.trans tell
      · exact enterGuard
  cases c
  · exact g _ _
  · exact refl s
  · exact refl s
  · exact refl s
  · exact g _ _
  · exact refl s

theorem changeInBlocked {n c} : Within s (s.changeInBlocked n c) := by
  have w : ∀ (t : State) f r, Within t ((t.writeFlags n f).tellMaintenance n r) :=
    fun _ _ _ => writeFlags.trans tellMaintenance
  cases c <;> simp only [State.changeInBlocked]
  · (repeat' split)
    · exact w _ _ _
    · exact (w _ _ _).trans settle
    · exact refl s
  · split
    · split
      · exact reportChannel.trans (w _ _ _)
      · exact reportChannel
    · split
      · exact (w _ _ _).trans settle
      · exact reportChannel
  · exact reportChannel
  · exact reportChannel
  · exact reportChannel
  · split
    · exact reportChannel
    · exact w _ _ _

theorem conditionChange {n r} : Within s (s.conditionChange n r) := by
  unfold State.conditionChange
  rcases r with c | _
  · dsimp only
    cases (s.call n).state
    · exact refl s
    · exact changeInIdle
    · exact refl s
    · exact changeInOutSeized
    · exact changeInOutWaitAnswer
    · exact changeInInSeized
    · exact changeInCall
    · exact changeInCall
    · exact changeInClearingLocal
    · exact refl s
    · exact changeInBlocked
    · exact refl s
  · exact tell.trans reportChannel

theorem integrate {n} : Within s (s.integrate n) := by
  have ad : ∀ (t : State) x, Within t (t.adopt n x) := fun t x => by
    unfold State.adopt
    dsimp only
    (repeat' split)
    · exact setLine.trans (checked fun _ => conditionChange)
    · exact setLine
    · exact setLine
  have tc : ∀ (t : State) x d, Within t (t.takeCode n x d) := fun t x d => by
    unfold State.takeCode
    dsimp only
    (repeat' split)
    · exact setLine
    · exact ad t x
    · exact setLine
    · exact ad t x
    · exact setLine
  unfold State.integrate
  split
  · exact modSpan.trans (tc _ _ _)
  · exact refl s

theorem event {f : State → State} (h : Within s (f s)) : Within s (Sys2Proof.Machine.event f s) := by
  unfold Sys2Proof.Machine.event
  split
  · exact h.trans buildIfIdle
  · exact h

end Within

/-! ## Integration does not look at the ports or the drawn counter -/

section
variable {P : Table PortRecord 4} {c : Nat} {n : ChannelNo}

theorem call_withPorts : (withPorts P c s).call n = s.call n := rfl
theorem equipment_withPorts : (withPorts P c s).equipment n = s.equipment n := rfl
theorem config_withPorts : (withPorts P c s).config n = s.config n := rfl
theorem callPort_withPorts : (withPorts P c s).callPort n = s.callPort n := rfl
theorem groupOf_withPorts : (withPorts P c s).groupOf n = s.groupOf n := rfl

theorem enterOutWaitAnswer_withPorts :
    (withPorts P c s).enterOutWaitAnswer n = withPorts P c (s.enterOutWaitAnswer n) := writeCall_withPorts

theorem enterConnected_withPorts : (withPorts P c s).enterConnected n = withPorts P c (s.enterConnected n) :=
  writeCall_withPorts

theorem enterClearingRemote_withPorts :
    (withPorts P c s).enterClearingRemote n = withPorts P c (s.enterClearingRemote n) := writeCall_withPorts

theorem yieldGlare_withPorts : (withPorts P c s).yieldGlare n = withPorts P c (s.yieldGlare n) := by
  unfold yieldGlare
  simp only [call_withPorts, groupOf_withPorts, config_withPorts, callPort_withPorts, unbindCall_withPorts,
    enterInSeized_withPorts]
  split <;> rfl

theorem farClear_withPorts : (withPorts P c s).farClear n = withPorts P c (s.farClear n) := by
  unfold farClear
  rw [enterClearingRemote_withPorts, callPort_withPorts, tell_withPorts]

theorem conditionChange_withPorts {r} : (withPorts P c s).conditionChange n r = withPorts P c (s.conditionChange n r) := by
  unfold conditionChange
  rw [call_withPorts]
  rcases r with x | _
  · dsimp only
    cases (s.call n).state <;> cases x <;>
      simp only [changeInIdle, changeInOutSeized, changeInOutWaitAnswer, changeInInSeized, changeInCall,
        changeInClearingLocal, changeInBlocked, call_withPorts, equipment_withPorts, config_withPorts, callPort_withPorts,
        enterInSeized_withPorts, enterBlocked_withPorts, enterGuard_withPorts, enterOutWaitAnswer_withPorts,
        enterConnected_withPorts, farClear_withPorts, yieldGlare_withPorts, writeFlags_withPorts, settle_withPorts,
        tell_withPorts, tellMaintenance_withPorts, reportChannel_withPorts, drainCheckOf_withPorts] <;>
      (repeat' split) <;> first | rfl | contradiction
  · rfl

theorem integrate_withPorts : (withPorts P c s).integrate n = withPorts P c (s.integrate n) := by
  have ad : ∀ (t : State) x, (withPorts P c t).adopt n x = withPorts P c (t.adopt n x) := fun t x => by
    unfold adopt
    have e : (withPorts P c t).equipped n = t.equipped n := rfl
    have l : (withPorts P c t).line n = t.line n := rfl
    have m : (withPorts P c t).meaning n x = t.meaning n x := rfl
    rw [e, l, m]
    dsimp only
    rw [setLine_withPorts, setLine_withPorts, checked_withPorts (fun _ => conditionChange_withPorts)]
    (repeat' split) <;> rfl
  have tc : ∀ (t : State) x d, (withPorts P c t).takeCode n x d = withPorts P c (t.takeCode n x d) := fun t x d => by
    unfold takeCode
    have l : (withPorts P c t).line n = t.line n := rfl
    rw [l, ad]
    dsimp only
    rw [setLine_withPorts, setLine_withPorts, setLine_withPorts]
    (repeat' split) <;> rfl
  have e : (withPorts P c s).span (spanOf n) = s.span (spanOf n) := rfl
  unfold integrate
  rw [e]
  cases (s.span (spanOf n)).handed.get (positionOf n) with
  | none => rfl
  | some x =>
    cases (s.span (spanOf n)).config with
    | none => rfl
    | some d => exact tc (s.modSpan (spanOf n) fun r => { r with handed := r.handed.set (positionOf n) none }) x d.depth

theorem event_withPorts {f : State → State} (h : f (withPorts P c s) = withPorts P c (f s)) :
    event f (withPorts P c s) = withPorts P c (event f s) := by
  have b : ∀ t : State, (withPorts P c t).buildIfIdle = withPorts P c t.buildIfIdle := fun t => by
    unfold buildIfIdle buildEvent
    have e : (withPorts P c t).link = t.link := rfl
    have r : (withPorts P c t).restart = t.restart := rfl
    have n : (withPorts P c t).nextServed = t.nextServed := rfl
    rw [e, r, n]
    split
    · cases t.nextServed <;> rfl
    · rfl
  unfold event
  rw [h, b]
  have g : (withPorts P c s).gains (withPorts P c (f s)) = s.gains (f s) := rfl
  rw [g]
  split <;> rfl

theorem reaches_withPorts {order : List ChannelNo} : ∀ {s w : State},
    Reaches (fun n u v => ∃ k, exec (.positionIntegration n) { u with freeCount := k } = .next v) order
      (withPorts P c s) w →
    ∃ v k, Reaches (fun n u v => ∃ k, exec (.positionIntegration n) { u with freeCount := k } = .next v) order s v ∧
      w = withPorts P k v := by
  suffices h : ∀ {s w : State} {c}, Reaches (fun n u v =>
        ∃ k, exec (.positionIntegration n) { u with freeCount := k } = .next v) order (withPorts P c s) w →
      ∃ v k, Reaches (fun n u v => ∃ k, exec (.positionIntegration n) { u with freeCount := k } = .next v) order s v ∧
        w = withPorts P k v from fun {_ _} r => h r
  induction order with
  | nil => exact fun {s w c} r => ⟨s, c, rfl, r⟩
  | cons a l ih =>
    rintro s w c ⟨t, ⟨k, e⟩, r⟩
    have q : ({ withPorts P c s with freeCount := k } : State) = withPorts P k { s with freeCount := k } := rfl
    rw [q, exec_positionIntegration, event_withPorts integrate_withPorts] at e
    injection e with e
    rw [← e] at r
    obtain ⟨v, k', r', e'⟩ := ih r
    exact ⟨v, k', ⟨_, ⟨k, rfl⟩, r'⟩, e'⟩

/-- What a position's own event leaves as it was. -/
theorem event_integrate_frame {n} :
    let t := event (integrate n) s
    Within s t ∧ t.profiles = s.profiles ∧ t.transfer = s.transfer ∧ t.scrub = s.scrub ∧ t.restart = s.restart ∧
    t.millis = s.millis ∧ t.rstN = s.rstN ∧ t.pending = s.pending ∧ t.ports = s.ports ∧
    ∀ sp, (t.span sp).config = (s.span sp).config := by
  have q : ∀ {α} (f : State → α) (t : State), (∀ u, f (buildIfIdle u) = f u) → f (t.integrate n) = f t →
      f (event (integrate n) t) = f t := fun f t b i => by
    unfold event
    split
    · rw [b, i]
    · exact i
  have chk : ∀ {α} (f : State → α), (∀ (t : State) w, f (t.checkCall n w).1 = f t) →
      (∀ (t : State) r, f (t.conditionChange n r) = f t) → (∀ (t : State) l, f (t.setLine n l) = f t) →
      (∀ (t : State) g, f (t.modSpan (spanOf n) g) = f t) → f (s.integrate n) = f s := fun f c d l m => by
    have ch : ∀ (t : State) r, f (t.checked n none fun u => u.conditionChange n r) = f t := fun t r => by
      have := c t none
      unfold checked
      rcases e : t.checkCall n none with ⟨u, _ | _⟩ <;> rw [e] at this
      · exact this
      · exact (d u r).trans this
    have ad : ∀ (t : State) x, f (t.adopt n x) = f t := fun t x => by
      unfold adopt
      dsimp only
      (repeat' split)
      · rw [ch, l]
      · exact l _ _
      · exact l _ _
    have tc : ∀ (t : State) x d, f (t.takeCode n x d) = f t := fun t x d => by
      unfold takeCode
      dsimp only
      (repeat' split) <;> first | exact ad _ _ | exact l _ _
    unfold integrate
    split
    · exact (tc _ _ _).trans (m _ _)
    · rfl
  intro t
  refine ⟨Within.event .integrate, ?_, ?_, ?_, ?_, ?_, ?_, ?_, ?_, config_integrate⟩
  · exact q State.profiles s (by simp) (chk State.profiles (by simp) (by simp) (fun _ _ => rfl) fun _ _ => rfl)
  · exact q State.transfer s (by simp) (chk State.transfer (by simp) (by simp) (fun _ _ => rfl) fun _ _ => rfl)
  · exact q State.scrub s (by simp) (chk State.scrub (by simp) (by simp) (fun _ _ => rfl) fun _ _ => rfl)
  · exact q State.restart s (by simp) (chk State.restart (by simp) (by simp) (fun _ _ => rfl) fun _ _ => rfl)
  · exact q State.millis s (by simp) (chk State.millis (by simp) (by simp) (fun _ _ => rfl) fun _ _ => rfl)
  · exact q State.rstN s (by simp) (chk State.rstN (by simp) (by simp) (fun _ _ => rfl) fun _ _ => rfl)
  · exact q State.pending s (by simp) (chk State.pending (by simp) (by simp) (fun _ _ => rfl) fun _ _ => rfl)
  · exact q State.ports s (by simp) (chk State.ports (by simp) (by simp) (fun _ _ => rfl) fun _ _ => rfl)

/-- What the codes that wait leave as it was, whatever their order. -/
theorem CodesTaken.frame {p : SpanNo → Bool} {t : State} (h : CodesTaken p s t) :
    Within s t ∧ t.profiles = s.profiles ∧ t.transfer = s.transfer ∧ t.scrub = s.scrub ∧ t.restart = s.restart ∧
    t.millis = s.millis ∧ t.rstN = s.rstN ∧ t.pending = s.pending ∧ t.ports = s.ports ∧
    (∀ sp, (t.span sp).config = (s.span sp).config) ∧ t.freeCount = s.freeCount := by
  obtain ⟨order, w, -, r, rfl⟩ := h
  suffices k : ∀ (l : List ChannelNo) (u w : State),
      Reaches (fun n u v => ∃ k, exec (.positionIntegration n) { u with freeCount := k } = .next v) l u w →
      Within u w ∧ w.profiles = u.profiles ∧ w.transfer = u.transfer ∧ w.scrub = u.scrub ∧ w.restart = u.restart ∧
      w.millis = u.millis ∧ w.rstN = u.rstN ∧ w.pending = u.pending ∧ w.ports = u.ports ∧
      ∀ sp, (w.span sp).config = (u.span sp).config by
    obtain ⟨a, b1, b2, b3, b4, b5, b6, b7, b8, b9⟩ := k _ _ _ r
    exact ⟨⟨a.equipment, a.group⟩, b1, b2, b3, b4, b5, b6, b7, b8, b9, rfl⟩
  intro l
  induction l with
  | nil => rintro u w rfl; exact ⟨.refl _, rfl, rfl, rfl, rfl, rfl, rfl, rfl, rfl, fun _ => rfl⟩
  | cons a l ih =>
    rintro u w ⟨v, ⟨k, e⟩, r⟩
    injection e with e
    subst e
    obtain ⟨a, b1, b2, b3, b4, b5, b6, b7, b8, b9⟩ := ih _ _ r
    obtain ⟨c, d1, d2, d3, d4, d5, d6, d7, d8, d9⟩ := event_integrate_frame (s := { u with freeCount := k }) (n := _)
    exact ⟨Within.withFreeCount.trans (c.trans a), b1.trans d1, b2.trans d2, b3.trans d3, b4.trans d4, b5.trans d5,
      b6.trans d6, b7.trans d7, b8.trans d8, fun sp => (b9 sp).trans (d9 sp)⟩

/-- The codes taken after the characters of a request were driven. -/
theorem codesTaken_driven {p : SpanNo → Bool} {t : State} (h : CodesTaken p (withPorts P c s) t) :
    ∃ v, CodesTaken p s v ∧ t = withPorts P c v := by
  obtain ⟨order, w, q, r, e⟩ := h
  obtain ⟨v, k, r', e'⟩ := reaches_withPorts r
  exact ⟨{ v with freeCount := s.freeCount }, ⟨order, v, q, r', rfl⟩, by rw [e, e']; rfl⟩

theorem takeHanded_driven {sp} :
    ∃ t k, CodesTaken (· = sp) s t ∧ (withPorts P c s).takeHanded sp = withPorts P k t := by
  obtain ⟨v, h, e⟩ := codesTaken_driven (codesTaken_takeHanded (s := withPorts P c s) (sp := sp))
  refine ⟨v, ((withPorts P c s).takeHanded sp).freeCount, h, ?_⟩
  generalize (withPorts P c s).takeHanded sp = x at e ⊢
  obtain ⟨⟩ := x
  obtain ⟨⟩ := v
  cases e
  rfl

theorem takeAllHanded_driven :
    ∃ t k, CodesTaken (fun _ => true) s t ∧ (withPorts P c s).takeAllHanded = withPorts P k t := by
  obtain ⟨v, h, e⟩ := codesTaken_driven (codesTaken_takeAllHanded (s := withPorts P c s))
  refine ⟨v, (withPorts P c s).takeAllHanded.freeCount, h, ?_⟩
  generalize (withPorts P c s).takeAllHanded = x at e ⊢
  obtain ⟨⟩ := x
  obtain ⟨⟩ := v
  cases e
  rfl

end

end State

/-- An admitted request whose rule may draw free values: what it leaves apart from the answer is one of the states that R
allows. -/
theorem request_draws {p tag code body permitted rule status answer} {R : State → Prop} (h : s.Admits p)
    (hp : ∀ d, (d.port p).admin = (s.port p).admin → d.groups = s.groups → d.channels = s.channels →
      permitted d = true)
    (hl : body.length = bodyLength code) (hb : status = .ok ∨ answer = [])
    (hr : ∀ P c, ∃ w k, rule (withPorts P c s) = (withPorts P k w, ⟨status, answer⟩) ∧ w.ports = s.ports ∧
      w.freeCount = s.freeCount ∧ R w) :
    ∃ u, event (serve p tag code body permitted (answering p tag rule)) s = s.built u ∧
      Answered p tag status answer s u ∧ R (s.apart u) := by
  obtain ⟨v, u, e, a, ⟨P, k, w, hv, h1, h2, h3⟩, hu⟩ := request_completes (tag := tag)
    (Q := fun v => ∃ P k w, v = withPorts P k w ∧ w.ports = s.ports ∧ w.freeCount = s.freeCount ∧ R w) h hp hl hb
    (main := fun d hd => by
      obtain ⟨P, c, rfl⟩ := hd
      obtain ⟨w, k, e, r⟩ := hr P c
      exact ⟨_, e, rfl, P, k, w, rfl, r⟩)
  refine ⟨u, e, a, ?_⟩
  have q : s.apart u = w := by
    rw [hu, hv]
    show { w with ports := s.ports, freeCount := s.freeCount } = w
    rw [← h1, ← h2]
  rw [q]
  exact h3

end Sys2Proof.Machine
end

