-- ==== Sys2Proof/Laws/Spans.lean ====
section
/-! SUPPORT. What the events of a span leave: a failure, the evaluation of a report, the far alarm; and the check of a line message. -/

namespace Sys2Proof.Machine

set_option Elab.async false

open State

theorem told_tellSpan {s t : State} {adds sp r} {c : SpanConfig} (hc : (t.span sp).config = some c)
    (h : Told adds s t) :
    Told (adds ++ [(c.maintenance, .span sp, .span r)]) s (t.tellSpan sp r) := by
  intro q
  have := h q
  unfold State.tellSpan
  rw [hc]; dsimp only
  rw [list_notify, List.foldl_append, ← this]
  simp only [List.foldl_cons, List.foldl_nil]
  split
  · next e => rw [if_pos e.symm, e]
  · next e => rw [if_neg fun x => e x.symm]

theorem failFromService_effect {s : State} {sp x} {c : SpanConfig} (hc : (s.span sp).config = some c) :
    let u := s.failFromService sp x
    u.spans = s.spans.set sp { s.span sp with
      state := .failed x, faultRun := 0, cleanRun := 0,
      notices := (s.span sp).notices.mapIdx fun k y => if s.equipped (channelAt sp k) = true then .down else y } ∧
    Told [(c.maintenance, .span sp, .span .spanFailed)] s u ∧
    Reported [⟨match x with | .faulty => .spanFailed | .silent => .spanSilent, some sp, none, none, none, none⟩] s u ∧
    u = { s with spans := u.spans, lists := u.lists, faults := u.faults } := by
  dsimp only
  unfold failFromService State.generate
  have dn : downNotice = fun _ => Notice.down := by funext y; cases y <;> rfl
  rw [dn]
  have e : (((s.modSpan sp fun r => { r with state := .failed x, faultRun := 0, cleanRun := 0 }).modSpan sp fun r =>
    { r with notices := r.notices.mapIdx fun p y => if (s.modSpan sp fun r => { r with state := .failed x, faultRun := 0, cleanRun := 0 }).equipped (channelAt sp p) then .down else y })) = { s with spans := s.spans.set sp { s.span sp with
      state := .failed x, faultRun := 0, cleanRun := 0,
      notices := (s.span sp).notices.mapIdx fun k y => if s.equipped (channelAt sp k) = true then .down else y }} := by
    unfold modSpan
    dsimp only
    rw [Table.update_update]
    rfl
  rw [e]
  have T := told_tellSpan (s := s) (t := { s with spans := s.spans.set sp { s.span sp with
      state := .failed x, faultRun := 0, cleanRun := 0,
      notices := (s.span sp).notices.mapIdx fun k y => if s.equipped (channelAt sp k) = true then .down else y }}) (adds := []) (sp := sp) (r := .spanFailed) (c := c) (by unfold State.span; simp; exact hc) (told_nil rfl)
  refine ⟨?_, T.of_lists rfl, ?_, ?_⟩
  · simp [reportSpan]
  · unfold Reported; cases x <;> simp [reportSpan, report]
  · have : ∀ y : State, y.tellSpan sp .spanFailed = { y with lists := (y.tellSpan sp .spanFailed).lists } := by
      intro y; unfold tellSpan; split <;> rfl
    rw [this]; rfl

theorem expireSilence_next {s : State} {sp} (h : (s.span sp).silence = some 0)
    (h2 : ∀ k, (s.span sp).handed.get k = none) : expireSilence sp s = s.silenceEffect sp := by
  unfold expireSilence; rw [if_pos h, takeHanded_none h2]

theorem span_set {s : State} {sp k} {r : SpanRecord} : ({ s with spans := s.spans.set sp r} : State).span k = if k =
    sp then r else s.span k := by
  unfold State.span; exact Table.get_set _ _ _ _

theorem lineCrc_withCrc {cs : List Byte} (h : 5 ≤ cs.length) : lineCrcPasses (withCrc16 cs) = true := by
  unfold lineCrcPasses
  have l : (withCrc16 cs).length = cs.length + 2 := by unfold withCrc16 chars2; simp
  rw [l]
  have t : (withCrc16 cs).take (cs.length + 2 - 2) = cs := by
    unfold withCrc16
    rw [show cs.length + 2 - 2 = cs.length by omega]; simp
  rw [t]; simp; omega

theorem numbered_val {n : Nat} (k : Fin n) : numbered n k.val = some k := by
  unfold numbered; rw [dif_pos k.isLt]

theorem mapIdx_id {t : Table Notice 32} {f : Position → Notice → Notice} (h : ∀ k x, f k x = x) : t.mapIdx f = t := by
  apply Table.ext_get; intro i; rw [Table.get_mapIdx, h]

/-- What evaluating a report leaves, in one shape. -/
def Evaluated (sp : SpanNo) (state : SpanState) (f k : Nat) (cleared : Bool) (notice : Notice → Notice)
   (adds : List (PortNo × AttentionObject × Reason)) (occ : List Occurrence) (s u : State) : Prop :=
  u.spans = s.spans.set sp { s.span sp with state := state, faultRun := f, cleanRun := k, notices := (s.span sp).notices.mapIdx fun k x => if s.equipped (channelAt sp k) = true then notice x else x } ∧
  (∀ n, u.channel n = if spanOf n = sp ∧ cleared = true then
          { s.channel n with line := { s.line n with candidate := none, count := 0 } } else s.channel n) ∧
  Told adds s u ∧ Reported occ s u ∧ u = { s with channels := u.channels, spans := u.spans, lists := u.lists, faults := u.faults }

theorem evaluated_stays {s : State} {sp : SpanNo} {g : SpanRecord → SpanRecord} {st f k}
    (h : g (s.span sp) = { s.span sp with state := st, faultRun := f, cleanRun := k}) :
   Evaluated sp st f k false id [] [] s (s.modSpan sp g) := by
  refine ⟨?_, fun n => by simp; rfl, told_nil rfl, by unfold Reported; simp, rfl⟩
  unfold modSpan Table.update
  have : s.spans.get sp = s.span sp := rfl
  rw [this, h]
  rw [mapIdx_id (by intro k x; simp)]

theorem evaluated_same {s : State} {sp : SpanNo} {st f k}
    (h : s.span sp = { s.span sp with state := st, faultRun := f, cleanRun := k}) :
   Evaluated sp st f k false id [] [] s s := by
  refine ⟨?_, fun n => by simp, told_nil rfl, by unfold Reported; simp, rfl⟩
  rw [mapIdx_id (by intro k x; simp), ← h]
  exact (Table.set_get _ _).symm

theorem clear_channel {s : State} {sp n} : (s.clearCandidates sp).channel n = if spanOf n = sp then
    { s.channel n with line := { s.line n with candidate := none, count := 0 } } else s.channel n := by
  unfold clearCandidates State.channel
  rw [Table.get_mapIdx]; rfl

theorem clear_eq {s : State} {sp} : s.clearCandidates sp = { s with channels := (s.clearCandidates sp).channels } := rfl

theorem clear_equipped {s : State} {sp n} : (s.clearCandidates sp).equipped n = s.equipped n := by
  unfold equipped groupOf equipment; rw [clear_channel]; split <;> rfl

theorem evaluated_restored {s : State} {sp : SpanNo} {c : SpanConfig} (hc : (s.span sp).config = some c) (v : State)
    (b : Bool)
   (hv : v.channels = if b then (s.clearCandidates sp).channels else s.channels)
   (hs : v = { s with channels := v.channels, spans := s.spans.set sp { s.span sp with state := .inService, faultRun := 0, cleanRun := 0 } }) :
   Evaluated sp .inService 0 0 b upNotice [(c.maintenance, .span sp, .span .spanRestored)] [] s ((v.generate sp upNotice).tellSpan sp .spanRestored) := by
  have vc : ∀ n, v.channel n = if spanOf n = sp ∧ b = true then { s.channel n with line := { s.line n with candidate := none, count := 0 } } else s.channel n := by
    intro n
    unfold State.channel; rw [hv]
    cases b with
    | false => simp
    | true =>
      simp only [if_true, and_true]
      exact clear_channel
  have veq : ∀ n, v.equipped n = s.equipped n := by
    intro n; unfold equipped groupOf equipment; rw [vc]; split <;> rfl
  have ge : v.generate sp upNotice = { v with spans := s.spans.set sp { s.span sp with state := .inService, faultRun := 0, cleanRun := 0, notices := (s.span sp).notices.mapIdx fun k x => if s.equipped (channelAt sp k) = true then upNotice x else x } } := by
    unfold generate modSpan
    simp only [veq]
    rw [hs]; dsimp only
    have := Table.update_update s.spans sp (fun r => { r with state := .inService, faultRun := 0, cleanRun := 0 }) (fun r => { r with notices := r.notices.mapIdx fun k x => if s.equipped (channelAt sp k) = true then upNotice x else x })
    have e : s.spans.set sp { s.span sp with state := .inService, faultRun := 0, cleanRun := 0 } = s.spans.update sp (fun r => { r with state := .inService, faultRun := 0, cleanRun := 0 }) := rfl
    rw [e, this]; rfl
  have te : ∀ y : State, y.tellSpan sp .spanRestored = { y with lists := (y.tellSpan sp .spanRestored).lists } := by
    intro y; unfold tellSpan; split <;> rfl
  have T := told_tellSpan (s := s) (t := v.generate sp upNotice) (adds := []) (sp := sp) (r := .spanRestored) (c := c) (by rw [ge]; unfold State.span; dsimp only; rw [Table.get_set_same]; exact hc) (told_nil (by rw [ge, hs]))
  rw [ge] at T ⊢
  rw [te]
  have hf : v.faults = s.faults := by rw [hs]
  have gg : ∀ X L, ({ v with spans := X, lists := L } : State) = { s with channels := v.channels, spans := X, lists := L, faults := v.faults } := by
    intro X L; rw [hs]
  refine ⟨rfl, vc, T.of_lists rfl, ?_, gg _ _⟩
  unfold Reported; dsimp only; rw [hf]; simp

theorem evaluated_cleared {s : State} {sp : SpanNo} :
   Evaluated sp .inService 0 0 true id [] [] s (({s with spans := s.spans.set sp { s.span sp with state := .inService, faultRun := 0, cleanRun := 0 }} : State).clearCandidates sp) := by
  set v : State := {s with spans := s.spans.set sp { s.span sp with state := .inService, faultRun := 0, cleanRun := 0 }} with hv
  have e := clear_eq (s := v) (sp := sp)
  have c := fun n => clear_channel (s := v) (sp := sp) (n := n)
  generalize v.clearCandidates sp = y at e c
  refine ⟨?_, fun n => ?_, told_nil (by rw [e]), by unfold Reported; rw [e]; simp [hv], by rw [e, hv]⟩
  · rw [mapIdx_id (by intro k x; simp), e]
  · rw [c]; simp; rfl

theorem evaluated_failed {s : State} {sp : SpanNo} {c : SpanConfig} (hc : (s.span sp).config = some c) :
   Evaluated sp (.failed .faulty) 0 0 false (fun _ => .down) [(c.maintenance, .span sp, .span .spanFailed)] [⟨.spanFailed, some sp, none, none, none, none⟩] s (s.failFromService sp .faulty) := by
  obtain ⟨a, b, d, f⟩ := failFromService_effect (s := s) (sp := sp) (x := .faulty) hc
  exact ⟨a, fun n => by unfold State.channel; rw [f]; simp, b, d, by rw [f]⟩

theorem evaluated_evaluate {s : State} {sp : SpanNo} {c : SpanConfig} (hc : (s.span sp).config = some c)
    {faulty : Bool} {state : SpanState} {faultRun cleanRun : Nat} {cleared : Bool} {notice : Notice → Notice}
    {adds : List (PortNo × AttentionObject × Reason)} {occurrences : List Occurrence} {r : SpanRecord} (hr : s.span sp = r)
   (h : 
    let tells (x : SpanReason) : List (PortNo × AttentionObject × Reason) := [(c.maintenance, .span sp, .span x)]
    let stays := cleared = false ∧ notice = id ∧ adds = [] ∧ occurrences = []
    let fails := state = .failed .faulty ∧ faultRun = 0 ∧ cleanRun = 0 ∧ cleared = false ∧ notice = (fun _ => .down) ∧
      adds = tells .spanFailed ∧ occurrences = [⟨.spanFailed, some sp, none, none, none, none⟩]
    let serves := state = .inService ∧ faultRun = 0 ∧ cleanRun = 0 ∧ occurrences = []
    let restored := serves ∧ notice = upNotice ∧ adds = tells .spanRestored
    (r.state = .starting ∧ faulty = true ∧ state = .starting ∧ faultRun = r.faultRun ∧ cleanRun = 0 ∧ stays ∨
     r.state = .starting ∧ faulty = false ∧ r.cleanRun + 1 < c.nClear ∧ state = .starting ∧ faultRun = r.faultRun ∧
       cleanRun = r.cleanRun + 1 ∧ stays ∨
     r.state = .starting ∧ faulty = false ∧ c.nClear ≤ r.cleanRun + 1 ∧ restored ∧ cleared = false ∨
     r.state = .inService ∧ faulty = true ∧ c.nSet = 1 ∧ fails ∨
     r.state = .inService ∧ faulty = true ∧ c.nSet ≠ 1 ∧ state = .suspect ∧ faultRun = 1 ∧ cleanRun = r.cleanRun ∧
       stays ∨
     r.state = .inService ∧ faulty = false ∧ state = .inService ∧ faultRun = r.faultRun ∧ cleanRun = r.cleanRun ∧
       stays ∨
     r.state = .suspect ∧ faulty = true ∧ c.nSet ≤ r.faultRun + 1 ∧ fails ∨
     r.state = .suspect ∧ faulty = true ∧ r.faultRun + 1 < c.nSet ∧ state = .suspect ∧ faultRun = r.faultRun + 1 ∧
       cleanRun = r.cleanRun ∧ stays ∨
     r.state = .suspect ∧ faulty = false ∧ serves ∧ cleared = true ∧ notice = id ∧ adds = [] ∨
     (∃ x, r.state = .failed x ∧ faulty = true ∧ state = .failed x) ∧ faultRun = r.faultRun ∧ cleanRun = r.cleanRun ∧
       stays ∨
     (∃ x, r.state = .failed x ∧ faulty = false ∧ c.nClear ≠ 1 ∧ state = .recovering x) ∧ faultRun = 0 ∧
       cleanRun = 1 ∧ stays ∨
     (∃ x, r.state = .failed x) ∧ faulty = false ∧ c.nClear = 1 ∧ restored ∧ cleared = true ∨
     (∃ x, r.state = .recovering x) ∧ faulty = true ∧ state = .failed .faulty ∧ faultRun = 0 ∧ cleanRun = 0 ∧ stays ∨
     (∃ x, r.state = .recovering x ∧ state = .recovering x) ∧ faulty = false ∧ r.cleanRun + 1 < c.nClear ∧
       faultRun = r.faultRun ∧ cleanRun = r.cleanRun + 1 ∧ stays ∨
     (∃ x, r.state = .recovering x) ∧ faulty = false ∧ c.nClear ≤ r.cleanRun + 1 ∧ restored ∧ cleared = true)) :
   Evaluated sp state faultRun cleanRun cleared notice adds occurrences s (s.evaluate sp c faulty) := by
  dsimp only at h
  unfold evaluate
  dsimp only
  rw [hr]
  have U : ∀ f : SpanRecord → SpanRecord, s.modSpan sp f = { s with spans := s.spans.set sp (f (s.span sp)) } := fun _ => rfl
  rcases h with ⟨h1, h2, h3, h4, h5, h6, h7, h8, h9⟩|⟨h1, h2, h3, h4, h5, h6, h7, h8, h9, h10⟩|⟨h1, h2, h3, ⟨⟨h4, h5, h6, h7⟩, h8, h9⟩, h10⟩|⟨h1, h2, h3, h4, h5, h6, h7, h8, h9, h10⟩|⟨h1, h2, h3, h4, h5, h6, h7, h8, h9, h10⟩|⟨h1, h2, h3, h4, h5, h6, h7, h8, h9⟩|⟨h1, h2, h3, h4, h5, h6, h7, h8, h9, h10⟩|⟨h1, h2, h3, h4, h5, h6, h7, h8, h9, h10⟩|⟨h1, h2, ⟨h4, h5, h6, h7⟩, h8, h9, h10⟩|⟨⟨x, h1, h2, h3⟩, h4, h5, h6, h7, h8, h9⟩|⟨⟨x, h1, h2, h3, h4⟩, h5, h6, h7, h8, h9, h10⟩|⟨⟨x, h1⟩, h2, h3, ⟨⟨h4, h5, h6, h7⟩, h8, h9⟩, h10⟩|⟨⟨x, h1⟩, h2, h3, h4, h5, h6, h7, h8, h9⟩|⟨⟨x, h1, h2⟩, h3, h4, h5, h6, h7, h8, h9, h10⟩|⟨⟨x, h1⟩, h2, h3, ⟨⟨h4, h5, h6, h7⟩, h8, h9⟩, h10⟩ <;> subst_vars <;> rw [h1] <;> dsimp only
  · exact evaluated_stays (by simp [h1])
  · rw [if_neg (by omega)]; exact evaluated_stays (by simp [h1])
  · rw [if_pos h3]; unfold enterService; rw [h1]; dsimp only
    exact evaluated_restored hc _ false (by rw [U]; rfl) (by rw [U])
  · rw [if_pos h3]; exact evaluated_failed hc
  · rw [if_neg h3]; exact evaluated_stays (by simp)
  · exact evaluated_same (by rw [← h1])
  · rw [if_pos h3]; exact evaluated_failed hc
  · rw [if_neg (by omega)]; exact evaluated_stays (by simp [h1])
  · unfold enterService; rw [h1]; dsimp only; rw [U]; exact evaluated_cleared
  · exact evaluated_same (by rw [← h1])
  · rw [if_neg h3]; exact evaluated_stays (by simp)
  · rw [if_pos h3]; unfold enterService; rw [h1]; dsimp only
    exact evaluated_restored hc _ true (by rw [U]; rfl) (by rw [U]; rfl)
  · unfold failAgain; exact evaluated_stays (by simp)
  · rw [if_neg (by omega)]; exact evaluated_stays (by simp [h1])
  · rw [if_pos h3]; unfold enterService; rw [h1]; dsimp only
    exact evaluated_restored hc _ true (by rw [U]; rfl) (by rw [U]; rfl)

/-- Far-alarm tracking, in one shape. -/
theorem trackFarAlarm_effect {s : State} {sp : SpanNo} {c : SpanConfig} (hc : (s.span sp).config = some c)
    {carried farAlarm : Bool} {farRun : Nat} {farAdds : List (PortNo × AttentionObject × Reason)} {r : SpanRecord}
    (ha : (s.span sp).farAlarm = r.farAlarm) (hf : (s.span sp).farRun = r.farRun)
  (h : (r.farAlarm = carried ∧ farAlarm = r.farAlarm ∧ farRun = 0 ∧ farAdds = [] ∨
     r.farAlarm = false ∧ carried = true ∧ r.farRun + 1 < c.nSet ∧ farAlarm = false ∧ farRun = r.farRun + 1 ∧
       farAdds = [] ∨
     r.farAlarm = false ∧ carried = true ∧ c.nSet ≤ r.farRun + 1 ∧ farAlarm = true ∧ farRun = 0 ∧
       farAdds = [(c.maintenance, .span sp, .span .farAlarmOn)] ∨
     r.farAlarm = true ∧ carried = false ∧ r.farRun + 1 < c.nClear ∧ farAlarm = true ∧ farRun = r.farRun + 1 ∧
       farAdds = [] ∨
     r.farAlarm = true ∧ carried = false ∧ c.nClear ≤ r.farRun + 1 ∧ farAlarm = false ∧ farRun = 0 ∧
       farAdds = [(c.maintenance, .span sp, .span .farAlarmOff)])) :
  (s.trackFarAlarm sp c carried).spans = s.spans.set sp { s.span sp with farAlarm := farAlarm, farRun := farRun } ∧
  Told farAdds s (s.trackFarAlarm sp c carried) ∧
  s.trackFarAlarm sp c carried = { s with spans := (s.trackFarAlarm sp c carried).spans, lists := (s.trackFarAlarm sp c carried).lists } := by
  unfold trackFarAlarm
  dsimp only
  have te : ∀ (y : State) x, y.tellSpan sp x = { y with lists := (y.tellSpan sp x).lists } := by
    intro y x; unfold tellSpan; split <;> rfl
  have A : ∀ g : SpanRecord → SpanRecord, (g (s.span sp) = { s.span sp with farAlarm := farAlarm, farRun := farRun }) → farAdds = [] → (s.modSpan sp g).spans = s.spans.set sp { s.span sp with farAlarm := farAlarm, farRun := farRun } ∧ Told farAdds s (s.modSpan sp g) ∧ (s.modSpan sp g) = { s with spans := (s.modSpan sp g).spans, lists := (s.modSpan sp g).lists } := by
    intro g e a
    refine ⟨?_, by rw [a]; exact told_nil rfl, rfl⟩
    rw [← e]; rfl
  have B : ∀ (g : SpanRecord → SpanRecord) x, (g (s.span sp) = { s.span sp with farAlarm := farAlarm, farRun := farRun }) → farAdds = [(c.maintenance, .span sp, .span x)] → ((s.modSpan sp g).tellSpan sp x).spans = s.spans.set sp { s.span sp with farAlarm := farAlarm, farRun := farRun } ∧ Told farAdds s ((s.modSpan sp g).tellSpan sp x) ∧ ((s.modSpan sp g).tellSpan sp x) = { s with spans := ((s.modSpan sp g).tellSpan sp x).spans, lists := ((s.modSpan sp g).tellSpan sp x).lists } := by
    intro g x e a
    have T := told_tellSpan (s := s) (t := s.modSpan sp g) (adds := []) (sp := sp) (r := x) (c := c) (by unfold State.span modSpan; dsimp only; rw [Table.get_update_same]; change (g (s.span sp)).config = _; rw [e]; exact hc) (told_nil rfl)
    refine ⟨by rw [te]; rw [← e]; rfl, by rw [a]; exact T, by rw [te]; rfl⟩
  rcases h with ⟨h1, h2, h3, h4⟩|⟨h1, h2, h3, h4, h5, h6⟩|⟨h1, h2, h3, h4, h5, h6⟩|⟨h1, h2, h3, h4, h5, h6⟩|⟨h1, h2, h3, h4, h5, h6⟩
  · have : ∀ b, (s.span sp).farAlarm = b → carried = b → s.modSpan sp (fun r => { r with farRun := 0 }) = s.modSpan sp (fun r => { r with farRun := 0 }) := fun _ _ _ => rfl
    have AA := A (fun r => { r with farRun := 0 }) (by simp [h2, h3, ← ha]) h4
    rw [ha, h1]
    cases carried <;> exact AA
  · rw [ha, h1, h2, hf]; dsimp only; rw [if_neg (by omega)]; exact A _ (by simp [h4, h5, ha, h1, hf]) h6
  · rw [ha, h1, h2, hf]; dsimp only; rw [if_pos h3]; exact B _ _ (by simp [h4, h5]) h6
  · rw [ha, h1, h2, hf]; dsimp only; rw [if_neg (by omega)]; exact A _ (by simp [h4, h5, ha, h1, hf]) h6
  · rw [ha, h1, h2, hf]; dsimp only; rw [if_pos h3]; exact B _ _ (by simp [h4, h5]) h6

end Sys2Proof.Machine
end

