-- ==== Sys2Proof/Laws/Walks.lean ====
section
/-! SUPPORT. What notices, walks, builds and completions leave: one lemma for each of their operations. -/

namespace Sys2Proof.Machine

set_option Elab.async false

open State

theorem takeNotice_next {s : State} {n k e} (h : s.noticeOf n = k) (he : (s.channel n).errors = []) :
    s.takeNotice n k e = e { s with
      spans := s.spans.update (spanOf n) fun r => { r with notices := r.notices.set (positionOf n) .none } } := by
  unfold takeNotice
  rw [if_pos h, checked_clean (by exact he)]; rfl

theorem writeFlags_fault {s : State} {n f x} (h : (s.call n).state = .fault x) : CallWritten n
    { s.call n with flags := f } s (s.writeFlags n f) ∧ s.writeFlags n f =
    { s with channels := (s.writeFlags n f).channels } :=
  ⟨(writeFlags_other (by rw [h]; simp)).2, (writeFlags_other (by rw [h]; simp)).1⟩

theorem spanDown_took {s : State} {n} : TookDown n s (s.spanDownEffect n) := by
  unfold TookDown spanDownEffect
  dsimp only
  have A : ∀ f, (let u := (s.enterFault n .span f).drainCheckOf n
     CallWritten n (faultCall .span f) s u ∧ Marked n s u ∧ LeftIdleChecked n s u ∧ Freed (s.call n).reference s u ∧
     Told ([] ++ drainAdds n s u) s u ∧
    u = { s with channels := u.channels, groups := u.groups, index := u.index, link := u.link, lists := u.lists }) := by
    intro f
    dsimp only
    rw [enterFault_eq]
    obtain ⟨a, m, l, fr, t, ff, fm⟩ := endCall_checked (w := s) (n := n) (c := faultCall .span f)
      (v := ((s.leaveIdle n).unbindCall n).writeCall n (faultCall .span f)) (adds := []) rfl (told_nil endCall_lists)
    refine ⟨a, m, l, fr, t, ?_⟩
    rw [ff] at fm
    rw [endCall_faults] at fm
    exact fm
  have B : ∀ f, (let u := ((s.enterFault n .span f).tell (s.callPort n) n .spanDown).drainCheckOf n
     CallWritten n (faultCall .span f) s u ∧ Marked n s u ∧ LeftIdleChecked n s u ∧ Freed (s.call n).reference s u ∧
     Told ([(s.callPort n, .channel n, .channel .spanDown)] ++ drainAdds n s u) s u ∧
    u = { s with channels := u.channels, groups := u.groups, index := u.index, link := u.link, lists := u.lists }) := by
    intro f
    dsimp only
    rw [enterFault_eq]
    obtain ⟨a, m, l, fr, t, ff, fm⟩ := endCall_checked (w := s) (n := n) (c := faultCall .span f)
      (v := (((s.leaveIdle n).unbindCall n).writeCall n (faultCall .span f)).tell (s.callPort n) n .spanDown) (adds := [(s.callPort n, .channel n, .channel .spanDown)]) rfl (Told.tell (told_nil endCall_lists))
    refine ⟨a, m, l, fr, t, ?_⟩
    rw [ff] at fm
    have : ((((s.leaveIdle n).unbindCall n).writeCall n (faultCall .span f)).tell (s.callPort n) n .spanDown).faults = s.faults := endCall_faults
    rw [this] at fm
    exact fm
  generalize hf : ({ (s.call n).flags with remote := false } : BlockFlags) = f
  cases h : (s.call n).state with
  | unequipped => rfl
  | fault x => dsimp only; rw [← h]; exact writeFlags_fault h
  | idle => exact A f
  | guard => exact A f
  | blocked => exact A f
  | outSeized => exact B f
  | outWaitAnswer => exact B f
  | inSeized => exact B f
  | inAlerting => exact B f
  | connected => exact B f
  | clearingLocal => exact B f
  | clearingRemote => exact B f

theorem spanUp_took {s : State} {n} : TookUp n s (s.spanUpEffect n) := by
  unfold TookUp spanUpEffect
  split
  · rw [enterGuard_eq]
    exact endCall_effect
  · rfl

theorem foldl_tell_told {s : State} (l : List IndexEntry) : ∀ (t : State) (adds), Told adds s t →
    Told (adds ++ l.map fun e => (e.owner, .channel e.channel, .channel .recordLost)) s (l.foldl (fun u e => u.tell e.owner e.channel .recordLost) t) ∧
    l.foldl (fun u e => u.tell e.owner e.channel .recordLost) t = { t with lists := (l.foldl (fun u e => u.tell e.owner e.channel .recordLost) t).lists } := by
  induction l with
  | nil => intro t adds h; exact ⟨by simpa using h, rfl⟩
  | cons e l ih =>
    intro t adds h
    obtain ⟨a, b⟩ := ih (t.tell e.owner e.channel .recordLost) _ (Told.tell h)
    refine ⟨by simpa using a, ?_⟩
    rw [List.foldl_cons, b]; rfl

theorem validEntries_eq (w : Table (Option IndexEntry) 4) : validEntries w = (List.finRange 4).filterMap fun i =>
    w.get i := by
  unfold validEntries
  have : w.cells = (List.finRange 4).map fun i => w.get i := by
    obtain ⟨c, hc⟩ := w
    apply List.ext_getElem
    · simp [hc]
    · intro i h1 h2; simp [Table.get]
  rw [this, List.filterMap_map]; rfl

theorem find_finRange {n : Nat} {p : Fin n → Bool} {k : Fin n} (h : p k = true) (hl : ∀ j, j < k → p j = false) :
    (List.finRange n).find? p = some k := by
  rw [List.find?_eq_some_iff_getElem]
  refine ⟨h, k.val, by simp, by simp, ?_⟩
  intro j hj
  simp only [List.getElem_finRange]
  have := hl ⟨j, by omega⟩ (by exact hj)
  simp [this]

theorem nextServed_eq {s : State} {sp} (h : s.updatePending sp = true)
   (ho : match s.link.servedLast with
        | none => ∀ k, k < sp → s.updatePending k = false
        | some l => ∀ k, k - (l + 1) < sp - (l + 1) → s.updatePending k = false) : s.nextServed = some sp := by
  unfold nextServed searchOrder
  cases e : s.link.servedLast with
  | none => rw [e] at ho; exact find_finRange h ho
  | some l =>
    rw [e] at ho
    dsimp only at ho ⊢
    rw [List.find?_map]
    have := find_finRange (n := 16) (p := s.updatePending ∘ fun k => k + l + 1) (k := sp - (l + 1)) (by
      show s.updatePending (sp - (l+1) + l + 1) = true
      have : sp - (l + 1) + l + 1 = sp := by grind
      rw [this, h]) (by
      intro j hj
      apply ho
      have : j + l + 1 - (l + 1) = j := by grind
      rw [this]; exact hj)
    rw [this]
    simp only [Option.map_some]
    congr 1
    grind

theorem indices_eq (t : Table Bool 32) : t.indices id = (List.finRange 32).filter fun k => t.get k := by
  unfold Table.indices
  obtain ⟨c, hc⟩ := t
  have : (List.finRange 32).zip c = (List.finRange 32).map fun i => (i, (Table.mk c hc).get i) := by
    apply List.ext_getElem
    · simp [hc]
    · intro i h1 h2; simp [Table.get]
  simp only [id]
  rw [this, List.filterMap_map, ← List.filterMap_eq_filter]
  rfl

theorem markDirty_scrub {s : State} {n} {x : Scrub} : ({ s with scrub := x } : State).markDirty n =
    { s.markDirty n with scrub := x } := by
  unfold markDirty
  have e : (({ s with scrub := x } : State).span (spanOf n)) = s.span (spanOf n) := rfl
  rw [e]
  cases (s.span (spanOf n)).config with
  | none => rfl
  | some d => dsimp only; split <;> rfl

theorem markDirty_eq {s : State} {n} : s.markDirty n = { s with link := (s.markDirty n).link } := by
  unfold markDirty; cases (s.span (spanOf n)).config with
  | none => rfl
  | some d => dsimp only; split <;> rfl

theorem leaveIdle_eq {s : State} {n} : s.leaveIdle n = { s with groups := (s.leaveIdle n).groups } := by
  unfold leaveIdle; cases s.groupOf n <;> rfl

theorem mergeLists_eq (a b : List Member) : mergeLists a b =
    (a.flatMap fun m => m.reasons.map fun r => (m.object, r)).foldl
          (fun l x => addReason x.1 x.2 l) b := by
  unfold mergeLists
  induction a generalizing b with
  | nil => rfl
  | cons m ms ih => rw [List.foldl_cons, ih, List.flatMap_cons, List.foldl_append, List.foldl_map]

theorem finishLong_port {s : State} {p st long} (h : (s.port p).state = .working long) :
   (s.finishLong p st).port p = { s.port p with state := .ready ⟨long.tag, st, (s.port p).overrun, []⟩, overrun := false } := by
  unfold finishLong respond; rw [h]; dsimp only; rw [port_modPort, if_pos rfl]; simp

theorem finishLong_other {s : State} {p st q} (h : q ≠ p) : (s.finishLong p st).port q = s.port q := by
  unfold finishLong respond; split
  · rw [port_modPort, if_neg h]
  · rfl
  · rfl

theorem finishLong_eq {s : State} {p st} : s.finishLong p st = { s with ports := (s.finishLong p st).ports } := by
  unfold finishLong; split <;> rfl

theorem event_restarting {f : State → State} {s : State} {r} (h : (f s).restart = some r) : event f s = f s := by
  unfold event buildIfIdle; split
  · rw [h]; simp
  · rfl

end Sys2Proof.Machine
end

