-- ==== Sys2Proof/WellFormed.lean ====
section
/-! DEFINITION. Which commands stand for an event of the manual, state aside. A command that is not well formed has a
stated outcome all the same (log 3, log 26): the machine never rests on this check. -/

namespace Sys2Proof

/-- A request command stands for a request frame only if its body fits one (R183). -/
def bodyFits (body : List Byte) : Bool := body.length ≤ maxBody

/-- The well-formedness of a command. -/
def Instr.wellFormed : Instr → Bool
  | .powerOnReset => true
  | .timebaseStep => true
  -- a transfer with no whole character clocked is not an event (R182)
  | .responseRead _ characters => 1 ≤ characters
  -- a request transfer that fails check 1 (R182, R187)
  | .badFrame _ frame => isRequestTransfer frame && (parseRequest frame).isNone
  -- a request transfer, whatever it carries (R182, R185)
  | .overrun _ frame => isRequestTransfer frame
  | .hunt _ _ body => bodyFits body
  | .seize _ _ body => bodyFits body
  | .accept _ _ body => bodyFits body
  | .answer _ _ body => bodyFits body
  | .release _ _ body => bodyFits body
  | .block _ _ body => bodyFits body
  | .unblock _ _ body => bodyFits body
  | .resetChannel _ _ body => bodyFits body
  | .drain _ _ body => bodyFits body
  | .undrain _ _ body => bodyFits body
  | .readChannel _ _ body => bodyFits body
  | .readGroup _ _ body => bodyFits body
  | .readSpan _ _ body => bodyFits body
  | .nextAttention _ _ body => bodyFits body
  | .readFaults _ _ body => bodyFits body
  | .setSpan _ _ body => bodyFits body
  | .clearSpan _ _ body => bodyFits body
  | .equip _ _ body => bodyFits body
  | .unequip _ _ body => bodyFits body
  | .setGroup _ _ body => bodyFits body
  | .deleteGroup _ _ body => bodyFits body
  | .loadProfile _ _ body => bodyFits body
  | .setFaultClass _ _ body => bodyFits body
  | .clearFaults _ _ body => bodyFits body
  | .setPort _ _ body => bodyFits body
  | .setDevice _ _ body => bodyFits body
  | .transfer _ _ body => bodyFits body
  | .restart _ _ body => bodyFits body
  | .restartCompletion => true
  | .spanReport _ => true
  | .positionIntegration _ => true
  | .rehunt _ => true
  | .spanDown _ => true
  | .spanUp _ => true
  | .downUp _ => true
  | .guardExpiry _ => true
  | .proceedTimeout _ => true
  | .answerTimeout _ => true
  | .offerTimeout _ => true
  | .releaseStuck _ => true
  | .autoReleased _ => true
  | .silenceExpiry _ => true
  | .purgeVisit => true
  | .sweepVisit => true
  | .scrubVisit => true
  | .refreshExpiry => true
  | .endOfSending => true
  | .faultOccurrence _ => true
  -- one or more stored bits change (R156)
  | .storageError _ bits => !bits.isEmpty && bits.Nodup
  | .rstNRise => true

end Sys2Proof
end

