-- ==== Sys2Proof/Tests/Slice0.lean ====
section
/-! SUPPORT. The writer's own tests: ill-formed commands, the worked examples of the manual, and for every statement
a state that meets its hypotheses. -/

namespace Sys2Proof.Tests

set_option Elab.async false

open Sys2Proof.Machine Sys2Proof.Machine.State

/-! ## Ill-formed commands -/

theorem test_read_of_no_character_is_ill_formed : (Instr.responseRead 0 0).wellFormed = false := by decide
theorem test_read_of_one_character_is_well_formed : (Instr.responseRead 0 1).wellFormed = true := by decide

theorem test_frame_that_is_a_read_is_ill_formed : (Instr.badFrame 0 [0x00, 0x01]).wellFormed = false := by decide
theorem test_frame_that_passes_is_ill_formed :
    (Instr.badFrame 0 (requestFrame .readFaults 7 [])).wellFormed = false := by decide +kernel
theorem test_frame_that_fails_is_well_formed : (Instr.badFrame 0 [0x0F, 0x07, 0x00, 0x00]).wellFormed = true := by
  decide +kernel

theorem test_overrun_by_a_read_is_ill_formed : (Instr.overrun 0 [0x00]).wellFormed = false := by decide
theorem test_overrun_by_no_character_is_ill_formed : (Instr.overrun 0 []).wellFormed = false := by decide

theorem test_storage_error_of_no_bit_is_ill_formed : (Instr.storageError 0 []).wellFormed = false := by decide
theorem test_storage_error_of_one_bit_twice_is_ill_formed : (Instr.storageError 0 [3, 3]).wellFormed = false := by
  decide

/-- A body one character too long for a frame (R183). -/
def longBody : List Byte := List.replicate 61 0x00#8

theorem test_bodies_too_long_are_ill_formed :
    ([Instr.hunt 0 1 longBody, .seize 0 1 longBody, .accept 0 1 longBody, .answer 0 1 longBody, .release 0 1 longBody,
      .block 0 1 longBody, .unblock 0 1 longBody, .resetChannel 0 1 longBody, .drain 0 1 longBody,
      .undrain 0 1 longBody, .readChannel 0 1 longBody, .readGroup 0 1 longBody, .readSpan 0 1 longBody,
      .nextAttention 0 1 longBody].all fun c => c.wellFormed = false) = true := by decide +kernel

theorem test_configuration_bodies_too_long_are_ill_formed :
    ([Instr.readFaults 0 1 longBody, .setSpan 0 1 longBody, .clearSpan 0 1 longBody, .equip 0 1 longBody,
      .unequip 0 1 longBody, .setGroup 0 1 longBody, .deleteGroup 0 1 longBody, .loadProfile 0 1 longBody,
      .setFaultClass 0 1 longBody, .clearFaults 0 1 longBody, .setPort 0 1 longBody, .setDevice 0 1 longBody,
      .transfer 0 1 longBody, .restart 0 1 longBody].all fun c => c.wellFormed = false) = true := by decide +kernel

/-! ## The numbers of the manual -/

/-- The sets of 4.7, 4.8 and 7.8. -/
theorem test_sets_of_the_worked_references :
    [0x000A10#24, 0x000321#24, 0x000400#24, 0x000105#24, 0x010500#24, 0x050001#24, 0x040000#24, 0x000084#24].map Machine.setOf =
      [26, 34, 4, 4, 4, 4, 4, 4] := by decide +kernel

/-- The check characters "123456789" under the two generators: 0xF4 and 0x29B1 are what each gives of them (R172,
R183). -/
theorem test_check_characters :
    crc8 [0x31, 0x32, 0x33, 0x34, 0x35, 0x36, 0x37, 0x38, 0x39] = 0xF4 ∧
      crc16 [0x31, 0x32, 0x33, 0x34, 0x35, 0x36, 0x37, 0x38, 0x39] = 0x29B1 := by decide +kernel

/-- HUNT(6, 0x000A10) at its place in the catalogue, four characters of body, most significant first (R183, R191). -/
theorem test_hunt_frame :
    parseRequest [0x01, 0x55, 0x04, 0x06, 0x00, 0x0A, 0x10, crc8 [0x01, 0x55, 0x04, 0x06, 0x00, 0x0A, 0x10]] =
      some (.hunt, 0x55, [0x06, 0x00, 0x0A, 0x10]) := by decide +kernel

theorem test_no_word_spells_a_command : decodeTableWord 8 0x01 = none := rfl

/-! ## The shelf of the worked examples (3.8, 4.7) -/

/-- Group 6: profile 0, maintenance port 0, rehunt enabled, YIELD; proceed 3000, no answer timeout, offer 4000. -/
def shelfGroup (policy : Policy) (skip : Bool) : GroupConfig :=
  ⟨policy, 0, 0, .yield, true, skip, 100, 3000, 0, 4000, 500, 600⟩

/-- 32 channels, depth 3, N_set 3, N_clear 2, silence time 200 ms, fill 0xF, maintenance port 0. -/
def shelfSpan : SpanConfig := ⟨32, 3, 3, 2, 200, 0xF, 0⟩

/-- A member of group 6 whose far end sends FREE. -/
def shelfMember (rank : Byte) (direction : Direction) (call : CallPart) : ChannelRecord :=
  ⟨⟨some 6, rank, direction⟩, ⟨some 0x9, none, 0, some (.is .free)⟩, call, []⟩

/-- A call part that holds the reference and the role, and nothing else but its state and transmitted condition. -/
def callIn (state : CallState) (role : Role) (reference : Option Reference) (sent : Condition) : CallPart :=
  ⟨state, role, reference, .is sent, none, noFlags, false, none⟩

/-- The table of 3.8: channel 70 carries a call of port 2, the others are IDLE; the rotate cursor is 99. -/
def shelf (policy : Policy) (skip : Bool) : State :=
  { State.reset with
    channels := (((((State.reset.channels.set 70
      (shelfMember 1 .bothway (callIn .connected .outgoing (some 0x000777) .seize))).set 66
      (shelfMember 2 .bothway idleCall)).set 99 (shelfMember 2 .bothway idleCall)).set 68
      (shelfMember 5 .incomingOnly idleCall)).set 101 (shelfMember 5 .bothway idleCall)).set 72
      (shelfMember 9 .outgoingOnly idleCall)
    groups := State.reset.groups.set 6
      ⟨some (shelfGroup policy skip), [70, 66, 99, 68, 101, 72], [101, 72, 68, 66, 99], some 99, none, false, []⟩
    spans := (State.reset.spans.set 2 { powerOnSpan with config := some shelfSpan, state := .inService }).set 3
      { powerOnSpan with config := some shelfSpan, state := .inService, farAlarm := true }
    index := State.reset.index.update (Machine.setOf 0x000777) fun ways => ways.set 0 (some ⟨0x000777, 70, 2⟩)
    ports := ((State.reset.ports.update 1 fun r => { r with enabled := true }).update 2 fun r =>
      { r with enabled := true }).update 3 fun r => { r with enabled := true } }

/-- What a command leaves. -/
def after (c : Instr) (s : State) : State :=
  match exec c s with
  | .next t => t
  | .fault _ | .refused _ => s

/-- The status and the body of the response that waits at a port. -/
def responseAt (p : PortNo) (s : State) : Option (Status × List Byte) :=
  match (s.port p).state with
  | .ready r => some (r.status, r.body)
  | .idle | .working _ => none

/-- A hunt of port 1 in group 6. -/
def huntFor (r : Byte) : Instr := .hunt 1 9 [6, 0, 3, r]

/-- One hunt under each policy (3.8). -/
theorem test_hunt_under_each_policy :
    ([Policy.firstUp, .firstDown, .rotate, .longestIdle].map fun x =>
      ((responseAt 1 (after (huntFor 0x21) (shelf x false))), (responseAt 1 (after (huntFor 0x21) (shelf x true))))) =
    [(some (.ok, [0, 66]), some (.ok, [0, 66])), (some (.ok, [0, 72]), some (.ok, [0, 72])),
     (some (.ok, [0, 101]), some (.ok, [0, 72])), (some (.ok, [0, 101]), some (.ok, [0, 72]))] := by decide +kernel

/-! ## Small changes of the shelf -/

/-- The channel holds this call part; it is out of the idle queue but in IDLE, and its reference is bound to port 1. -/
def putCall (n : ChannelNo) (c : CallPart) (s : State) : State :=
  let t := s.modChannel n fun r => { r with call := c }
  let t := if c.state = .idle then t else t.leaveIdle n
  match c.reference with
  | some r => t.bind ⟨r, n, 1⟩
  | none => t

/-- The channel has received a condition, and the code that stands at its position completes its candidate. -/
def hearing (n : ChannelNo) (old : Condition) (x : LineCode) (s : State) : State :=
  (s.setLine n ⟨some (powerOnTransmit.get (conditionNo old)), some x, 2, some (.is old)⟩).modSpan (spanOf n) fun r =>
    { r with handed := r.handed.set (positionOf n) (some x) }

/-- The channel's call part has these bits in error. -/
def struck (n : ChannelNo) (bits : List Nat) (s : State) : State := s.modChannel n fun r => { r with errors := bits }

def draining (s : State) : State := s.modGroup 6 fun r => { r with drainPort := some 2 }

def heldBy (f : BlockFlags) : CallPart := { blockedCall f with state := .blocked }

/-- The channel's supervision timer has run out. -/
def expired (c : CallPart) : CallPart := { c with timer := some 0 }

def working (p : PortNo) (code : RequestCode) (s : State) : State :=
  s.modPort p fun r => { r with state := .working ⟨9, code⟩ }

/-- The four references of 7.8 fill set 4. -/
def fullSet (s : State) : State :=
  [0x000105#24, 0x010500#24, 0x050001#24, 0x040000#24].foldl (fun t r => t.bind ⟨r, 66, 1⟩) s

/-- Port 1's outgoing call on channel 66 (4.7). -/
def outgoing (state : CallState) : CallPart := callIn state .outgoing (some 0x000A10) .seize

/-- Port 1's accepted incoming call. -/
def incoming (state : CallState) : CallPart := callIn state .incoming (some 0x000A10) .proceed

def firstUp : State := shelf .firstUp false

theorem admitted (s : State) (p : PortNo)
    (h : s.rstN = true ∧ (s.port p).state.isWorking = false ∧ (s.port p).enabled = true ∧ s.restart = none) :
    s.Admits p := h

theorem raises_of_parts {s : State} {n : ChannelNo} {x : LineCode} {r : Received} (old : Received)
    (h : (s.span (spanOf n)).handed.get (positionOf n) = some x ∧ (s.line n).stable ≠ some x ∧
      (s.span (spanOf n)).config = some shelfSpan ∧ (s.line n).candidate = some x ∧ (s.line n).count = 2 ∧
      s.equipped n = true ∧ s.meaning n x = r ∧ (s.line n).received = some old ∧ r ≠ old) : s.Raises n x r := by
  obtain ⟨h1, h2, h3, h4, h5, h6, h7, h8, h9⟩ := h
  refine ⟨⟨h1, h2, shelfSpan, h3, .inl ⟨h4, ?_⟩⟩, h6, h7, .inr ⟨old, h8, h9⟩⟩
  rw [h5]; rfl

theorem brings_of_parts {s : State} {n : ChannelNo} {x : LineCode} {r : Received} (old : Received)
    (h : (s.span (spanOf n)).handed.get (positionOf n) = some x ∧ (s.line n).stable ≠ some x ∧
      (s.span (spanOf n)).config = some shelfSpan ∧ (s.line n).candidate = some x ∧ (s.line n).count = 2 ∧
      s.equipped n = true ∧ s.meaning n x = r ∧ (s.channel n).errors = [] ∧ (s.line n).received = some old ∧
      r ≠ old) : s.Brings n x r := by
  obtain ⟨h1, h2, h3, h4, h5, h6, h7, h8, h9, h10⟩ := h
  exact ⟨raises_of_parts old ⟨h1, h2, h3, h4, h5, h6, h7, h9, h10⟩, h8⟩

/-- The block right after reset, with a response at port 0. -/
def answeredAtReset : State := State.reset.modPort 0 fun r => { r with state := .ready ⟨9, .ok, false, []⟩ }

/-! ## Witnesses: the queue, reset and time -/

theorem test_witness_step_idles : State.reset.pending = [] := rfl

theorem test_witness_timebase_step_counts : dueEvents firstUp = [] := by decide +kernel

theorem test_witness_timebase_step_takes_supervision :
    [outgoing .outSeized, outgoing .outWaitAnswer, callIn .inSeized .incoming none .proceed,
      outgoing .clearingLocal, outgoing .clearingRemote, callIn .guard .none none .free].all
        (fun c => dueEvents (putCall 66 (expired c) firstUp) = [.supervision 66]) = true ∧
    TakenBy (putCall 66 (expired (outgoing .outSeized)) firstUp) (.supervision 66) (.proceedTimeout 66) := by
  refine ⟨by decide +kernel, .inr (.inl ⟨by decide +kernel, rfl⟩)⟩

theorem test_witness_timebase_step_takes_a_walk :
    dueEvents (firstUp.modSpan 2 fun r => { r with silence := some 0 }) = [.silence 2] ∧
    dueEvents { firstUp with purge := ⟨[⟨66, 128⟩], 0, true⟩ } = [.purge] ∧
    dueEvents { firstUp with transfer := some ⟨1, 2, 0, 0, true⟩ } = [.sweep] ∧
    dueEvents { firstUp with scrub := ⟨8, 511, some 0⟩ } = [.scrub] ∧
    dueEvents { firstUp with link := { firstUp.link with refreshTimer := some 0 } } = [.refresh] ∧
    dueEvents { firstUp with restart := some ⟨0, 0⟩ } = [.restart] ∧
    TakenBy firstUp .scrub .scrubVisit := by
  refine ⟨by decide +kernel, by decide +kernel, by decide +kernel, by decide +kernel, by decide +kernel,
    by decide +kernel, rfl⟩

theorem test_witness_several_events_are_due :
    dueEvents { firstUp with
      scrub := ⟨8, 511, some 0⟩, link := { firstUp.link with refreshTimer := some 0 } } = [.scrub, .refresh] := by
  decide +kernel

/-! ## Witnesses: the controller ports -/

theorem test_rst_n_low_is_no_event :
    let low := { answeredAtReset with rstN := false }
    ([.responseRead 0 8, .badFrame 0 [0x1D], .overrun 0 [0x01], .spanReport [0x52, 2, 1, 0, 32, 0]] : List Instr).all
      (fun c => decide (after c low = low)) = true := by decide +kernel

theorem test_witness_requests_are_admitted_in_order :
    requestOfCommand (.setSpan 1 9 []) = some (1, 9, .setSpan, []) ∧
    ({ firstUp with rstN := false }).rstN = false ∧
    ((working 1 .restart firstUp).port 1).state.isWorking = true ∧
    (firstUp.port 1).state.isWorking = false ∧ (State.reset.port 1).enabled = false ∧
    (firstUp.port 1).enabled = true ∧ ({ firstUp with restart := some ⟨16, 0⟩ }).restart ≠ none ∧
    permission 1 [] firstUp .setSpan = false ∧ permission 0 [] firstUp .setSpan = true ∧
    ([] : List Byte).length ≠ bodyLength .setSpan := by decide +kernel

theorem test_witness_bad_frames_and_overruns :
    firstUp.rstN = true ∧ isRequestTransfer [0x1D] = true ∧ parseRequest [0x1D] = none ∧
    (firstUp.port 3).state.isWorking = false ∧ ((working 3 .transfer firstUp).port 3).state.isWorking = true ∧
    requestOfCommand (.hunt 3 9 longBody) = some (3, 9, .hunt, longBody) ∧ 60 < longBody.length := by decide +kernel

/-- A response of seven characters waits at port 1. -/
def answeredAt1 : State := firstUp.modPort 1 fun r => { r with state := .ready ⟨9, .ok, false, [0x01]⟩ }

theorem test_witness_reads_consume_the_response :
    (firstUp.port 1).state = .idle ∧ ((working 1 .restart firstUp).port 1).state = .working ⟨9, .restart⟩ ∧
    (answeredAt1.port 1).state = .ready ⟨9, .ok, false, [0x01]⟩ ∧
    (responseFrame ⟨9, .ok, false, [0x01]⟩).length = 7 := by decide +kernel

theorem test_partial_and_complete_read :
    (((after (.responseRead 1 6) answeredAt1).port 1).state = .ready ⟨9, .ok, false, [0x01]⟩) ∧
    ((after (.responseRead 1 7) answeredAt1).port 1).state = .idle ∧
    ((after (.responseRead 1 7) answeredAt1).port 1).sdo.take 6 = [0xA5, 0x09, 0x00, 0x00, 0x01, 0x01] := by
  decide +kernel

theorem test_bad_frame_and_overrun :
    responseAt 1 (after (.badFrame 1 [0x1D, 0x00]) firstUp) = some (.badFrame, []) ∧
    ((after (.badFrame 1 [0x1D, 0x00]) firstUp).faults.reported = [⟨.portFrame, none, none, some 1, none, none⟩]) ∧
    ((after (.overrun 1 [0x01]) (working 1 .restart firstUp)).port 1).overrun = true := by decide +kernel

theorem test_frame_of_the_longest_body :
    parseRequest (requestFrame .hunt 9 (List.replicate 60 0x00)) = some (.hunt, 9, List.replicate 60 0x00) ∧
    parseRequest (requestFrame .hunt 9 (List.replicate 61 0x00)) = none := by decide +kernel

/-- The last number of each field, and the first beyond it (R190). -/
theorem test_fields_at_their_ends :
    [channelField 0x01 0xFF, channelField 0x02 0x00] = [some 511, none] ∧
    [groupField 31, groupField 32] = [some 31, none] ∧ [spanField 15, spanField 16] = [some 15, none] ∧
    [profileField 7, profileField 8] = [some 7, none] ∧ [portField 3, portField 4] = [some 3, none] ∧
    [yesNoField 1, yesNoField 2] = [some true, none] ∧ [codeField 0x0F, codeField 0x10] = [some 0xF, none] ∧
    [directionField 2, directionField 3] = [some .outgoingOnly, none] ∧
    [policyField 3, policyField 4] = [some .longestIdle, none] ∧ [glareField 1, glareField 2] = [some .hold, none] ∧
    [severityField 1, severityField 2] = [some .major, none] ∧
    [faultClassField 10, faultClassField 11] = [some .portFrame, none] ∧
    [receivedField 6, receivedField 7] = [some .invalid, none] := by decide +kernel

/-! ## Witnesses: calls from this end -/

theorem test_witness_hunt_chooses_by_policy :
    ((shelf .rotate false).group 6).config = some (shelfGroup .rotate false) ∧
    ((shelf .rotate false).group 6).cursor = some 99 ∧ (99 : ChannelNo) ∉ [(70 : ChannelNo), 66] ∧
    ((shelf .rotate false).group 6).members = [70, 66] ++ 99 :: [68, 101, 72] ∧
    (((shelf .rotate false).modGroup 6 fun r => { r with cursor := none }).group 6).cursor = none := by decide +kernel

theorem test_witness_hunt_seizes_the_chosen_member :
    firstUp.Admits 1 ∧ groupField 6 = some 6 ∧ (firstUp.group 6).config = some (shelfGroup .firstUp false) ∧
    (firstUp.group 6).drainPort = none ∧ reference3 0x00 0x0A 0x10 ≠ 0 ∧
    firstUp.entryOf (reference3 0x00 0x0A 0x10) = none ∧
    (∃ w, (firstUp.index.get (Machine.setOf (reference3 0x00 0x0A 0x10))).get w = none) ∧
    firstUp.chosen 6 = some 66 ∧ (firstUp.channel 66).errors = [] := by
  unfold State.Admits; decide +kernel

theorem test_witness_seize_seizes_its_channel :
    firstUp.Admits 1 ∧ channelField 0 72 = some 72 ∧ firstUp.groupOf 72 = some 6 ∧
    (firstUp.group 6).drainPort = none ∧ reference3 0x01 0x05 0x00 ≠ 0 ∧
    firstUp.entryOf (reference3 0x01 0x05 0x00) = none ∧
    (∃ w, (firstUp.index.get (Machine.setOf (reference3 0x01 0x05 0x00))).get w = none) ∧
    (firstUp.span (spanOf 72)).state = .inService ∧ (firstUp.channel 72).errors = [] ∧
    (firstUp.call 72).state = .idle ∧ (firstUp.equipment 72).direction ≠ .incomingOnly := by
  unfold State.Admits; decide +kernel

/-- Channel 101 carries an offered call (7.8). -/
def offered : State := putCall 101 (callIn .inSeized .incoming none .proceed) firstUp

theorem test_witness_accept_binds_the_offer :
    offered.Admits 0 ∧ channelField 0 101 = some 101 ∧ offered.equipped 101 = true ∧
    (offered.channel 101).errors = [] ∧ (offered.call 101).state = .inSeized ∧ reference3 0x05 0x00 0x01 ≠ 0 ∧
    offered.entryOf (reference3 0x05 0x00 0x01) = none ∧
    (∃ w, (offered.index.get (Machine.setOf (reference3 0x05 0x00 0x01))).get w = none) := by
  unfold State.Admits; decide +kernel

/-- Filling set 4 (7.8): the fifth bind finds no way free, a bound reference is refused first. -/
theorem test_filling_set_4 :
    let a := after (.hunt 1 9 [6, 0x00, 0x01, 0x05]) offered
    let b := after (.seize 2 9 [0, 72, 0x01, 0x05, 0x00]) a
    let c := after (.accept 0 9 [0, 101, 0x05, 0x00, 0x01]) b
    let d := after (.hunt 1 9 [6, 0x04, 0x00, 0x00]) c
    (validEntries (d.index.get 4)).map (fun e => (e.reference, e.channel, e.owner)) =
      [(0x000105, 66, 1), (0x010500, 72, 2), (0x050001, 101, 0), (0x040000, 99, 1)] ∧
    responseAt 3 (after (.hunt 3 9 [6, 0x00, 0x00, 0x84]) d) = some (.refSetFull, []) ∧
    responseAt 2 (after (.hunt 2 9 [6, 0x00, 0x01, 0x05]) d) = some (.refInUse, []) := by decide +kernel

theorem test_witness_answer_connects :
    let s := putCall 66 (incoming .inAlerting) firstUp
    s.Admits 1 ∧ targetField 0x01 0x00 0x0A 0x10 = some (.reference 0x000A10) ∧
    (resolveTarget s (.reference 0x000A10)).toOption = some 66 ∧ (s.channel 66).errors = [] ∧
    s.ownerOf 66 = some 1 ∧ (s.call 66).state = .inAlerting := by
  unfold State.Admits; decide +kernel

theorem test_witness_release_ends_the_call :
    [CallState.outSeized, .outWaitAnswer, .inAlerting, .connected, .clearingRemote, .clearingLocal].all (fun x =>
      let s := putCall 66 (outgoing x) firstUp
      decide (s.rstN = true ∧ (s.port 1).state.isWorking = false ∧ (s.port 1).enabled = true ∧ s.restart = none ∧
        targetField 0x00 0x00 0x00 0x42 = some (.channel 66) ∧
        (resolveTarget s (.channel 66)).toOption = some 66 ∧ (s.channel 66).errors = [] ∧
        s.ownerOf 66 = some 1 ∧ (s.call 66).state = x)) = true := by decide +kernel

theorem test_release_of_a_far_cleared_call :
    let t := after (.release 1 9 [0x01, 0x00, 0x0A, 0x10]) (putCall 66 (outgoing .clearingRemote) firstUp)
    (t.call 66).state = .guard ∧ (t.call 66).timer = some 100 ∧ t.entryOf 0x000A10 = none ∧
    responseAt 1 t = some (.ok, []) := by decide +kernel

theorem test_answer_connects :
    let t := after (.answer 1 9 [0x00, 0x00, 0x00, 0x42]) (putCall 66 (incoming .inAlerting) firstUp)
    (t.call 66).state = .connected ∧ (t.call 66).transmitted = .is .answer ∧ responseAt 1 t = some (.ok, []) := by
  decide +kernel

/-- The checks of HUNT in their order (R45). -/
def huntRefusal (s : State) (b r2 r1 r0 : Byte) : Option Status :=
  match groupField b with
  | none => some .badRequest
  | some g =>
    if (s.group g).config = none then some .badRequest
    else if (s.group g).drainPort ≠ none then some .groupDraining
    else if reference3 r2 r1 r0 = 0 then some .badRequest
    else if s.entryOf (reference3 r2 r1 r0) ≠ none then some .refInUse
    else if ∀ w, (s.index.get (Machine.setOf (reference3 r2 r1 r0))).get w ≠ none then some .refSetFull
    else if s.chosen g = none then some .noChannel
    else none

theorem test_witness_hunt_is_refused_in_order :
    firstUp.Admits 1 ∧
    [huntRefusal firstUp 32 0 0 1, huntRefusal firstUp 5 0 0 1, huntRefusal (draining firstUp) 6 0 0 1,
     huntRefusal firstUp 6 0 0 0, huntRefusal firstUp 6 0x00 0x07 0x77, huntRefusal (fullSet firstUp) 6 0 0 0x84,
     huntRefusal (firstUp.modGroup 6 fun r => { r with idle := [68] }) 6 0 0 1] =
    [some .badRequest, some .badRequest, some .groupDraining, some .badRequest, some .refInUse, some .refSetFull,
     some .noChannel] := by
  unfold State.Admits; decide +kernel

/-- The checks of SEIZE in their order (R55). -/
def seizeRefusal (s : State) (hi lo r2 r1 r0 : Byte) : Option Status :=
  match channelField hi lo with
  | none => some .badRequest
  | some n =>
    match s.groupOf n with
    | none => some .notEquipped
    | some g =>
      if reference3 r2 r1 r0 = 0 then some .badRequest
      else if (s.group g).drainPort ≠ none then some .groupDraining
      else if s.entryOf (reference3 r2 r1 r0) ≠ none then some .refInUse
      else if ∀ w, (s.index.get (Machine.setOf (reference3 r2 r1 r0))).get w ≠ none then some .refSetFull
      else if (s.span (spanOf n)).state ≠ .inService then some .spanDown
      else if (s.channel n).errors ≠ [] then none
      else if (s.call n).state ≠ .idle ∨ (s.equipment n).direction = .incomingOnly then some .wrongState
      else none

theorem test_witness_seize_is_refused_in_order :
    [seizeRefusal firstUp 2 0 0 0 1, seizeRefusal firstUp 0 67 0 0 1, seizeRefusal firstUp 0 66 0 0 0,
     seizeRefusal (draining firstUp) 0 66 0 0 1, seizeRefusal firstUp 0 66 0x00 0x07 0x77,
     seizeRefusal (fullSet firstUp) 0 66 0 0 0x84,
     seizeRefusal (firstUp.modSpan 2 fun r => { r with state := .suspect }) 0 66 0 0 1,
     seizeRefusal firstUp 0 70 0 0 1, seizeRefusal firstUp 0 68 0 0 1] =
    [some .badRequest, some .notEquipped, some .badRequest, some .groupDraining, some .refInUse, some .refSetFull,
     some .spanDown, some .wrongState, some .wrongState] := by decide +kernel

/-- The checks of ACCEPT in their order (R66). -/
def acceptRefusal (s : State) (hi lo r2 r1 r0 : Byte) : Option Status :=
  match channelField hi lo with
  | none => some .badRequest
  | some n =>
    if s.equipped n = false then some .notEquipped
    else if (s.channel n).errors ≠ [] then none
    else if (s.call n).state ≠ .inSeized then some .wrongState
    else if reference3 r2 r1 r0 = 0 then some .badRequest
    else if s.entryOf (reference3 r2 r1 r0) ≠ none then some .refInUse
    else if ∀ w, (s.index.get (Machine.setOf (reference3 r2 r1 r0))).get w ≠ none then some .refSetFull
    else none

theorem test_witness_accept_is_refused_in_order :
    [acceptRefusal offered 2 0 0 0 1, acceptRefusal offered 0 67 0 0 1, acceptRefusal offered 0 66 0 0 1,
     acceptRefusal offered 0 101 0 0 0, acceptRefusal offered 0 101 0x00 0x07 0x77,
     acceptRefusal (fullSet offered) 0 101 0 0 0x84] =
    [some .badRequest, some .notEquipped, some .wrongState, some .badRequest, some .refInUse, some .refSetFull] := by
  decide +kernel

/-- The checks of RELEASE in their order (R79), and with the last one those of ANSWER (R71). -/
def ownedRefusal (state? : Option CallState) (s : State) (p : PortNo) (k a b c : Byte) : Option Status :=
  match targetField k a b c with
  | none => some .badRequest
  | some target =>
    match resolveTarget s target with
    | .error status => some status
    | .ok n =>
      if (s.channel n).errors ≠ [] then none
      else if s.ownerOf n ≠ some p then some .notOwner
      else if state?.any (fun x => (s.call n).state ≠ x) then some .wrongState
      else none

theorem test_witness_targets_and_owners_are_checked :
    let lost : State := { firstUp with purge := ⟨[⟨70, 128⟩], 0, false⟩ }
    [ownedRefusal none firstUp 1 2 0 0 66, ownedRefusal none firstUp 1 0 0 2 0, ownedRefusal none firstUp 1 0 0 0 67,
     ownedRefusal none firstUp 1 1 0 0 0, ownedRefusal none firstUp 1 1 0 0 1, ownedRefusal none lost 2 1 0 0x07 0x77,
     ownedRefusal none firstUp 1 1 0 0x07 0x77, ownedRefusal (some .inAlerting) firstUp 2 1 0 0x07 0x77] =
    [some .badRequest, some .badRequest, some .notEquipped, some .badRequest, some .refUnknown, some .recordFault,
     some .notOwner, some .wrongState] := by decide +kernel

/-- The body of a SET_GROUP that writes the configuration of 3.8 with this policy and profile. -/
def groupBody (b policy profile : Byte) : List Byte :=
  [b, policy, profile, 0, 0, 1, 0, 0, 100, 0x0B, 0xB8, 0, 0, 0x0F, 0xA0, 0x01, 0xF4, 0x02, 0x58]

/-- A rehunt of port 1's call that channel 66 lost. -/
def rehunting (r : Rehunt) (s : State) : State := s.modGroup 6 fun x => { x with rehunts := [r] }

def lostGlare : Rehunt := ⟨0x000321, 1, 66, false, false⟩

theorem test_witness_rehunt_tries_once :
    ((rehunting { lostGlare with discarded := true } firstUp).group 6).rehunts = [⟨0x000321, 1, 66, true, false⟩] ∧
    (rehunting lostGlare (firstUp.modPort 1 fun r => { r with enabled := false })).mayOwn 1 = false ∧
    ((rehunting { lostGlare with orphaned := true } firstUp).group 6).rehunts = [⟨0x000321, 1, 66, false, true⟩] ∧
    (rehunting lostGlare (State.reset)).mayOwn 0 = true ∧ ((rehunting lostGlare State.reset).group 6).config = none ∧
    ((rehunting lostGlare (draining firstUp)).group 6).drainPort ≠ none ∧
    (putCall 72 (callIn .outSeized .outgoing (some 0x000321) .seize) firstUp).entryOf lostGlare.reference ≠ none ∧
    (∀ w, ((fullSet firstUp).index.get (Machine.setOf 0x000084)).get w ≠ none) ∧
    (firstUp.modGroup 6 fun r => { r with idle := [] }).chosen 6 = none := by decide +kernel

theorem test_witness_rehunt_succeeds :
    let s := rehunting lostGlare offered
    (s.group 6).rehunts = [lostGlare] ∧ lostGlare.discarded = false ∧ s.mayOwn 1 = true ∧
    lostGlare.orphaned = false ∧
    (s.group 6).config = some (shelfGroup .firstUp false) ∧ (s.group 6).drainPort = none ∧
    s.entryOf 0x000321 = none ∧ (∃ w, (s.index.get (Machine.setOf 0x000321)).get w = none) ∧
    s.chosen 6 = some 66 ∧ (s.channel 66).errors = [] := by decide +kernel

/-- A rehunt that waits while its group is deleted and created again is marked, and fails though a member is eligible
(R48). -/
theorem test_rehunt_of_a_deleted_group :
    let t := after (.setGroup 0 9 (groupBody 6 3 0)) (after (.deleteGroup 0 9 [6])
      (rehunting lostGlare (firstUp.modGroup 6 fun r => { r with members := [], idle := [] })))
    let u := after (.rehunt 6) (rehunting { lostGlare with orphaned := true } offered)
    (t.group 6).rehunts = [{ lostGlare with orphaned := true }] ∧ (t.group 6).config ≠ none ∧
    offered.chosen 6 ≠ none ∧ u.list 1 = [⟨.channel 66, [.channel .glareLost]⟩] ∧
    u.entryOf 0x000321 = none := by decide +kernel

/-- The worked glare with rehunt (4.8): channel 66 takes the far end's call, and the call goes to channel 99. -/
theorem test_worked_glare :
    let s := hearing 66 .free 0x1 (putCall 66 (callIn .outSeized .outgoing (some 0x000321) .seize) firstUp)
    let t := after (.positionIntegration 66) s
    let u := after (.rehunt 6) t
    (t.call 66).state = .inSeized ∧ (t.call 66).timer = some 4000 ∧ (t.group 6).rehunts = [lostGlare] ∧
    t.entryOf 0x000321 = none ∧ t.list 0 = [⟨.channel 66, [.channel .offered]⟩] ∧
    (u.call 99).state = .outSeized ∧ (u.call 99).rehuntedFrom = some 66 ∧
    u.entryOf 0x000321 = some ⟨0x000321, 99, 1⟩ ∧ u.list 1 = [⟨.channel 99, [.channel .rehunted]⟩] := by
  decide +kernel

/-! ## Witnesses: the line side of one position -/

/-- Code x has been handed to channel 66, whose line part is this. -/
def handing (l : LinePart) (x : LineCode) (s : State) : State :=
  (s.setLine 66 l).modSpan 2 fun r => { r with handed := r.handed.set 2 (some x) }

theorem test_witness_positions_integrate_one_code :
    let free : LinePart := ⟨some 0x9, none, 0, some (.is .free)⟩
    let shallow := firstUp.modSpan 2 fun r => { r with config := some { shelfSpan with depth := 1 } }
    (((handing free 0x9 firstUp).span 2).handed.get 2 = some 0x9) ∧
    ((handing free 0x9 firstUp).span 2).config = some shelfSpan ∧
    (handing free 0x9 firstUp).line 66 = free ∧
    ((handing { free with candidate := some 0x1, count := 1 } 0x1 firstUp).line 66).count + 1 ≠ shelfSpan.depth ∧
    ((handing free 0x1 firstUp).line 66).candidate ≠ some 0x1 ∧ shelfSpan.depth ≠ 1 ∧
    ((handing { free with candidate := some 0x1, count := 2 } 0x1 firstUp).line 66).count + 1 = shelfSpan.depth ∧
    ((shallow.span 2).config.map (·.depth)) = some 1 := by decide +kernel

theorem test_witness_positions_integrate_an_adoption :
    let s := handing ⟨some 0x9, some 0x1, 2, some (.is .seize)⟩ 0x1 firstUp
    let bare := (handing ⟨some 0x9, some 0x1, 2, none⟩ 0x1 firstUp).modChannel 66 fun r =>
      { r with equipment := unequippedPart, call := unequippedCall }
    s.Adopts 66 0x1 ∧ s.equipped 66 = true ∧ (s.line 66).received = some (s.meaning 66 0x1) ∧
    bare.Adopts 66 0x1 ∧ bare.equipped 66 = false := by
  refine ⟨⟨by decide +kernel, by decide +kernel, shelfSpan, by decide +kernel, .inl (by decide +kernel)⟩,
    by decide +kernel, by decide +kernel, ⟨by decide +kernel, by decide +kernel, shelfSpan, by decide +kernel, .inl (by decide +kernel)⟩,
    by decide +kernel⟩

/-- Reports 41, 42 and 44 of 2.6 at one position: 0xB, then 0xB, then the gap, then 0xB again. -/
theorem test_worked_integration :
    let connected := handing ⟨some 0x5, none, 0, some (.is .answer)⟩ 0xB (putCall 66 (outgoing .connected) firstUp)
    let a := after (.positionIntegration 66) connected
    let b := after (.positionIntegration 66) (handing (a.line 66) 0xB a)
    let c := after (.positionIntegration 66) (handing (b.line 66) 0xB b)
    (a.line 66).count = 1 ∧ (b.line 66).count = 2 ∧ c.line 66 = ⟨some 0xB, none, 0, some (.is .clear)⟩ ∧
    (c.call 66).state = .clearingRemote ∧ c.list 1 = [⟨.channel 66, [.channel .farClear]⟩] := by decide +kernel

theorem test_witness_progress_reaches_the_owner :
    let s := hearing 66 .free 0xD (putCall 66 (outgoing .outSeized) firstUp)
    let t := hearing 66 .proceed 0x5 (putCall 66 (outgoing .outWaitAnswer) firstUp)
    s.Brings 66 0xD (.is .proceed) ∧ (s.call 66).state = .outSeized ∧
    t.Brings 66 0x5 (.is .answer) ∧ (t.call 66).state = .outWaitAnswer := by
  exact ⟨brings_of_parts (.is .free) (by decide +kernel), by decide +kernel,
    brings_of_parts (.is .proceed) (by decide +kernel), by decide +kernel⟩

theorem test_witness_far_end_clears :
    let s := hearing 66 .answer 0x9 (putCall 66 (outgoing .outWaitAnswer) firstUp)
    let t := hearing 66 .seize 0xB (putCall 66 (incoming .inAlerting) firstUp)
    let u := hearing 66 .answer 0xF (putCall 66 (outgoing .connected) firstUp)
    s.Brings 66 0x9 (.is .free) ∧ (s.call 66).state = .outWaitAnswer ∧
    t.Brings 66 0xB (.is .clear) ∧ (t.call 66).state = .inAlerting ∧
    u.Brings 66 0xF (.is .block) ∧ (u.call 66).state = .connected := by
  exact ⟨brings_of_parts (.is .answer) (by decide +kernel), by decide +kernel,
    brings_of_parts (.is .seize) (by decide +kernel), by decide +kernel,
    brings_of_parts (.is .answer) (by decide +kernel), by decide +kernel⟩

/-- Channel 66 in a state that holds no reference. -/
def without (state : CallState) : State := putCall 66 (callIn state .none none .free) firstUp

theorem test_witness_far_block_takes_the_channel :
    let s := hearing 66 .free 0xF firstUp
    let t := hearing 66 .free 0xF (putCall 66 (outgoing .outSeized) firstUp)
    let u := hearing 66 .seize 0xF (without .inSeized)
    s.Brings 66 0xF (.is .block) ∧ (s.call 66).state = .idle ∧
    t.Brings 66 0xF (.is .block) ∧ (t.call 66).state = .outSeized ∧
    u.Brings 66 0xF (.is .block) ∧ (u.call 66).state = .inSeized := by
  exact ⟨brings_of_parts (.is .free) (by decide +kernel), by decide +kernel,
    brings_of_parts (.is .free) (by decide +kernel), by decide +kernel,
    brings_of_parts (.is .seize) (by decide +kernel), by decide +kernel⟩

theorem test_witness_clears_enter_guard :
    let s := hearing 66 .answer 0xB (putCall 66 (outgoing .clearingLocal) firstUp)
    let t := hearing 66 .seize 0x9 (without .clearingLocal)
    let u := hearing 66 .seize 0xB (without .inSeized)
    s.Brings 66 0xB (.is .clear) ∧ (s.call 66).state = .clearingLocal ∧ (s.call 66).reference ≠ none ∧
    t.Brings 66 0x9 (.is .free) ∧ (t.call 66).state = .clearingLocal ∧ (t.call 66).reference = none ∧
    u.Brings 66 0xB (.is .clear) ∧ (u.call 66).state = .inSeized := by
  exact ⟨brings_of_parts (.is .answer) (by decide +kernel), by decide +kernel, by decide +kernel,
    brings_of_parts (.is .seize) (by decide +kernel), by decide +kernel, by decide +kernel,
    brings_of_parts (.is .seize) (by decide +kernel), by decide +kernel⟩

theorem test_witness_far_seizure_offers :
    let s := hearing 66 .free 0x1 firstUp
    let t := hearing 72 .free 0x1 firstUp
    s.Brings 66 0x1 (.is .seize) ∧ (s.call 66).state = .idle ∧ (s.equipment 66).direction ≠ .outgoingOnly ∧
    t.Brings 72 0x1 (.is .seize) ∧ (t.call 72).state = .idle ∧ (t.equipment 72).direction = .outgoingOnly := by
  exact ⟨brings_of_parts (.is .free) (by decide +kernel), by decide +kernel, by decide +kernel,
    brings_of_parts (.is .free) (by decide +kernel), by decide +kernel, by decide +kernel⟩

/-- Channel 66 in glare, its group holding. -/
def holding (s : State) : State :=
  s.modGroup 6 fun r => { r with config := some { shelfGroup .firstUp false with glare := .hold } }

theorem test_witness_glare_holds_or_yields :
    let s := hearing 66 .free 0x1 (putCall 66 (outgoing .outSeized) firstUp)
    let t := holding s
    let u := s.modChannel 66 fun r => { r with equipment := { r.equipment with direction := .outgoingOnly } }
    s.Brings 66 0x1 (.is .seize) ∧ (s.call 66).state = .outSeized ∧ (s.equipment 66).direction ≠ .outgoingOnly ∧
    (s.config 66).glare = .yield ∧ s.groupOf 66 = some 6 ∧ (s.call 66).reference = some 0x000A10 ∧
    t.Brings 66 0x1 (.is .seize) ∧ (t.call 66).state = .outSeized ∧ (t.config 66).glare = .hold ∧
    u.Brings 66 0x1 (.is .seize) ∧ (u.call 66).state = .outSeized ∧ (u.equipment 66).direction = .outgoingOnly := by
  exact ⟨brings_of_parts (.is .free) (by decide +kernel), by decide +kernel, by decide +kernel, by decide +kernel,
    by decide +kernel, by decide +kernel, brings_of_parts (.is .free) (by decide +kernel), by decide +kernel,
    by decide +kernel, brings_of_parts (.is .free) (by decide +kernel), by decide +kernel, by decide +kernel⟩

theorem test_witness_invalid_code :
    (hearing 66 .answer 0x3 (putCall 66 (outgoing .connected) firstUp)).Brings 66 0x3 .invalid := by
  exact brings_of_parts (.is .answer) (by decide +kernel)

theorem test_witness_conditions_out_of_sequence :
    let idle := hearing 66 .free 0xD firstUp
    let only := hearing 72 .free 0x1 firstUp
    let seized := hearing 66 .proceed 0xB (putCall 66 (outgoing .outSeized) firstUp)
    let waiting := hearing 66 .answer 0x1 (putCall 66 (outgoing .outWaitAnswer) firstUp)
    let alerting := hearing 66 .seize 0x5 (putCall 66 (incoming .inAlerting) firstUp)
    idle.Brings 66 0xD (.is .proceed) ∧ (idle.call 66).state = .idle ∧
    only.Brings 72 0x1 (.is .seize) ∧ (only.equipment 72).direction = .outgoingOnly ∧
    seized.Brings 66 0xB (.is .clear) ∧ (seized.call 66).state = .outSeized ∧
    waiting.Brings 66 0x1 (.is .seize) ∧ (waiting.call 66).state = .outWaitAnswer ∧
    alerting.Brings 66 0x5 (.is .answer) ∧ (alerting.call 66).state = .inAlerting := by
  exact ⟨brings_of_parts (.is .free) (by decide +kernel), by decide +kernel,
    brings_of_parts (.is .free) (by decide +kernel), by decide +kernel,
    brings_of_parts (.is .proceed) (by decide +kernel), by decide +kernel,
    brings_of_parts (.is .answer) (by decide +kernel), by decide +kernel,
    brings_of_parts (.is .seize) (by decide +kernel), by decide +kernel⟩

/-- Channel 66 BLOCKED with these flags. -/
def blockedBy (f : BlockFlags) : State := putCall 66 (blockedCall f) firstUp

theorem test_witness_blocked_conditions_out_of_sequence :
    let clear := hearing 66 .free 0xB (blockedBy ⟨true, false, true⟩)
    let seize := hearing 66 .free 0x1 (blockedBy ⟨true, false, false⟩)
    let again := hearing 66 .free 0xF (blockedBy ⟨false, false, true⟩)
    clear.Brings 66 0xB (.is .clear) ∧ (clear.call 66).state = .blocked ∧
    seize.Brings 66 0x1 (.is .seize) ∧ (seize.call 66).flags.remote = false ∧
    again.Brings 66 0xF (.is .block) ∧ (again.call 66).flags.remote = true := by
  exact ⟨brings_of_parts (.is .free) (by decide +kernel), by decide +kernel,
    brings_of_parts (.is .free) (by decide +kernel), by decide +kernel,
    brings_of_parts (.is .free) (by decide +kernel), by decide +kernel⟩

theorem test_witness_conditions_taken_in_silence :
    let guarded := hearing 66 .answer 0x9 (without .guard)
    let clearing := hearing 66 .answer 0xF (putCall 66 (outgoing .clearingLocal) firstUp)
    let idle := hearing 66 .clear 0x9 firstUp
    let freed := hearing 66 .clear 0x9 (blockedBy ⟨false, true, false⟩)
    guarded.Brings 66 0x9 (.is .free) ∧ (guarded.call 66).state = .guard ∧
    clearing.Brings 66 0xF (.is .block) ∧ (clearing.call 66).state = .clearingLocal ∧
    idle.Brings 66 0x9 (.is .free) ∧ (idle.call 66).state = .idle ∧
    freed.Brings 66 0x9 (.is .free) ∧ (freed.call 66).state = .blocked ∧ (freed.call 66).flags.remote = false := by
  exact ⟨brings_of_parts (.is .answer) (by decide +kernel), by decide +kernel,
    brings_of_parts (.is .answer) (by decide +kernel), by decide +kernel,
    brings_of_parts (.is .clear) (by decide +kernel), by decide +kernel,
    brings_of_parts (.is .clear) (by decide +kernel), by decide +kernel, by decide +kernel⟩

theorem test_witness_blocked_follows_the_far_end :
    let s := hearing 66 .free 0xF (blockedBy ⟨true, false, false⟩)
    let t := hearing 66 .block 0x9 (blockedBy ⟨false, true, true⟩)
    let u := hearing 66 .block 0x1 (blockedBy ⟨true, true, true⟩)
    s.Brings 66 0xF (.is .block) ∧ (s.call 66).state = .blocked ∧ (s.call 66).flags.remote = false ∧
    t.Brings 66 0x9 (.is .free) ∧ (t.call 66).state = .blocked ∧ (t.call 66).flags = ⟨false, true, true⟩ ∧
    u.Brings 66 0x1 (.is .seize) ∧ (u.call 66).state = .blocked ∧ (u.call 66).flags = ⟨true, true, true⟩ := by
  exact ⟨brings_of_parts (.is .free) (by decide +kernel), by decide +kernel, by decide +kernel,
    brings_of_parts (.is .block) (by decide +kernel), by decide +kernel, by decide +kernel,
    brings_of_parts (.is .block) (by decide +kernel), by decide +kernel, by decide +kernel⟩

theorem test_witness_last_flag_cleared_settles :
    let s := hearing 66 .block 0x9 (blockedBy ⟨false, false, true⟩)
    let t := hearing 66 .block 0x1 (blockedBy ⟨false, false, true⟩)
    let u := t.modChannel 66 fun r => { r with equipment := { r.equipment with direction := .outgoingOnly } }
    s.Brings 66 0x9 (.is .free) ∧ (s.call 66).state = .blocked ∧ (s.call 66).flags = ⟨false, false, true⟩ ∧
    (s.call 66).transmitted = .is .free ∧ s.groupOf 66 = some 6 ∧
    t.Brings 66 0x1 (.is .seize) ∧ (t.equipment 66).direction ≠ .outgoingOnly ∧
    u.Brings 66 0x1 (.is .seize) ∧ (u.equipment 66).direction = .outgoingOnly := by
  exact ⟨brings_of_parts (.is .block) (by decide +kernel), by decide +kernel, by decide +kernel, by decide +kernel,
    by decide +kernel, brings_of_parts (.is .block) (by decide +kernel), by decide +kernel,
    brings_of_parts (.is .block) (by decide +kernel), by decide +kernel⟩

/-! ## Witnesses: supervision timers -/

theorem test_witness_timers_run_out :
    [outgoing .outSeized, outgoing .outWaitAnswer, callIn .inSeized .incoming none .proceed,
      callIn .guard .none none .free].all
        (fun c =>
          let s := putCall 66 (expired c) firstUp
          decide ((s.call 66).timer = some 0 ∧ (s.channel 66).errors = [] ∧ (s.call 66).state = c.state)) = true := by
  decide +kernel

theorem test_offer_timeout :
    let t := after (.offerTimeout 66) (putCall 66 (expired (callIn .inSeized .incoming none .proceed)) firstUp)
    (t.call 66).state = .clearingLocal ∧ (t.call 66).timer = some 500 ∧
    t.list 0 = [⟨.channel 66, [.channel .offerTimeout]⟩] := by decide +kernel

/-- A guard that ends on a received SEIZE leaves the channel offered (R90 case 2). -/
theorem test_guard_expiry_on_a_seizure :
    let s := putCall 66 (expired (callIn .guard .none none .free)) firstUp
    let t := after (.guardExpiry 66) (s.setLine 66 ⟨some 0x1, none, 0, some (.is .seize)⟩)
    (t.call 66).state = .inSeized ∧ t.list 0 = [⟨.channel 66, [.channel .offered]⟩] := by decide +kernel

theorem test_witness_unanswered_clears_end :
    [CallState.clearingLocal, .clearingRemote].all
        (fun x =>
          let s := putCall 66 (expired (outgoing x)) firstUp
          decide ((s.call 66).timer = some 0 ∧ (s.channel 66).errors = [] ∧ (s.call 66).state = x)) = true := by
  decide +kernel

theorem test_release_stuck :
    let t := after (.releaseStuck 66) (putCall 66 (expired (outgoing .clearingLocal)) firstUp)
    (t.call 66).state = .fault .release ∧ t.list 1 = [⟨.channel 66, [.channel .releaseStuck]⟩] ∧
    t.faults.reported = [⟨.releaseStuck, some 2, some 66, none, none, some .clearingLocal⟩] := by decide +kernel

/-! ## Witnesses: maintenance -/

theorem test_witness_block_takes_or_defers :
    [without .idle, without .guard, blockedBy ⟨false, true, false⟩, without .connected, without (.fault .span)].all
      (fun s => decide (s.rstN = true ∧ (s.port 0).state.isWorking = false ∧ (s.port 0).enabled = true ∧
        s.restart = none ∧ permission 0 [0, 66] s .block = true ∧ channelField 0 66 = some 66 ∧
        s.equipped 66 = true ∧ (s.channel 66).errors = [] ∧ (s.call 66).flags.locally = false)) = true := by
  decide +kernel

/-- The maintenance port of the group may block without administrative right (R187). -/
theorem test_witness_maintenance_port_is_permitted :
    let s := (firstUp.modPort 0 fun r => { r with admin := false })
    permission 0 [0, 66] s .block = true ∧ permission 1 [0, 66] s .block = false ∧
    permission 0 [6] s .drain = true ∧ permission 1 [6] s .drain = false := by decide +kernel

theorem test_block_in_guard_on_a_far_end_block :
    let s := (without .guard).setLine 66 ⟨some 0xF, none, 0, some (.is .block)⟩
    let t := after (.block 0 9 [0, 66]) s
    t.call 66 = blockedCall ⟨true, false, true⟩ ∧ t.list 0 = [⟨.channel 66, [.channel .farBlocked]⟩] ∧
    responseAt 0 t = some (.ok, [0]) := by decide +kernel

theorem test_block_of_a_call_is_deferred :
    let t := after (.block 0 9 [0, 70]) firstUp
    (t.call 70).state = .connected ∧ (t.call 70).flags = ⟨true, false, false⟩ ∧ responseAt 0 t = some (.ok, [1]) := by
  decide +kernel

theorem test_witness_unblock_settles_or_keeps :
    [blockedBy ⟨true, false, false⟩, blockedBy ⟨true, true, false⟩, blockedBy ⟨true, false, true⟩,
      putCall 66 { outgoing .connected with flags := ⟨true, false, false⟩ } firstUp].all
      (fun s => decide (s.rstN = true ∧ (s.port 0).state.isWorking = false ∧ (s.port 0).enabled = true ∧
        s.restart = none ∧ permission 0 [0, 66] s .unblock = true ∧ channelField 0 66 = some 66 ∧
        s.equipped 66 = true ∧ (s.channel 66).errors = [] ∧ (s.call 66).flags.locally = true)) = true ∧
    ((blockedBy ⟨true, false, false⟩).call 66).transmitted = .is .block ∧ CodesDistinct firstUp := by
  unfold CodesDistinct; decide +kernel

theorem test_unblock_settles :
    let t := after (.unblock 0 9 [0, 66]) (blockedBy ⟨true, false, false⟩)
    t.call 66 = idleCall ∧ (t.group 6).idle = [101, 72, 68, 99, 66] := by decide +kernel

theorem test_witness_reset_channel_enters_guard :
    [putCall 66 (outgoing .outSeized) firstUp, without .inSeized, without .idle, without (.fault .release),
      without (.fault .record)].all
      (fun s => decide (s.rstN = true ∧ (s.port 0).state.isWorking = false ∧ (s.port 0).enabled = true ∧
        s.restart = none ∧ (s.port 0).admin = true ∧ channelField 0 66 = some 66 ∧
        s.equipped 66 = true ∧ (s.channel 66).errors = [] ∧ s.purgePending 66 = false)) = true := by
  decide +kernel

theorem test_reset_channel :
    let t := after (.resetChannel 0 9 [0, 70]) firstUp
    (t.call 70).state = .guard ∧ t.entryOf 0x000777 = none ∧ t.list 2 = [⟨.channel 70, [.channel .reset]⟩] := by
  decide +kernel

/-- A reset from BLOCKED with REMOTE alone changes no code and marks no position; one with LOCAL does (R31; log 31). -/
theorem test_reset_from_blocked :
    let t := after (.resetChannel 0 9 [0, 66]) (blockedBy ⟨false, false, true⟩)
    let u := after (.resetChannel 0 9 [0, 66]) (blockedBy ⟨true, false, true⟩)
    (t.call 66).state = .guard ∧ t.linkSpan 2 = firstUp.linkSpan 2 ∧
    (u.call 66).state = .guard ∧ u.linkSpan 2 ≠ firstUp.linkSpan 2 := by decide +kernel

theorem test_witness_maintenance_is_refused_in_order :
    let lost : State := { without (.fault .record) with purge := ⟨[⟨66, 1⟩], 0, false⟩ }
    channelField 2 0 = none ∧ firstUp.equipped 67 = false ∧
    permission 0 [0, 67] firstUp .block = true ∧ ((blockedBy ⟨true, false, false⟩).call 66).flags.locally = true ∧
    (firstUp.call 66).flags.locally = false ∧ ((without (.fault .span)).call 66).state = .fault .span ∧
    (lost.call 66).state = .fault .record ∧ lost.purgePending 66 = true ∧ (lost.port 0).admin = true ∧
    groupField 32 = none ∧ (firstUp.group 5).config = none ∧ permission 0 [5] firstUp .drain = true ∧
    ((draining firstUp).group 6).drainPort ≠ none ∧ (firstUp.group 6).drainPort = none ∧
    permission 0 [6] (draining firstUp) .undrain = true := by decide +kernel

theorem test_witness_drain_reaches_every_member :
    firstUp.Admits 0 ∧ permission 0 [6] firstUp .drain = true ∧ groupField 6 = some 6 ∧
    (firstUp.group 6).config = some (shelfGroup .firstUp false) ∧ (firstUp.group 6).drainPort = none ∧
    ∀ n ∈ (firstUp.group 6).members, (firstUp.channel n).errors = [] := by
  unfold State.Admits; decide +kernel

/-- Two members, both IDLE: the drain is complete when it is asked for (R49, R51). -/
theorem test_drain_of_idle_members_is_reported :
    let s := firstUp.modGroup 6 fun r => { r with members := [66, 99], idle := [66, 99] }
    let t := after (.drain 0 9 [6]) s
    t.call 66 = blockedCall ⟨false, true, false⟩ ∧ (t.group 6).idle = [] ∧ (t.group 6).drainReported = true ∧
    t.list 0 = [⟨.group 6, [.drained]⟩] := by decide +kernel

/-- Group 6 in drain, its member 66 BLOCKED with DRAIN. -/
def drained : State := draining (blockedBy ⟨false, true, false⟩)

theorem test_witness_undrain_reaches_every_member :
    drained.Admits 0 ∧ permission 0 [6] drained .undrain = true ∧ groupField 6 = some 6 ∧
    (drained.group 6).config = some (shelfGroup .firstUp false) ∧ (drained.group 6).drainPort ≠ none ∧
    (drained.group 6).members.Nodup ∧ CodesDistinct drained ∧
    ∀ n ∈ (drained.group 6).members, (drained.channel n).errors = [] ∧
      ((drained.call n).state = .blocked → (drained.call n).transmitted = .is .block) := by
  unfold State.Admits CodesDistinct; decide +kernel

theorem test_undrain :
    let t := after (.undrain 0 9 [6]) drained
    t.call 66 = idleCall ∧ (t.group 6).drainPort = none ∧ (t.group 6).idle = [101, 72, 68, 99, 66] := by
  decide +kernel

/-! ## Witnesses: queries -/

theorem test_witness_queries_answer_what_stands :
    firstUp.Admits 1 ∧ targetField 0 0 0x01 0xFF = some (.channel 511) ∧
    (resolveQuery firstUp (.channel 511)).toOption = some 511 ∧ (firstUp.channel 511).errors = [] ∧
    targetField 1 0x00 0x07 0x77 = some (.reference 0x000777) ∧
    (resolveQuery firstUp (.reference 0x000777)).toOption = some 70 ∧
    targetField 0 0 0x02 0x00 = none ∧ firstUp.entryOf 0x000001 = none ∧
    ({ firstUp with purge := ⟨[⟨70, 1⟩], 0, false⟩ }).purgePending 70 = true ∧
    groupField 31 = some 31 ∧ groupField 32 = none ∧ spanField 15 = some 15 ∧ spanField 16 = none := by
  unfold State.Admits; decide +kernel

/-- The view of channel 70: group 6, rank 1, stable 0x9, received FREE, CONNECTED, OUTGOING, owner 2 (R193). -/
theorem test_read_channel :
    responseAt 1 (after (.readChannel 1 9 [0, 0, 0, 70]) firstUp) = some (.ok,
      [0, 70, 1, 6, 1, 0, 9, 0xFF, 0, 0, 7, 0xFF, 1, 0x00, 0x07, 0x77, 2, 1, 0, 0, 0, 0, 0xFF, 0xFF, 0]) := by
  decide +kernel

theorem test_read_group :
    responseAt 1 (after (.readGroup 1 9 [6]) (shelf .rotate true)) = some (.ok,
      [1, 2, 0, 0, 0, 1, 1, 0, 100, 0x0B, 0xB8, 0, 0, 0x0F, 0xA0, 0x01, 0xF4, 0x02, 0x58, 0, 6, 0, 5, 0, 101, 0, 0,
       0, 0, 0, 99, 0, 0xFF, 0]) ∧
    responseAt 1 (after (.readGroup 1 9 [7]) firstUp) = some (.ok, [0]) := by decide +kernel

theorem test_read_span :
    responseAt 1 (after (.readSpan 1 9 [3]) firstUp) = some (.ok,
      [2, 32, 3, 3, 2, 0, 200, 0x0F, 0, 0, 0, 1, 0, 0xFF, 0xFF, 0xFF, 0, 0, 0, 2, 0, 0, 0, 0]) ∧
    responseAt 1 (after (.readSpan 1 9 [0]) firstUp) = some (.ok, [0]) := by decide +kernel

/-- An attention member of channel 70 waits for port 2, one of the Fault Unit for port 1. -/
def telling : State := (firstUp.tell 2 70 .farClear).notify 1 .fault (.fault .lineGap)

theorem test_witness_next_attention_takes_the_head :
    telling.Admits 1 ∧ telling.Admits 2 ∧ telling.list 3 = [] ∧
    telling.list 1 = ⟨.fault, [.fault .lineGap]⟩ :: [] ∧
    telling.list 2 = ⟨.channel 70, [.channel .farClear]⟩ :: [] ∧ (telling.channel 70).errors = [] := by
  unfold State.Admits; decide +kernel

theorem test_next_attention :
    responseAt 1 (after (.nextAttention 1 9 []) telling) = some (.ok, [3, 0xFF, 0xFF, 1, 4, 0]) ∧
    (responseAt 2 (after (.nextAttention 2 9 []) telling)).map (fun a => a.2.take 6) = some [0, 0, 70, 1, 4, 1] := by
  decide +kernel

theorem test_read_faults :
    let s : State := { firstUp with faults := { firstUp.faults with
      first := some ⟨⟨.releaseStuck, some 2, some 66, none, none, some .clearingLocal⟩, 0x01020304⟩ } }
    (responseAt 1 (after (.readFaults 1 9 []) s)).map (fun a => a.2.drop 33) = some
      [1, 9, 2, 0, 66, 0xFF, 0xFF, 8, 0xFF, 1, 2, 3, 4, 0, 0, 0, 0, 0, 0] := by decide +kernel

/-! ## Witnesses: configuration -/

theorem test_witness_spans_are_configured_and_cleared :
    firstUp.Admits 0 ∧ (firstUp.port 0).admin = true ∧ spanField 15 = some 15 ∧
    (1 ≤ (0x20#8).toNat ∧ (0x20#8).toNat ≤ 32) ∧ (1 ≤ (0x07#8).toNat ∧ (0x07#8).toNat ≤ 7) ∧
    (1 ≤ (millisField 0x03 0xE8).toNat ∧ (millisField 0x03 0xE8).toNat ≤ 1000) ∧ codeField 0x0F = some 0xF ∧
    portField 3 = some 3 ∧ (firstUp.span 15).config = none ∧
    (let s := firstUp.modSpan 5 fun r => { r with config := some shelfSpan, state := .starting }
     (s.span 5).config ≠ none ∧ (∀ k, (s.span 5).handed.get k = none) ∧ s.anyEquipped 5 = false) := by
  unfold State.Admits; decide +kernel

theorem test_set_span_and_clear_span :
    let t := after (.setSpan 0 9 [5, 24, 3, 3, 2, 0, 200, 0x0F, 1]) firstUp
    (t.span 5).state = .starting ∧ (t.span 5).silence = some 200 ∧ t.link.servedLast = some 5 ∧
    responseAt 0 t = some (.ok, []) ∧ (after (.clearSpan 0 9 [5]) t).span 5 = powerOnSpan ∧
    responseAt 0 (after (.clearSpan 0 9 [2]) firstUp) = some (.inUse, []) := by decide +kernel

theorem test_witness_spans_are_reconfigured :
    let s := firstUp.modSpan 5 fun r => { r with config := some shelfSpan, state := .inService }
    s.Admits 0 ∧ (s.port 0).admin = true ∧
    spanFields [5, 24, 2, 3, 2, 0, 200, 0x0F, 1] = some (5, ⟨24, 2, 3, 2, 200, 0xF, 1⟩) ∧
    (s.span 5).config = some shelfSpan ∧ (∀ k, (s.span 5).handed.get k = none) ∧ s.anyEquipped 5 = false ∧
    spanFields [2, 32, 2, 3, 2, 0, 200, 0x0F, 1] = some (2, ⟨32, 2, 3, 2, 200, 0xF, 1⟩) ∧
    (s.span 2).config = some shelfSpan ∧ (∀ k, (s.span 2).handed.get k = none) := by
  unfold State.Admits; decide +kernel

theorem test_witness_equip_puts_into_service :
    let s := firstUp.modSpan 3 fun r => { r with state := .failed .silent }
    s.Admits 0 ∧ (s.port 0).admin = true ∧ channelField 0 0x5F = some 95 ∧ channelField 0 0x60 = some 96 ∧
    groupField 6 = some 6 ∧ directionField 2 = some .outgoingOnly ∧ (s.span (spanOf 95)).config = some shelfSpan ∧
    (positionOf 95).val < shelfSpan.count ∧ (s.group 6).config = some (shelfGroup .firstUp false) ∧
    (s.channel 95).errors = [] ∧ (s.call 95).state = .unequipped ∧ (s.span (spanOf 95)).state = .inService ∧
    (s.span (spanOf 96)).config = some shelfSpan ∧ (positionOf 96).val < shelfSpan.count ∧
    (s.channel 96).errors = [] ∧ (s.call 96).state = .unequipped ∧ (s.span (spanOf 96)).state ≠ .inService := by
  unfold State.Admits; decide +kernel

theorem test_equip :
    let t := after (.equip 0 9 [0, 95, 6, 5, 0]) firstUp
    (t.call 95).state = .guard ∧ (t.call 95).timer = some 100 ∧ (t.group 6).members = [70, 66, 99, 68, 95, 101, 72] ∧
    responseAt 0 t = some (.ok, [2, 0xFF]) := by decide +kernel

theorem test_witness_unequip_takes_out_of_service :
    firstUp.Admits 0 ∧ (firstUp.port 0).admin = true ∧ channelField 0 99 = some 99 ∧ firstUp.groupOf 99 = some 6 ∧
    (firstUp.channel 99).errors = [] ∧ (firstUp.group 6).members = [70, 66] ++ 99 :: [68, 101, 72] ∧
    (99 : ChannelNo) ∉ [(70 : ChannelNo), 66] ∧ (99 : ChannelNo) ∉ [(68 : ChannelNo), 101, 72] ∧
    (firstUp.call 99).state = .idle ∧ ((without (.fault .record)).call 66).state = .fault .record ∧
    (without (.fault .record)).purgePending 66 = false := by
  unfold State.Admits; decide +kernel

/-- Channel 99 is unequipped while it is the cursor: the cursor moves to 66 (3.8). -/
theorem test_unequip_of_the_cursor :
    let t := after (.unequip 0 9 [0, 99]) (shelf .rotate false)
    (t.group 6).cursor = some 66 ∧ (t.group 6).members = [70, 66, 68, 101, 72] ∧ (t.group 6).idle = [101, 72, 68, 66] ∧
    t.call 99 = unequippedCall := by decide +kernel

theorem test_witness_groups_are_written_and_deleted :
    firstUp.Admits 0 ∧ (firstUp.port 0).admin = true ∧
    groupFields (groupBody 31 3 0) = some (31, shelfGroup .longestIdle false) ∧ (firstUp.group 31).config = none ∧
    groupFields (groupBody 6 3 0) = some (6, shelfGroup .longestIdle false) ∧
    (firstUp.group 6).config = some (shelfGroup .firstUp false) ∧
    (let s := after (.setGroup 0 9 (groupBody 31 3 0)) firstUp
     s.Admits 0 ∧ groupField 31 = some 31 ∧ (s.group 31).config ≠ none ∧ (s.group 31).members = []) := by
  unfold State.Admits; decide +kernel

theorem test_set_group_and_delete_group :
    let t := after (.setGroup 0 9 (groupBody 6 3 0)) (shelf .rotate false)
    (t.group 6).cursor = none ∧ (t.group 6).idle = [101, 72, 68, 66, 99] ∧
    responseAt 0 (after (.setGroup 0 9 (groupBody 6 3 1)) firstUp) = some (.inUse, []) ∧
    responseAt 0 (after (.deleteGroup 0 9 [6]) firstUp) = some (.inUse, []) ∧
    ((after (.deleteGroup 0 9 [31]) (after (.setGroup 0 9 (groupBody 31 3 0)) firstUp)).group 31).config = none := by
  decide +kernel

/-- Group 6 with the one member 66, in FAULT(SPAN), or BLOCKED. -/
def alone (s : State) : State := s.modGroup 6 fun r => { r with members := [66], idle := [] }

theorem test_witness_profile_changes_are_read_at_every_member :
    [alone (without (.fault .span)), alone (blockedBy ⟨true, false, true⟩)].all (fun s => decide
      (s.rstN = true ∧ (s.port 0).state.isWorking = false ∧ (s.port 0).enabled = true ∧ s.restart = none ∧
       (s.port 0).admin = true ∧
       (groupFields (groupBody 6 0 1)) = some (6, { shelfGroup .firstUp false with profile := 1 }) ∧
       (s.group 6).config = some (shelfGroup .firstUp false) ∧ (1 : ProfileNo) ≠ (shelfGroup .firstUp false).profile ∧
       (s.group 6).members.Nodup ∧ ∀ n ∈ (s.group 6).members, s.groupOf n = some 6 ∧ (s.channel n).errors = [] ∧
        s.heldMember n = true ∧ ((s.call n).state = .blocked ∧ ((s.call n).flags.locally || (s.call n).flags.drain) = true ∨
          (s.call n).state = .fault .span))) = true := by decide +kernel

/-- Channel 66 BLOCKED by REMOTE alone, with a bit in error: the profile change is refused, and nothing is corrected (R8, R38;
log 33). With LOCAL it is made, and the bit is corrected. -/
theorem test_profile_change_reads_the_corrected_flags :
    let s := struck 66 [3] (alone (blockedBy ⟨false, false, true⟩))
    let t := after (.setGroup 0 9 (groupBody 6 0 1)) s
    let u := after (.setGroup 0 9 (groupBody 6 0 1)) (struck 66 [3] (alone (blockedBy ⟨true, false, true⟩)))
    (groupFields (groupBody 6 0 1)).isSome = true ∧ 66 ∈ (s.group 6).members ∧ (s.call 66).state = .blocked ∧
    ((s.call 66).flags.locally || (s.call 66).flags.drain) = false ∧ (s.channel 66).errors = [3] ∧
    responseAt 0 t = some (.inUse, []) ∧ t.channel 66 = s.channel 66 ∧
    responseAt 0 u = some (.ok, []) ∧ (u.channel 66).errors = [] ∧ (u.call 66).flags.locally = true := by decide +kernel

/-- The power-on profile as LOAD_PROFILE carries it. -/
def profileBody : List Byte :=
  [0x9, 0x1, 0xD, 0x5, 0xB, 0xF] ++ [6, 1, 6, 6, 6, 3, 6, 6, 6, 0, 6, 4, 6, 2, 6, 5]

theorem test_witness_profiles_are_loaded :
    firstUp.Admits 0 ∧ (firstUp.port 0).admin = true ∧ profileField 7 = some 7 ∧
    (profileBody.take 6).length = 6 ∧ (profileBody.drop 6).length = 16 ∧
    (profileBody.take 6).map codeField = powerOnProfile.transmit.cells.map some ∧
    (profileBody.drop 6).map receivedField = powerOnProfile.receive.cells.map some ∧
    powerOnProfile.transmit.cells.Nodup ∧
    (∀ g, ((firstUp.group g).config.any fun c => c.profile = 7) = true → (firstUp.group g).members = []) := by
  unfold State.Admits; decide +kernel

theorem test_load_profile :
    responseAt 0 (after (.loadProfile 0 9 (7 :: profileBody)) firstUp) = some (.ok, []) ∧
    responseAt 0 (after (.loadProfile 0 9 (0 :: profileBody)) firstUp) = some (.inUse, []) ∧
    responseAt 0 (after (.loadProfile 0 9 (7 :: (List.replicate 6 0x9 ++ profileBody.drop 6))) firstUp) =
      some (.badRequest, []) := by decide +kernel

theorem test_witness_fault_classes_are_set_and_cleared :
    firstUp.Admits 0 ∧ (firstUp.port 0).admin = true ∧ faultClassField 10 = some .portFrame ∧
    faultClassField 1 = some .recordLost ∧ yesNoField 0 = some false ∧ yesNoField 1 = some true ∧
    severityField 0 = some .minor ∧ severityField 1 = some .major ∧ portField 3 = some 3 ∧
    faultClassField 11 = none ∧ yesNoField 2 = none := by
  unfold State.Admits; decide +kernel

theorem test_set_fault_class_and_clear_faults :
    let s := firstUp.modFaultClass .portFrame fun r => { r with count := 7 }
    let t := after (.setFaultClass 0 9 [10, 1, 0, 1, 3]) s
    t.faultClass .portFrame = ⟨true, false, .major, 3, 7⟩ ∧
    responseAt 0 (after (.setFaultClass 0 9 [1, 1, 1, 0, 3]) s) = some (.badRequest, []) ∧
    (after (.clearFaults 0 9 [1]) t).faultClass .portFrame = ⟨true, false, .major, 3, 0⟩ ∧
    (after (.clearFaults 0 9 [0]) t).faultClass .portFrame = ⟨true, false, .major, 3, 7⟩ := by decide +kernel

theorem test_witness_ports_and_the_device_are_set :
    firstUp.Admits 0 ∧ (firstUp.port 0).admin = true ∧ portField 3 = some 3 ∧ firstUp.transfer = none ∧
    (∃ q, q ≠ 3 ∧ (firstUp.port q).enabled = true ∧ (firstUp.port q).admin = true) ∧
    (∀ set way, ((firstUp.index.get set).get way).all (fun e => e.owner ≠ 3) = true) ∧
    ({ firstUp with transfer := some ⟨1, 3, 0, 0, false⟩ }).transfer = some ⟨1, 3, 0, 0, false⟩ ∧
    ¬ (∃ q, q ≠ 0 ∧ (firstUp.port q).enabled = true ∧ (firstUp.port q).admin = true) ∧
    (∃ set way, ((firstUp.index.get set).get way).any (fun e => e.owner = 2) = true) ∧
    0 < (millisField 0x00 0x63).toNat ∧ (millisField 0x00 0x63).toNat < 100 ∧
    60000 < (millisField 0xEA 0x61).toNat ∧ millisField 0 0 = 0 ∧ (millisField 0x00 0x64).toNat = 100 ∧
    (millisField 0xEA 0x60).toNat = 60000 := by
  unfold State.Admits; decide +kernel

theorem test_set_port :
    responseAt 0 (after (.setPort 0 9 [3, 0, 0, 0]) firstUp) = some (.ok, []) ∧
    ((after (.setPort 0 9 [3, 0, 0, 0]) firstUp).port 3).enabled = false ∧
    responseAt 0 (after (.setPort 0 9 [0, 1, 0, 1]) firstUp) = some (.badRequest, []) ∧
    responseAt 0 (after (.setPort 0 9 [2, 0, 0, 0]) firstUp) = some (.inUse, []) ∧
    responseAt 0 (after (.setPort 0 9 [1, 1, 1, 1]) { firstUp with transfer := some ⟨1, 3, 0, 0, false⟩ }) =
      some (.busy, []) := by decide +kernel

theorem test_set_device :
    let t := after (.setDevice 0 9 [8, 0x00, 0x64]) { firstUp with scrub := ⟨8, 0, some 3⟩ }
    t.scrub.timer = some 3 ∧ t.link.refreshTimer = some 100 ∧
    (after (.setDevice 0 9 [0, 0, 0]) firstUp).scrub.timer = none := by decide +kernel

theorem test_witness_configuration_is_refused_in_order :
    firstUp.Admits 0 ∧ (firstUp.port 0).admin = true ∧ (∀ n, (firstUp.channel n).errors = []) ∧
    spanFields [2, 33, 3, 3, 2, 0, 200, 0x0F, 1] = none ∧
    spanFields [2, 24, 3, 3, 2, 0, 200, 0x0F, 1] = some (2, ⟨24, 3, 3, 2, 200, 0xF, 1⟩) ∧
    firstUp.anyEquipped 2 = true ∧ spanField 16 = none ∧ (firstUp.span 0).config = none ∧
    channelField 2 0 = none ∧ (firstUp.span (spanOf 0)).config = none ∧ (firstUp.group 5).config = none ∧
    (firstUp.call 66).state ≠ .unequipped ∧ firstUp.equipped 67 = false ∧ (firstUp.call 70).state = .connected ∧
    groupFields (groupBody 32 0 0) = none ∧ (firstUp.call 66).state = .idle ∧
    (firstUp.group 6).members ≠ [] ∧ profileFields (8 :: profileBody) = none ∧
    (profileFields (7 :: profileBody)).isSome = true ∧ (7 :: profileBody).length = 23 ∧
    ((profileFields (7 :: (List.replicate 6 0x9 ++ profileBody.drop 6))).any fun x =>
      decide (¬ x.2.transmit.cells.Nodup)) = true := by
  unfold State.Admits; decide +kernel

/-- A position at or beyond the span's channel count cannot be equipped (R13). -/
theorem test_equip_beyond_the_count :
    let s := firstUp.modSpan 5 fun r => { r with config := some { shelfSpan with count := 24 }, state := .inService }
    responseAt 0 (after (.equip 0 9 [0, 184, 6, 0, 0]) s) = some (.badRequest, []) ∧
    responseAt 0 (after (.equip 0 9 [0, 183, 6, 0, 0]) s) = some (.ok, [2, 0xFF]) := by decide +kernel

/-! ## Witnesses: transfer and restart -/

/-- The sweep has reached the last set of the transfer of port 1 to port 2 (8.6). -/
def sweeping (cursor : SetNo) : State :=
  { working 0 .transfer (putCall 66 (outgoing .connected) firstUp) with transfer := some ⟨1, 2, 0, cursor, true⟩ }

theorem test_witness_transfers_move_every_role :
    firstUp.Admits 0 ∧ (firstUp.port 0).admin = true ∧ portField 4 = none ∧ portField 1 = some 1 ∧
    portField 2 = some 2 ∧ (1 : PortNo) ≠ 0 ∧ (firstUp.port 2).enabled = true ∧ firstUp.transfer = none ∧
    ((firstUp.modPort 2 fun r => { r with enabled := false }).port 2).enabled = false ∧
    (let s := { firstUp with transfer := some ⟨1, 2, 3, 0, false⟩ }
     s.Admits 0 ∧ s.transfer ≠ none) ∧
    (sweeping 26).transfer = some ⟨1, 2, 0, 26, true⟩ ∧ (sweeping 127).transfer = some ⟨1, 2, 0, 127, true⟩ ∧
    ((sweeping 127).port 0).state = .working ⟨9, .transfer⟩ := by
  unfold State.Admits; decide +kernel

theorem test_transfer_begins :
    let t := after (.transfer 0 9 [1, 2]) firstUp
    t.transfer = some ⟨1, 2, 0, 0, false⟩ ∧ (t.port 0).state = .working ⟨9, .transfer⟩ ∧
    (t.port 1).enabled = false ∧
    responseAt 0 (after (.transfer 0 9 [0, 2]) firstUp) = some (.badRequest, []) := by decide +kernel

theorem test_sweep_visits :
    (after .sweepVisit (sweeping 26)).entryOf 0x000A10 = some ⟨0x000A10, 66, 2⟩ ∧
    (after .sweepVisit (sweeping 25)).entryOf 0x000A10 = some ⟨0x000A10, 66, 1⟩ ∧
    (let t := after .sweepVisit ((sweeping 127).tell 1 66 .farClear)
     t.transfer = none ∧ t.list 1 = [] ∧ t.list 2 = [⟨.channel 66, [.channel .farClear]⟩] ∧
     responseAt 0 t = some (.ok, [])) := by decide +kernel

/-- A restart of port 0 whose timer has run out. -/
def restarting : State := { working 0 .restart firstUp with restart := some ⟨0, 0⟩ }

theorem test_witness_restart_reinitialises_and_completes :
    firstUp.Admits 0 ∧ (firstUp.port 0).admin = true ∧ (∀ sp k, (firstUp.span sp).handed.get k = none) ∧
    (let s := { working 3 .transfer firstUp with transfer := some ⟨1, 2, 3, 9, false⟩ }
     s.Admits 0 ∧ s.transfer = some ⟨1, 2, 3, 9, false⟩ ∧ (s.port 3).state = .working ⟨9, .transfer⟩) ∧
    restarting.restart = some ⟨0, 0⟩ ∧ (restarting.port 0).state = .working ⟨9, .restart⟩ := by
  unfold State.Admits; decide +kernel

theorem test_restart :
    let t := after (.restart 0 9 []) firstUp
    (t.call 70).state = .fault .span ∧ (t.group 6).idle = [] ∧ (t.span 2).state = .starting ∧
    t.entryOf 0x000777 = none ∧ t.restart = some ⟨16, 0⟩ ∧ (t.port 0).state = .working ⟨9, .restart⟩ ∧
    t.link.refreshTimer = none := by decide +kernel

theorem test_restart_completion :
    let t := after .restartCompletion restarting
    t.restart = none ∧ responseAt 0 t = some (.ok, []) ∧ (t.span 2).silence = some 200 ∧
    t.scrub.timer = some 8 ∧ t.link.refreshTimer = some 1000 := by decide +kernel

/-! ## Witnesses: the purge walk -/

/-- Channel 66 is lost; its stale entry lies in set 26 (R122). -/
def losing (cursor : SetNo) : State :=
  { putCall 66 (outgoing .connected) firstUp with purge := ⟨[⟨66, 1⟩], cursor, true⟩ }

theorem test_witness_purge_visits_free_stale_entries : (losing 26).purge.visitDue = true := by decide +kernel

theorem test_purge_visit :
    let t := after .purgeVisit (losing 26)
    t.entryOf 0x000A10 = none ∧ t.list 1 = [⟨.channel 66, [.channel .recordLost]⟩] ∧ t.purge = ⟨[], 27, false⟩ ∧
    (after .purgeVisit (losing 25)).entryOf 0x000A10 = some ⟨0x000A10, 66, 1⟩ := by decide +kernel

/-! ## Witnesses: spans and the line link -/

theorem test_witness_line_messages_are_rejected_in_order :
    ({ firstUp with restart := some ⟨16, 0⟩ }).restart ≠ none ∧ firstUp.rstN = true ∧ firstUp.restart = none ∧
    lineCrcPasses [0x52, 2, 1, 0, 32, 0] = false ∧ lineCrcPasses (withCrc16 [0x55, 2, 1, 0, 32]) = true ∧
    (0x55#8) ≠ 0x52#8 ∧ lineCrcPasses (withCrc16 [0x52, 16, 1, 0, 32]) = true ∧ 16 ≤ (16#8).toNat ∧
    lineCrcPasses (withCrc16 [0x52, 15, 1, 0, 32]) = true ∧ (firstUp.span 15).config = none ∧
    lineCrcPasses (withCrc16 [0x52, 2, 1, 0, 31]) = true ∧ (firstUp.span 2).config = some shelfSpan ∧
    (31#8).toNat ≠ shelfSpan.count ∧ (withCrc16 [0x52, 2, 1, 0, 32]).length ≠ 7 + (32#8).toNat := by decide +kernel

theorem test_line_messages_are_reported :
    ([[0x52#8, 2, 1, 0, 32, 0], withCrc16 [0x55, 2, 1, 0, 32], withCrc16 [0x52, 16, 1, 0, 32],
      withCrc16 [0x52, 2, 1, 0, 31]].map fun m => (after (.spanReport m) firstUp).faults.reported) =
    [[⟨.lineCheck, none, none, none, none, none⟩], [⟨.lineFormat, some 2, none, none, none, none⟩],
     [⟨.lineFormat, none, none, none, none, none⟩], [⟨.lineFormat, some 2, none, none, none, none⟩]] := by
  decide +kernel

/-- Span 2 in a state of R106, with runs and a last sequence number of 40. -/
def spanIn (x : SpanState) (faultRun cleanRun : Nat) (farAlarm : Bool) (farRun : Nat) : State :=
  firstUp.modSpan 2 fun r =>
    { r with state := x, faultRun := faultRun, cleanRun := cleanRun, lastSequence := some 40, farAlarm := farAlarm,
             farRun := farRun }

/-- The configuration of span 2 with other runs. -/
def runs (nSet nClear : Nat) (s : State) : State :=
  s.modSpan 2 fun r => { r with config := some { shelfSpan with nSet := nSet, nClear := nClear } }

/-- What every clause of an accepted report asks of span 2. -/
def reportable (s : State) : Bool :=
  decide (s.rstN = true ∧ s.restart = none ∧ ((s.span 2).config.map (·.count)) = some 32 ∧
    ∀ k, (s.span 2).handed.get k = none)

/-- The clean and the faulty clauses of R106, each at the end of its range: N_set is 3, N_clear is 2. -/
theorem test_witness_accepted_reports_move_the_span :
    [spanIn .starting 0 0 false 0, spanIn .starting 0 1 false 0, spanIn .inService 0 0 false 0,
     runs 1 1 (spanIn .inService 0 0 false 0), spanIn .suspect 1 0 false 0, spanIn .suspect 2 0 false 0,
     spanIn (.failed .silent) 0 0 false 0, runs 1 1 (spanIn (.failed .faulty) 0 0 false 0),
     runs 3 3 (spanIn (.recovering .silent) 0 1 false 0), spanIn (.recovering .faulty) 0 1 false 0].all reportable =
    true := by decide +kernel

theorem test_witness_accepted_reports_move_the_far_alarm :
    [spanIn .inService 0 0 false 0, spanIn .inService 0 0 false 1, spanIn .inService 0 0 false 2,
     spanIn .inService 0 0 true 0, spanIn .inService 0 0 true 1].all reportable = true ∧
    ((spanIn .inService 0 0 true 1).span 2).farAlarm = true ∧ ((spanIn .inService 0 0 false 2).span 2).farRun = 2 ∧
    (0x08#8).getLsbD 3 = true ∧ (0x00#8).getLsbD 3 = false := by decide +kernel

/-- A report of span 2 that carries code 0x9 at every position. -/
def report (sequence flags : Byte) : Instr := .spanReport (spanReportMessage 2 sequence flags (List.replicate 32 0x9))

theorem test_reports_move_the_span :
    ((after (report 41 0x01) (spanIn .suspect 2 0 false 0)).span 2).state = .failed .faulty ∧
    ((after (report 41 0x01) (spanIn .suspect 1 0 false 0)).span 2).state = .suspect ∧
    ((after (report 41 0x00) (spanIn (.recovering .silent) 0 1 false 0)).span 2).state = .inService ∧
    ((after (report 41 0x08) (spanIn .inService 0 0 false 2)).span 2).farAlarm = true := by decide +kernel

/-- A gap is reported, and the codes are handed over all the same (R107, R175). -/
theorem test_gap_is_reported :
    let t := after (report 43 0x00) (spanIn .inService 0 0 false 0)
    t.faults.reported = [⟨.lineGap, some 2, none, none, none, none⟩] ∧
    (t.span 2).handed.get 31 = some 0x9 ∧ (t.span 2).lastSequence = some 43 := by decide +kernel

/-- Channel 66's notice. -/
def noticed (x : Notice) (s : State) : State := s.modSpan 2 fun r => { r with notices := r.notices.set 2 x }

theorem test_witness_notices_reach_their_channel :
    (noticed .down firstUp).noticeOf 66 = .down ∧ (noticed .up firstUp).noticeOf 66 = .up ∧
    (noticed .downUp firstUp).noticeOf 66 = .downUp ∧ (firstUp.channel 66).errors = [] := by decide +kernel

theorem test_span_down_and_span_up :
    let t := after (.spanDown 66) (noticed .down (putCall 66 (outgoing .connected) firstUp))
    (t.call 66).state = .fault .span ∧ t.list 1 = [⟨.channel 66, [.channel .spanDown]⟩] ∧
    t.noticeOf 66 = .none ∧ ((after (.spanUp 66) (noticed .up t)).call 66).state = .guard := by decide +kernel

theorem test_down_up :
    let t := after (.downUp 66) (noticed .downUp (putCall 66 (outgoing .connected) firstUp))
    (t.call 66).state = .guard ∧ t.list 1 = [⟨.channel 66, [.channel .spanDown]⟩] ∧ t.entryOf 0x000A10 = none := by
  decide +kernel

/-- Span 2 in a state, its silence timer run out. -/
def silent (x : SpanState) : State := (spanIn x 1 1 false 1).modSpan 2 fun r => { r with silence := some 0 }

theorem test_witness_silence_fails_the_span :
    [SpanState.inService, .suspect, .recovering .faulty, .failed .faulty, .starting].all (fun x => decide
      (((silent x).span 2).silence = some 0 ∧ ((silent x).span 2).config = some shelfSpan ∧
       ((silent x).span 2).state = x ∧ ∀ k, ((silent x).span 2).handed.get k = none)) = true := by decide +kernel

theorem test_silence_expiry :
    let t := after (.silenceExpiry 2) (silent .inService)
    (t.span 2).state = .failed .silent ∧ (t.span 2).lastSequence = none ∧
    t.list 0 = [⟨.span 2, [.span .spanFailed]⟩] ∧ t.noticeOf 66 = .down ∧ t.noticeOf 65 = .none ∧
    t.faults.reported = [⟨.spanSilent, some 2, none, none, none, none⟩] := by decide +kernel

/-- Positions 2 and 8 of span 2 and position 3 of span 3 are dirty. -/
def dirtied : State := ((firstUp.markDirty 72).markDirty 66).markDirty 99

theorem test_witness_updates_are_served_in_turn :
    ({ firstUp with link := { firstUp.link with transmitter := some [0x55] } }).link.transmitter = some [0x55] ∧
    dirtied.link.transmitter = none ∧ dirtied.restart = none ∧ (∀ sp, firstUp.updatePending sp = false) ∧
    dirtied.updatePending 2 = true ∧ dirtied.updatePending 3 = true ∧ dirtied.link.servedLast = none ∧
    (∀ k, k < 2 → dirtied.updatePending k = false) ∧
    (∀ k : SpanNo, k - (2 + 1) < 3 - (2 + 1) → dirtied.updatePending k = false) ∧
    (∀ k, (dirtied.channel (channelAt 2 k)).errors = []) ∧
    ({ firstUp with link := { firstUp.link with refreshTimer := some 0 } }).link.refreshTimer = some 0 := by
  decide +kernel

/-- Span 2 first, its dirty positions 2 and 8 with FREE, and span 3 at the end of that sending (R178, R179, R181). -/
theorem test_updates_are_served_in_turn :
    let t := dirtied.buildIfIdle
    t.link.transmitter = some (withCrc16 [0x55, 2, 0, 0, 2, 2, 0x9, 8, 0x9]) ∧ (t.linkSpan 2).sequence = 1 ∧
    (after .endOfSending t).link.transmitter = some (withCrc16 [0x55, 3, 0, 0, 1, 3, 0x9]) := by decide +kernel

theorem test_refresh_expiry :
    let t := after .refreshExpiry { firstUp with link := { firstUp.link with refreshTimer := some 0 } }
    t.link.refreshTimer = some 1000 ∧ t.link.servedLast = some 2 ∧ (t.linkSpan 3).dirty.get 31 = true := by
  decide +kernel

/-! ## Witnesses: faults and errors -/

/-- An occurrence of a class waits for the Fault Unit. -/
def occurring (c : FaultClass) (s : State) : State := s.report ⟨c, some 2, none, none, none, none⟩

theorem test_witness_occurrences_are_taken_by_their_class :
    (occurring .lineGap firstUp).faults.reported[0]? = some ⟨.lineGap, some 2, none, none, none, none⟩ ∧
    ((occurring .lineGap firstUp).faultClass .lineGap).detect = true ∧
    ((occurring .lineGap (firstUp.modFaultClass .lineGap fun r => { r with detect := false })).faultClass
      .lineGap).detect = false := by decide +kernel

theorem test_fault_occurrences :
    let t := after (.faultOccurrence 0) (occurring .spanFailed firstUp)
    let u := after (.faultOccurrence 0) (occurring .releaseStuck t)
    t.faults.first = some ⟨⟨.spanFailed, some 2, none, none, none, none⟩, 0⟩ ∧ t.faults.reported = [] ∧
    t.list 0 = [⟨.fault, [.fault .spanFailed]⟩] ∧ (t.faultClass .spanFailed).count = 1 ∧
    u.faults.first = t.faults.first ∧ u.faults.later.get 9 = true := by decide +kernel

theorem test_count_stays_at_its_end :
    let s := firstUp.modFaultClass .lineGap fun r => { r with count := 255 }
    ((after (.faultOccurrence 0) (occurring .lineGap s)).faultClass .lineGap).count = 255 := by decide +kernel

/-- The scrub cursor stands at channel n, and a visit is due. -/
def scrubbing (n : ChannelNo) (bits : List Nat) (s : State) : State :=
  { after (.storageError n bits) s with scrub := ⟨8, n, some 0⟩ }

theorem test_witness_checks_correct_or_lose_the_record :
    (scrubbing 66 [] firstUp).scrub.timer = some 0 ∧ (scrubbing 66 [] firstUp).scrub.cursor = 66 ∧
    ((scrubbing 66 [] firstUp).channel 66).errors = [] ∧ ((scrubbing 66 [5] firstUp).channel 66).errors = [5] ∧
    ((scrubbing 66 [5, 3] firstUp).channel 66).errors = [3, 5] ∧ (scrubbing 66 [5, 3] firstUp).equipped 66 = true ∧
    ((scrubbing 66 [5, 3] firstUp).call 66).state ≠ .fault .record ∧
    ((scrubbing 66 [3, 5] (without (.fault .record))).call 66).state = .fault .record ∧
    (scrubbing 511 [3, 5] firstUp).equipped 511 = false ∧ (scrubbing 511 [3, 5] firstUp).scrub.cursor = 511 := by
  decide +kernel

theorem test_scrub_visit_corrects :
    let t := after .scrubVisit (scrubbing 511 [5] firstUp)
    (t.channel 511).errors = [] ∧ t.scrub = ⟨8, 0, some 8⟩ ∧
    t.faults.reported = [⟨.recordCorrected, some 15, some 511, none, none, some .unequipped⟩] := by decide +kernel

theorem test_scrub_visit_loses :
    let t := after .scrubVisit (scrubbing 66 [5, 3] firstUp)
    (t.call 66).state = .fault .record ∧ (t.group 6).idle = [101, 72, 68, 99] ∧ t.purge = ⟨[⟨66, 128⟩], 0, false⟩ ∧
    t.faults.reported = [⟨.recordLost, some 2, some 66, none, none, none⟩] := by decide +kernel

/-- A storage error that changes the same bit again takes it out of error. -/
theorem test_storage_error_toggles :
    ((after (.storageError 66 [5]) (after (.storageError 66 [5, 3]) firstUp)).channel 66).errors = [3] := by
  decide +kernel

/-! ## Witnesses: the check of a call part -/

/-- The statuses of a port's responses where the call part of a channel has one bit in error, and where it has two. -/
def checksOf (p : PortNo) (n : ChannelNo) (c : Instr) (s : State) : List (Option Status) :=
  [[5], [3, 5]].map fun bits => (responseAt p (after c (struck n bits s))).map (·.1)

/-- One bit in error is corrected and the request is served; two lose the record (R157, R159). -/
theorem test_requests_check_the_call_part :
    [checksOf 1 66 (huntFor 0x21) firstUp, checksOf 1 72 (.seize 1 9 [0, 72, 0, 3, 0x21]) firstUp,
     checksOf 1 101 (.accept 1 9 [0, 101, 0, 3, 0x21]) offered,
     checksOf 1 66 (.answer 1 9 [0, 0, 0, 66]) (putCall 66 (incoming .inAlerting) firstUp),
     checksOf 2 70 (.release 2 9 [1, 0x00, 0x07, 0x77]) firstUp, checksOf 0 66 (.block 0 9 [0, 66]) firstUp,
     checksOf 0 66 (.unblock 0 9 [0, 66]) (blockedBy ⟨true, false, false⟩),
     checksOf 0 66 (.resetChannel 0 9 [0, 66]) firstUp, checksOf 1 511 (.readChannel 1 9 [0, 0, 1, 0xFF]) firstUp,
     checksOf 0 95 (.equip 0 9 [0, 95, 6, 5, 0]) firstUp, checksOf 0 99 (.unequip 0 9 [0, 99]) firstUp].all
      (fun l => decide (l = [some .ok, some .recordFault])) = true := by decide +kernel

/-- The six expiries at a record with two bits in error (R62, R63, R70, R83, R87, R89, R159). -/
theorem test_expiries_check_the_call_part :
    ([(outgoing .outSeized, .proceedTimeout 66), (outgoing .outWaitAnswer, .answerTimeout 66),
      (callIn .inSeized .incoming none .proceed, .offerTimeout 66), (outgoing .clearingLocal, .releaseStuck 66),
      (outgoing .clearingRemote, .autoReleased 66), (callIn .guard .none none .free, .guardExpiry 66)] :
      List (CallPart × Instr)).all (fun x =>
        let s := struck 66 [3, 5] (putCall 66 (expired x.1) firstUp)
        let t := after x.2 s
        decide ((s.call 66).timer = some 0 ∧ (s.channel 66).errors = [3, 5] ∧ (t.call 66).state = .fault .record ∧
          t.faults.reported = [⟨.recordLost, some 2, some 66, none, none, none⟩])) = true := by decide +kernel

theorem test_witness_adoptions_check_the_call_part :
    let s := struck 66 [3, 5] (hearing 66 .free 0x1 firstUp)
    let t := after (.positionIntegration 66) s
    s.Raises 66 0x1 (.is .seize) ∧ (s.channel 66).errors = [3, 5] ∧ (t.call 66).state = .fault .record ∧
    t.line 66 = ⟨some 0x1, none, 0, some (.is .seize)⟩ := by
  exact ⟨raises_of_parts (.is .free) (by decide +kernel), by decide +kernel, by decide +kernel, by decide +kernel⟩

theorem test_rehunt_loses_its_member :
    let t := after (.rehunt 6) (struck 66 [3, 5] (rehunting lostGlare offered))
    (t.call 66).state = .fault .record ∧ t.list 1 = [⟨.channel 66, [.channel .glareLost]⟩] ∧
    (t.group 6).rehunts = [] := by decide +kernel

/-- A member whose record is lost takes no DRAIN, and the request goes on to the next (R159). -/
theorem test_drain_goes_on_past_a_lost_member :
    let s := struck 66 [3, 5] (firstUp.modGroup 6 fun r => { r with members := [66, 99], idle := [66, 99] })
    let t := after (.drain 0 9 [6]) s
    (∀ n ∈ (s.group 6).members, (s.channel n).errors.length ≤ 2) ∧ t.call 66 = faultCall .record noFlags ∧
    t.call 99 = blockedCall ⟨false, true, false⟩ ∧ (t.group 6).drainReported = true ∧
    t.list 0 = [⟨.group 6, [.drained]⟩] ∧ responseAt 0 t = some (.ok, []) := by decide +kernel

theorem test_undrain_corrects_a_member :
    ((after (.undrain 0 9 [6]) (struck 66 [5] drained)).call 66) = idleCall ∧
    ((after (.undrain 0 9 [6]) (struck 66 [3, 5] drained)).call 66) = faultCall .record noFlags := by decide +kernel

theorem test_snapshot_of_a_lost_record :
    let t := after (.nextAttention 2 9 []) (struck 70 [3, 5] telling)
    responseAt 2 t = some (.ok, [0, 0, 70, 1, 4, 2]) ∧ (t.call 70).state = .fault .record ∧ t.list 2 = [] := by
  decide +kernel

theorem test_notices_check_the_call_part :
    [(Notice.down, Instr.spanDown 66), (.up, .spanUp 66), (.downUp, .downUp 66)].all (fun x =>
      let t := after x.2 (struck 66 [3, 5] (noticed x.1 firstUp))
      decide ((t.call 66).state = .fault .record ∧ t.noticeOf 66 = .none)) = true := by decide +kernel

/-! ## Codes that wait, and the output lines -/

/-- A code that still waits is taken before the next report, a silence expiry and a SET_SPAN (R176). -/
theorem test_waiting_codes_are_taken_first :
    let waits := handing ⟨some 0x9, some 0x1, 2, some (.is .free)⟩ 0x1
    [after (report 41 0x00) (waits (spanIn .inService 0 0 false 0)), after (.silenceExpiry 2) (waits (silent .inService)),
     after (.setSpan 0 9 [2, 32, 3, 3, 2, 0, 100, 0x0F, 0]) (waits firstUp)].all
      (fun t => decide ((t.call 66).state = .inSeized ∧ (t.line 66).stable = some 0x1)) = true := by decide +kernel

theorem test_output_lines :
    ((telling.modPort 1 fun r => { r with attention := true }).attentionAsserted 1 = true) ∧
    telling.attentionAsserted 1 = false ∧ (firstUp.modPort 1 fun r => { r with attention := true }).attentionAsserted 1 =
      false ∧
    firstUp.faultAsserted = false ∧ (after (.faultOccurrence 0) (occurring .spanFailed firstUp)).faultAsserted = true := by
  decide +kernel

/-! ## Power-on reset and time -/

theorem test_power_on_reset :
    let t := after .powerOnReset firstUp
    t.rstN = false ∧ (t.span 2).config = none ∧ (t.call 70).state = .unequipped ∧ (t.port 1).enabled = false ∧
    (after .rstNRise t).rstN = true ∧ after (huntFor 0x21) t = t := by decide +kernel

theorem test_timebase_step :
    let t := after .timebaseStep (putCall 66 { outgoing .outSeized with timer := some 3 } firstUp)
    (t.call 66).timer = some 2 ∧ t.millis = 1 ∧ t.scrub.timer = some 7 ∧ t.link.refreshTimer = some 999 := by
  decide +kernel

/-- Four steps: the third brings the timer to 0, and the fourth takes the expiry that no command has taken (log 6). -/
theorem test_timebase_step_takes_what_is_due :
    let t := after .timebaseStep (putCall 66 (expired (outgoing .outSeized)) firstUp)
    (t.call 66).state = .clearingLocal ∧ (t.call 66).timer = some 499 ∧
    t.list 1 = [⟨.channel 66, [.channel .seizeFailed]⟩] := by decide +kernel

theorem test_proceed_answer_and_auto_release :
    ((after (.proceedTimeout 66) (putCall 66 (expired (outgoing .outSeized)) firstUp)).call 66).timer = some 500 ∧
    (after (.answerTimeout 66) (putCall 66 (expired (outgoing .outWaitAnswer)) firstUp)).list 1 =
      [⟨.channel 66, [.channel .answerTimeout]⟩] ∧
    (after (.autoReleased 66) (putCall 66 (expired (outgoing .clearingRemote)) firstUp)).list 1 =
      [⟨.channel 66, [.channel .autoReleased]⟩] := by decide +kernel

/-! ## Witnesses: the laws -/

/-- The shelf with two members on its lists obeys the laws: its one entry is the one of channel 70, and no code waits. -/
theorem test_witness_every_step_keeps_the_laws : Lawful telling ∧ step telling = .next telling := by
  have one : ∀ k w, ((telling.index.get k).get w).isSome = true → k = Machine.setOf 0x000777 ∧ w = 0 := by
    decide +kernel
  have here : (telling.index.get (Machine.setOf 0x000777)).get 0 = some ⟨0x000777, 70, 2⟩ := by decide +kernel
  refine ⟨⟨?_, ⟨fun k w e h => ?_, fun k w e k' w' e' h h' _ => ?_⟩, ?_, ⟨fun sp c h => ?_, fun n c h => ?_,
    fun n _ => ?_, fun n _ => ?_⟩, fun sp p h => ?_, ?_⟩, rfl⟩
  · unfold AdminPresent; decide +kernel
  · obtain ⟨rfl, rfl⟩ := one k w (by rw [h]; rfl)
    rw [here] at h
    obtain rfl := Option.some.inj h
    rfl
  · obtain ⟨rfl, rfl⟩ := one k w (by rw [h]; rfl)
    obtain ⟨rfl, rfl⟩ := one k' w' (by rw [h']; rfl)
    exact ⟨rfl, rfl⟩
  · unfold CodesDistinct; decide +kernel
  · have all : ∀ sp, ((telling.span sp).config.all fun c => decide (c = shelfSpan)) = true := by decide +kernel
    have := all sp
    rw [h, Option.all_some, decide_eq_true_iff] at this
    subst this
    decide
  · have none : ∀ n, (telling.line n).count = 0 := by decide +kernel
    have all : ∀ sp, ((telling.span sp).config.all fun c => decide (c = shelfSpan)) = true := by decide +kernel
    have := all (spanOf n)
    rw [h, Option.all_some, decide_eq_true_iff] at this
    subst this
    rw [none n]
    decide
  · exact (by decide +kernel : ∀ n, (telling.line n).count = 0) n
  · exact (by decide +kernel : ∀ n, (telling.line n).count = 0) n
  · rw [(by decide +kernel : ∀ sp p, (telling.span sp).handed.get p = none) sp p] at h
    cases h
  · unfold ListsLawful ListLawful; decide +kernel

/-- A faulty report at a SUSPECT span waits in the queue. -/
def frozenSpan : State := { spanIn .suspect 1 0 false 0 with pending := [report 41 0x01] }

theorem test_witness_freeze_keeps_stable_codes :
    HandedInService frozenSpan ∧ (∃ t, step frozenSpan = .next t ∧
      isFrozen (frozenSpan.span (spanOf 66)).state = true ∧ isFrozen (t.span (spanOf 66)).state = true ∧
      ∀ c, (t.span (spanOf 66)).config = some c → (positionOf 66).val < c.count) := by
  refine ⟨fun sp p h => ?_, after (report 41 0x01) { frozenSpan with pending := [] }, rfl, by decide +kernel,
    by decide +kernel, fun c h => ?_⟩
  · rw [(by decide +kernel : ∀ sp p, (frozenSpan.span sp).handed.get p = none) sp p] at h
    cases h
  · rw [(by decide +kernel : ((after (report 41 0x01) { frozenSpan with pending := [] }).span (spanOf 66)).config =
      some shelfSpan)] at h
    obtain rfl := Option.some.inj h
    decide

theorem test_witness_first_fault_stays :
    let s := after (.faultOccurrence 0) (occurring .spanFailed firstUp)
    s.faults.first = some ⟨⟨.spanFailed, some 2, none, none, none, none⟩, 0⟩ ∧
    (after .timebaseStep s).faults.first = s.faults.first := by decide +kernel

end Sys2Proof.Tests
end

section
/-! The power-on values of every block (O3). -/

namespace Sys2Proof.Machine

open State

section
variable (s : State)

theorem channel_powerOnReset (n : ChannelNo) : (powerOnReset s).channel n = powerOnChannel := Table.get_fill _ _
theorem profile_powerOnReset (k : ProfileNo) : (powerOnReset s).profiles.get k = powerOnProfile := Table.get_fill _ _
theorem group_powerOnReset (g : GroupNo) : (powerOnReset s).group g = powerOnGroup := Table.get_fill _ _
theorem span_powerOnReset (sp : SpanNo) : (powerOnReset s).span sp = powerOnSpan := Table.get_fill _ _
theorem list_powerOnReset (p : PortNo) : (powerOnReset s).list p = [] := Table.get_fill _ _
theorem linkSpan_powerOnReset (sp : SpanNo) : (powerOnReset s).linkSpan sp = powerOnLinkSpan := Table.get_fill _ _

theorem index_powerOnReset (k : SetNo) (w : WayNo) : ((powerOnReset s).index.get k).get w = none := by
  show ((Table.fill 128 (Table.fill 4 (none : Option IndexEntry))).get k).get w = none
  rw [Table.get_fill, Table.get_fill]

theorem faultClass_powerOnReset (c : FaultClass) : (powerOnReset s).faultClass c = powerOnClass c := by
  cases c <;> rfl

theorem port_powerOnReset (p : PortNo) : (powerOnReset s).port p = powerOnPort (p = 0) := by
  have each : ∀ p : PortNo, powerOnPorts.get p = powerOnPort (p = 0) := by decide
  exact each p

end

/-- The severities of R164 that R165 gives at power-on. -/
theorem defaultSeverity_eq (c : FaultClass) : defaultSeverity c =
    if c ∈ [.recordLost, .spanSilent, .spanFailed, .releaseStuck] then .major else .minor := by
  cases c <;> decide

/-- Settles O3: the reset state, read record by record. -/
theorem resetGivesPowerOnValues : Obligations.ResetGivesPowerOnValues := by
  refine ⟨fun s => ⟨powerOnReset s, exec_powerOnReset s, rfl, channel_powerOnReset s, fun k => ?_, group_powerOnReset s,
    span_powerOnReset s, index_powerOnReset s, rfl, list_powerOnReset s, rfl, fun c => ?_, rfl, rfl, rfl, rfl,
    linkSpan_powerOnReset s, rfl, rfl, rfl, rfl, port_powerOnReset s, rfl, rfl, rfl, rfl⟩, exec_rstNRise, rfl⟩
  · rw [profile_powerOnReset]
    exact ⟨rfl, rfl⟩
  · rw [faultClass_powerOnReset, powerOnClass, defaultSeverity_eq]

end Sys2Proof.Machine
end

section
/-! Every step keeps the laws (O57): each command's rule keeps them, seen through `Holds` and `Keeps`. -/

namespace Sys2Proof.Machine

open State

theorem Keeps.lawful {s t : State} (k : Keeps s t) (h : Lawful s) : Lawful t := by
  obtain ⟨admin, index, codes, counts, handed, lists⟩ := h
  exact ⟨k.admin admin, k.index index, k.codes codes, k.counts counts, k.handed handed, k.lists lists⟩

/-- The laws of t follow from those of s. -/
def CarriesLaws (s t : State) : Prop := Lawful s → Lawful t

theorem CarriesLaws.around : Around CarriesLaws := ⟨fun h => h.toKeeps.lawful, fun h k => k ∘ h⟩

namespace Holds
variable {s : State}

theorem readChannel {p n} : Holds s (readChannelRule p n s).1 := checkedRule refl

theorem readGroup {body} : Holds s (readGroupRule body s).1 := by
  unfold readGroupRule
  split
  · split
    · exact refuse
    · exact refl s
  · exact refuse

theorem readSpan {body} : Holds s (readSpanRule body s).1 := by
  unfold readSpanRule
  split
  · split
    · exact refuse
    · exact refl s
  · exact refuse

theorem badFrame {p frame} : Holds s (badFrameTransfer p frame s) := by
  unfold badFrameTransfer
  split
  · exact around.requestArrives fun _ => answerBadFrame
  · exact refl s

theorem overrun {p frame} : Holds s (overrunTransfer p frame s) := by
  unfold overrunTransfer
  split
  · split
    · exact around.requestArrives refl
    · exact refl s
  all_goals exact refl s

theorem storage {n bits} : Holds s (storageError n bits s) := modChannel_lines fun _ => ⟨rfl, rfl, rfl⟩

theorem rise : Holds s (rstNRise s) := of_rest rfl rfl rfl rfl rfl

end Holds

/-- CLEAR_FAULTS writes the Fault Unit alone, of which no law speaks. -/
theorem CarriesLaws.clearFaults {s : State} {body} : CarriesLaws s (clearFaultsRule body s).1 := by
  unfold clearFaultsRule
  split
  · split
    · exact id
    · exact id
  · exact id

/-- Every command but POWER_ON_RESET, which sets the laws up anew, and CLEAR_FAULTS, which ends a captured fault, keeps
the laws, the captured fault and the queue. -/
theorem exec_keeps (c : Instr) (s : State) (reset : c ≠ .powerOnReset)
    (clear : ∀ p tag body, c ≠ .clearFaults p tag body) :
    ∃ t, exec c s = .next t ∧ Keeps s t := by
  have lift {t} (h : Holds s t) (e : exec c s = .next t) : ∃ t, exec c s = .next t ∧ Keeps s t := ⟨t, e, h.toKeeps⟩
  have around := Holds.around
  cases c with
  | powerOnReset => exact absurd rfl reset
  | clearFaults p tag body => exact absurd rfl (clear p tag body)
  | timebaseStep => exact lift Holds.timebase rfl
  | responseRead => exact lift Holds.readAtPort rfl
  | badFrame => exact lift Holds.badFrame rfl
  | overrun => exact lift Holds.overrun rfl
  | hunt => exact lift (around.request fun _ => Holds.hunt) rfl
  | seize => exact lift (around.request fun _ => Holds.seize) rfl
  | accept => exact lift (around.request fun _ => Holds.accept) rfl
  | answer => exact lift (around.request fun _ => Holds.atTarget fun _ => Holds.answer) rfl
  | release => exact lift (around.request fun _ => Holds.atTarget fun _ => Holds.release) rfl
  | block => exact lift (around.request fun _ => Holds.atChannel fun _ => Holds.blockLocally) rfl
  | unblock => exact lift (around.request fun _ => Holds.atChannel fun _ => Holds.unblock) rfl
  | resetChannel => exact lift (around.request fun _ => Holds.atChannel fun _ => Holds.reset) rfl
  | drain => exact lift (around.request fun _ => Holds.drain) rfl
  | undrain => exact lift (around.request fun _ => Holds.undrain) rfl
  | readChannel => exact lift (around.request fun _ => Holds.atTarget fun _ => Holds.readChannel) rfl
  | readGroup => exact lift (around.request fun _ => Holds.readGroup) rfl
  | readSpan => exact lift (around.request fun _ => Holds.readSpan) rfl
  | nextAttention => exact lift (around.request fun _ => Holds.nextAttention) rfl
  | readFaults => exact lift (around.request fun _ => Holds.readFaults) rfl
  | setSpan => exact ⟨_, rfl, Keeps.around.request fun _ => Keeps.setSpan⟩
  | clearSpan => exact ⟨_, rfl, Keeps.around.request fun _ => Keeps.clearSpanRequest⟩
  | equip => exact lift (around.request fun _ => Holds.equip) rfl
  | unequip => exact lift (around.request fun _ => Holds.atChannel fun _ => Holds.unequip) rfl
  | setGroup => exact lift (around.request fun _ => Holds.setGroup) rfl
  | deleteGroup => exact lift (around.request fun _ => Holds.deleteGroup) rfl
  | loadProfile => exact lift (around.request fun _ => Holds.loadProfile) rfl
  | setFaultClass => exact lift (around.request fun _ => Holds.setFaultClass) rfl
  | setPort => exact lift (around.request fun _ => Holds.setPort) rfl
  | setDevice => exact lift (around.request fun _ => Holds.setDevice) rfl
  | transfer => exact lift (around.event (around.serve fun _ enabled _ admin => Holds.transfer enabled admin)) rfl
  | restart => exact ⟨_, rfl, Keeps.around.event (Keeps.around.serve fun _ _ _ _ => Keeps.restart)⟩
  | restartCompletion => exact lift Holds.takeRestartCompletion rfl
  | spanReport => exact ⟨_, rfl, Keeps.around.event Keeps.messageArrives⟩
  | positionIntegration => exact lift (Holds.event Holds.integrate) rfl
  | rehunt => exact lift (Holds.event Holds.rehunt) rfl
  | spanDown => exact lift (Holds.event (Holds.takeNotice fun _ => Holds.spanDownEffect)) rfl
  | spanUp => exact lift (Holds.event (Holds.takeNotice fun _ => Holds.spanUpEffect)) rfl
  | downUp =>
    exact lift (Holds.event (Holds.takeNotice fun _ => Holds.spanDownEffect.trans Holds.spanUpEffect)) rfl
  | guardExpiry => exact lift (Holds.event Holds.expireGuard) rfl
  | proceedTimeout => exact lift (Holds.event Holds.expireProceed) rfl
  | answerTimeout => exact lift (Holds.event Holds.expireAnswer) rfl
  | offerTimeout => exact lift (Holds.event Holds.expireOffer) rfl
  | releaseStuck => exact lift (Holds.event Holds.expireRelease) rfl
  | autoReleased => exact lift (Holds.event Holds.expireFarClear) rfl
  | silenceExpiry => exact lift (Holds.event Holds.expireSilence) rfl
  | purgeVisit => exact lift Holds.purgeVisit rfl
  | sweepVisit => exact lift Holds.sweepVisit rfl
  | scrubVisit => exact lift (Holds.event Holds.scrubVisit) rfl
  | refreshExpiry => exact lift (Holds.event Holds.refresh) rfl
  | endOfSending => exact lift Holds.sendingEnds rfl
  | faultOccurrence => exact lift Holds.takeReported rfl
  | storageError => exact lift Holds.storage rfl
  | rstNRise => exact lift Holds.rise rfl

/-- The power-on values obey the six laws. -/
theorem lawful_powerOnReset (s : State) : Lawful (powerOnReset s) := by
  have line (n) : (powerOnReset s).line n = emptyLine := by unfold State.line; rw [channel_powerOnReset]; rfl
  refine ⟨⟨0, rfl, rfl⟩, ⟨fun k w e h => ?_, fun k w e _ _ _ h => ?_⟩, fun k => ?_,
    ⟨fun sp c h => ?_, fun n c h => ?_, fun n _ => by rw [line]; rfl, fun n _ => by rw [line]; rfl⟩,
    fun sp p h => ?_, fun q => ?_⟩
  · rw [index_powerOnReset] at h; cases h
  · rw [index_powerOnReset] at h; cases h
  · rw [profile_powerOnReset]; decide
  · rw [span_powerOnReset] at h; cases h
  · rw [span_powerOnReset] at h; cases h
  · rw [span_powerOnReset] at h; simp [powerOnSpan] at h
  · rw [list_powerOnReset]; exact ListLawful.nil

/-- Every command keeps the six laws. -/
theorem exec_lawful {c : Instr} {s t : State} (h : Lawful s) (e : exec c s = .next t) : Lawful t := by
  by_cases reset : c = .powerOnReset
  · subst reset
    rw [exec_powerOnReset] at e
    cases e
    exact lawful_powerOnReset s
  by_cases clear : ∃ p tag body, c = .clearFaults p tag body
  · obtain ⟨p, tag, body, rfl⟩ := clear
    rw [exec_clearFaults] at e
    cases e
    exact CarriesLaws.around.request (fun _ => CarriesLaws.clearFaults) h
  · obtain ⟨u, eu, k⟩ := exec_keeps c s reset fun p tag body hc => clear ⟨p, tag, body, hc⟩
    rw [e] at eu
    cases eu
    exact k.lawful h

/-- Settles O57: a step is a command of the queue, or idles. -/
theorem everyStepKeepsTheLaws : Obligations.EveryStepKeepsTheLaws := by
  intro s t h e
  unfold step at e
  split at e
  · cases e
    exact h
  · next c rest _ => exact exec_lawful (s := { s with pending := rest }) h e

end Sys2Proof.Machine
end

section
/-! A timebase step (O4): what is due, what takes it, and what a step counts. -/

namespace Sys2Proof.Machine

open State

variable {s : State}

/-- The event is due in the state (log 6). -/
def Due (s : State) : DueEvent → Prop
  | .supervision n => (s.call n).timer = some 0
  | .silence sp => (s.span sp).silence = some 0
  | .purge => s.purge.visitDue = true
  | .sweep => s.transfer.any (·.visitDue) = true
  | .scrub => s.scrub.timer = some 0
  | .refresh => s.link.refreshTimer = some 0
  | .restart => s.restart.any (·.timer = 0) = true

theorem mem_dueEvents {d : DueEvent} : d ∈ dueEvents s ↔ Due s d := by
  cases d <;> simp [dueEvents, Due, Table.mem_indices, State.call, State.channel, State.span]

theorem not_due_of_nil (h : dueEvents s = []) (d : DueEvent) : ¬ Due s d := by
  rw [← mem_dueEvents, h]
  exact List.not_mem_nil

/-- A timer that has not run out counts down by 1; one that is absent stays so. -/
theorem countDown_running {w : Nat} {t : Option (BitVec w)} (h : t ≠ some 0) : countDown t = t.map (· - 1) := by
  cases t with
  | none => rfl
  | some v => exact congrArg some (if_neg fun e => h (by rw [e]))

theorem channel_countStep (n : ChannelNo) : (countStep s).channel n =
    { s.channel n with call := { s.call n with timer := countDown (s.call n).timer } } := Table.get_map ..

/-- What a step counts where no event is due. -/
theorem countStep_quiet (h : dueEvents s = []) :
    (∀ n, (countStep s).channel n =
      { s.channel n with call := { s.call n with timer := (s.call n).timer.map (· - 1) } }) ∧
    (∀ sp, (countStep s).span sp = { s.span sp with silence := (s.span sp).silence.map (· - 1) }) ∧
    (countStep s).scrub = { s.scrub with timer := s.scrub.timer.map (· - 1) } ∧
    (countStep s).link = { s.link with refreshTimer := s.link.refreshTimer.map (· - 1) } ∧
    (countStep s).restart = s.restart.map fun x => { x with timer := x.timer - 1 } := by
  have quiet := not_due_of_nil h
  refine ⟨fun n => ?_, fun sp => ?_, ?_, ?_, ?_⟩
  · rw [channel_countStep, countDown_running (quiet (.supervision n))]
  · rw [Holds.span_countStep, countDown_running (quiet (.silence sp))]
  · rw [← countDown_running (quiet .scrub)]
    rfl
  · rw [← countDown_running (quiet .refresh)]
    rfl
  · have running := quiet .restart
    show s.restart.map (fun r => { r with timer := if r.timer = 0 then 0 else r.timer - 1 }) = _
    cases e : s.restart with
    | none => rfl
    | some r =>
      simp only [Due, e, Option.any_some, decide_eq_true_eq] at running
      simp only [Option.map_some, if_neg running]

theorem timebaseStep_quiet (h : dueEvents s = []) : timebaseStep s = countStep s := by
  unfold timebaseStep
  rw [h]
  rfl

theorem timebaseStep_one {d : DueEvent} (h : dueEvents s = [d]) : timebaseStep s = countStep (takeDue d s) := by
  unfold timebaseStep
  rw [h]
  rfl

theorem event_congr {f g : State → State} (h : f s = g s) : event f s = event g s := by
  unfold event
  rw [h]

theorem takeDue_supervision {n : ChannelNo} {f : State → State} (h : expireSupervision n s = f s) :
    takeDue (.supervision n) s = event f s := event_congr h

/-- The command of a due event does what the step does with the event. -/
theorem exec_takenBy {d : DueEvent} {c : Instr} (h : TakenBy s d c) : exec c s = .next (takeDue d s) := by
  cases d with
  | supervision n =>
    rcases h with ⟨e, rfl⟩ | ⟨e, rfl⟩ | ⟨e, rfl⟩ | ⟨e, rfl⟩ | ⟨e, rfl⟩ | ⟨e, rfl⟩
    · rw [takeDue_supervision (f := expireGuard n) (by unfold expireSupervision; rw [e])]; rfl
    · rw [takeDue_supervision (f := expireProceed n) (by unfold expireSupervision; rw [e])]; rfl
    · rw [takeDue_supervision (f := expireAnswer n) (by unfold expireSupervision; rw [e])]; rfl
    · rw [takeDue_supervision (f := expireOffer n) (by unfold expireSupervision; rw [e])]; rfl
    · rw [takeDue_supervision (f := expireRelease n) (by unfold expireSupervision; rw [e])]; rfl
    · rw [takeDue_supervision (f := expireFarClear n) (by unfold expireSupervision; rw [e])]; rfl
  | silence sp => subst h; rfl
  | purge => subst h; rfl
  | sweep => subst h; rfl
  | scrub => subst h; rfl
  | refresh => subst h; rfl
  | restart => subst h; rfl

/-- An event that no command takes has no effect: the channel has left the state that its timer supervised. -/
theorem takeDue_undone {d : DueEvent} (h : ∀ c, ¬ TakenBy s d c) : takeDue d s = s := by
  cases d with
  | supervision n =>
    refine event_quiet ?_ rfl rfl
    unfold expireSupervision
    cases e : (s.call n).state with
    | guard => exact absurd (.inl ⟨e, rfl⟩) (h (.guardExpiry n))
    | outSeized => exact absurd (.inr (.inl ⟨e, rfl⟩)) (h (.proceedTimeout n))
    | outWaitAnswer => exact absurd (.inr (.inr (.inl ⟨e, rfl⟩))) (h (.answerTimeout n))
    | inSeized => exact absurd (.inr (.inr (.inr (.inl ⟨e, rfl⟩)))) (h (.offerTimeout n))
    | clearingLocal => exact absurd (.inr (.inr (.inr (.inr (.inl ⟨e, rfl⟩))))) (h (.releaseStuck n))
    | clearingRemote => exact absurd (.inr (.inr (.inr (.inr (.inr ⟨e, rfl⟩))))) (h (.autoReleased n))
    | unequipped | idle | inAlerting | connected | blocked | fault => rfl
  | silence sp => exact absurd rfl (h (.silenceExpiry sp))
  | purge => exact absurd rfl (h .purgeVisit)
  | sweep => exact absurd rfl (h .sweepVisit)
  | scrub => exact absurd rfl (h .scrubVisit)
  | refresh => exact absurd rfl (h .refreshExpiry)
  | restart => exact absurd rfl (h .restartCompletion)

theorem takenBy_withFreeCount {d : DueEvent} {c : Instr} {k : Nat} :
    TakenBy { s with freeCount := k } d c ↔ TakenBy s d c := by cases d <;> exact Iff.rfl

/-- Settles O4: with nothing due the step counts, with one event due it takes that event, and with several it takes each
of them once in some order. -/
theorem timebaseStepCounts : Obligations.TimebaseStepCounts := by
  refine ⟨fun s h => ?_, fun s d c h k => ?_, fun s => ?_⟩
  · obtain ⟨channels, spans, scrub, link, restart⟩ := countStep_quiet h
    exact ⟨countStep s, by rw [exec_timebaseStep, timebaseStep_quiet h],
      channels, spans, rfl, rfl, scrub, link, restart, rfl, rfl⟩
  · exact ⟨_, exec_takenBy k, by rw [exec_timebaseStep, timebaseStep_one h]⟩
  · obtain ⟨order, perm, reaches⟩ := takeInFreeOrder_reaches (take := takeDue) (one := fun d u v => ∃ k,
        (∀ c, TakenBy u d c → exec c { u with freeCount := k } = .next v) ∧
        ((∀ c, ¬ TakenBy u d c) → v = { u with freeCount := k }))
      (fun d u k => ⟨k, fun c h => exec_takenBy (takenBy_withFreeCount.2 h),
        fun h => takeDue_undone fun c hc => h c (takenBy_withFreeCount.1 hc)⟩)
      (dueEvents s).length (dueEvents s) s le_rfl
    exact ⟨order, _, perm, reaches, rfl⟩

end Sys2Proof.Machine
end

section
/-! What the rules of requests share: the ports they leave alone, the walk over the members of a group, and the
dirty mark
where more than a call part changed. -/

namespace Sys2Proof.Machine

open State

variable {s t : State} {n : ChannelNo}

/-! ## The ports and the drawn counter -/

theorem withPorts_self : withPorts s.ports s.freeCount s = s := rfl

/-- What neither reads nor writes the ports and the drawn counter leaves both as they were. -/
theorem ports_of_withPorts {f : State → State} (h : ∀ P c s, f (withPorts P c s) = withPorts P c (f s)) :
    (f s).ports = s.ports ∧ (f s).freeCount = s.freeCount := by
  have e := h s.ports s.freeCount s
  rw [withPorts_self] at e
  rw [e]
  exact ⟨rfl, rfl⟩

theorem foldl_withPorts {α : Type} {f : State → α → State}
    (h : ∀ P c s a, f (withPorts P c s) a = withPorts P c (f s a)) {P c} (l : List α) (s : State) :
    l.foldl f (withPorts P c s) = withPorts P c (l.foldl f s) := by
  induction l generalizing s with
  | nil => rfl
  | cons a l ih => rw [List.foldl_cons, h, ih, List.foldl_cons]

/-! ## A walk over a list -/

/-- A walk visits each thing of its list; what a visit needs of the list still ahead is kept by the visits before it. -/
theorem reaches_foldl {α : Type} {one : α → State → State → Prop} {f : State → α → State}
    {Ready : List α → State → Prop}
    (visit : ∀ a l s, Ready (a :: l) s → one a s (f s a) ∧ Ready l (f s a)) (l : List α) (s : State) (h : Ready l s) :
    Reaches one l s (l.foldl f s) := by
  induction l generalizing s with
  | nil => rfl
  | cons a l ih => exact ⟨f s a, (visit a l s h).1, ih _ (visit a l s h).2⟩

/-! ## The dirty mark -/

theorem markIfChanged_link_only {x : LineCode} :
    s.markIfChanged n x = { s with link := (s.markIfChanged n x).link } := by
  unfold markIfChanged
  split
  · rfl
  · exact markDirty_link_only

theorem markIfChanged_presentCode {x : LineCode} : (s.markIfChanged n x).presentCode n = s.presentCode n := by
  rw [markIfChanged_link_only]
  rfl

/-- The mark depends on the link and on the configuration of the channel's span alone. -/
theorem markDirty_link_congr (link : t.link = s.link)
    (config : (t.span (spanOf n)).config = (s.span (spanOf n)).config) :
    (t.markDirty n).link = (s.markDirty n).link := by
  unfold markDirty
  rw [config]
  split
  · split
    · unfold modLinkSpan; rw [link]
    · exact link
  · exact link

/-- A mark against the code before the event is the mark of the whole event. -/
theorem markIfChanged_marked (link : t.link = s.link)
    (config : (t.span (spanOf n)).config = (s.span (spanOf n)).config) :
    Marked n s (t.markIfChanged n (s.presentCode n)) := by
  unfold Marked
  rw [markIfChanged_presentCode]
  unfold markIfChanged
  split
  · exact link
  · exact markDirty_link_congr link config

end Sys2Proof.Machine
end

section
/-! A BLOCKED channel held by REMOTE alone settles when the far end frees it (O26). -/

namespace Sys2Proof.Machine

open State

variable {s t u : State} {n : ChannelNo}

theorem State.CallWritten.trans {c d : CallPart} (h : CallWritten n c s t) (k : CallWritten n d t u) :
    CallWritten n d s u :=
  ⟨by rw [k.1, h.1], fun m hm => by rw [k.2 m hm, h.2 m hm]⟩

/-- A call-part write that keeps the transmitted condition marks nothing. -/
theorem writeCall_eq_of_sameTransmitted {c : CallPart} (h : c.transmitted = (s.call n).transmitted) :
    s.writeCall n c = { s with channels := (s.writeCall n c).channels } := by
  have link : (s.writeCall n c).link = s.link := by rw [writeCall_link, h]; exact if_pos rfl
  conv_lhs => rw [writeCall_eq, link]

/-- The state of a channel held by REMOTE alone after the far end has lifted it, and before it settles (R95; log 13). -/
def unblocked (n : ChannelNo) (s : State) : State := (s.writeFlags n noFlags).tellMaintenance n .farUnblocked

theorem conditionChange_unblocks {c : Condition} (state : (s.call n).state = .blocked)
    (flags : (s.call n).flags = ⟨false, false, true⟩) (h : c = .free ∨ c = .seize) :
    s.conditionChange n (.is c) = (unblocked n s).settle n := by
  unfold conditionChange
  rw [state]
  dsimp only
  unfold changeInBlocked unblocked
  rw [flags]
  rcases h with rfl | rfl <;> rfl

/-- Lifting REMOTE where FREE is transmitted: the flags, and FAR_UNBLOCKED; the code stays. -/
theorem unblocked_effect (state : (s.call n).state = .blocked) (free : (s.call n).transmitted = .is .free) :
    CallWritten n { s.call n with flags := noFlags } s (unblocked n s) ∧
    Told [((s.config n).maintenance, .channel n, .channel .farUnblocked)] s (unblocked n s) ∧
    unblocked n s = { s with channels := (unblocked n s).channels, lists := (unblocked n s).lists } := by
  have write : s.writeFlags n noFlags = s.writeCall n { s.call n with flags := noFlags } := by
    unfold writeFlags
    dsimp only
    rw [if_pos state, free]
    rfl
  have written : CallWritten n { s.call n with flags := noFlags } s (s.writeFlags n noFlags) := by
    rw [write]
    exact writeCall_written
  have rest : s.writeFlags n noFlags = { s with channels := (s.writeFlags n noFlags).channels } := by
    rw [write]
    exact writeCall_eq_of_sameTransmitted rfl
  have same : SameCodes s (s.writeFlags n noFlags) := .of_groups (by rw [rest]) (by rw [rest]) (by rw [rest])
  have told : Told [((s.config n).maintenance, .channel n, .channel .farUnblocked)] s (unblocked n s) := by
    unfold unblocked tellMaintenance
    rw [same.config_eq (written.equipment_eq n)]
    exact Told.tell (adds := []) (told_nil (by rw [rest]))
  exact ⟨written.of_channels rfl, told, by unfold unblocked; rw [rest]; rfl⟩

/-- The transmitted code is that of FREE, before REMOTE is lifted and after. -/
theorem unblocked_presentCode (state : (s.call n).state = .blocked) (free : (s.call n).transmitted = .is .free) :
    (unblocked n s).presentCode n = s.presentCode n := by
  obtain ⟨written, -, rest⟩ := unblocked_effect state free
  rw [presentCode_of_written (.of_groups (by rw [rest]) (by rw [rest]) (by rw [rest])) written]
  rfl

/-- A channel that enters IDLE from BLOCKED with FREE transmitted changes no code, so nothing is marked. -/
theorem link_of_settled_idle (same : SameCodes s u) (written : CallWritten n idleCall s u) (marked : Marked n s u)
    (free : (s.call n).transmitted = .is .free) : u.link = s.link := by
  have code : u.presentCode n = s.presentCode n := by
    rw [presentCode_of_written same written]
    unfold presentCode
    rw [free]
    rfl
  unfold Marked at marked
  rw [marked, if_pos code]

/-- Settling into IDLE once REMOTE is lifted, seen from the state before. -/
theorem unblocked_settles_idle (state : (s.call n).state = .blocked) (free : (s.call n).transmitted = .is .free)
    (block : (s.line n).received ≠ some (.is .block))
    (seize : (s.line n).received = some (.is .seize) → (s.equipment n).direction = .outgoingOnly) :
    let u := (unblocked n s).settle n
    CallWritten n idleCall s u ∧ Told [((s.config n).maintenance, .channel n, .channel .farUnblocked)] s u ∧
    Reported (if (s.line n).received = some (.is .seize) then
      [⟨.sequence, some (spanOf n), some n, none, none, some .blocked⟩] else []) s u ∧ JoinedIdle n s u ∧
    u = { s with channels := u.channels, groups := u.groups, lists := u.lists, faults := u.faults } := by
  intro u
  obtain ⟨written, told, rest⟩ := unblocked_effect state free
  have settled : Settled n ((unblocked n s).call n).flags (unblocked n s) u := settle_settled
  have groups (g) : (unblocked n s).group g = s.group g := by unfold State.group; rw [rest]
  rw [written.call_eq] at settled
  unfold Settled at settled
  rw [written.line_eq, written.equipment_eq, written.call_eq] at settled
  dsimp only at settled
  rw [if_neg (by simp [block, noFlags]), if_neg fun h => h.2 (seize h.1)] at settled
  obtain ⟨idle, marked, joined, reported, frame⟩ := settled
  have same : SameCodes (unblocked n s) u := ⟨by rw [frame], by rw [frame], fun g => by rw [joined g]⟩
  have link : u.link = (unblocked n s).link :=
    link_of_settled_idle same idle marked (by rw [written.call_eq]; exact free)
  refine ⟨written.trans idle, told.of_lists (by rw [frame]), ?_, fun g => ?_, ?_⟩
  · unfold Reported at reported ⊢
    rw [reported, rest, state]
  · rw [joined g, written.groupOf_eq, groups]
  · rw [frame, link, rest]

/-- Settling into IN_SEIZED once REMOTE is lifted, seen from the state before. -/
theorem unblocked_settles_seized (state : (s.call n).state = .blocked) (free : (s.call n).transmitted = .is .free)
    (seize : (s.line n).received = some (.is .seize)) (direction : (s.equipment n).direction ≠ .outgoingOnly) :
    let u := (unblocked n s).settle n
    CallWritten n (inSeizedCall (s.config n) noFlags) s u ∧ Marked n s u ∧ LeftIdle n s u ∧
    Told ([((s.config n).maintenance, .channel n, .channel .farUnblocked)] ++
      [((s.config n).maintenance, .channel n, .channel .offered)]) s u ∧
    u = { s with channels := u.channels, groups := u.groups, link := u.link, lists := u.lists } := by
  intro u
  obtain ⟨written, told, rest⟩ := unblocked_effect state free
  have settled : Settled n ((unblocked n s).call n).flags (unblocked n s) u := settle_settled
  have same : SameCodes s (unblocked n s) := .of_groups (by rw [rest]) (by rw [rest]) (by rw [rest])
  have groups (g) : (unblocked n s).group g = s.group g := by unfold State.group; rw [rest]
  rw [written.call_eq] at settled
  unfold Settled at settled
  rw [written.line_eq, written.equipment_eq, same.config_eq (written.equipment_eq n)] at settled
  dsimp only at settled
  rw [if_neg (by simp [seize, noFlags]), if_pos ⟨seize, direction⟩] at settled
  obtain ⟨seized, marked, left, offered, frame⟩ := settled
  refine ⟨written.trans seized, ?_, fun g => ?_, told.append offered, ?_⟩
  · unfold Marked at marked ⊢
    rw [marked, unblocked_presentCode state free, same.markDirty_link (by rw [rest])]
    rw [rest]
  · rw [left g, written.groupOf_eq, groups]
  · rw [frame, rest]

theorem adopted_line {x : LineCode} : (s.adopted n x).line n = ⟨some x, none, 0, some (s.meaning n x)⟩ := by
  unfold State.line State.adopted
  rw [lineTaken_channel, if_pos rfl]

/-- Settles O26: with no flag left the channel settles, into IDLE or IN_SEIZED by what it received. -/
theorem lastFlagClearedSettles : Obligations.LastFlagClearedSettles := by
  intro s n x g state flags free hg far
  have call := adopted_call (s := s) (n := n) (x := x) n
  have state' : ((s.adopted n x).call n).state = .blocked := by rw [call, state]
  have free' : ((s.adopted n x).call n).transmitted = .is .free := by rw [call, free]
  have received {r} (h : s.Brings n x r) : ((s.adopted n x).line n).received = some r := by
    obtain ⟨⟨-, -, meaning, -⟩, -⟩ := h
    rw [adopted_line, meaning]
  have event {c} (h : s.Brings n x (.is c)) (hc : c = .free ∨ c = .seize) :
      exec (.positionIntegration n) s = .next (s.built ((unblocked n (s.adopted n x)).settle n)) := by
    rw [exec_brings h, conditionChange_unblocks state' (by rw [call, flags]) hc]
  have idle {c} (h : s.Brings n x (.is c)) (hc : c = .free ∨ c = .seize)
      (only : c = .seize → (s.equipment n).direction = .outgoingOnly) :
      ∃ u, exec (.positionIntegration n) s = .next (s.built u) ∧ CallWritten n idleCall (s.adopted n x) u ∧
        Told far s u ∧ Reported (if c = .seize then
          [⟨.sequence, some (spanOf n), some n, none, none, some .blocked⟩] else []) s u ∧
        u.group g = { s.group g with idle := (s.group g).idle ++ [n] } ∧ (∀ h, h ≠ g → u.group h = s.group h) ∧
        u = { s.adopted n x with
              channels := u.channels, groups := u.groups, lists := u.lists, faults := u.faults } := by
    obtain ⟨written, told, reported, joined, frame⟩ := unblocked_settles_idle state' free'
      (by rw [received h]; rcases hc with rfl | rfl <;> simp)
      (by rw [received h, adopted_equipment]; simpa using only)
    refine ⟨_, event h hc, written, ?_, ?_, ?_, fun k hk => ?_, frame⟩
    · rw [adopted_config] at told
      exact told_of_adopted told
    · simp only [received h, Option.some.injEq, Received.is.injEq] at reported
      exact reported
    · rw [joined g, adopted_groupOf, if_pos hg]
      rfl
    · rw [joined k, adopted_groupOf, if_neg (by rw [hg]; exact fun e => hk (Option.some.inj e).symm)]
      rfl
  refine ⟨?_, fun h direction => ?_⟩
  · rintro l (⟨h, rfl⟩ | ⟨h, direction, rfl⟩)
    · exact idle h (.inl rfl) nofun
    · exact idle h (.inr rfl) fun _ => direction
  · obtain ⟨written, marked, left, told, frame⟩ := unblocked_settles_seized state' free' (received h)
      (by rw [adopted_equipment]; exact direction)
    rw [adopted_config] at written told
    exact ⟨_, event h (.inr rfl), written, marked, left_of_adopted left, told_of_adopted told, frame⟩

end Sys2Proof.Machine
end

section
/-! UNDRAIN reaches every member of its group (O34). -/

namespace Sys2Proof.Machine

open State

variable {s t u : State} {n : ChannelNo} {found : Finder}

/-! ## The check of a member -/

/-- The check of a member reaches no other channel. -/
theorem State.MemberChecked.onlyChannel (h : MemberChecked n found s t) : OnlyChannel n s t := by
  unfold MemberChecked at h
  split at h
  · subst h; exact fun _ _ => rfl
  · subst h
    exact fun m hm => by rw [channel_corrected, if_neg hm]
  · exact h.frame.1

/-- A member whose check passes keeps its call part. -/
theorem State.MemberChecked.call_eq (h : MemberChecked n found s t) (few : (s.channel n).errors.length < 2) :
    t.call n = s.call n := by
  unfold MemberChecked at h
  split at h
  · rw [h]
  · rw [h, corrected_call]
  · next none one =>
    match e : (s.channel n).errors with
    | [] => exact absurd e none
    | [b] => exact absurd e (one b)
    | _ :: _ :: _ => rw [e] at few; simp at few

/-! ## UNDRAIN at one member -/

/-- What R52 leaves of a member whose check has passed. -/
def Undrained (n : ChannelNo) (s t : State) : Prop :=
  let flags := { (s.call n).flags with drain := false }
  if (s.call n).state = .blocked ∧ flags = noFlags then Settled n flags s t
  else
    CallWritten n { s.call n with
      flags := flags
      transmitted := if (s.call n).state = .blocked then (if flags.locally then .is .block else .is .free)
        else (s.call n).transmitted } s t ∧
    Marked n s t ∧ t = { s with channels := t.channels, link := t.link }

theorem State.Settled.onlyChannel {f : BlockFlags} (h : Settled n f s u) : OnlyChannel n s u := by
  unfold Settled at h
  dsimp only at h
  split at h
  · exact h.1.2
  · split at h
    · exact h.1.2
    · exact h.1.2

theorem Undrained.onlyChannel (h : Undrained n s t) : OnlyChannel n s t := by
  unfold Undrained at h
  dsimp only at h
  split at h
  · exact h.onlyChannel
  · exact h.1.2

theorem blockedCondition_undrained (f : BlockFlags) :
    blockedCondition { f with drain := false } = if f.locally then .is .block else .is .free := by
  unfold blockedCondition
  rw [Bool.or_false]

theorem liftFlag_undrained (codes : CodesDistinct s)
    (block : (s.call n).state = .blocked → (s.call n).transmitted = .is .block) :
    Undrained n s (s.liftFlag n { (s.call n).flags with drain := false }) := by
  unfold Undrained
  dsimp only
  split
  · next h =>
    rw [h.2]
    exact liftFlag_settled h.1 (block h.1) codes
  · next h =>
    unfold liftFlag writeFlags
    rw [if_neg h, blockedCondition_undrained]
    exact ⟨writeCall_effect.1, writeCall_effect.2, writeCall_eq⟩

/-! ## The walk of UNDRAIN -/

/-- What UNDRAIN needs of the members it has still to reach. -/
structure ReadyToUndrain (members : List ChannelNo) (s : State) : Prop where
  nodup : members.Nodup
  codes : CodesDistinct s
  errors : ∀ n ∈ members, (s.channel n).errors.length ≤ 2
  block : ∀ n ∈ members, (s.call n).state = .blocked → (s.call n).transmitted = .is .block

theorem undrainMember_reaches {f : PortNo × RequestCode} {l : List ChannelNo} (h : ReadyToUndrain (n :: l) s) :
    AtMember n (some f) (Undrained n) s (undrainMember f s n) := by
  have errors := h.errors n (List.mem_cons_self ..)
  refine checked_atMember errors fun few => liftFlag_undrained ?_ ?_
  · exact Holds.checkCall.codes h.codes
  · rw [(checkCall_member errors).1.call_eq few]
    exact h.block n (List.mem_cons_self ..)

theorem State.AtMember.onlyChannel {rest : State → State → Prop} (h : AtMember n found rest s t)
    (only : ∀ u v, rest u v → OnlyChannel n u v) : OnlyChannel n s t := by
  obtain ⟨w, checked, h⟩ := h
  split at h
  · exact fun m hm => (only _ _ h m hm).trans (checked.onlyChannel m hm)
  · rw [h]
    exact checked.onlyChannel

theorem undrainMember_holds {f : PortNo × RequestCode} : Holds s (undrainMember f s n) :=
  Holds.checked fun _ => Holds.liftFlag

theorem ReadyToUndrain.next {f : PortNo × RequestCode} {l : List ChannelNo} (h : ReadyToUndrain (n :: l) s) :
    ReadyToUndrain l (undrainMember f s n) := by
  have only := (undrainMember_reaches (f := f) h).onlyChannel fun _ _ => Undrained.onlyChannel
  obtain ⟨fresh, nodup⟩ := List.nodup_cons.1 h.nodup
  have same (m) (hm : m ∈ l) : (undrainMember f s n).channel m = s.channel m := only m fun e => fresh (e ▸ hm)
  refine ⟨nodup, undrainMember_holds.codes h.codes, fun m hm => ?_, fun m hm => ?_⟩
  · rw [same m hm]
    exact h.errors m (List.mem_cons_of_mem _ hm)
  · unfold State.call
    rw [same m hm]
    exact h.block m (List.mem_cons_of_mem _ hm)

theorem undrainMember_withPorts {f : PortNo × RequestCode} (P c s n) :
    undrainMember f (withPorts P c s) n = withPorts P c (undrainMember f s n) :=
  checked_withPorts fun _ => liftFlag_withPorts

theorem endDrain_withPorts {p : PortNo} {g : GroupNo} (P c s) :
    (withPorts P c s).endDrain p g = withPorts P c (s.endDrain p g) :=
  foldl_withPorts undrainMember_withPorts _ (s.modGroup g fun r => { r with drainPort := none, drainReported := false })

theorem undrainRule_accepted {p : PortNo} {b : Byte} {g : GroupNo} {c : GroupConfig} (hg : groupField b = some g)
    (exists' : (s.group g).config = some c) (drains : (s.group g).drainPort ≠ none) :
    undrainRule p [b] s = (s.endDrain p g, ⟨.ok, []⟩) := by
  unfold undrainRule
  dsimp only
  rw [hg]
  dsimp only
  rw [exists', if_neg (by simp), if_neg (by simpa using drains)]
  rfl

/-- Settles O34, by induction on the members the walk has still to visit. -/
theorem undrainReachesEveryMember : Obligations.UndrainReachesEveryMember := by
  intro s p tag b g c admits permitted hg exists' drains nodup codes members
  obtain ⟨ports, count⟩ := ports_of_withPorts (s := s) (endDrain_withPorts (p := p) (g := g))
  have rule (P k) : undrainRule p [b] (withPorts P k s) = (withPorts P k (s.endDrain p g), ⟨.ok, []⟩) := by
    rw [undrainRule_accepted (s := withPorts P k s) hg exists' drains, endDrain_withPorts]
  obtain ⟨u, e, answered, apart⟩ := request_apart (tag := tag) (code := .undrain) (body := [b]) admits
    permitted permitGroup_stable rfl (.inl rfl) rule ports count
  refine ⟨u, by rw [exec_undrain, e], answered, ?_⟩
  rw [apart]
  exact reaches_foldl (Ready := ReadyToUndrain) (fun n l s h => ⟨undrainMember_reaches h, h.next⟩) _ _
    ⟨nodup, codes, fun n hn => (members n hn).1, fun n hn => (members n hn).2⟩

end Sys2Proof.Machine
end

section
/-! UNEQUIP takes a channel out of its group (O40). -/

namespace Sys2Proof.Machine

open State

variable {s t u v : State} {n : ChannelNo} {g : GroupNo}

/-! ## The drain completion check of a group -/

/-- The check of R51 finds that the group's drain ends. -/
def drainCompletes (s : State) (g : GroupNo) : Bool :=
  (s.group g).drainPort.isSome && !(s.group g).drainReported && (s.group g).members.all (s.outOfUse ·)

/-- The reason that the end of a drain adds, for the drain port. -/
def drainedFor (g : GroupNo) (port : Option PortNo) (drained : Bool) : List (PortNo × AttentionObject × Reason) :=
  match port with
  | some q => if drained then [(q, .group g, .drained)] else []
  | none => []

theorem drainCheck_effect :
    (s.drainCheck g).group g =
      { s.group g with drainReported := (s.group g).drainReported || drainCompletes s g } ∧
    (∀ h, h ≠ g → (s.drainCheck g).group h = s.group h) ∧
    Told (drainedFor g (s.group g).drainPort (drainCompletes s g)) s (s.drainCheck g) ∧
    s.drainCheck g = { s with groups := (s.drainCheck g).groups, lists := (s.drainCheck g).lists } := by
  unfold drainCheck drainCompletes drainedFor
  cases port : (s.group g).drainPort with
  | none => exact ⟨by simp, fun _ _ => rfl, told_nil rfl, rfl⟩
  | some q =>
    simp only [Option.isSome_some, Bool.true_and]
    by_cases ends : (!(s.group g).drainReported && (s.group g).members.all (s.outOfUse ·)) = true
    · rw [if_pos ends, ends]
      refine ⟨?_, fun h hh => ?_, Told.notify (adds := []) (told_nil rfl), rfl⟩
      · show (s.modGroup g fun r => { r with drainReported := true }).group g = _
        rw [group_modGroup, if_pos rfl, Bool.or_true]
      · show (s.modGroup g fun r => { r with drainReported := true }).group h = _
        rw [group_modGroup, if_neg hh]
    · rw [if_neg ends, Bool.eq_false_iff.2 ends]
      exact ⟨by simp, fun _ _ => rfl, told_nil rfl, rfl⟩

/-! ## The group's part of an UNEQUIP -/

theorem filter_ne_of_split {ahead behind : List ChannelNo} (ha : n ∉ ahead) (hb : n ∉ behind) :
    (ahead ++ n :: behind).filter (· ≠ n) = ahead ++ behind := by
  have keep {l : List ChannelNo} (h : n ∉ l) : l.filter (· ≠ n) = l :=
    List.filter_eq_self.2 fun m hm => decide_eq_true fun e => h (e ▸ hm)
  rw [List.filter_append, List.filter_cons_of_neg (by simp), keep ha, keep hb]

/-- The cursor goes to the member before its channel, or else to the last (R40). -/
theorem cursorBefore_of_split {ahead behind : List ChannelNo} (ha : n ∉ ahead) (hb : n ∉ behind) :
    cursorBefore n (ahead ++ n :: behind) = ahead.getLast?.or behind.getLast? := by
  have other (m) (hm : m ∈ ahead) : decide (m ≠ n) = true := decide_eq_true fun e => ha (e ▸ hm)
  have taken : (ahead ++ n :: behind).takeWhile (· ≠ n) = ahead := by
    rw [List.takeWhile_append_of_pos other, List.takeWhile_cons_of_neg (by simp), List.append_nil]
  unfold cursorBefore
  rw [taken, filter_ne_of_split ha hb]
  cases last : ahead.getLast? with
  | some m => rfl
  | none => rw [List.getLast?_eq_none_iff.1 last]; rfl

/-- Out of the idle queue and the member list, with the cursor moved and the drain checked over the members left. -/
theorem leaveGroup_effect {ahead behind : List ChannelNo} (hg : s.groupOf n = some g)
    (members : (s.group g).members = ahead ++ n :: behind) (ha : n ∉ ahead) (hb : n ∉ behind) :
    let drained := (s.group g).drainPort.isSome && !(s.group g).drainReported && (ahead ++ behind).all (s.outOfUse ·)
    let t := (s.leaveIdle n).leaveGroup n
    t.group g = { s.group g with
      members := ahead ++ behind, idle := (s.group g).idle.filter (· ≠ n)
      cursor := if (s.group g).cursor = some n then ahead.getLast?.or behind.getLast? else (s.group g).cursor
      drainReported := (s.group g).drainReported || drained } ∧
    (∀ h, h ≠ g → t.group h = s.group h) ∧ Told (drainedFor g (s.group g).drainPort drained) s t ∧
    t = { s with groups := t.groups, lists := t.lists } := by
  intro drained t
  set w := (s.leaveIdle n).modGroup g fun r =>
    { r with
      cursor := if r.cursor = some n then cursorBefore n r.members else r.cursor
      members := r.members.filter (· ≠ n) } with hw
  have idle := leaveIdle_left (s := s) (n := n)
  have rest := leaveIdle_groups_only (s := s) (n := n)
  have frame : w = { s with groups := w.groups } := by rw [hw, rest]; rfl
  have group : w.group g = { s.group g with
      members := ahead ++ behind, idle := (s.group g).idle.filter (· ≠ n)
      cursor := if (s.group g).cursor = some n then ahead.getLast?.or behind.getLast?
        else (s.group g).cursor } := by
    rw [hw, group_modGroup, if_pos rfl, idle g, if_pos hg]
    dsimp only
    rw [members, filter_ne_of_split ha hb, cursorBefore_of_split ha hb]
  have others (h) (hh : h ≠ g) : w.group h = s.group h := by
    rw [hw, group_modGroup, if_neg hh, idle h, hg, if_neg fun e => hh (Option.some.inj e).symm]
  have leave : t = w.drainCheck g := by
    have same : (s.leaveIdle n).groupOf n = some g := by rw [rest]; exact hg
    show (s.leaveIdle n).leaveGroup n = _
    unfold leaveGroup
    rw [same]
  have ends : drainCompletes w g = drained := by
    have out : w.outOfUse = s.outOfUse := funext fun m => outOfUse_eq (by rw [frame])
    unfold drainCompletes
    rw [group, out]
  obtain ⟨checked, same, told, check⟩ := drainCheck_effect (s := w) (g := g)
  rw [ends, group] at told checked
  rw [leave]
  refine ⟨checked, fun h hh => (same h hh).trans (others h hh), told.after (by rw [frame]), ?_⟩
  rw [check, frame]

/-! ## The whole of an UNEQUIP -/

theorem mayUnequip_iff : s.mayUnequip n = true ↔
    (s.call n).state ∈ [.idle, .guard, .blocked, .fault .span, .fault .release] ∨
      (s.call n).state = .fault .record ∧ s.purgePending n = false := by
  unfold mayUnequip
  cases (s.call n).state with
  | fault cause => cases cause <;> simp
  | _ => simp

theorem leaveGroup_withPorts {P c} : (withPorts P c s).leaveGroup n = withPorts P c (s.leaveGroup n) := by
  have e : (withPorts P c s).groupOf n = s.groupOf n := rfl
  unfold leaveGroup
  rw [e]
  cases s.groupOf n with
  | none => rfl
  | some g => dsimp only; rw [modGroup_withPorts, drainCheck_withPorts]

/-- The channel's own part of an UNEQUIP: its record emptied, and its pending notice gone (R14, R112). -/
def emptied (n : ChannelNo) (t : State) : State :=
  (t.modChannel n fun r =>
    { r with
      equipment := unequippedPart, line := { r.line with received := none }, call := unequippedCall
      errors := [] }).modSpan (spanOf n) fun r => { r with notices := r.notices.set (positionOf n) .none }

theorem unequipChannel_eq : s.unequipChannel n =
    (emptied n ((s.leaveIdle n).leaveGroup n)).markIfChanged n (s.presentCode n) := rfl

theorem emptied_channel (m : ChannelNo) : (emptied n t).channel m =
    if m = n then ⟨unequippedPart, { t.line n with received := none }, unequippedCall, []⟩ else t.channel m :=
  channel_modChannel

theorem unequipChannel_withPorts (P c s) : (withPorts P c s).unequipChannel n = withPorts P c (s.unequipChannel n) := by
  rw [unequipChannel_eq, leaveIdle_withPorts, leaveGroup_withPorts]
  exact markIfChanged_withPorts (s := emptied n ((s.leaveIdle n).leaveGroup n))

theorem unequipChannel_effect {ahead behind : List ChannelNo} (hg : s.groupOf n = some g)
    (members : (s.group g).members = ahead ++ n :: behind) (ha : n ∉ ahead) (hb : n ∉ behind) :
    let drained := (s.group g).drainPort.isSome && !(s.group g).drainReported && (ahead ++ behind).all (s.outOfUse ·)
    let v := s.unequipChannel n
    v.channel n = ⟨unequippedPart, { s.line n with received := none }, unequippedCall, []⟩ ∧
    OnlyChannel n s v ∧ Marked n s v ∧
    v.group g = { s.group g with
      members := ahead ++ behind, idle := (s.group g).idle.filter (· ≠ n)
      cursor := if (s.group g).cursor = some n then ahead.getLast?.or behind.getLast? else (s.group g).cursor
      drainReported := (s.group g).drainReported || drained } ∧
    (∀ h, h ≠ g → v.group h = s.group h) ∧ Told (drainedFor g (s.group g).drainPort drained) s v ∧
    v = { s with
      channels := v.channels, groups := v.groups, lists := v.lists, link := v.link
      spans := s.spans.update (spanOf n) fun r => { r with notices := r.notices.set (positionOf n) .none } } := by
  intro drained v
  obtain ⟨group, others, told, left⟩ := leaveGroup_effect hg members ha hb
  have mark : v = (emptied n ((s.leaveIdle n).leaveGroup n)).markIfChanged n (s.presentCode n) := unequipChannel_eq
  generalize (s.leaveIdle n).leaveGroup n = t at group others told left mark
  have frame := markIfChanged_link_only (s := emptied n t) (n := n) (x := s.presentCode n)
  have channel (m) : v.channel m = if m = n then
      ⟨unequippedPart, { s.line n with received := none }, unequippedCall, []⟩ else s.channel m := by
    have line : t.line n = s.line n := by rw [left]; rfl
    rw [mark, frame, ← line]
    refine (emptied_channel m).trans ?_
    rw [left]
    rfl
  have groups (h) : v.group h = t.group h := by rw [mark, frame]; rfl
  refine ⟨by rw [channel, if_pos rfl], fun m hm => by rw [channel, if_neg hm], ?_, by rw [groups, group],
    fun h hh => by rw [groups, others h hh], told.of_lists (by rw [mark, frame]; rfl), ?_⟩
  · rw [mark]
    refine markIfChanged_marked (by rw [left]; rfl) ?_
    unfold emptied
    rw [span_modSpan, if_pos rfl, left]
    rfl
  · rw [mark, frame, left]
    rfl

theorem unequipRule_accepted {p : PortNo} {hi lo : Byte} (hn : channelField hi lo = some n) (hg : s.groupOf n = some g)
    (clean : (s.channel n).errors = []) (may : s.mayUnequip n = true) :
    atChannel (unequipRule p) [hi, lo] s = (s.unequipChannel n, ⟨.ok, []⟩) := by
  rw [atChannel_ok hn (by unfold State.equipped; rw [hg]; rfl), unequipRule, checkedRule_clean clean, if_pos may]
  rfl

/-- Settles O40: the accepted request is `unequipChannel` beside the ports. -/
theorem unequipTakesOutOfService : Obligations.UnequipTakesOutOfService := by
  intro s p tag hi lo n g ahead behind admits admin hn hg clean members ha hb may
  have rule (P c) : atChannel (unequipRule p) [hi, lo] (withPorts P c s) =
      (withPorts P c (s.unequipChannel n), ⟨.ok, []⟩) := by
    rw [unequipRule_accepted (s := withPorts P c s) hn hg clean (mayUnequip_iff.2 may), unequipChannel_withPorts]
  obtain ⟨ports, count⟩ := ports_of_withPorts (s := s) (unequipChannel_withPorts (n := n))
  obtain ⟨u, e, answered, apart⟩ := admin_apart (tag := tag) (code := .unequip) (body := [hi, lo]) admits admin rfl rule
    ports count
  exact ⟨u, s.unequipChannel n, by rw [exec_unequip, e], answered, apart, unequipChannel_effect hg members ha hb⟩

end Sys2Proof.Machine
end

section
/-! EQUIP puts a channel into service in its group (O39). -/

namespace Sys2Proof.Machine

open State

variable {s t u v : State} {n : ChannelNo} {g : GroupNo} {rank : Byte} {d : Direction}

/-! ## The place in the member list (R40) -/

theorem insertMember_splits (l : List ChannelNo) :
    ∃ ahead behind, l = ahead ++ behind ∧ s.insertMember n l = ahead ++ n :: behind ∧
      (∀ m ∈ ahead, s.before n m = false) ∧ ∀ m, behind.head? = some m → s.before n m = true := by
  induction l with
  | nil => exact ⟨[], [], rfl, rfl, nofun, nofun⟩
  | cons a l ih =>
    by_cases first : s.before n a = true
    · exact ⟨[], a :: l, rfl, if_pos first, nofun, fun m hm => Option.some.inj hm ▸ first⟩
    · obtain ⟨ahead, behind, split, inserted, after, next⟩ := ih
      refine ⟨a :: ahead, behind, congrArg (a :: ·) split, ?_, fun m hm => ?_, next⟩
      · unfold insertMember
        rw [if_neg first, inserted]
        rfl
      · rcases List.mem_cons.1 hm with rfl | hm
        · exact Bool.eq_false_iff.2 first
        · exact after m hm

theorem before_congr (h : ∀ m, t.equipment m = s.equipment m) (a b : ChannelNo) : t.before a b = s.before a b := by
  unfold before
  rw [h, h]

theorem insertMember_congr (h : ∀ m, t.equipment m = s.equipment m) (l : List ChannelNo) :
    t.insertMember n l = s.insertMember n l := by
  induction l with
  | nil => rfl
  | cons a l ih =>
    unfold insertMember
    rw [before_congr h, ih]

/-! ## The channel as a member of the group (R13 steps 1 and 2) -/

/-- The equipment part written, and the channel put into the member list. -/
def joined (n : ChannelNo) (g : GroupNo) (rank : Byte) (d : Direction) (s : State) : State :=
  let t := s.modChannel n fun r => { r with equipment := ⟨some g, rank, d⟩ }
  t.modGroup g fun r => { r with members := t.insertMember n r.members }

theorem joined_withPorts {P k} : joined n g rank d (withPorts P k s) = withPorts P k (joined n g rank d s) := by
  have same := insertMember_congr (n := n) (s := s.modChannel n fun r => { r with equipment := ⟨some g, rank, d⟩ })
    (t := (withPorts P k s).modChannel n fun r => { r with equipment := ⟨some g, rank, d⟩ }) fun _ => rfl
  unfold joined
  dsimp only
  rw [funext same]
  rfl

theorem joined_channel (m : ChannelNo) : (joined n g rank d s).channel m =
    if m = n then { s.channel n with equipment := ⟨some g, rank, d⟩ } else s.channel m := channel_modChannel

theorem joined_groupOf : (joined n g rank d s).groupOf n = some g := by
  unfold State.groupOf State.equipment
  rw [joined_channel, if_pos rfl]

theorem joined_line : (joined n g rank d s).line n = s.line n := by
  unfold State.line
  rw [joined_channel, if_pos rfl]

theorem joined_group_rest (h : GroupNo) :
    (joined n g rank d s).group h = { s.group h with members := ((joined n g rank d s).group h).members } := by
  unfold joined
  dsimp only
  rw [group_modGroup]
  split
  · next e => rw [e]; rfl
  · rfl

theorem joined_group_other {h : GroupNo} (hh : h ≠ g) : (joined n g rank d s).group h = s.group h := by
  unfold joined
  dsimp only
  rw [group_modGroup, if_neg hh]
  rfl

theorem joined_config {c : GroupConfig} (hc : (s.group g).config = some c) : (joined n g rank d s).config n = c := by
  unfold State.config
  rw [joined_groupOf]
  dsimp only
  rw [joined_group_rest]
  dsimp only
  rw [hc]
  rfl

theorem joined_derivedCondition {c : GroupConfig} (hc : (s.group g).config = some c) :
    (joined n g rank d s).derivedCondition n =
      (s.line n).stable.map fun x => (s.profiles.get c.profile).receive.get x.toFin := by
  have equipped : (joined n g rank d s).equipped n = true := by unfold State.equipped; rw [joined_groupOf]; rfl
  have meaning : (joined n g rank d s).meaning n = fun x => (s.profiles.get c.profile).receive.get x.toFin := by
    funext x
    unfold State.meaning
    rw [joined_config hc]
    rfl
  unfold derivedCondition
  rw [if_pos equipped, joined_line, meaning]

/-! ## The whole of an EQUIP -/

theorem equippedCall_eq {p : Prop} [Decidable p] {draining : Bool} {guard : Millis} :
    equippedCall p draining guard =
      if p then ⟨.guard, .none, none, .is .free, load guard, ⟨false, draining, false⟩, false, none⟩
      else ⟨.fault .span, .none, none, .is .block, none, ⟨false, draining, false⟩, false, none⟩ := by
  by_cases h : p
  · simp only [h, if_true]; rfl
  · simp only [h, if_false]; rfl

/-- The state that EQUIP leaves, but for the dirty mark. -/
def inGroup (n : ChannelNo) (g : GroupNo) (rank : Byte) (d : Direction) (c : GroupConfig) (s : State) : State :=
  ((joined n g rank d s).setLine n { s.line n with
      received := (s.line n).stable.map fun x => (s.profiles.get c.profile).receive.get x.toFin }).setCall n
    (equippedCall ((s.span (spanOf n)).state = .inService) (s.group g).drainPort.isSome c.guard)

theorem equipChannel_eq {c : GroupConfig} (hc : (s.group g).config = some c) :
    s.equipChannel n g rank d = (inGroup n g rank d c s).markIfChanged n (s.presentCode n) := by
  have config (l) : ((joined n g rank d s).setLine n l).config n = c := by
    have same : SameCodes (joined n g rank d s) ((joined n g rank d s).setLine n l) := .of_groups rfl rfl rfl
    rw [same.config_eq equipment_setLine, joined_config hc]
  have drain (l) : (((joined n g rank d s).setLine n l).group g).drainPort = (s.group g).drainPort := by
    show ((joined n g rank d s).group g).drainPort = _
    rw [joined_group_rest]
  unfold inGroup
  rw [← joined_derivedCondition (n := n) (rank := rank) (d := d) hc, ← drain, ← config]
  conv_rhs => rw [← joined_line (g := g) (rank := rank) (d := d)]
  rfl

theorem inGroup_withPorts {P k} {c : GroupConfig} :
    inGroup n g rank d c (withPorts P k s) = withPorts P k (inGroup n g rank d c s) := by
  unfold inGroup
  rw [joined_withPorts]
  rfl

theorem inGroup_channel {c : GroupConfig} (m : ChannelNo) : (inGroup n g rank d c s).channel m =
    if m = n then ⟨⟨some g, rank, d⟩,
      { s.line n with received := (s.line n).stable.map fun x => (s.profiles.get c.profile).receive.get x.toFin },
      equippedCall ((s.span (spanOf n)).state = .inService) (s.group g).drainPort.isSome c.guard, []⟩
    else s.channel m := by
  unfold inGroup State.setCall State.setLine
  rw [channel_modChannel, channel_modChannel, if_pos rfl, joined_channel, if_pos rfl]
  split
  · rfl
  · next h => rw [channel_modChannel, if_neg h, joined_channel, if_neg h]

theorem equipChannel_withPorts {P k} {c : GroupConfig} (hc : (s.group g).config = some c) :
    (withPorts P k s).equipChannel n g rank d = withPorts P k (s.equipChannel n g rank d) := by
  rw [equipChannel_eq (s := withPorts P k s) hc, equipChannel_eq hc, inGroup_withPorts, markIfChanged_withPorts]
  rfl

theorem equipChannel_effect {c : GroupConfig} (hc : (s.group g).config = some c) :
    let v := s.equipChannel n g rank d
    v.channel n = ⟨⟨some g, rank, d⟩,
      { s.line n with received := (s.line n).stable.map fun x => (s.profiles.get c.profile).receive.get x.toFin },
      equippedCall ((s.span (spanOf n)).state = .inService) (s.group g).drainPort.isSome c.guard, []⟩ ∧
    OnlyChannel n s v ∧ Marked n s v ∧
    (∃ ahead behind, (s.group g).members = ahead ++ behind ∧ (v.group g).members = ahead ++ n :: behind ∧
      (∀ m ∈ ahead, v.before n m = false) ∧ ∀ m, behind.head? = some m → v.before n m = true) ∧
    v.group g = { s.group g with members := (v.group g).members } ∧ (∀ h, h ≠ g → v.group h = s.group h) ∧
    v = { s with channels := v.channels, groups := v.groups, link := v.link } := by
  intro v
  have mark : v = (inGroup n g rank d c s).markIfChanged n (s.presentCode n) := equipChannel_eq hc
  have frame := markIfChanged_link_only (s := inGroup n g rank d c s) (n := n) (x := s.presentCode n)
  have channel (m) : v.channel m = (inGroup n g rank d c s).channel m := by rw [mark, frame]; rfl
  have group (h) : v.group h = (joined n g rank d s).group h := by rw [mark, frame]; rfl
  refine ⟨by rw [channel, inGroup_channel, if_pos rfl], fun m hm => by rw [channel, inGroup_channel, if_neg hm], ?_, ?_,
    by rw [group, joined_group_rest], fun h hh => by rw [group, joined_group_other hh], by rw [mark, frame]; rfl⟩
  · rw [mark]
    exact markIfChanged_marked rfl rfl
  · obtain ⟨ahead, behind, split, inserted, after, next⟩ := insertMember_splits (n := n) (s.group g).members
      (s := s.modChannel n fun r => { r with equipment := ⟨some g, rank, d⟩ })
    have order := before_congr (t := v) (s := s.modChannel n fun r => { r with equipment := ⟨some g, rank, d⟩ })
      fun m => by
        unfold State.equipment
        rw [channel, inGroup_channel, channel_modChannel]
        split <;> rfl
    refine ⟨ahead, behind, split, ?_, fun m hm => by rw [order]; exact after m hm,
      fun m hm => by rw [order]; exact next m hm⟩
    rw [group, ← inserted]
    unfold joined
    dsimp only
    rw [group_modGroup, if_pos rfl]
    rfl

theorem withinSpan_of_config {c : SpanConfig} (hc : (s.span (spanOf n)).config = some c)
    (below : (positionOf n).val < c.count) : s.withinSpan n = true := by
  unfold withinSpan
  rw [hc]
  exact decide_eq_true below

/-- A request whose fields name a channel of its span and a group that exists comes to the check of the call part. -/
theorem equipRequest_eq {p : PortNo} {hi lo b d' : Byte} (hn : channelField hi lo = some n) (hg : groupField b = some g)
    (hd : directionField d' = some d) (within : s.withinSpan n = true) (exists' : (s.group g).config ≠ none) :
    equipRequest p [hi, lo, b, rank, d'] s = equipRule p n g rank d s := by
  unfold equipRequest
  dsimp only
  rw [hn, hg, hd]
  dsimp only
  rw [within, if_neg (by simp), if_neg (by simpa using exists')]

/-- The response names the state entered. -/
theorem equipRule_accepted {p : PortNo} {c : GroupConfig} (hc : (s.group g).config = some c)
    (clean : (s.channel n).errors = []) (free : (s.call n).state = .unequipped) :
    equipRule p n g rank d s = (s.equipChannel n g rank d,
      ⟨.ok, if (s.span (spanOf n)).state = .inService then [0x02#8, 0xFF#8] else [0x0B#8, 0x00#8]⟩) := by
  have call : (s.equipChannel n g rank d).call n =
      equippedCall ((s.span (spanOf n)).state = .inService) (s.group g).drainPort.isSome c.guard := by
    unfold State.call
    rw [(equipChannel_effect hc).1]
  unfold equipRule
  rw [checkedRule_clean clean, if_neg (by simp [free])]
  dsimp only
  rw [call, equippedCall_eq]
  split <;> rfl

/-- Settles O39: the accepted request is `equipChannel` beside the ports. -/
theorem equipPutsIntoService : Obligations.EquipPutsIntoService := by
  intro s p tag hi lo b rank b4 n g d c sc admits admin hn hg hd hsc below hc clean free drain serving
  have exists' : (s.group g).config ≠ none := by rw [hc]; exact nofun
  have rule (P k) : equipRequest p [hi, lo, b, rank, b4] (withPorts P k s) =
      (withPorts P k (s.equipChannel n g rank d), ⟨.ok, if serving then [0x02#8, 0xFF#8] else [0x0B#8, 0x00#8]⟩) := by
    rw [equipRequest_eq (s := withPorts P k s) hn hg hd (withinSpan_of_config hsc below) exists',
      equipRule_accepted (s := withPorts P k s) hc clean free, equipChannel_withPorts hc]
    rfl
  obtain ⟨channel, only, marked, members, group, others, frame⟩ :=
    equipChannel_effect (n := n) (rank := rank) (d := d) hc
  obtain ⟨u, e, answered, apart⟩ :=
    admin_apart (tag := tag) (code := .equip) (body := [hi, lo, b, rank, b4]) admits admin
    rfl rule (by rw [frame]) (by rw [frame])
  refine ⟨u, s.equipChannel n g rank d, by rw [exec_equip, e], answered, apart, ?_, only, marked, members, group,
    others, frame⟩
  rw [channel, equippedCall_eq]

end Sys2Proof.Machine
end

section
/-! RESTART and its completion (O48). -/

namespace Sys2Proof.Machine

open State

variable {s t u : State} {p q : PortNo} {tag : Byte}

/-! ## The transfer that a restart ends (R154, R194 step 2) -/

theorem abortTransfer_eq : t.abortTransfer = { t with ports := t.abortTransfer.ports, transfer := none } := by
  unfold abortTransfer
  cases e : t.transfer with
  | none => obtain ⟨⟩ := t; cases e; rfl
  | some x => dsimp only; conv_lhs => rw [finishLong_eq]

/-- A port that did not request the transfer keeps its record. -/
theorem abortTransfer_port_other (h : ∀ x, t.transfer = some x → x.requester ≠ q) :
    t.abortTransfer.port q = t.port q := by
  unfold abortTransfer
  cases e : t.transfer with
  | none => rfl
  | some x => exact finishLong_other (h x e).symm

theorem abortTransfer_port_idle (h : (t.port q).state.isWorking = false) : t.abortTransfer.port q = t.port q := by
  unfold abortTransfer
  cases t.transfer with
  | none => rfl
  | some x =>
    dsimp only
    by_cases e : q = x.requester
    · subst e
      unfold finishLong
      split
      · next k => rw [show (t.port x.requester).state = _ from k] at h; cases h
      · rfl
      · rfl
    · exact finishLong_other e

/-- The requester's response is ABORTED. -/
theorem abortTransfer_port_requester {x : Transfer} {long : LongRequest} (hx : t.transfer = some x)
    (hl : (t.port x.requester).state = .working long) :
    t.abortTransfer.port x.requester = { t.port x.requester with
      state := .ready ⟨long.tag, .aborted, (t.port x.requester).overrun, []⟩, overrun := false } := by
  unfold abortTransfer
  rw [hx]
  exact finishLong_port hl

/-! ## A restart, once the codes that wait are taken -/

/-- What RESTART does after every code handed to a position has been taken. -/
def restartFrom (p : PortNo) (tag : Byte) (t : State) : State :=
  let u := t.abortTransfer.restartBlocks
  { u with
    ports := u.ports.mapIdx (restartPort p (t.transfer.map (·.requester)) tag)
    restart := some ⟨restartTime, p⟩ }

theorem beginRestart_eq : s.beginRestart p tag = restartFrom p tag s.takeAllHanded := rfl

theorem restartFrom_eq : restartFrom p tag t =
    { t.restartBlocks with
      ports := (restartFrom p tag t).ports, transfer := none, restart := some ⟨restartTime, p⟩ } := by
  unfold restartFrom
  dsimp only
  conv_lhs => rw [abortTransfer_eq]
  rfl

theorem restartFrom_port : (restartFrom p tag t).port q =
    restartPort p (t.transfer.map (·.requester)) tag q (t.abortTransfer.port q) := Table.get_mapIdx ..

theorem restartFrom_port_self (h : (t.port p).state.isWorking = false) :
    (restartFrom p tag t).port p = { t.port p with state := .working ⟨tag, .restart⟩ } := by
  rw [restartFrom_port, abortTransfer_port_idle h]
  exact if_pos rfl

theorem restartFrom_port_other (hq : q ≠ p) (h : ∀ x, t.transfer = some x → x.requester ≠ q) :
    (restartFrom p tag t).port q = { t.port q with state := .idle, overrun := false } := by
  have aborted : t.transfer.map (·.requester) ≠ some q := by
    intro e
    obtain ⟨x, hx, e⟩ := Option.map_eq_some_iff.1 e
    exact h x hx e
  rw [restartFrom_port, abortTransfer_port_other h]
  unfold restartPort
  rw [if_neg hq, if_neg aborted]

theorem restartFrom_port_requester {x : Transfer} {long : LongRequest} (hq : x.requester ≠ p)
    (hx : t.transfer = some x) (hl : (t.port x.requester).state = .working long) :
    (restartFrom p tag t).port x.requester = { t.port x.requester with
      state := .ready ⟨long.tag, .aborted, (t.port x.requester).overrun, []⟩, overrun := false } := by
  rw [restartFrom_port, abortTransfer_port_requester hx hl, hx]
  unfold restartPort
  rw [if_neg hq]
  exact if_pos rfl

theorem restartFrom_channel (n : ChannelNo) : (restartFrom p tag t).channel n =
    ⟨t.equipment n, ⟨none, none, 0, none⟩,
      if t.equipped n = true then ⟨.fault .span, .none, none, .is .block, none,
        { (t.seenCall n).flags with remote := false }, false, none⟩
      else ⟨.unequipped, .none, none, .fill, none, noFlags, false, none⟩, []⟩ := by
  have channel : (restartFrom p tag t).channel n = restartChannel (t.channel n) := by
    rw [restartFrom_eq]
    exact Table.get_map ..
  rw [channel]
  unfold restartChannel State.equipped State.groupOf State.equipment
  cases (t.channel n).equipment.group <;> rfl

theorem restartFrom_group (g : GroupNo) : (restartFrom p tag t).group g = restartGroup (t.group g) := by
  rw [restartFrom_eq]
  exact Table.get_map ..

theorem restartFrom_span (sp : SpanNo) : (restartFrom p tag t).span sp = ⟨(t.span sp).config,
    if (t.span sp).config = none then .unused else .starting, 0, 0, none, none, false, 0, .fill 32 .none,
    .fill 32 none⟩ := by
  have span : (restartFrom p tag t).span sp = restartSpan (t.span sp) := by
    rw [restartFrom_eq]
    exact Table.get_map ..
  rw [span]
  unfold restartSpan
  cases (t.span sp).config <;> rfl

theorem restartFrom_linkSpan (sp : SpanNo) : (restartFrom p tag t).linkSpan sp = { t.linkSpan sp with
    dirty := match (t.span sp).config with
      | some c => .tabulate fun k => k.val < c.count
      | none => .fill 32 false } := by
  rw [restartFrom_eq]
  exact Table.get_mapIdx ..

theorem restartFrom_index (k : SetNo) (w : WayNo) : ((restartFrom p tag t).index.get k).get w = none := by
  rw [restartFrom_eq]
  show ((Table.fill 128 (Table.fill 4 (none : Option IndexEntry))).get k).get w = none
  rw [Table.get_fill, Table.get_fill]

theorem restartFrom_list : (restartFrom p tag t).list q = [] := by
  rw [restartFrom_eq]
  exact Table.get_fill ..

/-- An admitted RESTART takes the waiting codes, and brings about no build: a restart is in flight after it. -/
theorem exec_restart_admitted (admits : s.Admits p) (admin : (s.port p).admin = true) :
    ∃ t P k, CodesTaken (fun _ => true) s t ∧ (∀ q, (withPorts P k t).port q = (s.driveSdo p 4).port q) ∧
      exec (.restart p tag []) s = .next (restartFrom p tag (withPorts P k t)) := by
  obtain ⟨sdo, port⟩ := driveSdo_port (s := s) (p := p) (k := 4)
  have served := serve_admitted (tag := tag) (code := .restart) (body := []) (permitted := permitAdmin p)
    (go := State.beginRestart p tag) admits (by unfold permitAdmin; rw [List.length_nil, port]; exact admin) rfl
  have driven : s.driveSdo p 4 = withPorts (s.driveSdo p 4).ports (s.driveSdo p 4).freeCount s := driveSdo_eq
  obtain ⟨t, k, taken, e⟩ := takeAllHanded_driven (s := s) (P := (s.driveSdo p 4).ports)
    (c := (s.driveSdo p 4).freeCount)
  rw [← driven] at e
  have begun : serve p tag .restart [] (permitAdmin p) (State.beginRestart p tag) s =
      restartFrom p tag (withPorts (s.driveSdo p 4).ports k t) := by
    rw [served, ← e]
    rfl
  refine ⟨t, _, k, taken, fun _ => rfl, ?_⟩
  rw [exec_restart, event_restarting (r := ⟨restartTime, p⟩) (by rw [begun]; rfl), begun]

/-! ## The completion (R195) -/

/-- The state in which a completion builds its update (R195). -/
def restartCompleted (s : State) : State :=
  { s with
    restart := none
    spans := s.spans.map fun x => { x with
      silence := match x.config with
        | some c => load c.silence
        | none => x.silence }
    scrub := { s.scrub with timer := load s.scrub.interval }
    link := { s.link with refreshTimer := load s.link.refreshInterval } }

theorem completeRestart_eq {r : Restart} :
    s.completeRestart r = (restartCompleted s).buildIfIdle.finishLong r.requester .ok := by
  have silence : (fun x : SpanRecord => match x.config with
      | some c => { x with silence := load c.silence }
      | none => x) = fun x => { x with silence := match x.config with
        | some c => load c.silence
        | none => x.silence } := by
    funext x
    rcases x with ⟨_ | c⟩ <;> rfl
  exact congrArg (fun f : SpanRecord → SpanRecord => State.finishLong r.requester .ok <| State.buildIfIdle
    { s with
      restart := none
      spans := s.spans.map f
      scrub := { s.scrub with timer := load s.scrub.interval }
      link := { s.link with refreshTimer := load s.link.refreshInterval } }) silence

/-- Settles O48: the admitted request restarts the controller, and the due restart step completes it. -/
theorem restartReinitialisesAndCompletes : Obligations.RestartReinitialisesAndCompletes := by
  refine ⟨fun s p tag admits admin => ?_, fun s r long hr due working => ?_⟩
  · obtain ⟨t, P, k, taken, driven, e⟩ := exec_restart_admitted (tag := tag) admits admin
    obtain ⟨within, profiles, transfer, scrub, -, millis, rstN, pending, -, config, -⟩ := taken.frame
    have idle : (s.port p).state.isWorking = false := admits.2.1
    obtain ⟨sdo, self⟩ := driveSdo_port (s := s) (p := p) (k := 4)
    have self' : (withPorts P k t).port p = { s.port p with sdo := sdo } := by rw [driven, self]
    have other (q) (hq : q ≠ p) : (withPorts P k t).port q = s.port q := by rw [driven, driveSdo_port_other hq]
    have from' (x) : (withPorts P k t).transfer = some x ↔ s.transfer = some x := by rw [← transfer]; rfl
    have frame := restartFrom_eq (p := p) (tag := tag) (t := withPorts P k t)
    refine ⟨t, _, taken, e, fun n => ?_, fun g => ?_, fun sp => ?_, restartFrom_index, by rw [frame]; rfl,
      fun q => restartFrom_list, by rw [frame], ?_, fun sp => ?_, by rw [frame]; rfl, by rw [frame]; rfl, ⟨sdo, ?_⟩,
      fun q hq h => ?_, fun q x long hq hx hrq hl => ?_, ?_, by rw [frame]; rfl, ?_, ?_, ?_⟩
    · have equipped : (withPorts P k t).equipped n = s.equipped n := congrArg (·.group.isSome) (within.equipment n)
      rw [restartFrom_channel, equipped, ← within.equipment n]
      rfl
    · rw [restartFrom_group]
      show restartGroup (t.group g) = _
      rw [within.group g]
      rfl
    · rw [restartFrom_span, ← config sp]
      rfl
    · rw [frame, ← scrub]
      rfl
    · rw [restartFrom_linkSpan, ← config sp]
      rfl
    · rw [restartFrom_port_self (by rw [self']; exact idle), self']
    · rw [restartFrom_port_other hq fun x hx => h x ((from' x).1 hx), other q hq]
    · subst hrq
      rw [restartFrom_port_requester hq ((from' x).2 hx) (by rw [other _ hq]; exact hl), other _ hq]
    · rw [frame]; exact profiles
    · rw [frame]; exact millis
    · rw [frame]; exact rstN
    · rw [frame]; exact pending
  · have completed : exec .restartCompletion s = .next (s.completeRestart r) := by
      rw [exec_restartCompletion]
      unfold takeRestartCompletion
      rw [hr]
      dsimp only
      rw [if_pos due]
    have ports : (restartCompleted s).buildIfIdle.ports = s.ports := buildIfIdle_ports _
    have port (q) : (restartCompleted s).buildIfIdle.port q = s.port q := by unfold State.port; rw [ports]
    refine ⟨_, completed, ?_⟩
    rw [completeRestart_eq]
    refine ⟨?_, fun q hq => by rw [finishLong_other hq, port], ?_⟩
    · rw [finishLong_port (by rw [port]; exact working), port]
    · show _ = (restartCompleted s).buildIfIdle
      rw [finishLong_eq, ← ports]

end Sys2Proof.Machine
end

section
/-! The configuration requests are refused by the first check that fails (O46). -/

namespace Sys2Proof.Machine

open State

variable {s d : State} {p : PortNo} {tag : Byte} {status : Status} {n : ChannelNo} {g : GroupNo}

/-! ## What a rule reads is the same once the characters of its request are driven -/

theorem Driven.anyEquipped (h : Driven s d) (sp : SpanNo) : d.anyEquipped sp = s.anyEquipped sp := by
  unfold State.anyEquipped
  simp only [h.equipped]

theorem Driven.mayUnequip (h : Driven s d) (n : ChannelNo) : d.mayUnequip n = s.mayUnequip n := by
  unfold State.mayUnequip
  rw [h.call, h.purgePending]

theorem Driven.withinSpan (h : Driven s d) (n : ChannelNo) : d.withinSpan n = s.withinSpan n := by
  unfold State.withinSpan
  rw [h.span]

theorem Driven.heldMember (h : Driven s d) (n : ChannelNo) : d.heldMember n = s.heldMember n := by
  obtain ⟨_, _, rfl⟩ := h
  rfl

theorem Driven.profileInUse (h : Driven s d) (k : ProfileNo) : d.profileInUse k = s.profileInUse k := by
  unfold State.profileInUse
  rw [h.groups]

theorem Alike.withinSpan (h : Alike s d) (n : ChannelNo) : d.withinSpan n = s.withinSpan n := by
  unfold State.withinSpan
  rw [h.span]

/-! ## The checks of each rule -/

theorem setSpanRule_fields {body : List Byte} (h : spanFields body = none) :
    setSpanRule body s = refuse .badRequest s := by
  unfold setSpanRule
  rw [h]

theorem setSpanRule_inUse {body : List Byte} {sp : SpanNo} {new old : SpanConfig} (h : spanFields body = some (sp, new))
    (config : (s.span sp).config = some old) (count : new.count ≠ old.count) (equipped : s.anyEquipped sp = true) :
    setSpanRule body s = refuse .inUse s := by
  unfold setSpanRule
  rw [h]
  dsimp only
  rw [config]
  exact if_pos ⟨count, equipped⟩

theorem clearSpanRule_field {b : Byte} (h : spanField b = none) : clearSpanRule [b] s = refuse .badRequest s := by
  unfold clearSpanRule
  dsimp only
  rw [h]

theorem clearSpanRule_unused {b : Byte} {sp : SpanNo} (h : spanField b = some sp) (config : (s.span sp).config = none) :
    clearSpanRule [b] s = refuse .badRequest s := by
  unfold clearSpanRule
  dsimp only
  rw [h]
  dsimp only
  rw [config]
  rfl

theorem clearSpanRule_inUse {b : Byte} {sp : SpanNo} (h : spanField b = some sp) (config : (s.span sp).config ≠ none)
    (equipped : s.anyEquipped sp = true) : clearSpanRule [b] s = refuse .inUse s := by
  unfold clearSpanRule
  dsimp only
  rw [h]
  dsimp only
  rw [if_neg (by simpa using config), if_pos equipped]

theorem withinSpan_eq_false (h : ∀ c, (s.span (spanOf n)).config = some c → c.count ≤ (positionOf n).val) :
    s.withinSpan n = false := by
  unfold State.withinSpan
  cases config : (s.span (spanOf n)).config with
  | none => rfl
  | some c => exact decide_eq_false (Nat.not_lt.2 (h c config))

theorem equipRequest_fields {hi lo b rank x : Byte}
    (h : channelField hi lo = none ∨ groupField b = none ∨ directionField x = none) :
    equipRequest p [hi, lo, b, rank, x] s = refuse .badRequest s := by
  unfold equipRequest
  dsimp only
  split
  · next hn hg hd =>
    rw [hn, hg, hd] at h
    simp at h
  · rfl

theorem equipRequest_beyond {hi lo b rank x : Byte} {dir : Direction} (hn : channelField hi lo = some n)
    (hg : groupField b = some g) (hd : directionField x = some dir) (beyond : s.withinSpan n = false) :
    equipRequest p [hi, lo, b, rank, x] s = refuse .badRequest s := by
  unfold equipRequest
  dsimp only
  rw [hn, hg, hd]
  dsimp only
  rw [beyond]
  rfl

theorem equipRequest_noGroup {hi lo b rank x : Byte} {dir : Direction} (hn : channelField hi lo = some n)
    (hg : groupField b = some g) (hd : directionField x = some dir) (within : s.withinSpan n = true)
    (config : (s.group g).config = none) :
    equipRequest p [hi, lo, b, rank, x] s = refuse .badRequest s := by
  unfold equipRequest
  dsimp only
  rw [hn, hg, hd]
  dsimp only
  rw [within, config]
  rfl

theorem equipRule_inService {rank : Byte} {dir : Direction} (clean : (s.channel n).errors = [])
    (inService : (s.call n).state ≠ .unequipped) : equipRule p n g rank dir s = refuse .wrongState s := by
  unfold equipRule
  rw [checkedRule_clean clean]
  exact if_pos inService

theorem atChannel_field {rule : ChannelNo → State → State × Answer} {hi lo : Byte} (hn : channelField hi lo = none) :
    atChannel rule [hi, lo] s = refuse .badRequest s := by
  unfold atChannel
  dsimp only
  rw [hn]

theorem atChannel_notEquipped {rule : ChannelNo → State → State × Answer} {hi lo : Byte}
    (hn : channelField hi lo = some n) (he : s.equipped n = false) :
    atChannel rule [hi, lo] s = refuse .notEquipped s := by
  unfold atChannel
  dsimp only
  rw [hn]
  dsimp only
  rw [he]
  rfl

theorem unequipRule_wrongState (clean : (s.channel n).errors = []) (may : s.mayUnequip n = false) :
    unequipRule p n s = refuse .wrongState s := by
  unfold unequipRule
  rw [checkedRule_clean clean, may]
  rfl

theorem setGroupRule_fields {body : List Byte} (h : groupFields body = none) :
    setGroupRule p body s = refuse .badRequest s := by
  unfold setGroupRule
  rw [h]

/-- A member that neither a flag of this end nor a fault holds keeps its group's profile (R38). -/
theorem heldMember_eq_false (clean : (s.channel n).errors = []) (fault : ∀ x, (s.call n).state ≠ .fault x)
    (flags : (s.call n).state = .blocked → ((s.call n).flags.locally || (s.call n).flags.drain) = false) :
    s.heldMember n = false := by
  unfold State.heldMember
  rw [foundCall_clean clean]
  cases state : (s.call n).state with
  | blocked => exact flags state
  | fault x => exact absurd state (fault x)
  | _ => rfl

theorem setGroupRule_inUse {body : List Byte} {new old : GroupConfig} (h : groupFields body = some (g, new))
    (config : (s.group g).config = some old) (profile : new.profile ≠ old.profile) (member : n ∈ (s.group g).members)
    (held : s.heldMember n = false) : setGroupRule p body s = refuse .inUse s := by
  have notAll : (s.group g).members.all (s.heldMember ·) = false :=
    List.all_eq_false.2 ⟨n, member, by simp [held]⟩
  unfold setGroupRule
  rw [h]
  dsimp only
  rw [config]
  dsimp only
  rw [notAll]
  exact if_pos ⟨profile, rfl⟩

theorem deleteGroupRule_field {b : Byte} (h : groupField b = none) : deleteGroupRule [b] s = refuse .badRequest s := by
  unfold deleteGroupRule
  dsimp only
  rw [h]

theorem deleteGroupRule_absent {b : Byte} (h : groupField b = some g) (config : (s.group g).config = none) :
    deleteGroupRule [b] s = refuse .badRequest s := by
  unfold deleteGroupRule
  dsimp only
  rw [h]
  dsimp only
  rw [config]
  rfl

theorem deleteGroupRule_inUse {b : Byte} (h : groupField b = some g) (config : (s.group g).config ≠ none)
    (members : (s.group g).members ≠ []) : deleteGroupRule [b] s = refuse .inUse s := by
  unfold deleteGroupRule
  dsimp only
  rw [h]
  dsimp only
  rw [if_neg (by simpa using config), if_pos (by simpa using members)]

theorem loadProfileRule_fields {body : List Byte} (h : profileFields body = none) :
    loadProfileRule body s = refuse .badRequest s := by
  unfold loadProfileRule
  rw [h]

theorem loadProfileRule_codes {body : List Byte} {k : ProfileNo} {profile : Profile}
    (h : profileFields body = some (k, profile)) (codes : ¬ profile.transmit.cells.Nodup) :
    loadProfileRule body s = refuse .badRequest s := by
  unfold loadProfileRule
  rw [h]
  dsimp only
  rw [if_pos (by simpa using codes)]

theorem profileInUse_iff {k : ProfileNo} : s.profileInUse k = true ↔
    ∃ g c, (s.group g).config = some c ∧ c.profile = k ∧ (s.group g).members ≠ [] := by
  unfold State.profileInUse State.group
  rw [Table.any_iff]
  constructor
  · rintro ⟨g, h⟩
    obtain ⟨named, members⟩ := Bool.and_eq_true_iff.1 h
    obtain ⟨c, config, profile⟩ := Option.any_eq_true .. |>.1 named
    exact ⟨g, c, config, of_decide_eq_true profile, by simpa using members⟩
  · rintro ⟨g, c, config, profile, members⟩
    refine ⟨g, ?_⟩
    rw [config]
    simpa [profile] using members

theorem loadProfileRule_inUse {body : List Byte} {k : ProfileNo} {profile : Profile}
    (h : profileFields body = some (k, profile)) (codes : profile.transmit.cells.Nodup)
    (used : s.profileInUse k = true) :
    loadProfileRule body s = refuse .inUse s := by
  unfold loadProfileRule
  rw [h]
  dsimp only
  rw [if_neg (by simpa using codes), if_pos used]

/-! ## The requests -/

/-- An administrator's request that its rule refuses. -/
theorem exec_admin_refused {c : Instr} {code : RequestCode} {body : List Byte} {rule : State → State × Answer}
    (he : exec c s = .next (event (serve p tag code body (permitAdmin p) (answering p tag rule)) s))
    (admits : s.Admits p)
    (admin : (s.port p).admin = true) (length : body.length = bodyLength code)
    (main : ∀ d, Driven s d → rule d = refuse status d) : ∃ t, exec c s = .next t ∧ Refused p tag status s t := by
  obtain ⟨t, e, refused⟩ := admin_refused (tag := tag) admits admin length main
  exact ⟨t, by rw [he, e], refused⟩

/-- The checks of EQUIP in their order (R13). -/
theorem equipRequest_refused {hi lo b rank x : Byte} (clean : ∀ n, (s.channel n).errors = [])
    (h : (match channelField hi lo, groupField b, directionField x with
      | some n, some g, some _ =>
        match (s.span (spanOf n)).config with
        | none => some .badRequest
        | some c =>
          if c.count ≤ (positionOf n).val then some .badRequest
          else if (s.group g).config = none then some .badRequest
          else if (s.call n).state ≠ .unequipped then some .wrongState
          else none
      | _, _, _ => some Status.badRequest) = some status) (dr : Driven s d) :
    equipRequest p [hi, lo, b, rank, x] d = refuse status d := by
  split at h
  · next n g dir hn hg hd =>
    split at h
    · next config =>
      obtain rfl := Option.some.inj h
      exact equipRequest_beyond hn hg hd (by rw [dr.withinSpan, withinSpan_eq_false (by simp [config])])
    · next c config =>
      split at h
      · next beyond =>
        obtain rfl := Option.some.inj h
        exact equipRequest_beyond hn hg hd
          (by rw [dr.withinSpan, withinSpan_eq_false fun c' hc' => Option.some.inj (config.symm.trans hc') ▸ beyond])
      · next below =>
        have within : d.withinSpan n = true := by
          rw [dr.withinSpan, withinSpan_of_config config (Nat.lt_of_not_le below)]
        split at h
        · next absent =>
          obtain rfl := Option.some.inj h
          exact equipRequest_noGroup hn hg hd within (by rw [dr.group, absent])
        · next exists' =>
          split at h
          · next inService =>
            obtain rfl := Option.some.inj h
            rw [equipRequest_eq hn hg hd within (by rw [dr.group]; exact exists')]
            exact equipRule_inService (by rw [dr.channel, clean]) (by rw [dr.call]; exact inService)
          · cases h
  · next fails =>
    obtain rfl := Option.some.inj h
    refine equipRequest_fields ?_
    by_contra all
    simp only [not_or, ← ne_eq, Option.ne_none_iff_exists'] at all
    obtain ⟨⟨n, hn⟩, ⟨g, hg⟩, dir, hd⟩ := all
    exact fails n g dir hn hg hd

/-- The checks of UNEQUIP in their order (R14). -/
theorem unequip_refused {hi lo : Byte} (clean : ∀ n, (s.channel n).errors = [])
    (h : (match channelField hi lo with
      | none => some .badRequest
      | some n =>
        if s.equipped n = false then some .notEquipped
        else if (s.call n).state ∈ [.idle, .guard, .blocked, .fault .span, .fault .release] ∨
            (s.call n).state = .fault .record ∧ s.purgePending n = false then none
        else some .wrongState) = some status) (dr : Driven s d) :
    atChannel (unequipRule p) [hi, lo] d = refuse status d := by
  split at h
  · next hn =>
    obtain rfl := Option.some.inj h
    exact atChannel_field hn
  · next n hn =>
    split at h
    · next free =>
      obtain rfl := Option.some.inj h
      exact atChannel_notEquipped hn (by rw [dr.equipped, free])
    · next equipped =>
      split at h
      · cases h
      · next may =>
        obtain rfl := Option.some.inj h
        rw [atChannel_ok hn (by rw [dr.equipped]; simpa using equipped)]
        exact unequipRule_wrongState (by rw [dr.channel, clean])
          (by rw [dr.mayUnequip]; exact Bool.eq_false_iff.2 fun k => may (mayUnequip_iff.1 k))

/-- Settles O46, request by request, each refusal in the order in which its rule tests. -/
theorem configurationIsRefusedInOrder : Obligations.ConfigurationIsRefusedInOrder := by
  refine ⟨fun s p tag hi lo n admits admin hn => ⟨fun equipped => ?_,
      fun b rank x g c hg hd config below exists' => ?_⟩,
    fun s p tag status admits admin clean => ⟨?_, ?_, ?_, ?_, ?_, ?_, ?_⟩⟩
  · exact request_checks (fun t => exec_unequip t) admits rfl (fun d _ same => same.trans admin) fun d al =>
      (atChannel_ok hn (by rw [al.equipped, equipped])).trans rfl
  · obtain ⟨dir, hd⟩ := Option.ne_none_iff_exists'.1 hd
    exact request_checks (fun t => exec_equip t) admits rfl (fun d _ same => same.trans admin) fun d al =>
      equipRequest_eq hn hg hd (by rw [al.withinSpan, withinSpan_of_config config below])
          (by rw [al.group]; exact exists')
  · rintro body length (⟨fields, rfl⟩ | ⟨sp, new, old, fields, config, count, equipped, rfl⟩)
    · exact exec_admin_refused (exec_setSpan s) admits admin length fun d _ => setSpanRule_fields fields
    · exact exec_admin_refused (exec_setSpan s) admits admin length fun d dr =>
        setSpanRule_inUse fields (by rw [dr.span, config]) count (by rw [dr.anyEquipped, equipped])
  · rintro b (⟨field, rfl⟩ | ⟨sp, field, ⟨config, rfl⟩ | ⟨config, equipped, rfl⟩⟩)
    · exact exec_admin_refused (exec_clearSpan s) admits admin rfl fun d _ => clearSpanRule_field field
    · exact exec_admin_refused (exec_clearSpan s) admits admin rfl fun d dr =>
        clearSpanRule_unused field (by rw [dr.span, config])
    · exact exec_admin_refused (exec_clearSpan s) admits admin rfl fun d dr =>
        clearSpanRule_inUse field (by rw [dr.span]; exact config) (by rw [dr.anyEquipped, equipped])
  · intro hi lo b rank x h
    exact exec_admin_refused (exec_equip s) admits admin rfl fun d => equipRequest_refused clean h
  · intro hi lo h
    exact exec_admin_refused (exec_unequip s) admits admin rfl fun d => unequip_refused clean h
  · rintro body length (⟨fields, rfl⟩ | ⟨g, new, old, n, fields, config, profile, member, rfl, fault, flags⟩)
    · exact exec_admin_refused (exec_setGroup s) admits admin length fun d _ => setGroupRule_fields fields
    · exact exec_admin_refused (exec_setGroup s) admits admin length fun d dr =>
        setGroupRule_inUse fields (by rw [dr.group, config]) profile (by rw [dr.group]; exact member)
          (by rw [dr.heldMember, heldMember_eq_false (clean n) fault flags])
  · rintro b (⟨field, rfl⟩ | ⟨g, field, ⟨config, rfl⟩ | ⟨config, members, rfl⟩⟩)
    · exact exec_admin_refused (exec_deleteGroup s) admits admin rfl fun d _ => deleteGroupRule_field field
    · exact exec_admin_refused (exec_deleteGroup s) admits admin rfl fun d dr =>
        deleteGroupRule_absent field (by rw [dr.group, config])
    · exact exec_admin_refused (exec_deleteGroup s) admits admin rfl fun d dr =>
        deleteGroupRule_inUse field (by rw [dr.group]; exact config) (by rw [dr.group]; exact members)
  · rintro body length (⟨fields, rfl⟩ | ⟨k, profile, fields, ⟨codes, rfl⟩ | ⟨codes, rfl, used⟩⟩)
    · exact exec_admin_refused (exec_loadProfile s) admits admin length fun d _ => loadProfileRule_fields fields
    · exact exec_admin_refused (exec_loadProfile s) admits admin length fun d _ => loadProfileRule_codes fields codes
    · exact exec_admin_refused (exec_loadProfile s) admits admin length fun d dr =>
        loadProfileRule_inUse fields codes (by rw [dr.profileInUse, profileInUse_iff.2 used])

end Sys2Proof.Machine
end

section
/-! The views of R193, character by character, and the queries that answer them (O35). -/

namespace Sys2Proof.Machine

open State

variable {s d : State} {p : PortNo} {tag : Byte} {n : ChannelNo} {g : GroupNo} {sp : SpanNo}

/-! ## The numbers of R190 -/

theorem optional1_eq (v : Option Nat) : optional1 v = BitVec.ofNat 8 (v.getD 0xFF) := by cases v <;> rfl

theorem timerChars_eq {w : Nat} (t : Option (BitVec w)) :
    timerChars t = chars2 (t.elim 0 (·.toNat)) := by cases t <;> rfl

theorem referenceChars_eq (r : Option Reference) : referenceChars r = chars3 (r.elim 0 (·.toNat)) := by cases r <;> rfl

theorem directionNumber_eq (x : Direction) :
    directionNumber x = [Direction.bothway, .incomingOnly, .outgoingOnly].idxOf x := by cases x <;> rfl

theorem roleNumber_eq (x : Role) : roleNumber x = [Role.none, .outgoing, .incoming].idxOf x := by cases x <;> rfl

theorem policyNumber_eq (x : Policy) :
    policyNumber x = [Policy.firstUp, .firstDown, .rotate, .longestIdle].idxOf x := by cases x <;> rfl

theorem glareNumber_eq (x : GlareRule) : glareNumber x = [GlareRule.yield, .hold].idxOf x := by cases x <;> rfl

theorem conditionNo_eq (x : Condition) :
    (conditionNo x).val = [Condition.free, .seize, .proceed, .answer, .clear, .block].idxOf x := by cases x <;> rfl

theorem receivedNumber_eq : receivedNumber = fun x => match x with
    | .is y => [Condition.free, .seize, .proceed, .answer, .clear, .block].idxOf y
    | .invalid => 6 := by
  funext x
  cases x with
  | is y => exact conditionNo_eq y
  | invalid => rfl

theorem transmittedNumber_eq (x : Transmitted) : transmittedNumber x = match x with
    | .is y => [Condition.free, .seize, .proceed, .answer, .clear, .block].idxOf y
    | .fill => 7 := by
  cases x with
  | is y => exact conditionNo_eq y
  | fill => rfl

theorem stateNumber_eq : stateNumber = fun x => match x with
    | .fault _ => 11
    | x => [CallState.unequipped, .idle, .guard, .outSeized, .outWaitAnswer, .inSeized, .inAlerting, .connected,
        .clearingLocal, .clearingRemote, .blocked].idxOf x := by
  funext x
  cases x <;> rfl

theorem causeNumber_eq : causeNumber = fun x => match x with
    | .fault y => some ([FaultCause.span, .record, .release].idxOf y)
    | _ => none := by
  funext x
  cases x with
  | fault y => cases y <;> rfl
  | _ => rfl

theorem failureNumber_eq (x : SpanState) : failureNumber x = match x with
    | .failed y | .recovering y => some ([FailureCause.faulty, .silent].idxOf y)
    | _ => none := by
  cases x with
  | failed y => cases y <;> rfl
  | recovering y => cases y <;> rfl
  | _ => rfl

theorem alarmRequest_eq : s.alarmRequest sp = match (s.span sp).state with
    | .failed _ | .recovering _ => true
    | _ => false := by
  unfold alarmRequest
  cases (s.span sp).state <;> rfl

theorem requestChar_eq (r : Option RequestCode) :
    requestChar r = BitVec.ofNat 8 ((r.map (requestCodes.idxOf · + 1)).getD 0xFF) := by cases r <;> rfl

/-! ## What the views count -/

/-- Of members with no bit in error, the counts of R53 read the states last written. -/
theorem countMembers_clean {f : CallState → Bool} (clean : ∀ n ∈ (s.group g).members, (s.channel n).errors = []) :
    s.countMembers g f = ((s.group g).members.filter fun n => f (s.call n).state).length := by
  unfold countMembers
  rw [List.filter_congr fun n hn => by rw [seenCall_clean (clean n hn)]]

theorem noticeKinds_eq : s.noticeKinds sp =
    (decide (∃ k, (s.span sp).notices.get k = .down)).toNat +
      2 * (decide (∃ k, (s.span sp).notices.get k = .up)).toNat +
      4 * (decide (∃ k, (s.span sp).notices.get k = .downUp)).toNat := by
  have any (x : Notice) : (s.span sp).notices.any (· = x) = decide (∃ k, (s.span sp).notices.get k = x) :=
    Bool.eq_iff_iff.2 (by simp only [Table.any_iff, decide_eq_true_eq])
  unfold noticeKinds
  dsimp only
  rw [any, any, any]

theorem sum_map_filter {α : Type} (q : α → Bool) (f : α → Nat) (l : List α) :
    ((l.filter q).map f).sum = (l.map fun a => if q a then f a else 0).sum := by
  induction l with
  | nil => rfl
  | cons a l ih =>
    cases h : q a with
    | true => rw [List.filter_cons_of_pos h, List.map_cons, List.sum_cons, ih, List.map_cons, List.sum_cons, if_pos h]
    | false =>
      rw [List.filter_cons_of_neg (by simp [h]), ih, List.map_cons, List.sum_cons, if_neg (by simp [h]), zero_add]

theorem laterNumber_eq :
    s.laterNumber = ((List.finRange 11).map fun k => if s.faults.later.get k then 2 ^ k.val else 0).sum := by
  unfold laterNumber
  rw [Table.indices_eq_filter, sum_map_filter]
  rfl

theorem cells_eq {α : Type} {k : Nat} (t : Table α k) : t.cells = (List.finRange k).map t.get :=
  List.ext_getElem (by simp [t.size]) fun i _ _ => by simp [Table.get_eq_getElem]

theorem classChars_flatMap : s.faults.classes.cells.flatMap classChars =
    (List.finRange 11).flatMap fun k => classChars (s.faults.classes.get k) := by
  rw [cells_eq, List.flatMap_map]

/-! ## The lengths of the views -/

theorem channelView_length : (s.channelView n).length = 25 := by
  simp [channelView, chars2, referenceChars, chars3, timerChars, optional2]

theorem groupView_length : (s.groupView g).length = if (s.group g).config = none then 1 else 34 := by
  unfold groupView
  dsimp only
  cases (s.group g).config with
  | none => rfl
  | some c => simp [chars2, optional2]

theorem spanView_length : (s.spanView sp).length = if (s.span sp).config = none then 1 else 24 := by
  unfold spanView
  dsimp only
  cases (s.span sp).config with
  | none => rfl
  | some c => simp [chars2, optional2, timerChars]

theorem faultView_length : s.faultView.length = 52 := by
  have first : s.firstFaultChars.length = 13 := by
    unfold firstFaultChars
    cases s.faults.first <;> simp [optional2, chars4, chars2]
  unfold faultView
  rw [classChars_flatMap]
  simp [first, classChars, chars2, chars4]

/-! ## The queries -/

/-- A request of any port whose rule answers OK and leaves the state as it found it. -/
theorem exec_query {c : Instr} {code : RequestCode} {body answer : List Byte} {rule : State → State × Answer}
    (he : exec c s = .next (event (serve p tag code body permitAny (answering p tag rule)) s)) (admits : s.Admits p)
    (length : body.length = bodyLength code)
    (main : ∀ P k, rule (withPorts P k s) = (withPorts P k s, ⟨.ok, answer⟩)) :
    ∃ u, exec c s = .next u ∧ Answered p tag .ok answer s u ∧ s.apart u = s := by
  obtain ⟨u, e, answered, apart⟩ := request_apart (tag := tag) (permitted := permitAny) admits rfl (fun _ _ _ _ => rfl)
    length (.inl rfl) main rfl rfl
  exact ⟨u, by rw [he, e, built_apart apart rfl rfl], answered, apart⟩

theorem exec_query_refused {c : Instr} {code : RequestCode} {status : Status} {body : List Byte}
    {rule : State → State × Answer}
    (he : exec c s = .next (event (serve p tag code body permitAny (answering p tag rule)) s)) (admits : s.Admits p)
    (length : body.length = bodyLength code) (main : ∀ d, Driven s d → rule d = refuse status d) :
    ∃ t, exec c s = .next t ∧ Refused p tag status s t := by
  obtain ⟨t, e, refused⟩ :=
    request_refused (tag := tag) (permitted := permitAny) admits (fun _ _ _ _ => rfl) length main
  exact ⟨t, by rw [he, e], refused⟩

theorem atTarget_ok {resolve rule} {k a b c : Byte} {target : Target} (named : targetField k a b c = some target)
    (found : resolve s target = .ok n) : atTarget resolve rule [k, a, b, c] s = rule n s := by
  unfold atTarget
  dsimp only
  rw [named]
  dsimp only
  rw [found]

theorem atTarget_error {resolve rule} {k a b c : Byte} {target : Target} {status : Status}
    (named : targetField k a b c = some target) (found : resolve s target = .error status) :
    atTarget resolve rule [k, a, b, c] s = refuse status s := by
  unfold atTarget
  dsimp only
  rw [named]
  dsimp only
  rw [found]

theorem atTarget_field {resolve rule} {k a b c : Byte} (named : targetField k a b c = none) :
    atTarget resolve rule [k, a, b, c] s = refuse .badRequest s := by
  unfold atTarget
  dsimp only
  rw [named]

/-- The lookup of R128 in its order. -/
theorem lookup_error {r : Reference} {status : Status}
    (h : (if r = 0 then some .badRequest
      else
        match s.entryOf r with
        | none => some .refUnknown
        | some e => if s.purgePending e.channel = true then some Status.recordFault else none) = some status) :
    lookup s r = .error status := by
  unfold lookup
  by_cases zero : r = 0
  · rw [if_pos zero] at h
    obtain rfl := Option.some.inj h
    exact if_pos zero
  · rw [if_neg zero] at h
    rw [if_neg zero]
    cases found : s.entryOf r with
    | none =>
      rw [found] at h
      obtain rfl := Option.some.inj h
      rfl
    | some e =>
      rw [found] at h
      dsimp only at h ⊢
      by_cases purging : s.purgePending e.channel = true
      · rw [if_pos purging] at h
        obtain rfl := Option.some.inj h
        exact if_pos purging
      · rw [if_neg purging] at h
        cases h

/-- A READ_CHANNEL whose target names no channel is refused (R128, R190). -/
theorem readChannel_refused {k a b c : Byte} {status : Status}
    (h : (match targetField k a b c with
      | none => some .badRequest
      | some (.channel _) => none
      | some (.reference r) =>
        if r = 0 then some .badRequest
        else
          match s.entryOf r with
          | none => some .refUnknown
          | some e => if s.purgePending e.channel = true then some Status.recordFault else none) = some status)
    (dr : Driven s d) : atTarget resolveQuery (readChannelRule p) [k, a, b, c] d = refuse status d := by
  split at h
  · next named =>
    obtain rfl := Option.some.inj h
    exact atTarget_field named
  · cases h
  · next r named => exact atTarget_error named ((dr.resolveQuery _).trans (lookup_error h))

/-- READ_FAULTS answers the view as it stands, with some characters for an absent time (log 19). -/
theorem exec_readFaults_answers (admits : s.Admits p) :
    ∃ u drawn, exec (.readFaults p tag []) s = .next u ∧
      Answered p tag .ok { s with freeCount := drawn }.faultView s u ∧
      s.apart u = s := by
  obtain ⟨P, k, driven⟩ := driveSdo_form (s := s) (p := p) (k := 4)
  set v := (readFaultsRule (s.driveSdo p 4)).1 with hv
  have rest : v = { s with ports := v.ports, freeCount := v.freeCount } := by
    rw [hv, driven]
    unfold readFaultsRule
    dsimp only
    split <;> rfl
  have ports : v.ports = (s.driveSdo p 4).ports := by
    rw [hv]
    unfold readFaultsRule
    dsimp only
    split <;> rfl
  have answer : readFaultsRule (s.driveSdo p 4) = (v, ⟨.ok, { s with freeCount := k }.faultView⟩) := by
    rw [hv]
    unfold readFaultsRule
    rw [driven]
    rfl
  have e :=
    answered_event (tag := tag) (code := .readFaults) (body := []) (permitted := permitAny) admits rfl rfl answer
  refine ⟨_, k, by rw [exec_readFaults, e], ?_, ?_⟩
  · rw [built_quiet (by rw [rest]; rfl) (by rw [rest]; rfl)]
    exact answered_of_ports (k := 4) (.inl rfl) ports
  · rw [built_quiet (by rw [rest]; rfl) (by rw [rest]; rfl), rest]
    rfl

theorem readGroupRule_field {b : Byte} (h : groupField b = none) : readGroupRule [b] s = refuse .badRequest s := by
  unfold readGroupRule
  dsimp only
  rw [h]

theorem readGroupRule_ok {b : Byte} (h : groupField b = some g) : readGroupRule [b] s = (s, ⟨.ok, s.groupView g⟩) := by
  unfold readGroupRule
  dsimp only
  rw [h]

theorem readSpanRule_field {b : Byte} (h : spanField b = none) : readSpanRule [b] s = refuse .badRequest s := by
  unfold readSpanRule
  dsimp only
  rw [h]

theorem readSpanRule_ok {b : Byte} (h : spanField b = some sp) : readSpanRule [b] s = (s, ⟨.ok, s.spanView sp⟩) := by
  unfold readSpanRule
  dsimp only
  rw [h]

/-- Settles O35: each number of R190 is the place of its value in the list of R190, and each query is a request whose
rule leaves the state as it found it. -/
theorem queriesAnswerWhatStands : Obligations.QueriesAnswerWhatStands := by
  refine ⟨fun s => ⟨fun n => ?_, fun g config => ?_, fun g c config clean => ?_, fun sp config => ?_,
    fun sp c config => ?_, ?_⟩, fun s p tag admits => ⟨?_, ?_, ?_, ?_, ?_, ?_, ?_, exec_readFaults_answers admits,
      fun n => channelView_length, fun g => groupView_length, fun sp => spanView_length, faultView_length⟩⟩
  · unfold channelView
    simp only [optional1_eq, timerChars_eq, referenceChars_eq, directionNumber_eq, roleNumber_eq, receivedNumber_eq,
      transmittedNumber_eq, stateNumber_eq, causeNumber_eq]
    rfl
  · unfold groupView
    simp only [config]
    rfl
  · unfold groupView
    simp only [config, countMembers_clean clean, optional1_eq, policyNumber_eq, glareNumber_eq, causeNumber_eq]
    rfl
  · unfold spanView
    simp only [config]
    rfl
  · unfold spanView
    simp only [config, optional1_eq, timerChars_eq, failureNumber_eq, alarmRequest_eq, noticeKinds_eq,
      Table.indices_eq_filter]
    rfl
  · cases first : s.faults.first with
    | none =>
      refine ⟨chars4 (Config.absentTime s.freeCount).toNat, rfl, fun f e => absurd e (Option.some_ne_none f).symm, ?_⟩
      unfold faultView firstFaultChars
      simp only [first, classChars_flatMap, laterNumber_eq, List.append_assoc]
      rfl
    | some f =>
      refine ⟨chars4 f.time.toNat, rfl, fun f' e => Option.some.inj e ▸ rfl, ?_⟩
      unfold faultView firstFaultChars
      simp only [first, classChars_flatMap, laterNumber_eq, optional1_eq, requestChar_eq, stateNumber_eq,
        causeNumber_eq, List.append_assoc]
      rfl
  · intro k a b c target n named found
    exact request_checks (fun t => exec_readChannel t) admits rfl (fun _ _ _ => rfl) fun d al =>
      (atTarget_ok named ((al.resolveQuery _).trans found)).trans rfl
  · intro k a b c target n named found clean
    exact exec_query (exec_readChannel s) admits rfl fun P k =>
      (atTarget_ok (s := withPorts P k s) named found).trans (checkedRule_clean (s := withPorts P k s) clean)
  · intro k a b c status h
    exact exec_query_refused (exec_readChannel s) admits rfl fun d => readChannel_refused h
  · intro b g field
    exact exec_query (exec_readGroup s) admits rfl fun P k => readGroupRule_ok (s := withPorts P k s) field
  · intro b field
    exact exec_query_refused (exec_readGroup s) admits rfl fun d _ => readGroupRule_field field
  · intro b sp field
    exact exec_query (exec_readSpan s) admits rfl fun P k => readSpanRule_ok (s := withPorts P k s) field
  · intro b field
    exact exec_query_refused (exec_readSpan s) admits rfl fun d _ => readSpanRule_field field

end Sys2Proof.Machine
end

section
/-! The laws right after reset (O58), the load of a profile (O43), and the check of a scrub visit (O56). -/

namespace Sys2Proof.Machine

open State

variable {s : State}

/-- Settles O58: the reset state is that of POWER_ON_RESET with RST_N High, of which no law speaks. -/
theorem resetObeysTheLaws : Obligations.ResetObeysTheLaws :=
  Holds.rise.toKeeps.lawful (lawful_powerOnReset State.reset)

/-! ## LOAD_PROFILE -/

theorem mapM_of_map_some {α β : Type} {f : α → Option β} {l : List α} {m : List β} (h : l.map f = m.map some) :
    l.mapM f = some m := by
  induction l generalizing m with
  | nil =>
    cases m with
    | nil => rfl
    | cons b m => cases h
  | cons a l ih =>
    cases m with
    | nil => cases h
    | cons b m =>
      obtain ⟨first, rest⟩ := List.cons.inj h
      rw [List.mapM_cons, first, ih rest]
      rfl

theorem tableOf_cells {α : Type} {k : Nat} (t : Table α k) : tableOf k t.cells = some t := dif_pos t.size

theorem profileFields_of_codes {b : Byte} {k : ProfileNo} {codes map : List Byte} {profile : Profile}
    (number : profileField b = some k) (six : codes.length = 6)
    (transmit : codes.map codeField = profile.transmit.cells.map some)
    (receive : map.map receivedField = profile.receive.cells.map some) :
    profileFields (b :: codes ++ map) = some (k, profile) := by
  show (do
    some (← profileField b,
      { transmit := ← tableOf 6 (← ((codes ++ map).take 6).mapM codeField)
        receive := ← tableOf 16 (← ((codes ++ map).drop 6).mapM receivedField) })) = some (k, profile)
  rw [number, List.take_left' six, List.drop_left' six, mapM_of_map_some transmit, mapM_of_map_some receive]
  simp only [Option.bind_eq_bind, Option.bind_some, tableOf_cells]

theorem loadProfileRule_ok {body : List Byte} {k : ProfileNo} {profile : Profile}
    (h : profileFields body = some (k, profile)) (codes : profile.transmit.cells.Nodup)
    (free : s.profileInUse k = false) :
    loadProfileRule body s = ({ s with profiles := s.profiles.set k profile }, ⟨.ok, []⟩) := by
  unfold loadProfileRule
  rw [h]
  dsimp only
  rw [if_neg (by simpa using codes), free]
  rfl

/-- Settles O43: the body reads as the profile, and no group with a member names it. -/
theorem profilesAreLoaded : Obligations.ProfilesAreLoaded := by
  intro s p tag b k codes map profile admits admin number six sixteen transmit receive distinct unused
  have fields := profileFields_of_codes number six transmit receive
  have free : s.profileInUse k = false := by
    rw [← Bool.not_eq_true, profileInUse_iff]
    rintro ⟨g, c, config, named, members⟩
    exact members (unused g c config named)
  obtain ⟨u, e, answered, apart⟩ := admin_apart (tag := tag) (code := .loadProfile) (body := b :: codes ++ map)
    (answer := []) (w := { s with profiles := s.profiles.set k profile }) admits admin
    (by simp [six, sixteen, bodyLength])
    (fun P c => loadProfileRule_ok (s := withPorts P c s) fields distinct free) rfl rfl
  exact ⟨u, by rw [exec_loadProfile, e, built_apart apart rfl rfl], answered, apart⟩

/-! ## A scrub visit -/

theorem takeScrubVisit_due (h : s.scrub.timer = some 0) : takeScrubVisit s = scrubVisit s := if_pos h

/-- What the visit leaves of the state that its check left. -/
theorem scrubVisit_of_checked {t : State} (h : s.checked s.scrub.cursor none id = t) (scrub : t.scrub = s.scrub) :
    scrubVisit s =
      { t with scrub := { s.scrub with cursor := s.scrub.cursor + 1, timer := load s.scrub.interval } } := by
  unfold scrubVisit
  rw [h]
  dsimp only
  rw [scrub]

/-- Settles O56: a storage error by its definition, a scrub visit by the three outcomes of its check. -/
theorem checksCorrectOrLoseTheRecord : Obligations.ChecksCorrectOrLoseTheRecord := by
  refine ⟨fun s n bits => rfl, ?_⟩
  rintro s n due rfl
  have visit {t : State} (h : s.checked s.scrub.cursor none id = t) (scrub : t.scrub = s.scrub) :
      takeScrubVisit s =
        { t with scrub := { s.scrub with cursor := s.scrub.cursor + 1, timer := load s.scrub.interval } } := by
    rw [takeScrubVisit_due due, scrubVisit_of_checked h scrub]
  refine ⟨fun clean => ?_, fun b single => ?_, fun a b double => ?_⟩
  · rw [exec_scrubVisit, event_quiet (visit (checked_clean clean) rfl) rfl rfl]
    rfl
  · rw [exec_scrubVisit, event_quiet (visit (checked_single single) rfl) rfl rfl]
    rfl
  · have lost : Lost s.scrub.cursor none s (s.loseRecord s.scrub.cursor none) := loseRecord_lost
    obtain ⟨-, -, -, -, -, -, -, -, -, scrub, -⟩ := lost.frame
    exact ⟨_, lost, by rw [exec_scrubVisit, event_built (visit (checked_double double) scrub)]⟩

end Sys2Proof.Machine
end

section
/-! What the operations of SET_SPAN and CLEAR_SPAN write, record by record. -/

namespace Sys2Proof.Machine

open State

variable {s t : State} {n : ChannelNo} {sp q : SpanNo} {c : Nat} {old new : SpanConfig}

/-! ## Line parts written wholesale -/

theorem emptyLines_eq : s.emptyLines sp c = { s with channels := (s.emptyLines sp c).channels } := rfl

theorem line_emptyLines : (s.emptyLines sp c).line n =
    if spanOf n = sp ∧ c ≤ (positionOf n).val then emptyLine else s.line n := by
  unfold State.emptyLines State.line State.channel
  dsimp only
  rw [Table.get_mapIdx]
  split <;> rfl

theorem channel_emptyLines : (s.emptyLines sp c).channel n =
    { s.channel n with line := (s.emptyLines sp c).line n } := by
  unfold State.line emptyLines State.channel
  dsimp only
  rw [Table.get_mapIdx]
  split <;> rfl

theorem line_clearCandidates : (s.clearCandidates sp).line n =
    if spanOf n = sp then { s.line n with candidate := none, count := 0 } else s.line n := by
  unfold State.line
  rw [clear_channel]
  split <;> rfl

theorem channel_clearCandidates : (s.clearCandidates sp).channel n =
    { s.channel n with line := (s.clearCandidates sp).line n } := by
  unfold State.line
  rw [clear_channel]
  split <;> rfl

/-! ## A span configured, and a span cleared -/

theorem configureSpan_eq : s.configureSpan sp new = { s with
    spans := s.spans.set sp { powerOnSpan with config := some new, state := .starting, silence := load new.silence }
    link := { s.link with
      spans := s.link.spans.set sp ⟨.tabulate fun k => k.val < new.count, false, 0⟩ } } := by
  have config : (((s.modSpan sp fun _ => { powerOnSpan with
      config := some new, state := .starting, silence := load new.silence }).modLinkSpan sp
        fun _ => powerOnLinkSpan).span sp).config = some new := by
    show ((s.modSpan sp _).span sp).config = _
    rw [span_modSpan, if_pos rfl]
  unfold configureSpan allDirty
  rw [config]
  dsimp only
  unfold modLinkSpan
  dsimp only
  rw [Table.update_update]
  rfl

theorem clearSpan_eq : s.clearSpan sp = { s with
    channels := (s.clearSpan sp).channels
    spans := s.spans.set sp powerOnSpan
    link := { s.link with spans := s.link.spans.set sp powerOnLinkSpan } } := rfl

theorem span_configureSpan : (s.configureSpan sp new).span q =
    if q = sp then { powerOnSpan with config := some new, state := .starting, silence := load new.silence }
    else s.span q := by
  rw [configureSpan_eq]
  exact span_set

theorem channels_configureSpan : (s.configureSpan sp new).channels = s.channels := by
  rw [configureSpan_eq]

theorem span_clearSpan : (s.clearSpan sp).span q = if q = sp then powerOnSpan else s.span q := by
  rw [clearSpan_eq]
  exact Table.get_set ..

theorem channel_clearSpan : (s.clearSpan sp).channel n =
    if spanOf n = sp then { s.channel n with line := emptyLine } else s.channel n := by
  unfold clearSpan
  rw [channel_emptyLines, line_emptyLines]
  simp only [Nat.zero_le, and_true]
  split <;> rfl

theorem line_clearSpan : (s.clearSpan sp).line n = if spanOf n = sp then emptyLine else s.line n := by
  unfold State.line
  rw [channel_clearSpan]
  split <;> rfl

/-! ## A configured span that takes a new configuration -/

/-- A configured span with its new configuration and the dirty set that goes with it; no line part is written yet. -/
def State.respanned (sp : SpanNo) (old new : SpanConfig) (s : State) : State :=
  (s.modSpan sp fun r => { r with config := some new }).modLinkSpan sp fun l =>
    { l with dirty := l.dirty.mapIdx (s.dirtyAfter sp old new) }

theorem channels_trans {u : State} (h : t = { s with channels := t.channels })
    (k : u = { t with channels := u.channels }) : u = { s with channels := u.channels } := by
  rw [h] at k
  exact k

/-- The line parts of a span that takes a new configuration. -/
def State.relined (sp : SpanNo) (old new : SpanConfig) (s : State) : State :=
  let t := if new.count < old.count then s.emptyLines sp new.count else s
  if new.depth < old.depth then t.clearCandidates sp else t

theorem relined_eq : s.relined sp old new = { s with channels := (s.relined sp old new).channels } := by
  unfold State.relined
  dsimp only
  split <;> split
  · exact channels_trans emptyLines_eq clear_eq
  · exact clear_eq
  · exact emptyLines_eq
  · rfl

theorem replaceSpan_respanned : s.replaceSpan sp old new =
    { s.respanned sp old new with channels := (s.replaceSpan sp old new).channels } :=
  relined_eq (s := s.respanned sp old new)

theorem replaceSpan_eq : s.replaceSpan sp old new = { s with
    channels := (s.replaceSpan sp old new).channels
    spans := (s.replaceSpan sp old new).spans
    link := { s.link with spans := (s.replaceSpan sp old new).link.spans } } := by
  rw [replaceSpan_respanned]
  rfl

theorem linkSpan_replaceSpan : (s.replaceSpan sp old new).linkSpan q =
    if q = sp then { s.linkSpan sp with dirty := (s.linkSpan sp).dirty.mapIdx (s.dirtyAfter sp old new) }
    else s.linkSpan q := by
  rw [replaceSpan_respanned]
  exact linkSpan_modLinkSpan

theorem span_replaceSpan : (s.replaceSpan sp old new).span q =
    if q = sp then { s.span sp with config := some new } else s.span q := by
  rw [replaceSpan_respanned]
  exact span_modSpan

theorem channel_replaceSpan : (s.replaceSpan sp old new).channel n =
    { s.channel n with line := (s.replaceSpan sp old new).line n } := by
  show ((s.respanned sp old new).relined sp old new).channel n =
    { (s.respanned sp old new).channel n with line := ((s.respanned sp old new).relined sp old new).line n }
  unfold State.relined
  dsimp only
  split <;> split
  · rw [channel_clearCandidates, channel_emptyLines]
  · exact channel_clearCandidates
  · exact channel_emptyLines
  · rfl

theorem line_emptyLines_if {k : Nat} : (if c < k then s.emptyLines sp c else s).line n =
    if spanOf n = sp ∧ c < k ∧ c ≤ (positionOf n).val then emptyLine else s.line n := by
  by_cases lowered : c < k <;> simp [lowered, line_emptyLines]

theorem line_clearCandidates_if {p : Prop} [Decidable p] : (if p then s.clearCandidates sp else s).line n =
    if spanOf n = sp ∧ p then { s.line n with candidate := none, count := 0 } else s.line n := by
  by_cases cleared : p <;> simp [cleared, line_clearCandidates]

/-- The line part that a new configuration leaves: empty from a lowered channel count up, and without its candidate
below a lowered depth (R103, R25, R26). -/
theorem line_replaceSpan {old new : SpanConfig} : (s.replaceSpan sp old new).line n =
    if spanOf n = sp ∧ new.count < old.count ∧ new.count ≤ (positionOf n).val then emptyLine
    else if spanOf n = sp ∧ new.depth < old.depth then { s.line n with candidate := none, count := 0 }
    else s.line n := by
  show ((s.respanned sp old new).relined sp old new).line n = _
  have same : (s.respanned sp old new).line n = s.line n := rfl
  unfold State.relined
  dsimp only
  rw [line_clearCandidates_if, line_emptyLines_if, same]
  by_cases emptied : spanOf n = sp ∧ new.count < old.count ∧ new.count ≤ (positionOf n).val
  · rw [if_pos emptied, if_pos emptied]
    exact ite_self _
  · rw [if_neg emptied, if_neg emptied]

end Sys2Proof.Machine
end

section
/-! A frozen span keeps its stable codes (O59): most commands keep it still in every operation (`Holds`), and the others
end the freeze or write no stable code at a position that the span still has. -/

namespace Sys2Proof.Machine

open State

variable {s t u d : State} {n : ChannelNo} {sp : SpanNo}

/-- The channels and the spans are as they were: all that the freeze of a span speaks of. -/
def LineSideSame (s t : State) : Prop := t.channels = s.channels ∧ t.spans = s.spans

/-- No stable code changed. -/
def StablesSame (s t : State) : Prop := ∀ n, (t.line n).stable = (s.line n).stable

/-- A span that was frozen with no code waiting, and is frozen now, kept the stable code of channel n, unless n's
position is no longer below the channel count (R24). -/
def KeepsStable (n : ChannelNo) (s t : State) : Prop :=
  isFrozen (s.span (spanOf n)).state = true → NoneHanded s (spanOf n) → isFrozen (t.span (spanOf n)).state = true →
    (∀ c, (t.span (spanOf n)).config = some c → (positionOf n).val < c.count) →
    (t.line n).stable = (s.line n).stable

/-! ## What leaves the line side as it was -/

theorem LineSideSame.refl (s : State) : LineSideSame s s := ⟨rfl, rfl⟩

theorem LineSideSame.trans (h : LineSideSame s t) (k : LineSideSame t u) : LineSideSame s u :=
  ⟨k.1.trans h.1, k.2.trans h.2⟩

theorem LineSideSame.respond {p tag status body} : LineSideSame s (s.respond p tag status body) :=
  ⟨respond_channels _, respond_spans _⟩

theorem LineSideSame.event {f : State → State} : LineSideSame (f s) (Sys2Proof.Machine.event f s) :=
  ⟨event_channels _, event_spans _⟩

theorem LineSideSame.answering {p tag} {rule : State → State × Answer} :
    LineSideSame (rule s).1 (Sys2Proof.Machine.answering p tag rule s) := .respond

/-- A request leaves the line side as it was, or reaches its own rule in a state of that line side. -/
theorem requestArrives_lineSide {p k} {taken : State → State} :
    LineSideSame s (s.requestArrives p k taken) ∨
    ∃ d, LineSideSame s d ∧ s.requestArrives p k taken = taken d := by
  have driven : LineSideSame s (s.driveSdo p k) := ⟨driveSdo_channels _, driveSdo_spans _⟩
  unfold requestArrives
  split
  · exact .inl (.refl s)
  · split
    · exact .inl driven
    · exact .inr ⟨_, driven, rfl⟩
    · exact .inr ⟨_, driven, rfl⟩

theorem serve_lineSide {p tag code body permitted} {go : State → State} :
    LineSideSame s (serve p tag code body permitted go s) ∨
    ∃ d, LineSideSame s d ∧ serve p tag code body permitted go s = go d := by
  unfold serve
  rcases requestArrives_lineSide (s := s) (p := p) (k := 4 + body.length) with h | ⟨d, same, e⟩
  · exact .inl h
  rw [e]
  (repeat' split)
  · exact .inl (same.trans .respond)
  · exact .inl (same.trans .respond)
  · exact .inl (same.trans .respond)
  · exact .inl (same.trans .respond)
  · exact .inl (same.trans .respond)
  · exact .inr ⟨d, same, rfl⟩

/-! ## The rules of the freeze -/

namespace KeepsStable

theorem of_holds (h : Holds s t) : KeepsStable n s t := fun frozen none _ _ => (h.still n frozen none).2.2

theorem of_thawed (h : isFrozen (t.span (spanOf n)).state = false) : KeepsStable n s t :=
  fun _ _ frozen => absurd frozen (by simp [h])

theorem of_stablesSame (h : Holds s t) (k : StablesSame t u) : KeepsStable n s u :=
  fun frozen none _ _ => (k n).trans (h.still n frozen none).2.2

theorem of_lineSide (h : LineSideSame s t) : KeepsStable n s t := fun _ _ _ _ => by
  unfold State.line State.channel
  rw [h.1]

theorem congr (before : LineSideSame s d) (after : LineSideSame t u) (h : KeepsStable n d t) : KeepsStable n s u := by
  unfold KeepsStable NoneHanded State.line State.channel State.span at *
  rw [before.1, before.2] at h
  rw [after.1, after.2]
  exact h

theorem event {f : State → State} (h : KeepsStable n s (f s)) : KeepsStable n s (Sys2Proof.Machine.event f s) :=
  h.congr (.refl s) .event

theorem serve {p tag code body permitted} {go : State → State} (h : ∀ d, KeepsStable n d (go d)) :
    KeepsStable n s (Sys2Proof.Machine.serve p tag code body permitted go s) := by
  rcases serve_lineSide (s := s) (p := p) (tag := tag) (code := code) (body := body) (permitted := permitted)
    (go := go) with same | ⟨d, same, e⟩
  · exact of_lineSide same
  · rw [e]
    exact (h d).congr same (.refl _)

theorem request {p tag code body permitted} {rule : State → State × Answer} (h : ∀ d, KeepsStable n d (rule d).1) :
    KeepsStable n s (Sys2Proof.Machine.event (Sys2Proof.Machine.serve p tag code body permitted
      (Sys2Proof.Machine.answering p tag rule)) s) :=
  event (serve fun d => (h d).congr (.refl d) .answering)

end KeepsStable

/-! ## An accepted report -/

namespace StablesSame

theorem refl (s : State) : StablesSame s s := fun _ => rfl

theorem trans (h : StablesSame s t) (k : StablesSame t u) : StablesSame s u := fun n => (k n).trans (h n)

theorem of_channels (h : t.channels = s.channels) : StablesSame s t := fun _ => by
  unfold State.line State.channel
  rw [h]

theorem clearCandidates : StablesSame s (s.clearCandidates sp) := fun _ => by
  rw [line_clearCandidates]
  split <;> rfl

theorem enterService : StablesSame s (s.enterService sp) := by
  unfold State.enterService
  dsimp only
  have served : StablesSame s (s.modSpan sp fun r => { r with state := .inService, faultRun := 0, cleanRun := 0 }) :=
    of_channels rfl
  have told {v : State} : StablesSame v ((v.generate sp upNotice).tellSpan sp .spanRestored) :=
    of_channels (tellSpan_channels _)
  split
  · exact served.trans clearCandidates
  · exact served.trans told
  all_goals exact (served.trans clearCandidates).trans told

theorem failFromService {cause : FailureCause} : StablesSame s (s.failFromService sp cause) :=
  of_channels (tellSpan_channels _)

theorem evaluate {c : SpanConfig} {faulty : Bool} : StablesSame s (s.evaluate sp c faulty) := by
  have modified {f : SpanRecord → SpanRecord} : StablesSame s (s.modSpan sp f) := of_channels rfl
  unfold State.evaluate
  dsimp only
  split
  · exact refl s
  · exact modified
  · split
    · exact enterService
    · exact modified
  · split
    · exact failFromService
    · exact modified
  · exact refl s
  · split
    · exact failFromService
    · exact modified
  · exact enterService
  · exact refl s
  · split
    · exact enterService
    · exact modified
  · exact modified
  · split
    · exact enterService
    · exact modified

theorem trackFarAlarm {c : SpanConfig} {carried : Bool} : StablesSame s (s.trackFarAlarm sp c carried) := by
  have modified {f : SpanRecord → SpanRecord} : StablesSame s (s.modSpan sp f) := of_channels rfl
  have told {f : SpanRecord → SpanRecord} {r} : StablesSame s ((s.modSpan sp f).tellSpan sp r) :=
    of_channels (tellSpan_channels _)
  unfold State.trackFarAlarm
  dsimp only
  split
  · split
    · exact told
    · exact modified
  · split
    · exact told
    · exact modified
  · exact modified
  · exact modified

theorem handCodes {codes : List LineCode} : StablesSame s (s.handCodes sp codes) := by
  unfold State.handCodes
  split
  · exact of_channels rfl
  · exact of_channels rfl
  all_goals exact refl s

theorem acceptReport {c : SpanConfig} {sequence : Byte} {flags : ReportFlags} {codes : List LineCode} :
    StablesSame s (s.acceptReport sp c sequence flags codes) := by
  unfold State.acceptReport
  dsimp only
  refine (StablesSame.trans ?_ evaluate).trans (trackFarAlarm.trans handCodes)
  split
  · exact (of_channels rfl).trans clearCandidates
  · exact of_channels rfl

end StablesSame

/-! ## The commands that can end a freeze, or that write line parts of a frozen span -/

namespace KeepsStable

theorem clearFaults {body} : KeepsStable n s (clearFaultsRule body s).1 := by
  unfold clearFaultsRule
  split
  · split
    · exact of_lineSide ⟨rfl, rfl⟩
    · exact of_lineSide ⟨rfl, rfl⟩
  · exact of_lineSide ⟨rfl, rfl⟩

/-- A span that is configured into STARTING is frozen no more; at the others nothing changed. -/
theorem configureSpan {c : SpanConfig} : KeepsStable n s (s.configureSpan sp c) := by
  by_cases at_span : spanOf n = sp
  · exact of_thawed (by rw [span_configureSpan, if_pos at_span]; rfl)
  · intro _ _ _ _
    unfold State.line State.channel
    rw [channels_configureSpan]

/-- A new configuration takes the stable codes from its channel count up, and no other. -/
theorem replaceSpan {old new : SpanConfig} (h : Holds s t) : KeepsStable n s (t.replaceSpan sp old new) := by
  intro frozen none _ below
  rw [← (h.still n frozen none).2.2, line_replaceSpan, if_neg]
  · split <;> rfl
  · rintro ⟨at_span, -, above⟩
    have := below new (by rw [span_replaceSpan, if_pos at_span])
    omega

theorem setSpan {body} : KeepsStable n s (setSpanRule body s).1 := by
  unfold setSpanRule
  split
  · exact of_holds .refuse
  · dsimp only
    split
    · exact configureSpan
    · split
      · exact of_holds .refuse
      · exact replaceSpan .takeHanded

/-- A cleared span is UNUSED; at the others nothing but the codes that waited was written. -/
theorem clearSpan (h : Holds s t) : KeepsStable n s (t.clearSpan sp) := by
  by_cases at_span : spanOf n = sp
  · exact of_thawed (by rw [span_clearSpan, if_pos at_span]; rfl)
  · intro frozen none _ _
    rw [line_clearSpan, if_neg at_span, (h.still n frozen none).2.2]

theorem clearSpanRequest {body} : KeepsStable n s (clearSpanRule body s).1 := by
  unfold clearSpanRule
  split
  · split
    · exact of_holds .refuse
    · split
      · exact of_holds .refuse
      · split
        · exact of_holds .refuse
        · exact clearSpan .takeHanded
  · exact of_holds .refuse

/-- A restart leaves every span STARTING or UNUSED. -/
theorem restart {p tag} : KeepsStable n s (s.beginRestart p tag) := by
  refine of_thawed ?_
  rw [beginRestart_eq, restartFrom_span]
  dsimp only
  split <;> rfl

theorem checkedMessage {m : List Byte} : KeepsStable n s (s.checkedMessage m) := by
  unfold State.checkedMessage
  split
  · split
    · exact of_holds .report
    · split
      · exact of_holds .report
      · split
        · exact of_holds .reportSpan
        · split
          · exact of_holds .reportSpan
          · exact of_stablesSame .takeHanded .acceptReport
  · exact of_holds (.refl s)

theorem messageArrives {m : List Byte} : KeepsStable n s (s.messageArrives m) := by
  unfold State.messageArrives
  split
  · exact of_holds (.refl s)
  · split
    · exact of_holds .report
    · exact checkedMessage

theorem powerOnReset : KeepsStable n s (Sys2Proof.Machine.powerOnReset s) :=
  of_thawed (by rw [span_powerOnReset]; rfl)

end KeepsStable

/-! ## Every command -/

/-- Every command keeps the stable codes of a frozen span. -/
theorem exec_keepsStable (c : Instr) (s : State) (n : ChannelNo) : ∃ t, exec c s = .next t ∧ KeepsStable n s t := by
  have lift {t} (h : Holds s t) (e : exec c s = .next t) : ∃ t, exec c s = .next t ∧ KeepsStable n s t :=
    ⟨t, e, .of_holds h⟩
  have around := Holds.around
  cases c with
  | powerOnReset => exact ⟨_, rfl, .powerOnReset⟩
  | clearFaults => exact ⟨_, rfl, .request fun _ => .clearFaults⟩
  | setSpan => exact ⟨_, rfl, .request fun _ => .setSpan⟩
  | clearSpan => exact ⟨_, rfl, .request fun _ => .clearSpanRequest⟩
  | restart => exact ⟨_, rfl, .event (.serve fun _ => .restart)⟩
  | spanReport => exact ⟨_, rfl, .event .messageArrives⟩
  | timebaseStep => exact lift Holds.timebase rfl
  | responseRead => exact lift Holds.readAtPort rfl
  | badFrame => exact lift Holds.badFrame rfl
  | overrun => exact lift Holds.overrun rfl
  | hunt => exact lift (around.request fun _ => Holds.hunt) rfl
  | seize => exact lift (around.request fun _ => Holds.seize) rfl
  | accept => exact lift (around.request fun _ => Holds.accept) rfl
  | answer => exact lift (around.request fun _ => Holds.atTarget fun _ => Holds.answer) rfl
  | release => exact lift (around.request fun _ => Holds.atTarget fun _ => Holds.release) rfl
  | block => exact lift (around.request fun _ => Holds.atChannel fun _ => Holds.blockLocally) rfl
  | unblock => exact lift (around.request fun _ => Holds.atChannel fun _ => Holds.unblock) rfl
  | resetChannel => exact lift (around.request fun _ => Holds.atChannel fun _ => Holds.reset) rfl
  | drain => exact lift (around.request fun _ => Holds.drain) rfl
  | undrain => exact lift (around.request fun _ => Holds.undrain) rfl
  | readChannel => exact lift (around.request fun _ => Holds.atTarget fun _ => Holds.readChannel) rfl
  | readGroup => exact lift (around.request fun _ => Holds.readGroup) rfl
  | readSpan => exact lift (around.request fun _ => Holds.readSpan) rfl
  | nextAttention => exact lift (around.request fun _ => Holds.nextAttention) rfl
  | readFaults => exact lift (around.request fun _ => Holds.readFaults) rfl
  | equip => exact lift (around.request fun _ => Holds.equip) rfl
  | unequip => exact lift (around.request fun _ => Holds.atChannel fun _ => Holds.unequip) rfl
  | setGroup => exact lift (around.request fun _ => Holds.setGroup) rfl
  | deleteGroup => exact lift (around.request fun _ => Holds.deleteGroup) rfl
  | loadProfile => exact lift (around.request fun _ => Holds.loadProfile) rfl
  | setFaultClass => exact lift (around.request fun _ => Holds.setFaultClass) rfl
  | setPort => exact lift (around.request fun _ => Holds.setPort) rfl
  | setDevice => exact lift (around.request fun _ => Holds.setDevice) rfl
  | transfer => exact lift (around.event (around.serve fun _ enabled _ admin => Holds.transfer enabled admin)) rfl
  | restartCompletion => exact lift Holds.takeRestartCompletion rfl
  | positionIntegration => exact lift (Holds.event Holds.integrate) rfl
  | rehunt => exact lift (Holds.event Holds.rehunt) rfl
  | spanDown => exact lift (Holds.event (Holds.takeNotice fun _ => Holds.spanDownEffect)) rfl
  | spanUp => exact lift (Holds.event (Holds.takeNotice fun _ => Holds.spanUpEffect)) rfl
  | downUp =>
    exact lift (Holds.event (Holds.takeNotice fun _ => Holds.spanDownEffect.trans Holds.spanUpEffect)) rfl
  | guardExpiry => exact lift (Holds.event Holds.expireGuard) rfl
  | proceedTimeout => exact lift (Holds.event Holds.expireProceed) rfl
  | answerTimeout => exact lift (Holds.event Holds.expireAnswer) rfl
  | offerTimeout => exact lift (Holds.event Holds.expireOffer) rfl
  | releaseStuck => exact lift (Holds.event Holds.expireRelease) rfl
  | autoReleased => exact lift (Holds.event Holds.expireFarClear) rfl
  | silenceExpiry => exact lift (Holds.event Holds.expireSilence) rfl
  | purgeVisit => exact lift Holds.purgeVisit rfl
  | sweepVisit => exact lift Holds.sweepVisit rfl
  | scrubVisit => exact lift (Holds.event Holds.scrubVisit) rfl
  | refreshExpiry => exact lift (Holds.event Holds.refresh) rfl
  | endOfSending => exact lift Holds.sendingEnds rfl
  | faultOccurrence => exact lift Holds.takeReported rfl
  | storageError => exact lift Holds.storage rfl
  | rstNRise => exact lift Holds.rise rfl

/-- No code waits at a frozen span (R21, R176). -/
theorem noneHanded_of_frozen (h : HandedInService s) (frozen : isFrozen (s.span sp).state = true) :
    NoneHanded s sp := by
  intro p
  rw [← Option.not_isSome_iff_eq_none]
  intro waits
  obtain ⟨-, starting | serving⟩ := h sp p waits
  · rw [starting] at frozen
    cases frozen
  · rw [serving] at frozen
    cases frozen

/-- Settles O59: a step is a command of the queue, or idles. -/
theorem freezeKeepsStableCodes : Obligations.FreezeKeepsStableCodes := by
  intro s t n handed e before after below
  have none := noneHanded_of_frozen handed before
  unfold step at e
  split at e
  · cases e
    rfl
  · next c rest _ =>
    obtain ⟨u, eu, keeps⟩ := exec_keepsStable c { s with pending := rest } n
    rw [e] at eu
    cases eu
    exact keeps before none after below

end Sys2Proof.Machine
end

section
/-! One position takes its code (O18): the cases of R22 and R23, one lemma for each, and what an adoption that raises a
change does with a record whose bits are in error. -/

namespace Sys2Proof.Machine

open State

variable {s t u : State} {n : ChannelNo} {x : LineCode} {l : LinePart} {c : SpanConfig}

/-! ## A code taken brings about no build -/

/-- An update pending does not depend on the codes that wait. -/
theorem gains_lineTaken (link : u.link = s.link) (spans : u.spans = (s.lineTaken n l).spans) : s.gains u = false := by
  have record (sp) : (u.span sp).config = (s.span sp).config ∧ (u.span sp).state = (s.span sp).state := by
    unfold State.span
    rw [spans]
    unfold State.lineTaken
    dsimp only
    rw [Table.get_update]
    split
    · next e => rw [e]; exact ⟨rfl, rfl⟩
    · exact ⟨rfl, rfl⟩
  unfold gains
  rw [List.any_eq_false]
  intro sp _
  obtain ⟨config, state⟩ := record sp
  have pending : u.updatePending sp = s.updatePending sp := by
    unfold updatePending alarmRequest linkSpan
    rw [config, state, link]
  rw [pending]
  simp

theorem built_lineTaken (link : u.link = s.link) (spans : u.spans = (s.lineTaken n l).spans) : s.built u = u := by
  unfold built
  rw [gains_lineTaken link spans]
  rfl

theorem exec_lineTaken (h : s.integrate n = s.lineTaken n l) :
    exec (.positionIntegration n) s = .next (s.lineTaken n l) := by
  have unbuilt : s.built (s.lineTaken n l) = s.lineTaken n l := built_lineTaken (n := n) (l := l) rfl rfl
  rw [exec_positionIntegration, event_built h, unbuilt]

/-! ## The cases of one position -/

/-- The position's code is taken from those that wait. -/
def State.uncoded (n : ChannelNo) (s : State) : State :=
  s.modSpan (spanOf n) fun r => { r with handed := r.handed.set (positionOf n) none }

theorem integrate_takes (handed : (s.span (spanOf n)).handed.get (positionOf n) = some x)
    (config : (s.span (spanOf n)).config = some c) : s.integrate n = (s.uncoded n).takeCode n x c.depth := by
  unfold integrate
  rw [handed, config]
  rfl

theorem takeCode_stable {d} (h : (s.line n).stable = some x) :
    s.takeCode n x d = s.setLine n { s.line n with candidate := none, count := 0 } := if_pos h

theorem takeCode_again {d} (other : (s.line n).stable ≠ some x) (again : (s.line n).candidate = some x)
    (short : (s.line n).count + 1 ≠ d) :
    s.takeCode n x d = s.setLine n { s.line n with count := (s.line n).count + 1 } := by
  unfold takeCode
  dsimp only
  rw [if_neg other, if_pos again, if_neg short]

theorem takeCode_new {d} (other : (s.line n).stable ≠ some x) (new : (s.line n).candidate ≠ some x) (deep : d ≠ 1) :
    s.takeCode n x d = s.setLine n { s.line n with candidate := some x, count := 1 } := by
  unfold takeCode
  dsimp only
  rw [if_neg other, if_neg new, if_neg deep]

theorem adopt_unequipped (h : s.equipped n = false) :
    s.adopt n x = s.setLine n ⟨some x, none, 0, (s.line n).received⟩ := if_neg (by simp [h])

theorem raisesChange_eq_false {before : Option Received} {after : Received}
    (h : before = none ∧ after = .is .free ∨ before = some after) : raisesChange before after = false := by
  rcases h with ⟨rfl, rfl⟩ | rfl <;> simp [raisesChange]

theorem adopt_unchanged (h : s.equipped n = true)
    (same : (s.line n).received = none ∧ s.meaning n x = .is .free ∨ (s.line n).received = some (s.meaning n x)) :
    s.adopt n x = s.setLine n ⟨some x, none, 0, some (s.meaning n x)⟩ := by
  unfold adopt
  dsimp only
  rw [if_pos h, raisesChange_eq_false same]
  rfl

/-! ## The check before a condition change -/

theorem adopted_channel_errors : ((s.adopted n x).channel n).errors = (s.channel n).errors := by
  unfold State.adopted
  rw [lineTaken_channel, if_pos rfl]

theorem State.Raises.corrected {r : Received} (h : s.Raises n x r) : (s.corrected n none).Raises n x r := by
  unfold State.Raises State.Adopts State.equipped State.groupOf at *
  rw [corrected_line, corrected_equipment, meaning_corrected]
  exact h

/-- Settles O18: the cases of R22 and R23, and the check of the record before a change. -/
theorem positionsIntegrateOneCode : Obligations.PositionsIntegrateOneCode := by
  refine ⟨fun s n x r raises => ?_, fun s n x c handed config => ⟨fun stable => ?_, fun other again short => ?_,
    fun other new deep => ?_, fun adopts => ⟨fun unequipped => ?_, fun equipped same => ?_⟩⟩⟩
  · refine checksFirst (fun t => exec_positionIntegration t) (fun b single => ?_) fun a b double => ?_
    · rw [integrate_raises raises, integrate_raises raises.corrected, adopted_corrected,
        checked_single (adopted_channel_errors.trans single), checked_clean corrected_errors]
    · rw [integrate_raises raises, checked_double (adopted_channel_errors.trans double)]
  · refine exec_lineTaken ?_
    rw [integrate_takes handed config]
    exact takeCode_stable stable
  · refine exec_lineTaken ?_
    rw [integrate_takes handed config]
    exact takeCode_again other again short
  · refine exec_lineTaken ?_
    rw [integrate_takes handed config]
    exact takeCode_new other new deep
  · refine exec_lineTaken ?_
    rw [integrate_adopts adopts]
    exact adopt_unequipped unequipped
  · refine exec_lineTaken ?_
    rw [integrate_adopts adopts]
    exact adopt_unchanged equipped same

end Sys2Proof.Machine
end

section
/-! Condition changes that leave the call part as it is (O24): a change to INVALID, one out of sequence, and one that
the state takes in silence. -/

namespace Sys2Proof.Machine

open State

variable {s : State} {n : ChannelNo} {c : Condition}

/-- The state reports the condition out of sequence, and does nothing else with it. -/
def OutOfSequence (s : State) (n : ChannelNo) (c : Condition) : Prop :=
  (s.call n).state = .idle ∧ (c ∈ [.proceed, .answer, .clear] ∨
    c = .seize ∧ (s.equipment n).direction = .outgoingOnly) ∨
  (s.call n).state = .outSeized ∧ c = .clear ∨
  (s.call n).state = .outWaitAnswer ∧ c ∈ [.seize, .proceed] ∨
  (s.call n).state ∈ [.inSeized, .inAlerting, .connected] ∧ c ∈ [.seize, .proceed, .answer] ∨
  (s.call n).state = .blocked ∧ (c ∈ [.proceed, .answer, .clear] ∨
    c = .seize ∧ (s.call n).flags.remote = false ∨ c = .block ∧ (s.call n).flags.remote = true)

/-- The state takes the condition in silence. -/
def TakenInSilence (s : State) (n : ChannelNo) (c : Condition) : Prop :=
  (s.call n).state ∈ [.unequipped, .guard, .clearingRemote, .fault .span, .fault .record, .fault .release] ∨
  (s.call n).state = .clearingLocal ∧ c ∈ [.seize, .proceed, .answer, .block] ∨
  (s.call n).state ∈ [.idle, .outSeized] ∧ c = .free ∨
  (s.call n).state = .blocked ∧ c = .free ∧ (s.call n).flags.remote = false

theorem conditionChange_outOfSequence (h : OutOfSequence s n c) :
    s.conditionChange n (.is c) = s.reportChannel .sequence n := by
  unfold conditionChange
  rcases h with ⟨state, h⟩ | ⟨state, rfl⟩ | ⟨state, h⟩ | ⟨state, h⟩ | ⟨state, h⟩
  · rw [state]
    simp only [List.mem_cons, List.not_mem_nil, or_false] at h
    rcases h with (rfl | rfl | rfl) | ⟨rfl, outgoing⟩
    · rfl
    · rfl
    · rfl
    · exact if_pos outgoing
  · rw [state]
    rfl
  · rw [state]
    simp only [List.mem_cons, List.not_mem_nil, or_false] at h
    rcases h with rfl | rfl <;> rfl
  · simp only [List.mem_cons, List.not_mem_nil, or_false] at state h
    rcases state with state | state | state <;> rw [state] <;> rcases h with rfl | rfl | rfl <;> rfl
  · rw [state]
    simp only [List.mem_cons, List.not_mem_nil, or_false] at h
    dsimp only
    unfold changeInBlocked
    rcases h with (rfl | rfl | rfl) | ⟨rfl, remote⟩ | ⟨rfl, remote⟩
    · rfl
    · rfl
    · rfl
    · simp [remote]
    · simp [remote]

theorem conditionChange_silent (h : TakenInSilence s n c) : s.conditionChange n (.is c) = s := by
  unfold conditionChange
  rcases h with state | ⟨state, h⟩ | ⟨state, rfl⟩ | ⟨state, rfl, remote⟩
  · simp only [List.mem_cons, List.not_mem_nil, or_false] at state
    rcases state with state | state | state | state | state | state <;> rw [state]
  · rw [state]
    simp only [List.mem_cons, List.not_mem_nil, or_false] at h
    rcases h with rfl | rfl | rfl | rfl <;> rfl
  · simp only [List.mem_cons, List.not_mem_nil, or_false] at state
    rcases state with state | state <;> rw [state] <;> rfl
  · rw [state]
    dsimp only
    unfold changeInBlocked
    simp [remote]

/-- A change that leaves the link and the spans as the adoption left them brings about no build. -/
theorem exec_brings_quiet {x : LineCode} {r : Received} {u : State} (brings : s.Brings n x r)
    (change : (s.adopted n x).conditionChange n r = u) (link : u.link = s.link)
    (spans : u.spans = (s.adopted n x).spans) : exec (.positionIntegration n) s = .next u := by
  rw [exec_brings brings, change, built_lineTaken link spans]

/-- Settles O24: what the adoption leaves of the call part is read before it; the line side changes no more after it. -/
theorem otherConditionsLeaveTheCall : Obligations.OtherConditionsLeaveTheCall := by
  intro s n x
  have call := adopted_call (s := s) (n := n) (x := x) n
  refine ⟨fun brings => exec_brings_quiet brings ?_ rfl rfl, fun c brings h => exec_brings_quiet brings ?_ rfl rfl,
    fun c brings h => exec_brings_quiet brings ?_ rfl rfl⟩
  · show (s.adopted n x).changeToInvalid n = _
    unfold changeToInvalid
    rw [adopted_callPort, ← call]
    rfl
  · have change : OutOfSequence (s.adopted n x) n c := by
      unfold OutOfSequence
      rw [call, adopted_equipment]
      exact h
    rw [conditionChange_outOfSequence change, ← call]
    rfl
  · have change : TakenInSilence (s.adopted n x) n c := by
      unfold TakenInSilence
      rw [call]
      exact h
    exact conditionChange_silent change

end Sys2Proof.Machine
end

section
/-! SET_SPAN and CLEAR_SPAN (O37, O38): a request that takes the codes that wait at a span and then writes the span. -/

namespace Sys2Proof.Machine

open State

variable {s : State} {sp : SpanNo} {old new fields : SpanConfig} {body : List Byte}
  {P : Table PortRecord 4} {k : Nat}

/-! ## The operations and the drawn values -/

theorem configureSpan_withPorts : (withPorts P k s).configureSpan sp new = withPorts P k (s.configureSpan sp new) := by
  rw [configureSpan_eq, configureSpan_eq]
  rfl

theorem clearSpan_withPorts : (withPorts P k s).clearSpan sp = withPorts P k (s.clearSpan sp) := rfl

theorem relined_withPorts : (withPorts P k s).relined sp old new = withPorts P k (s.relined sp old new) := by
  unfold State.relined
  dsimp only
  split <;> split <;> rfl

theorem replaceSpan_withPorts :
    (withPorts P k s).replaceSpan sp old new = withPorts P k (s.replaceSpan sp old new) :=
  relined_withPorts (s := s.respanned sp old new)

/-! ## The rules -/

theorem setSpanRule_unused (h : spanFields body = some (sp, fields)) (config : (s.span sp).config = none) :
    setSpanRule body s =
      accepted (s.configureSpan sp { fields with maintenance := s.redirect fields.maintenance }) := by
  unfold setSpanRule
  rw [h]
  dsimp only
  rw [config]

theorem setSpanRule_configured (h : spanFields body = some (sp, fields)) (config : (s.span sp).config = some old)
    (free : fields.count = old.count ∨ s.anyEquipped sp = false) :
    setSpanRule body s =
      accepted ((s.takeHanded sp).replaceSpan sp old
        { fields with maintenance := s.redirect fields.maintenance }) := by
  unfold setSpanRule
  rw [h]
  dsimp only
  rw [config]
  refine if_neg ?_
  rintro ⟨count, equipped⟩
  rcases free with same | unequipped
  · exact count same
  · rw [unequipped] at equipped
    cases equipped

theorem clearSpanRule_ok {b : Byte} (h : spanField b = some sp) (config : (s.span sp).config ≠ none)
    (free : s.anyEquipped sp = false) : clearSpanRule [b] s = accepted ((s.takeHanded sp).clearSpan sp) := by
  unfold clearSpanRule
  dsimp only
  rw [h]
  dsimp only
  rw [if_neg (by simpa using config), if_neg (by simp [free])]

/-! ## The fields -/

theorem rangeField_of {lowest highest : Nat} {b : Byte} (h : lowest ≤ b.toNat ∧ b.toNat ≤ highest) :
    rangeField lowest highest b = some b.toNat := if_pos h

theorem spanFields_of {b c d a b' hi lo fill m : Byte} {x : LineCode} {p : PortNo} (span : spanField b = some sp)
    (count : 1 ≤ c.toNat ∧ c.toNat ≤ 32) (depth : 1 ≤ d.toNat ∧ d.toNat ≤ 7) (set : 1 ≤ a.toNat) (clear : 1 ≤ b'.toNat)
    (silence : 1 ≤ (millisField hi lo).toNat ∧ (millisField hi lo).toNat ≤ 1000) (code : codeField fill = some x)
    (port : portField m = some p) :
    spanFields [b, c, d, a, b', hi, lo, fill, m] =
      some (sp, ⟨c.toNat, d.toNat, a.toNat, b'.toNat, millisField hi lo, x, p⟩) := by
  have one_char (v : Byte) : v.toNat ≤ 255 := Nat.le_of_lt_succ v.isLt
  have quiet : silenceField hi lo = some (millisField hi lo) := if_pos silence
  unfold spanFields
  simp only [span, rangeField_of count, rangeField_of depth, rangeField_of ⟨set, one_char a⟩,
    rangeField_of ⟨clear, one_char b'⟩, quiet, code, port, Option.bind_eq_bind, Option.bind_some]

theorem length_of_spanFields (h : spanFields body = some (sp, fields)) : body.length = 9 := by
  unfold spanFields at h
  split at h
  · rfl
  · cases h

theorem load_of_pos {w : Nat} {v : BitVec w} (h : 1 ≤ v.toNat) : load v = some v := by
  refine if_neg fun e => ?_
  rw [e] at h
  simp at h

/-! ## The requests -/

/-- An administrator's request whose rule takes the codes that wait at a span and then writes it with `write`. -/
theorem exec_admin_takes {c : Instr} {p : PortNo} {tag : Byte} {code : RequestCode} {rule : State → State × Answer}
    {write : State → State}
    (he : exec c s = .next (event (serve p tag code body (permitAdmin p) (answering p tag rule)) s))
    (admits : s.Admits p) (admin : (s.port p).admin = true) (length : body.length = bodyLength code)
    (main : ∀ P k, rule (withPorts P k s) = accepted (write ((withPorts P k s).takeHanded sp)))
    (commutes : ∀ P k t, write (withPorts P k t) = withPorts P k (write t)) :
    ∃ t u, CodesTaken (· = sp) s t ∧ exec c s = .next (s.built u) ∧ Answered p tag .ok [] s u ∧
      s.apart u = write t := by
  have same (t : State) : (write t).ports = t.ports ∧ (write t).freeCount = t.freeCount :=
    ports_of_withPorts commutes
  obtain ⟨u, e, answered, t, taken, apart⟩ := request_draws (tag := tag) (permitted := permitAdmin p) (rule := rule)
    (status := .ok) (answer := []) (R := fun w => ∃ t, CodesTaken (· = sp) s t ∧ w = write t) admits
    (fun d a _ _ => by unfold permitAdmin; rw [a]; exact admin) length (.inl rfl) (fun P c => by
      obtain ⟨t, k, taken, e⟩ := takeHanded_driven (s := s) (P := P) (c := c) (sp := sp)
      obtain ⟨-, -, -, -, -, -, -, -, ports, -, free⟩ := taken.frame
      refine ⟨write t, k, ?_, (same t).1.trans ports, (same t).2.trans free, t, taken, rfl⟩
      rw [main, e, commutes]
      rfl)
  exact ⟨t, u, taken, by rw [he, e], answered, apart⟩

/-- Settles O37: an UNUSED span is written whole, and a cleared one after its codes are taken. -/
theorem spansAreConfiguredAndCleared : Obligations.SpansAreConfiguredAndCleared := by
  refine fun s p tag admits admin => ⟨fun b0 c d a b hi lo fill q sp x m span count depth set clear silence code port
    unused => ?_, fun b sp span used free => ?_⟩
  · have fields := spanFields_of span count depth set clear silence code port
    obtain ⟨u, e, answered, apart⟩ := admin_apart (tag := tag) (code := .setSpan) (answer := [])
      (body := [b0, c, d, a, b, hi, lo, fill, q]) (rule := setSpanRule _)
      (w := s.configureSpan sp ⟨c.toNat, d.toNat, a.toNat, b.toNat, millisField hi lo, x, s.redirect m⟩)
      admits admin rfl (fun P k => by
        rw [setSpanRule_unused fields (s := withPorts P k s) unused, configureSpan_withPorts]
        rfl) (by rw [configureSpan_eq]) (by rw [configureSpan_eq])
    refine ⟨u, by rw [exec_setSpan, e], answered, ?_⟩
    rw [apart, configureSpan_eq, load_of_pos silence.1]
    rfl
  · obtain ⟨t, u, taken, e, answered, apart⟩ := exec_admin_takes (write := State.clearSpan sp) (body := [b])
      (exec_clearSpan s) admits admin rfl
      (fun P k => clearSpanRule_ok (s := withPorts P k s) span used free) (fun P k t => clearSpan_withPorts)
    refine ⟨t, u, taken, e, answered, fun n => ?_, ?_⟩
    · rw [apart, channel_clearSpan]
      rfl
    · have channels : u.channels = (t.clearSpan sp).channels := by rw [← apart]; rfl
      rw [apart, channels, clearSpan_eq]
      rfl

/-- Settles O38: the codes are taken, and the span, its line parts and its dirty set are written anew. -/
theorem spansAreReconfigured : Obligations.SpansAreReconfigured := by
  intro s p tag body sp fields old admits admin read config free
  obtain ⟨t, u, taken, e, answered, apart⟩ := exec_admin_takes (sp := sp)
    (write := State.replaceSpan sp old { fields with maintenance := s.redirect fields.maintenance })
    (exec_setSpan s) admits admin (length_of_spanFields read)
    (fun P k => setSpanRule_configured (s := withPorts P k s) read config free) (fun P k t => replaceSpan_withPorts)
  obtain ⟨within, -⟩ := taken.frame
  have equipped (n) : t.equipped n = s.equipped n := congrArg (·.group.isSome) (within.equipment n)
  refine ⟨t, u, _, taken, e, answered, apart, fun n => ?_, ?_, fun k other => ?_, fun k => ?_, ?_, fun k other => ?_,
    replaceSpan_eq⟩
  · rw [channel_replaceSpan, line_replaceSpan]
    rfl
  · rw [span_replaceSpan, if_pos rfl]
  · rw [span_replaceSpan, if_neg other]
  · rw [linkSpan_replaceSpan, if_pos rfl]
    dsimp only
    rw [Table.get_mapIdx]
    unfold dirtyAfter
    rw [equipped]
    simp [or_assoc]
  · rw [linkSpan_replaceSpan, if_pos rfl]
  · rw [linkSpan_replaceSpan, if_neg other]

end Sys2Proof.Machine
end

section
/-! An accepted report moves its span (O51): each of its steps writes the span's record, clears candidates or not, adds
reasons and reports occurrences, and such steps compose. -/

namespace Sys2Proof.Machine

open State

variable {s t u : State} {sp : SpanNo} {c : SpanConfig} {sequence : Byte} {n : ChannelNo}

/-! ## Steps that write one span -/

/-- The span's record became r, and the candidates of its positions were cleared if so said; these reasons were added
and these occurrences reported, and nothing else changed. -/
structure SpanWritten (sp : SpanNo) (r : SpanRecord) (cleared : Bool)
    (adds : List (PortNo × AttentionObject × Reason)) (occurrences : List Occurrence) (s u : State) : Prop where
  spans : u.spans = s.spans.set sp r
  channel : ∀ n, u.channel n = if spanOf n = sp ∧ cleared = true then
    { s.channel n with line := { s.line n with candidate := none, count := 0 } } else s.channel n
  told : Told adds s u
  reported : Reported occurrences s u
  frame : u = { s with channels := u.channels, spans := u.spans, lists := u.lists, faults := u.faults }

namespace SpanWritten

variable {r q : SpanRecord} {cleared more : Bool} {adds adds' : List (PortNo × AttentionObject × Reason)}
  {occurrences occurrences' : List Occurrence}

theorem span (h : SpanWritten sp r cleared adds occurrences s u) : u.span sp = r := by
  unfold State.span
  rw [h.spans, Table.get_set_same]

theorem span_other (h : SpanWritten sp r cleared adds occurrences s u) {k : SpanNo} (other : k ≠ sp) :
    u.span k = s.span k := by
  unfold State.span
  rw [h.spans, Table.get_set_other _ _ other]

theorem equipped (h : SpanWritten sp r cleared adds occurrences s u) (n : ChannelNo) : u.equipped n = s.equipped n := by
  unfold State.equipped State.groupOf State.equipment
  rw [h.channel]
  split <;> rfl

theorem trans (h : SpanWritten sp r cleared adds occurrences s t) (k : SpanWritten sp q more adds' occurrences' t u) :
    SpanWritten sp q (cleared || more) (adds ++ adds') (occurrences ++ occurrences') s u where
  spans := by
    rw [k.spans, h.spans]
    exact Table.update_update s.spans sp (fun _ => r) fun _ => q
  channel n := by
    have line : t.line n = (t.channel n).line := rfl
    rw [k.channel, line, h.channel]
    by_cases at_span : spanOf n = sp
    · cases cleared <;> simp [at_span, State.line]
    · simp [at_span]
  told := h.told.append k.told
  reported := by
    have first := h.reported
    have second := k.reported
    unfold Reported at *
    rw [second, first, List.append_assoc]
  frame := by
    rw [k.frame, h.frame]

theorem modSpan {f : SpanRecord → SpanRecord} : SpanWritten sp (f (s.span sp)) false [] [] s (s.modSpan sp f) where
  spans := rfl
  channel n := by simp; rfl
  told := told_nil rfl
  reported := by
    unfold Reported
    rw [List.append_nil]
    rfl
  frame := rfl

theorem refl : SpanWritten sp (s.span sp) false [] [] s s := by
  have h := SpanWritten.modSpan (s := s) (sp := sp) (f := id)
  unfold State.modSpan at h
  rw [Table.update_id _ _ rfl] at h
  exact h

theorem report {o : Occurrence} : SpanWritten sp (s.span sp) false [] [o] s (s.report o) where
  spans := (Table.set_get _ _).symm
  channel n := by simp; rfl
  told := told_nil rfl
  reported := rfl
  frame := rfl

theorem clearCandidates : SpanWritten sp (s.span sp) true [] [] s (s.clearCandidates sp) where
  spans := by
    rw [clearCandidates_spans]
    exact (Table.set_get _ _).symm
  channel n := by rw [clear_channel]; simp
  told := told_nil (clearCandidates_lists s)
  reported := by
    unfold Reported
    rw [clearCandidates_faults, List.append_nil]
  frame := by
    rw [clearCandidates_spans, clearCandidates_lists, clearCandidates_faults]
    exact clear_eq

end SpanWritten

theorem Evaluated.spanWritten {state : SpanState} {f k : Nat} {cleared : Bool} {notice : Notice → Notice}
    {adds : List (PortNo × AttentionObject × Reason)} {occurrences : List Occurrence}
    (h : Evaluated sp state f k cleared notice adds occurrences s u) :
    SpanWritten sp { s.span sp with
      state := state, faultRun := f, cleanRun := k
      notices := (s.span sp).notices.mapIdx fun k x => if s.equipped (channelAt sp k) = true then notice x else x }
      cleared adds occurrences s u := by
  obtain ⟨spans, channel, told, reported, frame⟩ := h
  exact ⟨spans, channel, told, reported, frame⟩

/-! ## The steps of an accepted report -/

theorem hasGap_eq : s.hasGap sp sequence = (s.span sp).lastSequence.any fun l => sequence ≠ l + 1 := by
  unfold hasGap
  cases (s.span sp).lastSequence <;> rfl

/-- A report before it is evaluated: its sequence, the silence timer, and the gap if there is one (R175, R105). -/
def State.sequenced (sp : SpanNo) (c : SpanConfig) (sequence : Byte) (s : State) : State :=
  let t := if s.hasGap sp sequence then s.reportSpan .lineGap sp else s
  let t := t.modSpan sp fun r => { r with lastSequence := some sequence, silence := load c.silence }
  if s.hasGap sp sequence then t.clearCandidates sp else t

theorem acceptReport_eq {flags : ReportFlags} {codes : List LineCode} : s.acceptReport sp c sequence flags codes =
    (((s.sequenced sp c sequence).evaluate sp c flags.faulty).trackFarAlarm sp c flags.farAlarm).handCodes sp codes :=
  rfl

theorem sequenced_written : SpanWritten sp
    { s.span sp with lastSequence := some sequence, silence := load c.silence } (s.hasGap sp sequence) []
    (if s.hasGap sp sequence then [⟨.lineGap, some sp, none, none, none, none⟩] else []) s
    (s.sequenced sp c sequence) := by
  have stamped (v : State) := SpanWritten.modSpan (s := v) (sp := sp)
    (f := fun r => { r with lastSequence := some sequence, silence := load c.silence })
  unfold State.sequenced
  dsimp only
  cases s.hasGap sp sequence with
  | false => exact stamped s
  | true =>
    have gap := SpanWritten.report.trans (stamped (s.reportSpan .lineGap sp))
    have cleared := SpanWritten.clearCandidates (sp := sp) (s := (s.reportSpan .lineGap sp).modSpan sp
      fun r => { r with lastSequence := some sequence, silence := load c.silence })
    rw [gap.span] at cleared
    exact gap.trans cleared

theorem trackFarAlarm_written {r : SpanRecord} {v : State} {farAdds : List (PortNo × AttentionObject × Reason)}
    (spans : v.spans = s.spans.set sp r) (told : Told farAdds s v)
    (frame : v = { s with spans := v.spans, lists := v.lists }) : SpanWritten sp r false farAdds [] s v where
  spans := spans
  channel n := by
    rw [frame]
    simp
    rfl
  told := told
  reported := by
    unfold Reported
    rw [frame, List.append_nil]
  frame := by
    rw [frame]

theorem handCodes_written {codes : List LineCode} : SpanWritten sp
    { s.span sp with handed :=
        if (s.span sp).state = .starting ∨ (s.span sp).state = .inService then .tabulate fun p => codes[p.val]?
        else (s.span sp).handed } false [] [] s (s.handCodes sp codes) := by
  have handed := SpanWritten.modSpan (s := s) (sp := sp)
    (f := fun r => { r with handed := .tabulate fun p => codes[p.val]? })
  unfold handCodes
  cases (s.span sp).state with
  | starting =>
    rw [if_pos (.inl rfl)]
    exact handed
  | inService =>
    rw [if_pos (.inr rfl)]
    exact handed
  | unused | suspect | failed | recovering =>
    rw [if_neg (by simp)]
    exact .refl

/-! ## The message -/

/-- A well-formed report of a configured span is accepted, once the codes that wait have been taken (R174). -/
theorem messageArrives_report {flags : Byte} {chars : List Byte} (high : s.rstN = true) (running : s.restart = none)
    (config : (s.span sp).config = some c) (length : chars.length = c.count) (few : c.count ≤ 32) :
    s.messageArrives (withCrc16 ([0x52#8, BitVec.ofNat 8 sp.val, sequence, flags, BitVec.ofNat 8 c.count] ++ chars)) =
      (s.takeHanded sp).acceptReport sp c sequence (reportFlags flags) (chars.map codeOfChar) := by
  have passes : lineCrcPasses (withCrc16 ([0x52#8, BitVec.ofNat 8 sp.val, sequence, flags, BitVec.ofNat 8 c.count] ++
      chars)) = true := lineCrc_withCrc (by simp)
  have span_char : (BitVec.ofNat 8 sp.val).toNat = sp.val := by
    rw [BitVec.toNat_ofNat]
    omega
  have count_char : (BitVec.ofNat 8 c.count).toNat = c.count := by
    rw [BitVec.toNat_ofNat]
    omega
  unfold messageArrives
  rw [high, running, passes]
  unfold withCrc16
  generalize crc : chars2 _ = check
  have two : check.length = 2 := by rw [← crc]; rfl
  show s.checkedMessage (0x52#8 :: BitVec.ofNat 8 sp.val :: sequence :: flags :: BitVec.ofNat 8 c.count ::
    (chars ++ check)) = _
  unfold checkedMessage
  dsimp only
  rw [if_neg (by decide), span_char, numbered_val]
  dsimp only
  rw [config]
  dsimp only
  rw [count_char, if_neg (by simp [length, two]; omega), ← length, List.take_left]

/-- The same step where the drawn counter of the state before it is another. -/
theorem SpanWritten.withFreeCount {r : SpanRecord} {cleared : Bool} {adds : List (PortNo × AttentionObject × Reason)}
    {occurrences : List Occurrence} {k : Nat} (h : SpanWritten sp r cleared adds occurrences s u) :
    (∀ n, u.channel n = if spanOf n = sp ∧ cleared = true then
      { ({ s with freeCount := k } : State).channel n with
        line := { ({ s with freeCount := k } : State).line n with candidate := none, count := 0 } }
      else ({ s with freeCount := k } : State).channel n) ∧
    Told adds { s with freeCount := k } u ∧ Reported occurrences { s with freeCount := k } u ∧
    u = { s with
      freeCount := u.freeCount, channels := u.channels, spans := u.spans, lists := u.lists, faults := u.faults } := by
  refine ⟨h.channel, h.told, h.reported, ?_⟩
  conv_lhs => rw [h.frame]
  rw [h.frame]

/-- Settles O51: the report is taken in, evaluated, tracked and handed on; each step writes the span. -/
theorem acceptedReportsMoveTheSpan : Obligations.AcceptedReportsMoveTheSpan := by
  intro s sp sequence flags chars c state faultRun cleanRun cleared notice adds occurrences farAlarm farRun farAdds
    high running config length few r faulty gap tells stays fails serves restored table far
  have taken := codesTaken_takeHanded (s := s) (sp := sp)
  obtain ⟨within, -⟩ := taken.frame
  have record : (s.takeHanded sp).span sp = { r with handed := .fill 32 none } := by
    rw [span_takeHanded (by rw [config]; rfl), if_pos rfl]
  have arrives := messageArrives_report (sequence := sequence) (flags := flags) high running config length few
  rw [acceptReport_eq] at arrives
  generalize s.takeHanded sp = w at *
  have gaps : w.hasGap sp sequence = gap := by rw [hasGap_eq, record]
  have begun := sequenced_written (s := w) (sp := sp) (c := c) (sequence := sequence)
  rw [gaps, record] at begun
  generalize w.sequenced sp c sequence = v at *
  have equipped (n) : v.equipped n = s.equipped n :=
    (begun.equipped n).trans (congrArg (·.group.isSome) (within.equipment n))
  have evaluated := (evaluated_evaluate (s := v) (faulty := (reportFlags flags).faulty)
    (by rw [begun.span]; exact config) begun.span table).spanWritten
  rw [begun.span] at evaluated
  simp only [equipped] at evaluated
  generalize v.evaluate sp c _ = x at *
  obtain ⟨spans, told, frame⟩ := trackFarAlarm_effect (s := x) (r := r)
    (carried := (reportFlags flags).farAlarm) (by rw [evaluated.span]; exact config)
    (by rw [evaluated.span]) (by rw [evaluated.span]) far
  have tracked := trackFarAlarm_written spans told frame
  rw [evaluated.span] at tracked
  generalize x.trackFarAlarm sp c _ = y at *
  have handed := handCodes_written (s := y) (sp := sp) (codes := chars.map codeOfChar)
  rw [tracked.span] at handed
  generalize y.handCodes sp _ = u at *
  have whole := ((begun.trans evaluated).trans tracked).trans handed
  simp only [Bool.or_false, List.nil_append, List.append_nil] at whole
  refine ⟨_, u, taken, by rw [exec_spanReport, event_built arrives], ?_, fun k other => whole.span_other other,
    whole.withFreeCount⟩
  rw [whole.span]
  simp only [List.getElem?_map]
  exact congrArg (fun x => SpanRecord.mk x _ _ _ _ _ _ _ _ _) config

end Sys2Proof.Machine
end

section
/-! A hunt chooses by the policy of its group (O9), and an accepted HUNT seizes what it chose (O10). -/

namespace Sys2Proof.Machine

open State

variable {s t : State} {g : GroupNo} {n : ChannelNo} {c : GroupConfig}

/-! ## The choice (R42, R43) -/

theorem eligible_iff (config : (s.group g).config = some c) :
    s.eligible g n = true ↔ n ∈ (s.group g).idle ∧ (s.equipment n).direction ≠ .incomingOnly ∧
      (s.span (spanOf n)).state = .inService ∧ (c.skipFarAlarm = true → (s.span (spanOf n)).farAlarm = false) := by
  have alarm : (!c.skipFarAlarm || !(s.span (spanOf n)).farAlarm) = true ↔
      (c.skipFarAlarm = true → (s.span (spanOf n)).farAlarm = false) := by
    cases c.skipFarAlarm <;> simp
  unfold eligible
  rw [config]
  simp only [Bool.and_eq_true, alarm, List.contains_iff_mem, bne_iff_ne, beq_iff_eq, and_assoc]

/-- From a cursor that stands in the list: what comes after it, then what comes before it, then the cursor itself. -/
theorem cyclicFrom_split {ahead behind : List ChannelNo} {cursor : ChannelNo} (fresh : cursor ∉ ahead) :
    cyclicFrom (some cursor) (ahead ++ cursor :: behind) = behind ++ ahead ++ [cursor] := by
  have other (m) (hm : m ∈ ahead) : decide (m ≠ cursor) = true := decide_eq_true fun e => fresh (e ▸ hm)
  have taken : (ahead ++ cursor :: behind).takeWhile (· ≠ cursor) = ahead := by
    rw [List.takeWhile_append_of_pos other, List.takeWhile_cons_of_neg (by simp), List.append_nil]
  have dropped : (ahead ++ cursor :: behind).dropWhile (· ≠ cursor) = cursor :: behind := by
    rw [List.dropWhile_append_of_pos other, List.dropWhile_cons_of_neg (by simp)]
  unfold cyclicFrom
  dsimp only
  rw [taken, dropped]
  rfl

theorem chosen_eq_find (config : (s.group g).config = some c) :
    s.chosen g = (s.huntOrder g c.policy).find? (s.eligible g ·) := by
  unfold chosen
  rw [config]

theorem chosen_eq_none_iff (config : (s.group g).config = some c) :
    s.chosen g = none ↔ ∀ n ∈ s.huntOrder g c.policy, s.eligible g n = false := by
  simp only [chosen_eq_find config, List.find?_eq_none, Bool.not_eq_true]

theorem chosen_eq_some_iff (config : (s.group g).config = some c) :
    s.chosen g = some n ↔ ∃ passed rest, s.huntOrder g c.policy = passed ++ n :: rest ∧ s.eligible g n = true ∧
      ∀ m ∈ passed, s.eligible g m = false := by
  rw [chosen_eq_find config, List.find?_eq_some_iff_append]
  constructor
  · rintro ⟨eligible, passed, rest, order, before⟩
    exact ⟨passed, rest, order, eligible, fun m hm => by simpa using before m hm⟩
  · rintro ⟨passed, rest, order, eligible, before⟩
    exact ⟨eligible, passed, rest, order, fun m hm => by simpa using before m hm⟩

/-- Settles O9: each policy's order, and the first eligible member in it. -/
theorem huntChoosesByPolicy : Obligations.HuntChoosesByPolicy := by
  refine fun s g c config => ⟨fun n => eligible_iff config, fun order policy => ?_⟩
  have same : s.huntOrder g c.policy = order := by
    rcases policy with ⟨policy, rfl⟩ | ⟨policy, rfl⟩ | ⟨policy, rfl⟩ | ⟨policy, cursor, rfl⟩ |
      ⟨policy, ahead, cursor, behind, at', fresh, members, rfl⟩ <;> rw [policy]
    · rfl
    · rfl
    · rfl
    · unfold huntOrder cyclicFrom
      rw [cursor]
    · unfold huntOrder
      dsimp only
      rw [at', members, cyclicFrom_split fresh]
  rw [← same]
  exact ⟨chosen_eq_none_iff config, fun n => chosen_eq_some_iff config⟩

/-! ## The seizure (R44, R46, R57) -/

theorem bind_withPorts {P k} {e : IndexEntry} : (withPorts P k s).bind e = withPorts P k (s.bind e) := by
  unfold State.bind
  have same : (withPorts P k s).index = s.index := rfl
  rw [same]
  split <;> rfl

theorem enterOutSeized_withPorts {P k r owner from?} :
    (withPorts P k s).enterOutSeized n r owner from? = withPorts P k (s.enterOutSeized n r owner from?) := by
  unfold enterOutSeized
  rw [leaveIdle_withPorts, writeCall_withPorts, bind_withPorts]
  rfl

theorem seizeChosen_withPorts {P k r owner from?} :
    (withPorts P k s).seizeChosen g n r owner from? = withPorts P k (s.seizeChosen g n r owner from?) := by
  unfold seizeChosen
  rw [enterOutSeized_withPorts]
  rfl

theorem huntRule_eq {p : PortNo} {b r2 r1 r0 : Byte} (hg : groupField b = some g) :
    huntRule p [b, r2, r1, r0] s = huntGroup p g (reference3 r2 r1 r0) s := by
  unfold huntRule
  dsimp only
  rw [hg]

theorem huntRule_field {p : PortNo} {b r2 r1 r0 : Byte} (hg : groupField b = none) :
    huntRule p [b, r2, r1, r0] s = refuse .badRequest s := by
  unfold huntRule
  dsimp only
  rw [hg]

/-- HUNT with the checks of R45 passed: it comes to the check of the chosen member. -/
theorem huntRule_chosen {p : PortNo} {b r2 r1 r0 : Byte} (hg : groupField b = some g)
    (config : (s.group g).config ≠ none) (drain : (s.group g).drainPort = none) (nonzero : reference3 r2 r1 r0 ≠ 0)
    (refusal : s.referenceRefusal (reference3 r2 r1 r0) = none) (chosen : s.chosen g = some n) :
    huntRule p [b, r2, r1, r0] s = checkedRule n (p, .hunt)
      (fun t => (t.seizeChosen g n (reference3 r2 r1 r0) p none, ⟨.ok, chars2 n.val⟩)) s := by
  rw [huntRule_eq hg]
  unfold huntGroup
  rw [if_neg (by simpa using config), if_neg (by simp [drain]), if_neg nonzero, refusal, chosen]

/-- Settles O10: the accepted request is `seizeChosen` beside the ports. -/
theorem huntSeizesTheChosenMember : Obligations.HuntSeizesTheChosenMember := by
  intro s p tag gb r2 r1 r0 g c n admits hg config drain nonzero unused free chosen clean
  obtain ⟨refusal, w, way⟩ := referenceRefusal_passes unused free
  have rule (P k) : huntRule p [gb, r2, r1, r0] (withPorts P k s) =
      (withPorts P k (s.seizeChosen g n (reference3 r2 r1 r0) p none), ⟨.ok, chars2 n.val⟩) := by
    rw [huntRule_chosen (s := withPorts P k s) hg (Option.ne_none_iff_exists'.2 ⟨c, config⟩) drain nonzero refusal
      chosen, checkedRule_clean (s := withPorts P k s) clean, seizeChosen_withPorts]
  obtain ⟨ports, count⟩ := ports_of_withPorts (s := s)
    (f := fun t => t.seizeChosen g n (reference3 r2 r1 r0) p none) fun _ _ _ => seizeChosen_withPorts
  obtain ⟨u, e, answered, apart⟩ := request_apart (tag := tag) (code := .hunt) (body := [gb, r2, r1, r0])
    (permitted := permitAny) admits rfl (fun _ _ _ _ => rfl) rfl (.inl rfl) rule ports count
  obtain ⟨written, marked, bound, groups, frame⟩ :=
    seizeChosen_effect (n := n) (owner := p) (loser := none) config way
  rw [← apart] at written marked bound groups frame
  refine ⟨u, by rw [exec_hunt, e], answered, written, marked, bound, groups, ?_⟩
  calc u = { s.apart u with ports := u.ports, freeCount := u.freeCount } := rfl
    _ = _ := by rw [frame]; rfl

end Sys2Proof.Machine
end

section
/-! HUNT, SEIZE and ACCEPT (O15) and the maintenance requests (O32) are refused by the first check that fails. -/

namespace Sys2Proof.Machine

open State

variable {s d : State} {p : PortNo} {tag : Byte} {status : Status} {n : ChannelNo} {g : GroupNo} {r : Reference}

/-- An admitted request with its permission, whose rule refuses it. -/
theorem exec_refused {c : Instr} {code : RequestCode} {body : List Byte} {permitted : State → Bool}
    {rule : State → State × Answer}
    (he : exec c s = .next (event (serve p tag code body permitted (answering p tag rule)) s)) (admits : s.Admits p)
    (permit : ∀ d, (d.port p).admin = (s.port p).admin → d.groups = s.groups → d.channels = s.channels →
      permitted d = true)
    (length : body.length = bodyLength code) (main : ∀ P k, rule (withPorts P k s) = refuse status (withPorts P k s)) :
    ∃ t, exec c s = .next t ∧ Refused p tag status s t := by
  obtain ⟨t, e, refused⟩ := request_refused (tag := tag) (rule := rule) admits permit length
    fun d ⟨P, k, driven⟩ => by rw [driven]; exact main P k
  exact ⟨t, by rw [he, e], refused⟩

/-- The checks of R124 as they stand in the chains of R45, R55 and R66. -/
theorem referenceRefusal_eq : s.referenceRefusal r =
    if s.entryOf r ≠ none then some .refInUse
    else if ∀ w, (s.index.get (setOf r)).get w ≠ none then some .refSetFull
    else none := by
  have full : (freeWay (s.index.get (setOf r))).isNone = true ↔ ∀ w, (s.index.get (setOf r)).get w ≠ none := by
    unfold freeWay
    simp [List.find?_eq_none]
  unfold referenceRefusal
  simp only [full, Option.isSome_iff_ne_none]

/-! ## The checks of the call requests -/

theorem seizeRule_eq {hi lo r2 r1 r0 : Byte} (hn : channelField hi lo = some n) :
    seizeRule p [hi, lo, r2, r1, r0] s = seizeChannel p n (reference3 r2 r1 r0) s := by
  unfold seizeRule
  dsimp only
  rw [hn]

theorem seizeRule_field {hi lo r2 r1 r0 : Byte} (hn : channelField hi lo = none) :
    seizeRule p [hi, lo, r2, r1, r0] s = refuse .badRequest s := by
  unfold seizeRule
  dsimp only
  rw [hn]

theorem acceptRule_eq {hi lo r2 r1 r0 : Byte} (hn : channelField hi lo = some n) :
    acceptRule p [hi, lo, r2, r1, r0] s = acceptChannel p n (reference3 r2 r1 r0) s := by
  unfold acceptRule
  dsimp only
  rw [hn]

theorem acceptRule_field {hi lo r2 r1 r0 : Byte} (hn : channelField hi lo = none) :
    acceptRule p [hi, lo, r2, r1, r0] s = refuse .badRequest s := by
  unfold acceptRule
  dsimp only
  rw [hn]

/-- R45. -/
theorem huntGroup_refused
    (h : (if (s.group g).config = none then some .badRequest
      else if (s.group g).drainPort ≠ none then some .groupDraining
      else if r = 0 then some .badRequest
      else if s.entryOf r ≠ none then some .refInUse
      else if ∀ w, (s.index.get (setOf r)).get w ≠ none then some .refSetFull
      else if s.chosen g = none then some .noChannel
      else none) = some status) : huntGroup p g r s = refuse status s := by
  unfold huntGroup
  rw [referenceRefusal_eq]
  split_ifs at h with absent drains zero used full unchosen <;> cases h
  · rw [if_pos (by simp [absent])]
  · rw [if_neg (by simpa using absent), if_pos (Option.isSome_iff_ne_none.2 drains)]
  · rw [if_neg (by simpa using absent), if_neg (by simpa using drains), if_pos zero]
  · rw [if_neg (by simpa using absent), if_neg (by simpa using drains), if_neg zero, if_pos used]
  · rw [if_neg (by simpa using absent), if_neg (by simpa using drains), if_neg zero, if_neg used, if_pos full]
  · rw [if_neg (by simpa using absent), if_neg (by simpa using drains), if_neg zero, if_neg used, if_neg full, unchosen]

/-- R55, checks 2 to 9. -/
theorem seizeChannel_refused
    (h : (match s.groupOf n with
      | none => some .notEquipped
      | some g =>
        if r = 0 then some .badRequest
        else if (s.group g).drainPort ≠ none then some .groupDraining
        else if s.entryOf r ≠ none then some .refInUse
        else if ∀ w, (s.index.get (setOf r)).get w ≠ none then some .refSetFull
        else if (s.span (spanOf n)).state ≠ .inService then some .spanDown
        else if (s.channel n).errors ≠ [] then none
        else if (s.call n).state ≠ .idle ∨ (s.equipment n).direction = .incomingOnly then some .wrongState
        else none) = some status) : seizeChannel p n r s = refuse status s := by
  cases member : s.groupOf n with
  | none =>
    rw [member] at h
    cases h
    unfold seizeChannel
    rw [member]
  | some g =>
    rw [member] at h
    unfold seizeChannel
    rw [referenceRefusal_eq, member]
    dsimp only at h ⊢
    split_ifs at h with zero drains used full down errors wrong <;> cases h
    · rw [if_pos zero]
    · rw [if_neg zero, if_pos (Option.isSome_iff_ne_none.2 drains)]
    · rw [if_neg zero, if_neg (by simpa using drains), if_pos used]
    · rw [if_neg zero, if_neg (by simpa using drains), if_neg used, if_pos full]
    · rw [if_neg zero, if_neg (by simpa using drains), if_neg used, if_neg full]
      exact if_pos down
    · rw [if_neg zero, if_neg (by simpa using drains), if_neg used, if_neg full]
      dsimp only
      rw [if_neg down, checkedRule_clean (not_not.1 errors)]
      exact if_neg fun right => wrong.elim (fun state => state right.1) right.2

/-- R66, checks 2 to 7. -/
theorem acceptChannel_refused
    (h : (if s.equipped n = false then some .notEquipped
      else if (s.channel n).errors ≠ [] then none
      else if (s.call n).state ≠ .inSeized then some .wrongState
      else if r = 0 then some .badRequest
      else if s.entryOf r ≠ none then some .refInUse
      else if ∀ w, (s.index.get (setOf r)).get w ≠ none then some .refSetFull
      else none) = some status) : acceptChannel p n r s = refuse status s := by
  unfold acceptChannel
  split_ifs at h with free errors wrong zero used full <;> cases h
  · rw [free]
    rfl
  all_goals
    rw [if_neg (by simpa using free), checkedRule_clean (not_not.1 errors), referenceRefusal_eq]
  · rw [if_pos wrong]
  · rw [if_neg wrong, if_pos zero]
  · rw [if_neg wrong, if_neg zero, if_pos used]
  · rw [if_neg wrong, if_neg zero, if_neg used, if_pos full]

/-- SEIZE with checks 2 to 7 of R55 passed: it comes to the check of its channel. -/
theorem seizeChannel_checks (member : s.groupOf n = some g) (nonzero : r ≠ 0) (drain : (s.group g).drainPort = none)
    (refusal : s.referenceRefusal r = none) (up : (s.span (spanOf n)).state = .inService) :
    seizeChannel p n r s = checkedRule n (p, .seize) (fun t =>
      if (t.call n).state = .idle ∧ (t.equipment n).direction ≠ .incomingOnly then
        accepted (t.enterOutSeized n r p none)
      else refuse .wrongState t) s := by
  unfold seizeChannel
  rw [member]
  dsimp only
  rw [if_neg nonzero, if_neg (by simp [drain]), refusal]
  dsimp only
  rw [if_neg (by simp [up])]

/-- Settles O15: each refusal in the order in which its rule tests, and the check of the call part in its place. -/
theorem callRequestsAreRefusedInOrder : Obligations.CallRequestsAreRefusedInOrder := by
  refine fun s p tag hi lo r2 r1 r0 admits => ⟨fun status h => ?_, fun status h => ?_, fun status h => ?_,
    fun n hn equipped => ?_, fun nonzero unused free => ⟨fun g n hg config drain chosen => ?_,
      fun g n hn member drain up => ?_⟩⟩
  · refine exec_refused (exec_hunt s) admits (fun _ _ _ _ => rfl) rfl fun P k => ?_
    split at h
    · next field =>
      cases h
      exact huntRule_field field
    · next g hg => exact (huntRule_eq hg).trans (huntGroup_refused (s := withPorts P k s) h)
  · refine exec_refused (exec_seize s) admits (fun _ _ _ _ => rfl) rfl fun P k => ?_
    split at h
    · next field =>
      cases h
      exact seizeRule_field field
    · next n hn => exact (seizeRule_eq hn).trans (seizeChannel_refused (s := withPorts P k s) h)
  · refine exec_refused (exec_accept s) admits (fun _ _ _ _ => rfl) rfl fun P k => ?_
    split at h
    · next field =>
      cases h
      exact acceptRule_field field
    · next n hn => exact (acceptRule_eq hn).trans (acceptChannel_refused (s := withPorts P k s) h)
  · exact request_checks (fun t => exec_accept t) admits rfl (fun _ _ _ => rfl) fun d al =>
      (acceptRule_eq hn).trans (if_neg (by simp [al.equipped, equipped]))
  · obtain ⟨refusal, -⟩ := referenceRefusal_passes unused free
    exact request_checks (fun t => exec_hunt t) admits rfl (fun _ _ _ => rfl) fun d al =>
      huntRule_chosen hg (by rw [al.group]; exact config) (by rw [al.group, drain]) nonzero
        (by rw [al.referenceRefusal, refusal]) (by rw [al.chosen, chosen])
  · obtain ⟨refusal, -⟩ := referenceRefusal_passes unused free
    exact request_checks (fun t => exec_seize t) admits rfl (fun _ _ _ => rfl) fun d al =>
      (seizeRule_eq hn).trans (seizeChannel_checks (by rw [al.groupOf, member]) nonzero (by rw [al.group, drain])
        (by rw [al.referenceRefusal, refusal]) (by rw [al.span, up]))

/-! ## The checks of the maintenance requests -/

/-- A request that names a channel fails the check of range, that of equipment, or one of its own. -/
theorem atChannel_refused {rule : ChannelNo → State → State × Answer} {wrong : ChannelNo → Prop} {hi lo : Byte}
    (named : match channelField hi lo with
      | none => status = .badRequest
      | some n => s.equipped n = false ∧ status = .notEquipped ∨ s.equipped n = true ∧ wrong n ∧ status = .wrongState)
    (own : ∀ n, channelField hi lo = some n → wrong n → rule n s = refuse .wrongState s) :
    atChannel rule [hi, lo] s = refuse status s := by
  split at named
  · next hn =>
    subst named
    exact atChannel_field hn
  · next n hn =>
    rcases named with ⟨free, rfl⟩ | ⟨equipped, wrong, rfl⟩
    · exact atChannel_notEquipped hn free
    · rw [atChannel_ok hn equipped]
      exact own n hn wrong

theorem blockChannel_wrongState (clean : (s.channel n).errors = []) (flag : (s.call n).flags.locally = true) :
    blockChannel p n s = refuse .wrongState s := by
  unfold blockChannel
  rw [checkedRule_clean clean]
  exact if_pos flag

theorem unblockChannel_wrongState (clean : (s.channel n).errors = []) (flag : (s.call n).flags.locally = false) :
    unblockChannel p n s = refuse .wrongState s := by
  unfold unblockChannel
  rw [checkedRule_clean clean]
  exact if_neg (by simp [flag])

theorem resetChannelRule_wrongState (clean : (s.channel n).errors = [])
    (wrong : (s.call n).state = .fault .span ∨ (s.call n).state = .fault .record ∧ s.purgePending n = true) :
    resetChannelRule p n s = refuse .wrongState s := by
  unfold resetChannelRule
  rw [checkedRule_clean clean]
  rcases wrong with span | record
  · exact if_pos span
  · exact (if_neg (by simp [record.1])).trans (if_pos record)

/-- A check of DRAIN or UNDRAIN fails: the group's number, its existence, or that it is not draining, or is. -/
theorem drainRule_refused {b : Byte}
    (named : match groupField b with
      | none => status = .badRequest
      | some g => (s.group g).config = none ∧ status = .badRequest ∨
          (s.group g).config ≠ none ∧ (s.group g).drainPort ≠ none ∧ status = .wrongState) :
    drainRule p [b] s = refuse status s := by
  cases hg : groupField b with
  | none =>
    rw [hg] at named
    unfold drainRule
    dsimp only at named ⊢
    rw [hg, named]
  | some g =>
    rw [hg] at named
    unfold drainRule
    dsimp only at named ⊢
    rw [hg]
    rcases named with ⟨absent, rfl⟩ | ⟨exists', drains, rfl⟩
    · exact if_pos (by simp [absent])
    · exact (if_neg (by simpa using exists')).trans (if_pos (Option.isSome_iff_ne_none.2 drains))

theorem undrainRule_refused {b : Byte}
    (named : match groupField b with
      | none => status = .badRequest
      | some g => (s.group g).config = none ∧ status = .badRequest ∨
          (s.group g).config ≠ none ∧ (s.group g).drainPort = none ∧ status = .wrongState) :
    undrainRule p [b] s = refuse status s := by
  cases hg : groupField b with
  | none =>
    rw [hg] at named
    unfold undrainRule
    dsimp only at named ⊢
    rw [hg, named]
  | some g =>
    rw [hg] at named
    unfold undrainRule
    dsimp only at named ⊢
    rw [hg]
    rcases named with ⟨absent, rfl⟩ | ⟨exists', drains, rfl⟩
    · exact if_pos (by simp [absent])
    · exact (if_neg (by simpa using exists')).trans (if_pos (by simp [drains]))

/-- Settles O32: the check of the call part in its place, and each refusal in the order in which its rule tests. -/
theorem maintenanceIsRefusedInOrder : Obligations.MaintenanceIsRefusedInOrder := by
  refine fun s p tag admits => ⟨fun hi lo n hn equipped => ⟨fun permit => ?_, fun permit => ?_, fun admin => ?_⟩,
    fun hi lo status clean => ⟨fun permit named => ?_, fun permit named => ?_, fun admin named => ?_⟩,
    fun b status => ⟨fun permit named => ?_, fun permit named => ?_⟩⟩
  · exact request_checks (fun t => exec_block t) admits rfl
      (fun d al same => (al.permitChannelMaintenance same).trans permit) fun d al =>
      (atChannel_ok hn (by rw [al.equipped, equipped])).trans rfl
  · exact request_checks (fun t => exec_unblock t) admits rfl
      (fun d al same => (al.permitChannelMaintenance same).trans permit) fun d al =>
      (atChannel_ok hn (by rw [al.equipped, equipped])).trans rfl
  · exact request_checks (fun t => exec_resetChannel t) admits rfl (fun d _ same => same.trans admin) fun d al =>
      (atChannel_ok hn (by rw [al.equipped, equipped])).trans rfl
  · refine exec_refused (exec_block s) admits
      (fun d admin groups channels => (permitChannel_stable d admin groups channels).trans permit) rfl
      fun P k => ?_
    exact atChannel_refused (s := withPorts P k s) named fun n hn =>
      blockChannel_wrongState (s := withPorts P k s) (clean n hn)
  · refine exec_refused (exec_unblock s) admits
      (fun d admin groups channels => (permitChannel_stable d admin groups channels).trans permit) rfl
      fun P k => ?_
    exact atChannel_refused (s := withPorts P k s) named fun n hn =>
      unblockChannel_wrongState (s := withPorts P k s) (clean n hn)
  · refine exec_refused (exec_resetChannel s) admits (fun d same _ _ => same.trans admin) rfl
      fun P k => ?_
    exact atChannel_refused (s := withPorts P k s) named fun n hn =>
      resetChannelRule_wrongState (s := withPorts P k s) (clean n hn)
  · refine exec_refused (exec_drain s) admits
      (fun d admin groups channels => (permitGroup_stable d admin groups channels).trans permit) rfl
      fun P k => ?_
    exact drainRule_refused (s := withPorts P k s) named
  · refine exec_refused (exec_undrain s) admits
      (fun d admin groups channels => (permitGroup_stable d admin groups channels).trans permit) rfl
      fun P k => ?_
    exact undrainRule_refused (s := withPorts P k s) named

end Sys2Proof.Machine
end

section
/-! A group takes its first pending rehunt (O17). -/

namespace Sys2Proof.Machine

open State

variable {s : State} {g : GroupNo} {r : Rehunt} {rest : List Rehunt} {n : ChannelNo} {c : GroupConfig}

/-! ## The rehunt taken from its group -/

/-- The pending rehunts of the group are those given, and nothing else changed. -/
def rehuntsLeft (g : GroupNo) (rest : List Rehunt) (s : State) : State :=
  s.modGroup g fun x => { x with rehunts := rest }

theorem rehuntsLeft_group (h : GroupNo) : (rehuntsLeft g rest s).group h =
    { s.group h with rehunts := if h = g then rest else (s.group h).rehunts } := by
  unfold rehuntsLeft
  rw [group_modGroup]
  split
  · next e => rw [e]
  · rfl

theorem rehuntsLeft_sameCodes : SameCodes s (rehuntsLeft g rest s) := ⟨rfl, rfl, fun h => by rw [rehuntsLeft_group]⟩

theorem rehuntsLeft_config : (rehuntsLeft g rest s).config n = s.config n := rehuntsLeft_sameCodes.config_eq rfl

theorem rehuntsLeft_chosen : (rehuntsLeft g rest s).chosen g = s.chosen g := by
  have eligible : (rehuntsLeft g rest s).eligible g = s.eligible g := by
    funext n
    unfold State.eligible
    rw [rehuntsLeft_group]
    rfl
  unfold chosen huntOrder
  rw [eligible, rehuntsLeft_group]

theorem takeRehunt_discarded (waiting : (s.group g).rehunts = r :: rest) (discarded : r.discarded = true) :
    takeRehunt g s = rehuntsLeft g rest s := by
  unfold takeRehunt
  rw [waiting]
  exact if_pos discarded

theorem takeRehunt_eq (waiting : (s.group g).rehunts = r :: rest) (kept : r.discarded = false) :
    takeRehunt g s = if s.mayOwn r.owner = true then (rehuntsLeft g rest s).rehuntCall g r
      else (rehuntsLeft g rest s).tell r.owner r.loser .glareLost := by
  unfold takeRehunt
  rw [waiting]
  exact if_neg (by simp [kept])

/-! ## The rehunt that fails (R48, R76) -/

/-- Checks 1, 2, 4, 5 and 6 of R45, and the choice: one of them fails. -/
theorem rehuntCall_fails
    (fails : r.orphaned = true ∨ (s.group g).config = none ∨ (s.group g).drainPort ≠ none ∨
      s.entryOf r.reference ≠ none ∨ (∀ w, (s.index.get (setOf r.reference)).get w ≠ none) ∨ s.chosen g = none) :
    s.rehuntCall g r = s.tell r.owner r.loser .glareLost := by
  unfold State.rehuntCall
  dsimp only
  split
  · rfl
  · next passed =>
    simp only [Bool.or_eq_true, not_or, Option.isNone_iff_eq_none, Option.isSome_iff_ne_none] at passed
    obtain ⟨⟨orphaned, exists'⟩, drain⟩ := passed
    split
    · rfl
    · rfl
    · next n refusal chosen =>
      rw [referenceRefusal_eq] at refusal
      split_ifs at refusal with used full
      rcases fails with h | h | h | h | h | h
      · exact absurd h orphaned
      · exact absurd h exists'
      · exact absurd h drain
      · exact absurd h used
      · exact absurd h full
      · rw [h] at chosen
        cases chosen

/-- A rehunt lost before the check of a call part. -/
theorem takeRehunt_fails (waiting : (s.group g).rehunts = r :: rest) (kept : r.discarded = false)
    (fails : s.mayOwn r.owner = false ∨ r.orphaned = true ∨ (s.group g).config = none ∨
      (s.group g).drainPort ≠ none ∨ s.entryOf r.reference ≠ none ∨
      (∀ w, (s.index.get (setOf r.reference)).get w ≠ none) ∨ s.chosen g = none) :
    takeRehunt g s = (rehuntsLeft g rest s).tell r.owner r.loser .glareLost := by
  rw [takeRehunt_eq waiting kept]
  rcases fails with owner | fails
  · exact if_neg (by simp [owner])
  · split
    · refine rehuntCall_fails ?_
      rw [rehuntsLeft_group, rehuntsLeft_chosen]
      exact fails
    · rfl

/-! ## The rehunt that comes to the check of the chosen member -/

/-- The first pending rehunt of the group passes every check of R48 and R76, and its hunt chooses a member. -/
structure Rehunts (s : State) (g : GroupNo) (r : Rehunt) (rest : List Rehunt) (c : GroupConfig) (n : ChannelNo) :
    Prop where
  waiting : (s.group g).rehunts = r :: rest
  kept : r.discarded = false
  owner : s.mayOwn r.owner = true
  current : r.orphaned = false
  config : (s.group g).config = some c
  drain : (s.group g).drainPort = none
  unused : s.entryOf r.reference = none
  free : ∃ w, (s.index.get (setOf r.reference)).get w = none
  chosen : s.chosen g = some n

theorem Rehunts.corrected {found : Finder} (h : Rehunts s g r rest c n) :
    Rehunts (s.corrected n found) g r rest c n :=
  { h with chosen := (Alike.chosen .corrected g).trans h.chosen }

/-- The chosen member seized for the owner of the rehunt, who is told REHUNTED (R48, R76). -/
def seizeForRehunt (g : GroupNo) (r : Rehunt) (n : ChannelNo) (t : State) : State :=
  (t.seizeChosen g n r.reference (t.redirect r.owner) (some r.loser)).tell (t.redirect r.owner) n .rehunted

theorem takeRehunt_checks (h : Rehunts s g r rest c n) : takeRehunt g s =
    let checked := (rehuntsLeft g rest s).checkCall n none
    if checked.2 = true then seizeForRehunt g r n checked.1 else checked.1.tell r.owner r.loser .glareLost := by
  obtain ⟨refusal, -⟩ := referenceRefusal_passes (s := rehuntsLeft g rest s) h.unused h.free
  rw [takeRehunt_eq h.waiting h.kept, if_pos h.owner]
  unfold State.rehuntCall
  dsimp only
  rw [refusal, rehuntsLeft_chosen, h.chosen, rehuntsLeft_group, if_neg (by simp [h.current, h.config, h.drain])]
  dsimp only
  rcases (rehuntsLeft g rest s).checkCall n none with ⟨t, _ | _⟩ <;> rfl

theorem takeRehunt_clean (h : Rehunts s g r rest c n) (clean : (s.channel n).errors = []) :
    takeRehunt g s = seizeForRehunt g r n (rehuntsLeft g rest s) := by
  rw [takeRehunt_checks h, checkCall_clean (s := rehuntsLeft g rest s) clean]
  rfl

theorem takeRehunt_single {b : Nat} (h : Rehunts s g r rest c n) (one : (s.channel n).errors = [b]) :
    takeRehunt g s = takeRehunt g (s.corrected n none) := by
  rw [takeRehunt_clean h.corrected corrected_errors, takeRehunt_checks h,
    checkCall_single (s := rehuntsLeft g rest s) one]
  rfl

theorem takeRehunt_double {a b : Nat} (h : Rehunts s g r rest c n) (two : (s.channel n).errors = [a, b]) :
    takeRehunt g s = ((rehuntsLeft g rest s).loseRecord n none).tell r.owner r.loser .glareLost := by
  rw [takeRehunt_checks h, checkCall_double (s := rehuntsLeft g rest s) two]
  rfl

theorem seizeForRehunt_effect (h : Rehunts s g r rest c n) :
    let u := seizeForRehunt g r n (rehuntsLeft g rest s)
    CallWritten n (outSeizedCall (s.config n) r.reference (some r.loser)) s u ∧ Marked n s u ∧
    Bound ⟨r.reference, n, s.redirect r.owner⟩ s u ∧ Told [(s.redirect r.owner, .channel n, .channel .rehunted)] s u ∧
    (∀ h, u.group h = { s.group h with
      idle := if s.groupOf n = some h then (s.group h).idle.filter (· ≠ n) else (s.group h).idle
      cursor := if h = g ∧ c.policy = .rotate then some n else (s.group h).cursor
      rehunts := if h = g then rest else (s.group h).rehunts }) ∧
    u = { s with channels := u.channels, groups := u.groups, index := u.index, link := u.link, lists := u.lists } := by
  obtain ⟨-, w, way⟩ := referenceRefusal_passes h.unused h.free
  have config : ((rehuntsLeft g rest s).group g).config = some c := by rw [rehuntsLeft_group, h.config]
  obtain ⟨written, marked, bound, groups, frame⟩ := seizeChosen_effect (s := rehuntsLeft g rest s) (n := n)
    (owner := s.redirect r.owner) (loser := some r.loser) config way
  rw [rehuntsLeft_config] at written
  have seized : seizeForRehunt g r n (rehuntsLeft g rest s) = ((rehuntsLeft g rest s).seizeChosen g n r.reference
      (s.redirect r.owner) (some r.loser)).tell (s.redirect r.owner) n .rehunted := rfl
  rw [seized]
  generalize (rehuntsLeft g rest s).seizeChosen g n r.reference (s.redirect r.owner) (some r.loser) = v at *
  refine ⟨(written.after rfl).of_channels rfl, marked.after rfl rfl rehuntsLeft_sameCodes, bound, ?_, fun k => ?_, ?_⟩
  · exact Told.tell (adds := []) (told_nil (by rw [frame]; rfl))
  · refine (groups k).trans ?_
    rw [rehuntsLeft_group]
    rfl
  · rw [frame]
    rfl

/-- Settles O17: discarded, failed before the check, or by the outcome of the check of the chosen member. -/
theorem rehuntTriesOnce : Obligations.RehuntTriesOnce := by
  refine fun s g r rest waiting => ⟨fun discarded => ?_, fun kept fails => ?_,
    fun c n kept owner current config drain unused free chosen => ?_⟩
  · rw [exec_rehunt, event_quiet (takeRehunt_discarded waiting discarded) rfl rfl]
    rfl
  · rw [exec_rehunt, event_quiet (takeRehunt_fails waiting kept fails) rfl rfl]
    rfl
  have h : Rehunts s g r rest c n := ⟨waiting, kept, owner, current, config, drain, unused, free, chosen⟩
  refine ⟨fun b one => ?_, fun a b two => ⟨_, _, ?_, loseRecord_lost (s := rehuntsLeft g rest s), rfl⟩, fun clean => ?_⟩
  · rw [exec_rehunt, exec_rehunt, event_corrected (takeRehunt_single h one)]
  · rw [exec_rehunt, event_built (takeRehunt_double h two)]
    rfl
  · exact ⟨_, by rw [exec_rehunt, event_built (takeRehunt_clean h clean)], seizeForRehunt_effect h⟩

end Sys2Proof.Machine
end

section
/-! DRAIN reaches every member of its group (O33). -/

namespace Sys2Proof.Machine

open State

variable {s t u v w : State} {n : ChannelNo} {g : GroupNo} {found : Finder} {f : PortNo × RequestCode}

/-! ## The groups under the check of a member -/

/-- Of a group, its idle queue and whether its drain is reported may have changed, and nothing else. -/
def SameDrain (g : GroupNo) (s t : State) : Prop :=
  t.group g = { s.group g with idle := (t.group g).idle, drainReported := (t.group g).drainReported }

theorem SameDrain.of_groups (groups : t.groups = s.groups) : SameDrain g s t := by
  unfold SameDrain State.group
  rw [groups]

theorem SameDrain.trans (h : SameDrain g s t) (k : SameDrain g t u) : SameDrain g s u := by
  unfold SameDrain at h k ⊢
  rw [k, h]

theorem State.LeftIdle.sameDrain (h : LeftIdle n s t) : SameDrain g s t := by
  unfold SameDrain
  rw [h g]

/-- With fewer than two bits in error the check of a member leaves the groups as they were. -/
theorem State.MemberChecked.groups_eq (h : MemberChecked n found s t) (few : (s.channel n).errors.length < 2) :
    t.groups = s.groups := by
  unfold MemberChecked at h
  split at h
  · rw [h]
  · rw [h]
    rfl
  · next none one =>
    match e : (s.channel n).errors with
    | [] => exact absurd e none
    | [b] => exact absurd e (one b)
    | _ :: _ :: _ => rw [e] at few; simp at few

theorem State.MemberChecked.sameDrain (h : MemberChecked n found s t) : SameDrain g s t := by
  unfold MemberChecked at h
  split at h
  · exact .of_groups (by rw [h])
  · exact .of_groups (by rw [h]; rfl)
  · obtain ⟨-, -, -, -, groups, -⟩ := h.frame
    exact groups g

/-- After the check of a member no bit of its call part is in error. -/
theorem State.MemberChecked.errors (h : MemberChecked n found s t) : (t.channel n).errors = [] := by
  unfold MemberChecked at h
  split at h
  · next clean => rw [h, clean]
  · rw [h, corrected_errors]
  · exact h.frame.2.1

/-! ## DRAIN at one member -/

/-- What R49 leaves of a member whose check has passed. -/
def Drained (n : ChannelNo) (s t : State) : Prop :=
  if (s.call n).state = .idle then
    CallWritten n (blockedCall ⟨false, true, false⟩) s t ∧ Marked n s t ∧ LeftIdle n s t ∧
    Freed (s.call n).reference s t ∧
    t = { s with channels := t.channels, groups := t.groups, index := t.index, link := t.link }
  else
    CallWritten n { s.call n with
      flags := { (s.call n).flags with drain := true }
      transmitted := if (s.call n).state = .blocked then .is .block else (s.call n).transmitted } s t ∧
    Marked n s t ∧ t = { s with channels := t.channels, link := t.link }

theorem Drained.written (h : Drained n s t) : ∃ c, CallWritten n c s t := by
  unfold Drained at h
  split at h
  · exact ⟨_, h.1⟩
  · exact ⟨_, h.1⟩

theorem Drained.groups (h : Drained n s t) :
    SameDrain g s t ∧ (t.group g).drainReported = (s.group g).drainReported := by
  unfold Drained at h
  split at h
  · obtain ⟨-, -, left, -⟩ := h
    exact ⟨left.sameDrain, by rw [left g]⟩
  · obtain ⟨-, -, frame⟩ := h
    rw [frame]
    exact ⟨.of_groups rfl, rfl⟩

/-- DRAIN at a member whose call part has passed its check (R49). -/
def drainChecked (n : ChannelNo) (t : State) : State :=
  if (t.call n).state = .idle then t.enterBlocked n { noFlags with drain := true }
  else t.writeFlags n { (t.call n).flags with drain := true }

theorem drainMember_eq : drainMember f s n = s.checked n (some f) (drainChecked n) := rfl

theorem drainChecked_drained : Drained n s (drainChecked n s) := by
  have block (flags : BlockFlags) : blockedCondition { flags with drain := true } = .is .block := by
    unfold blockedCondition
    rw [Bool.or_true]
    rfl
  unfold Drained drainChecked
  split
  · exact endCall_effect
  · unfold writeFlags
    rw [block]
    exact ⟨writeCall_effect.1, writeCall_effect.2, writeCall_eq⟩

theorem drainMember_reaches (errors : (s.channel n).errors.length ≤ 2) :
    AtMember n (some f) (Drained n) s (drainMember f s n) :=
  checked_atMember errors fun _ => drainChecked_drained

/-! ## The walk of DRAIN -/

theorem drainMember_errors (errors : (s.channel n).errors.length ≤ 2) :
    ((drainMember f s n).channel n).errors = [] := by
  obtain ⟨w, checked, h⟩ := drainMember_reaches (f := f) errors
  split at h
  · obtain ⟨c, written⟩ := h.written
    rw [written.1]
  · rw [h]
    exact checked.errors

theorem drainMember_channel (errors : (s.channel n).errors.length ≤ 2) {m : ChannelNo} (other : m ≠ n) :
    (drainMember f s n).channel m = s.channel m :=
  (drainMember_reaches errors).onlyChannel (fun _ _ h => let ⟨_, written⟩ := h.written; written.2) m other

/-- A visit of DRAIN leaves its member with no bit in error, and the others as they were. -/
theorem drainMember_errors_le {k : Nat} (errors : (s.channel n).errors.length ≤ 2) {m : ChannelNo}
    (h : (s.channel m).errors.length ≤ k) : ((drainMember f s n).channel m).errors.length ≤ k := by
  by_cases same : m = n
  · subst same
    rw [drainMember_errors errors]
    exact Nat.zero_le k
  · rw [drainMember_channel errors same]
    exact h

theorem drainMember_sameDrain (errors : (s.channel n).errors.length ≤ 2) : SameDrain g s (drainMember f s n) := by
  obtain ⟨w, checked, h⟩ := drainMember_reaches (f := f) errors
  split at h
  · exact checked.sameDrain.trans h.groups.1
  · rw [h]
    exact checked.sameDrain

theorem drainMember_drainReported (few : (s.channel n).errors.length < 2) :
    ((drainMember f s n).group g).drainReported = (s.group g).drainReported := by
  obtain ⟨w, checked, h⟩ := drainMember_reaches (f := f) (Nat.le_of_lt few)
  rw [if_pos few] at h
  rw [h.groups.2]
  unfold State.group
  rw [checked.groups_eq few]

theorem drainMembers_sameDrain (l : List ChannelNo) (s : State) (errors : ∀ n ∈ l, (s.channel n).errors.length ≤ 2) :
    SameDrain g s (l.foldl (drainMember f) s) := by
  induction l generalizing s with
  | nil => exact .of_groups rfl
  | cons n l ih =>
    have first := errors n (List.mem_cons_self ..)
    exact (drainMember_sameDrain first).trans
      (ih _ fun m hm => drainMember_errors_le first (errors m (List.mem_cons_of_mem _ hm)))

/-- Where no record is lost, no drain is reported before the completion check. -/
theorem drainMembers_drainReported (l : List ChannelNo) (s : State)
    (few : ∀ n ∈ l, (s.channel n).errors.length < 2) :
    ((l.foldl (drainMember f) s).group g).drainReported = (s.group g).drainReported := by
  induction l generalizing s with
  | nil => rfl
  | cons n l ih =>
    have first := few n (List.mem_cons_self ..)
    rw [List.foldl_cons, ih _ fun m hm => Nat.lt_succ_of_le (drainMember_errors_le (Nat.le_of_lt first)
      (Nat.le_of_lt_succ (few m (List.mem_cons_of_mem _ hm)))), drainMember_drainReported first]

/-! ## The whole of a DRAIN -/

/-- The group is in drain for the port (R49). -/
def drainBegun (p : PortNo) (g : GroupNo) (s : State) : State :=
  s.modGroup g fun r => { r with drainPort := some p, drainReported := false }

theorem startDrain_eq {p : PortNo} : s.startDrain p g =
    ((s.group g).members.foldl (drainMember (p, .drain)) (drainBegun p g s)).drainCheck g := rfl

theorem drainMember_withPorts (P c s n) : drainMember f (withPorts P c s) n = withPorts P c (drainMember f s n) := by
  refine checked_withPorts (go := drainChecked n) fun t => ?_
  unfold drainChecked
  rw [enterBlocked_withPorts, writeFlags_withPorts]
  exact (apply_ite (withPorts P c) _ _ _).symm

theorem startDrain_withPorts {p : PortNo} (P c s) :
    (withPorts P c s).startDrain p g = withPorts P c (s.startDrain p g) :=
  (congrArg (State.drainCheck g) (foldl_withPorts drainMember_withPorts _ (drainBegun p g s))).trans
    drainCheck_withPorts

theorem drainRule_accepted {p : PortNo} {b : Byte} {c : GroupConfig} (hg : groupField b = some g)
    (exists' : (s.group g).config = some c) (idle : (s.group g).drainPort = none) :
    drainRule p [b] s = (s.startDrain p g, ⟨.ok, []⟩) := by
  unfold drainRule
  dsimp only
  rw [hg]
  dsimp only
  rw [exists', idle]
  rfl

/-- The completion check that ends a DRAIN, in the words of R51. -/
theorem drainCheck_drained {p : PortNo} (port : (v.group g).drainPort = some p) :
    let drained := !(v.group g).drainReported && (v.group g).members.all (v.outOfUse ·)
    Told (if drained then [(p, .group g, .drained)] else []) v (v.drainCheck g) ∧
    v.drainCheck g = { v with
      groups := v.groups.update g fun r => { r with drainReported := r.drainReported || drained }
      lists := (v.drainCheck g).lists } := by
  intro drained
  have ends : drainCompletes v g = drained := by
    unfold drainCompletes
    rw [port]
    rfl
  obtain ⟨group, others, told, frame⟩ := drainCheck_effect (s := v) (g := g)
  rw [ends] at group told
  rw [port] at told
  refine ⟨told, ?_⟩
  have groups : (v.drainCheck g).groups =
      v.groups.update g fun r => { r with drainReported := r.drainReported || drained } := by
    refine Table.ext_get fun h => ?_
    rw [Table.get_update]
    split
    · next same => rw [same]; exact group
    · next other => exact others h other
  rw [← groups]
  exact frame

/-- Settles O33: the walk over the members, and the completion check after it. -/
theorem drainReachesEveryMember : Obligations.DrainReachesEveryMember := by
  intro s p tag b g c admits permitted hg exists' idle errors
  obtain ⟨ports, count⟩ := ports_of_withPorts (s := s) (startDrain_withPorts (p := p) (g := g))
  have rule (P k) : drainRule p [b] (withPorts P k s) = (withPorts P k (s.startDrain p g), ⟨.ok, []⟩) := by
    rw [drainRule_accepted (s := withPorts P k s) hg exists' idle, startDrain_withPorts]
  obtain ⟨u, e, answered, apart⟩ := request_apart (tag := tag) (code := .drain) (body := [b]) admits
    permitted permitGroup_stable rfl (.inl rfl) rule ports count
  have begun : (drainBegun p g s).group g = { s.group g with drainPort := some p, drainReported := false } := by
    unfold drainBegun
    rw [group_modGroup, if_pos rfl]
  have same := drainMembers_sameDrain (f := (p, .drain)) (g := g) (s.group g).members (drainBegun p g s) errors
  have unreported := drainMembers_drainReported (f := (p, .drain)) (g := g) (s.group g).members (drainBegun p g s)
  have walk := reaches_foldl (f := drainMember (p, .drain))
    (Ready := fun l t => ∀ n ∈ l, (t.channel n).errors.length ≤ 2) (fun n l t h => ⟨drainMember_reaches
      (h n (List.mem_cons_self ..)), fun m hm => drainMember_errors_le (h n (List.mem_cons_self ..))
        (h m (List.mem_cons_of_mem _ hm))⟩) (s.group g).members (drainBegun p g s) errors
  rw [startDrain_eq] at apart
  generalize (s.group g).members.foldl (drainMember (p, .drain)) (drainBegun p g s) = v at same unreported walk apart
  unfold SameDrain at same
  rw [begun] at same unreported
  obtain ⟨told, frame⟩ := drainCheck_drained (v := v) (g := g) (p := p) (by rw [same])
  have members : (v.group g).members = (s.group g).members := by rw [same]
  rw [members, ← apart] at told frame
  exact ⟨u, v, by rw [exec_drain, e], answered, walk, unreported, same, told, frame⟩

end Sys2Proof.Machine
end

section
/-! SET_GROUP and DELETE_GROUP write the group's record (O41). -/

namespace Sys2Proof.Machine

open State

variable {s : State} {p : PortNo} {tag b : Byte} {body : List Byte} {g : GroupNo} {fields old new : GroupConfig}

theorem length_of_groupFields (h : groupFields body = some (g, fields)) : body.length = 19 := by
  unfold groupFields at h
  split at h
  · rfl
  · cases h

/-- An existing group under its new configuration, before its members are reached (R37, R38; log 28). -/
def reconfigured (g : GroupNo) (old new : GroupConfig) (s : State) : State :=
  s.modGroup g fun r => { r with config := some new, cursor := if new.policy = old.policy then r.cursor else none }

theorem setGroupRule_absent (h : groupFields body = some (g, fields)) (absent : (s.group g).config = none) :
    setGroupRule p body s =
      accepted (s.createGroup g { fields with maintenance := s.redirect fields.maintenance }) := by
  unfold setGroupRule
  rw [h]
  dsimp only
  rw [absent]

/-- SET_GROUP at a group that exists, with the check of R38 passed. -/
theorem setGroupRule_replaces (h : groupFields body = some (g, fields)) (config : (s.group g).config = some old)
    (held : fields.profile ≠ old.profile → ∀ n ∈ (s.group g).members, s.heldMember n = true) :
    setGroupRule p body s = accepted (s.replaceGroup (p, .setGroup) g old
      { fields with maintenance := s.redirect fields.maintenance }) := by
  unfold setGroupRule
  rw [h]
  dsimp only
  rw [config]
  refine if_neg fun ⟨changes, loose⟩ => ?_
  rw [List.all_eq_true.2 (held changes)] at loose
  cases loose

theorem replaceGroup_sameProfile {found : PortNo × RequestCode} (same : new.profile = old.profile) :
    s.replaceGroup found g old new = reconfigured g old new s := if_pos same

theorem deleteGroupRule_empty (h : groupField b = some g) (config : (s.group g).config ≠ none)
    (members : (s.group g).members = []) : deleteGroupRule [b] s = accepted (s.deleteGroup g) := by
  unfold deleteGroupRule
  dsimp only
  rw [h]
  dsimp only
  rw [if_neg (by simpa using config), members]
  rfl

/-- Settles O41: a group is created, reconfigured or deleted, each beside the ports. -/
theorem groupsAreWrittenAndDeleted : Obligations.GroupsAreWrittenAndDeleted := by
  refine fun s p tag admits admin => ⟨fun body g fields read => ⟨fun absent => ?_, fun old config same => ?_⟩,
    fun b g read config members => ?_⟩
  · obtain ⟨u, e, answered, apart⟩ := admin_apart (tag := tag) (code := .setGroup) (rule := setGroupRule p body)
      (w := s.createGroup g { fields with maintenance := s.redirect fields.maintenance }) admits admin
      (length_of_groupFields read) (fun P k => setGroupRule_absent (s := withPorts P k s) read absent) rfl rfl
    exact ⟨u, by rw [exec_setGroup, e], answered, apart⟩
  · obtain ⟨u, e, answered, apart⟩ := admin_apart (tag := tag) (code := .setGroup) (rule := setGroupRule p body)
      (w := reconfigured g old { fields with maintenance := s.redirect fields.maintenance } s) admits admin
      (length_of_groupFields read) (fun P k =>
        (setGroupRule_replaces (s := withPorts P k s) read config fun changes => absurd same changes).trans
          (congrArg accepted (replaceGroup_sameProfile (s := withPorts P k s) same))) rfl rfl
    exact ⟨u, by rw [exec_setGroup, e], answered, apart⟩
  · obtain ⟨u, e, answered, apart⟩ := admin_apart (tag := tag) (code := .deleteGroup) (body := [b])
      (rule := deleteGroupRule [b]) (w := s.deleteGroup g) admits admin rfl
      (fun P k => deleteGroupRule_empty (s := withPorts P k s) read config members) rfl rfl
    rw [built_apart apart rfl rfl] at e
    exact ⟨u, by rw [exec_deleteGroup, e], answered, apart⟩

end Sys2Proof.Machine
end

section
/-! A profile change is read at every member of its group (O42). -/

namespace Sys2Proof.Machine

open State

variable {s t u v w : State} {n m : ChannelNo} {g : GroupNo} {fields old new : GroupConfig} {profile : ProfileNo}
  {f : PortNo × RequestCode} {found : Finder} {p : PortNo} {tag : Byte} {body : List Byte}

/-! ## One member, its call part checked (R38 steps 2 to 4) -/

/-- What the member hears under the profile. -/
def heardUnder (profile : ProfileNo) (s : State) (n : ChannelNo) : Option Received :=
  (s.line n).stable.map fun x => (s.profiles.get profile).receive.get x.toFin

/-- The record that a member is left with: the received condition read anew, and REMOTE by it where it is BLOCKED. -/
def rereadRecord (profile : ProfileNo) (s : State) (n : ChannelNo) : ChannelRecord :=
  let heard := heardUnder profile s n
  { s.channel n with
    line := { s.line n with received := heard }
    call := if (s.call n).state = .blocked then
      { s.call n with flags := { (s.call n).flags with remote := decide (heard = some (.is .block)) } }
      else s.call n }

/-- Step 2 of R38: the received condition. -/
def hearAgain (n : ChannelNo) (w : State) : State :=
  w.setLine n { w.line n with received := w.derivedCondition n }

/-- The same record, the flags written out. -/
theorem rereadRecord_eq : rereadRecord profile s n = { s.channel n with
    line := { s.line n with received := heardUnder profile s n }
    call := { s.call n with flags := { (s.call n).flags with
      remote := if (s.call n).state = .blocked then decide (heardUnder profile s n = some (.is .block))
        else (s.call n).flags.remote } } } := by
  unfold rereadRecord
  split <;> rfl

/-- Steps 2 and 3 of R38: the received condition, and REMOTE. -/
def rereadMember (n : ChannelNo) (w : State) : State :=
  let t := hearAgain n w
  if (t.call n).state = .blocked then
    t.setCall n { t.call n with flags := { (t.call n).flags with remote := t.receivesBlock n } }
  else t

/-- Steps 2 to 4 of R38: the received condition, REMOTE, and the dirty mark. -/
def reread (old : ProfileNo) (n : ChannelNo) (w : State) : State :=
  let t := rereadMember n w
  if t.profileCode n .block ≠ (t.profiles.get old).transmit.get (conditionNo .block) then t.markDirty n else t

theorem changeProfileOf_eq : changeProfileOf f profile s n = reread profile n (s.checkCall n (some f)).1 := rfl

theorem config_of_member (member : s.groupOf n = some g) (config : (s.group g).config = some new) :
    s.config n = new := by
  unfold State.config
  rw [member]
  dsimp only
  rw [config]
  rfl

theorem derivedCondition_eq (member : s.groupOf n = some g) (config : (s.group g).config = some new) :
    s.derivedCondition n = heardUnder new.profile s n := by
  have meaning : s.meaning n = fun x => (s.profiles.get new.profile).receive.get x.toFin := by
    funext x
    unfold State.meaning
    rw [config_of_member member config]
    rfl
  unfold derivedCondition heardUnder equipped
  rw [member, meaning]
  rfl

/-- The dirty mark of step 4: where the two profiles' BLOCK codes differ. -/
def markedBetween (old new : ProfileNo) (n : ChannelNo) (s : State) : LineLink :=
  if (s.profiles.get old).transmit.get 5 = (s.profiles.get new).transmit.get 5 then s.link else (s.markDirty n).link

theorem hearAgain_effect (member : w.groupOf n = some g) (config : (w.group g).config = some new) :
    (hearAgain n w).channel n =
      { w.channel n with line := { w.line n with received := heardUnder new.profile w n } } ∧
    OnlyChannel n w (hearAgain n w) ∧ hearAgain n w = { w with channels := (hearAgain n w).channels } := by
  unfold hearAgain setLine
  rw [derivedCondition_eq member config]
  exact ⟨by rw [channel_modChannel, if_pos rfl], fun m hm => by rw [channel_modChannel, if_neg hm], rfl⟩

theorem rereadMember_effect (member : w.groupOf n = some g) (config : (w.group g).config = some new)
    (clean : (w.channel n).errors = []) :
    (rereadMember n w).channel n = rereadRecord new.profile w n ∧ OnlyChannel n w (rereadMember n w) ∧
    rereadMember n w = { w with channels := (rereadMember n w).channels } := by
  obtain ⟨record, other, frame⟩ := hearAgain_effect member config
  unfold rereadMember rereadRecord
  generalize hearAgain n w = t at record other frame
  have call : t.call n = w.call n := by
    unfold State.call
    rw [record]
  dsimp only
  rw [call]
  split
  · refine ⟨?_, fun m hm => (setCall_written.2 m hm).trans (other m hm), ?_⟩
    · rw [setCall_written.1]
      unfold receivesBlock State.line
      rw [record, clean]
      rfl
    · rw [frame]
      rfl
  · exact ⟨record, other, frame⟩

theorem reread_effect (member : w.groupOf n = some g) (config : (w.group g).config = some new)
    (clean : (w.channel n).errors = []) :
    (reread profile n w).channel n = rereadRecord new.profile w n ∧ OnlyChannel n w (reread profile n w) ∧
    (reread profile n w).link = markedBetween profile new.profile n w ∧
    reread profile n w = { w with channels := (reread profile n w).channels, link := (reread profile n w).link } := by
  obtain ⟨record, other, frame⟩ := rereadMember_effect member config clean
  unfold reread markedBetween
  generalize rereadMember n w = t at record other frame
  have groupOf : t.groupOf n = some g := by
    unfold State.groupOf State.equipment
    rw [record]
    exact member
  have code : t.profileCode n .block = (w.profiles.get new.profile).transmit.get 5 := by
    unfold profileCode
    rw [config_of_member groupOf (by rw [frame]; exact config), frame]
    rfl
  have profiles : t.profiles = w.profiles := by rw [frame]
  have mark : (t.markDirty n).link = (w.markDirty n).link :=
    markDirty_link_congr (by rw [frame]) (by rw [frame]; rfl)
  have channels : (t.markDirty n).channels = t.channels := by rw [markDirty_link_only]
  have block : conditionNo .block = 5 := rfl
  dsimp only
  rw [code, profiles, block]
  by_cases same : (w.profiles.get profile).transmit.get 5 = (w.profiles.get new.profile).transmit.get 5
  · rw [if_pos same, if_neg (not_not.2 same.symm)]
    exact ⟨record, other, by rw [frame], by rw [frame]⟩
  · rw [if_neg same, if_pos fun e => same e.symm]
    refine ⟨?_, fun m hm => ?_, mark, ?_⟩
    · unfold State.channel
      rw [channels]
      exact record
    · unfold State.channel
      rw [channels]
      exact other m hm
    · rw [markDirty_link_only, frame]

/-! ## One member -/

theorem State.MemberChecked.equipment_eq (h : MemberChecked n found s t) : t.equipment n = s.equipment n := by
  unfold MemberChecked at h
  split at h
  · rw [h]
  · rw [h, corrected_equipment]
  · exact h.frame.2.2.1

/-- With no bit in error, a member is held by a flag of this end or by a fault (R38). -/
theorem heldMember_iff (clean : (s.channel n).errors = []) : s.heldMember n = true ↔
    (s.call n).state = .blocked ∧ ((s.call n).flags.locally || (s.call n).flags.drain) = true ∨
      ∃ x, (s.call n).state = .fault x := by
  unfold heldMember
  rw [foundCall_clean clean]
  cases (s.call n).state <;> simp

theorem heldMember_corrected {b : Nat} (one : (s.channel n).errors = [b]) :
    (s.corrected n found).heldMember n = s.heldMember n := by
  unfold heldMember
  rw [foundCall_clean corrected_errors, corrected_call, foundCall_single one]

/-- A held member that has passed its check, or lost its record by it, is held. -/
theorem checkCall_held (errors : (s.channel n).errors.length ≤ 2) (equipped : s.equipped n = true)
    (held : s.heldMember n = true) : ((s.checkCall n found).1).heldMember n = true := by
  rcases e : (s.channel n).errors with _ | ⟨a, _ | ⟨b, _ | ⟨c, l⟩⟩⟩
  · rw [checkCall_clean e]
    exact held
  · rw [checkCall_single e]
    exact (heldMember_corrected e).trans held
  · rw [checkCall_double e]
    obtain ⟨-, lost⟩ := loseRecord_lost (s := s) (n := n) (w := found)
    rw [if_neg (by simp [equipped])] at lost
    have written := lost.1
    refine (heldMember_iff (by rw [written.1])).2 (.inr ⟨.record, ?_⟩)
    rw [written.call_eq]
    rfl
  · rw [e] at errors
    simp at errors

theorem rereadRecord_held (held : w.heldMember n = true) (clean : (w.channel n).errors = [])
    (record : t.channel n = rereadRecord profile w n) : t.heldMember n = true := by
  have errors : (t.channel n).errors = [] := by rw [record]; exact clean
  have call : t.call n = (rereadRecord profile w n).call := by unfold State.call; rw [record]
  rw [heldMember_iff errors, call]
  unfold rereadRecord
  rcases (heldMember_iff clean).1 held with ⟨blocked, flags⟩ | ⟨x, fault⟩
  · dsimp only
    rw [if_pos blocked]
    exact .inl ⟨blocked, flags⟩
  · dsimp only
    rw [if_neg (by simp [fault])]
    exact .inr ⟨x, fault⟩

/-- What a profile change leaves of one member (R38). -/
def ProfileRead (f : PortNo × RequestCode) (old new : ProfileNo) (n : ChannelNo) (s t : State) : Prop :=
  ∃ w, MemberChecked n (some f) s w ∧ t.channel n = rereadRecord new w n ∧ OnlyChannel n w t ∧
    t.link = markedBetween old new n w ∧ t = { w with channels := t.channels, link := t.link }

theorem ProfileRead.onlyChannel {new : ProfileNo} (h : ProfileRead f profile new n s t) : OnlyChannel n s t := by
  obtain ⟨w, checked, -, other, -⟩ := h
  exact fun m hm => (other m hm).trans (checked.onlyChannel m hm)

/-- What a profile change needs of the members of its group. -/
structure ReadyToReread (g : GroupNo) (new : GroupConfig) (members : List ChannelNo) (s : State) : Prop where
  config : (s.group g).config = some new
  member : ∀ n ∈ members, s.groupOf n = some g
  errors : ∀ n ∈ members, (s.channel n).errors.length ≤ 2
  held : ∀ n ∈ members, s.heldMember n = true

section
variable {members : List ChannelNo}

theorem changeProfileOf_read (h : ReadyToReread g new members s) (hn : n ∈ members) :
    ProfileRead f profile new.profile n s (changeProfileOf f profile s n) ∧
    ReadyToReread g new members (changeProfileOf f profile s n) ∧
    ((changeProfileOf f profile s n).channel n).errors = [] := by
  have clean := checkCall_errors (w := some f) (h.errors n hn)
  have checked := (checkCall_member (w := some f) (h.errors n hn)).1
  have held := checkCall_held (found := some f) (h.errors n hn) (by unfold State.equipped; rw [h.member n hn]; rfl)
    (h.held n hn)
  rw [changeProfileOf_eq]
  generalize (s.checkCall n (some f)).1 = w at clean checked held
  have member : w.groupOf n = some g := by
    unfold State.groupOf
    rw [checked.equipment_eq]
    exact h.member n hn
  have config : (w.group g).config = some new := by
    rw [checked.sameDrain (g := g)]
    exact h.config
  obtain ⟨record, other, link, frame⟩ := reread_effect (profile := profile) member config clean
  have read : ProfileRead f profile new.profile n s (reread profile n w) := ⟨w, checked, record, other, link, frame⟩
  generalize reread profile n w = t at record frame read
  have errors : (t.channel n).errors = [] := by
    rw [record]
    exact clean
  refine ⟨read, ⟨by rw [frame]; exact config, fun m hm => ?_, fun m hm => ?_, fun m hm => ?_⟩, errors⟩ <;>
    by_cases same : m = n
  · subst same
    unfold State.groupOf State.equipment
    rw [record]
    exact member
  · unfold State.groupOf State.equipment
    rw [read.onlyChannel m same]
    exact h.member m hm
  · subst same
    rw [errors]
    exact Nat.zero_le 2
  · rw [read.onlyChannel m same]
    exact h.errors m hm
  · subst same
    exact rereadRecord_held held clean record
  · have seen : t.heldMember m = s.heldMember m := by
      unfold heldMember foundCall seenCall State.call
      rw [read.onlyChannel m same]
    exact seen.trans (h.held m hm)

/-! ## The walk over the members -/

theorem changeProfile_reaches (h : ReadyToReread g new members s) :
    Reaches (ProfileRead f profile new.profile) members s (members.foldl (changeProfileOf f profile) s) :=
  reaches_foldl (Ready := fun l s => l ⊆ members ∧ ReadyToReread g new members s)
    (fun _ _ _ ⟨within, ready⟩ =>
      have ⟨read, next, _⟩ := changeProfileOf_read ready (within (List.mem_cons_self ..))
      ⟨read, fun _ hm => within (List.mem_cons_of_mem _ hm), next⟩)
    members s ⟨List.Subset.refl _, h⟩

/-- After the walk every member is held, and those visited have no bit in error. -/
theorem changeProfile_walk (l : List ChannelNo) (s : State) (within : l ⊆ members)
    (h : ReadyToReread g new members s) :
    ReadyToReread g new members (l.foldl (changeProfileOf f profile) s) ∧
    ∀ m, m ∈ l ∨ (s.channel m).errors = [] → ((l.foldl (changeProfileOf f profile) s).channel m).errors = [] := by
  induction l generalizing s with
  | nil => exact ⟨h, fun m hm => hm.resolve_left List.not_mem_nil⟩
  | cons n l ih =>
    obtain ⟨read, next, errors⟩ := changeProfileOf_read (f := f) (profile := profile) h
      (within (List.mem_cons_self ..))
    obtain ⟨ready, clean⟩ := ih _ (fun m hm => within (List.mem_cons_of_mem _ hm)) next
    rw [List.foldl_cons]
    refine ⟨ready, fun m hm => clean m ?_⟩
    by_cases same : m = n
    · subst same
      exact .inr errors
    · rw [read.onlyChannel m same]
      exact hm.imp_left fun h => (List.mem_cons.1 h).resolve_left same

end

theorem foldl_markDirty_link (l : List ChannelNo) {s t : State} (link : t.link = s.link) (spans : t.spans = s.spans) :
    (l.foldl (fun t n => t.markDirty n) t).link = (l.foldl (fun t n => t.markDirty n) s).link := by
  induction l generalizing s t with
  | nil => exact link
  | cons n l ih =>
    refine ih (markDirty_link_congr link ?_) (by simp [spans])
    unfold State.span
    rw [spans]

theorem rereadRecord_congr (channel : t.channel n = s.channel n) (profiles : t.profiles = s.profiles) :
    rereadRecord profile t n = rereadRecord profile s n := by
  unfold rereadRecord heardUnder State.call State.line
  rw [channel, profiles]

/-- Where no member has a bit in error, and each stands in the list once, the whole walk in closed form. -/
theorem changeProfile_clean (l : List ChannelNo) (s : State) (nodup : l.Nodup)
    (config : (s.group g).config = some new) (member : ∀ n ∈ l, s.groupOf n = some g)
    (clean : ∀ n ∈ l, (s.channel n).errors = []) :
    let v := l.foldl (changeProfileOf f profile) s
    (∀ n ∈ l, v.channel n = rereadRecord new.profile s n) ∧ (∀ n, n ∉ l → v.channel n = s.channel n) ∧
    v.link = (if (s.profiles.get profile).transmit.get 5 = (s.profiles.get new.profile).transmit.get 5 then s
      else l.foldl (fun t n => t.markDirty n) s).link ∧
    v = { s with channels := v.channels, link := v.link } := by
  induction l generalizing s with
  | nil => exact ⟨fun n hn => absurd hn List.not_mem_nil, fun _ _ => rfl, by simp, rfl⟩
  | cons n l ih =>
    obtain ⟨fresh, nodup⟩ := List.nodup_cons.1 nodup
    have step : changeProfileOf f profile s n = reread profile n s := by
      rw [changeProfileOf_eq, checkCall_clean (clean n (List.mem_cons_self ..))]
    obtain ⟨record, other, link, frame⟩ := reread_effect (profile := profile) (member n (List.mem_cons_self ..)) config
      (clean n (List.mem_cons_self ..))
    rw [List.foldl_cons, step]
    generalize reread profile n s = t at record other link frame
    have same (m) (hm : m ∈ l) : t.channel m = s.channel m := other m fun e => fresh (e ▸ hm)
    have profiles : t.profiles = s.profiles := by rw [frame]
    have spans : t.spans = s.spans := by rw [frame]
    obtain ⟨inside, outside, mark, rest⟩ := ih t nodup (by rw [frame]; exact config)
      (fun m hm => by
        unfold State.groupOf State.equipment
        rw [same m hm]
        exact member m (List.mem_cons_of_mem _ hm))
      fun m hm => by rw [same m hm]; exact clean m (List.mem_cons_of_mem _ hm)
    generalize l.foldl (changeProfileOf f profile) t = v at inside outside mark rest
    refine ⟨fun m hm => ?_, fun m hm => ?_, ?_, rest.trans (by rw [frame])⟩
    · rcases List.mem_cons.1 hm with rfl | hm
      · exact (outside m fresh).trans record
      · exact (inside m hm).trans (rereadRecord_congr (same m hm) profiles)
    · obtain ⟨apart, hm⟩ := not_or.1 (mt List.mem_cons.2 hm)
      exact (outside m hm).trans (other m apart)
    · rw [mark, profiles]
      unfold markedBetween at link
      split
      · next codes => rw [link, if_pos codes]
      · next codes =>
        rw [if_neg codes] at link
        exact foldl_markDirty_link l link (by simp [spans])

/-! ## The whole of a profile change -/

theorem reread_withPorts {P k} : reread profile n (withPorts P k s) = withPorts P k (reread profile n s) := by
  have hear : hearAgain n (withPorts P k s) = withPorts P k (hearAgain n s) := rfl
  have member : rereadMember n (withPorts P k s) = withPorts P k (rereadMember n s) := by
    unfold rereadMember
    dsimp only
    rw [hear, apply_ite (withPorts P k)]
    rfl
  unfold reread
  dsimp only
  rw [member, markDirty_withPorts, apply_ite (withPorts P k)]
  rfl

theorem changeProfileOf_withPorts (P k s n) :
    changeProfileOf f profile (withPorts P k s) n = withPorts P k (changeProfileOf f profile s n) := by
  rw [changeProfileOf_eq, checkCall_withPorts]
  exact reread_withPorts

/-- The group under its new configuration, and the change read at every member. -/
def profileChanged (p : PortNo) (g : GroupNo) (old new : GroupConfig) (s : State) : State :=
  (s.group g).members.foldl (changeProfileOf (p, .setGroup) old.profile) (reconfigured g old new s)

theorem profileChanged_withPorts (P k s) :
    profileChanged p g old new (withPorts P k s) = withPorts P k (profileChanged p g old new s) :=
  foldl_withPorts changeProfileOf_withPorts _ (reconfigured g old new s)

/-- An accepted SET_GROUP that changes the profile is `profileChanged` beside the ports. -/
theorem exec_setGroup_changes (admits : s.Admits p) (admin : (s.port p).admin = true)
    (read : groupFields body = some (g, fields)) (config : (s.group g).config = some old)
    (changes : fields.profile ≠ old.profile) (held : ∀ n ∈ (s.group g).members, s.heldMember n = true) :
    ∃ u, exec (.setGroup p tag body) s = .next (s.built u) ∧ Answered p tag .ok [] s u ∧
      s.apart u = profileChanged p g old { fields with maintenance := s.redirect fields.maintenance } s := by
  obtain ⟨ports, count⟩ := ports_of_withPorts (s := s) (profileChanged_withPorts (p := p) (g := g) (old := old)
    (new := { fields with maintenance := s.redirect fields.maintenance }))
  obtain ⟨u, e, answered, apart⟩ := admin_apart (tag := tag) (code := .setGroup) (rule := setGroupRule p body)
    (w := profileChanged p g old { fields with maintenance := s.redirect fields.maintenance } s) admits admin
    (length_of_groupFields read) (fun P k => by
      rw [setGroupRule_replaces (s := withPorts P k s) read config fun _ => held]
      exact congrArg accepted ((if_neg changes).trans (profileChanged_withPorts ..))) ports count
  exact ⟨u, by rw [exec_setGroup, e], answered, apart⟩

theorem reconfigured_group : (reconfigured g old new s).group g = { s.group g with
    config := some new, cursor := if new.policy = old.policy then (s.group g).cursor else none } := by
  unfold reconfigured
  rw [group_modGroup, if_pos rfl]

/-- The whole change in closed form, where no member has a bit in error and each stands in the list once. -/
theorem profileChanged_clean (nodup : (s.group g).members.Nodup)
    (member : ∀ n ∈ (s.group g).members, s.groupOf n = some g)
    (clean : ∀ n ∈ (s.group g).members, (s.channel n).errors = []) :
    let v := profileChanged p g old new s
    v.group g = { s.group g with
      config := some new, cursor := if new.policy = old.policy then (s.group g).cursor else none } ∧
    (∀ h, h ≠ g → v.group h = s.group h) ∧
    (∀ n ∈ (s.group g).members, v.channel n = rereadRecord new.profile s n) ∧
    (∀ n, n ∉ (s.group g).members → v.channel n = s.channel n) ∧
    v.link = (if (s.profiles.get old.profile).transmit.get 5 = (s.profiles.get new.profile).transmit.get 5 then s
      else (s.group g).members.foldl (fun t n => t.markDirty n) s).link ∧
    v = { s with channels := v.channels, groups := v.groups, link := v.link } := by
  obtain ⟨inside, outside, link, frame⟩ := changeProfile_clean (f := (p, .setGroup)) (profile := old.profile)
    (s := reconfigured g old new s) (s.group g).members nodup (by rw [reconfigured_group]) member clean
  unfold profileChanged
  generalize (s.group g).members.foldl (changeProfileOf (p, .setGroup) old.profile) (reconfigured g old new s) = v
    at inside outside link frame
  have mark : (if (s.profiles.get old.profile).transmit.get 5 = (s.profiles.get new.profile).transmit.get 5
      then reconfigured g old new s
      else (s.group g).members.foldl (fun t n => t.markDirty n) (reconfigured g old new s)).link =
      (if (s.profiles.get old.profile).transmit.get 5 = (s.profiles.get new.profile).transmit.get 5 then s
      else (s.group g).members.foldl (fun t n => t.markDirty n) s).link := by
    split
    · rfl
    · exact foldl_markDirty_link _ rfl rfl
  exact ⟨by rw [frame]; exact reconfigured_group, fun h hh => by rw [frame]; exact group_modGroup.trans (if_neg hh),
    inside, outside, link.trans mark, by rw [frame]; rfl⟩

/-- A member with at most one bit in error that neither a flag of this end nor a fault holds (R38; log 33). -/
theorem heldMember_loose (errors : (s.channel n).errors.length ≤ 1) (fault : ∀ x, (s.call n).state ≠ .fault x)
    (flags : (s.call n).state = .blocked → ((s.call n).flags.locally || (s.call n).flags.drain) = false) :
    s.heldMember n = false := by
  rcases e : (s.channel n).errors with _ | ⟨b, _ | ⟨c, l⟩⟩
  · exact heldMember_eq_false e fault flags
  · rw [← heldMember_corrected (found := none) e]
    exact heldMember_eq_false corrected_errors (by rwa [corrected_call]) (by rwa [corrected_call])
  · rw [e] at errors
    simp at errors

/-- Settles O42: the walk with its checks, the refusal IN_USE, and the closed form where no bit is in error. -/
theorem profileChangesAreReadAtEveryMember : Obligations.ProfileChangesAreReadAtEveryMember := by
  refine ⟨fun s p tag body g fields old admits admin read config changes members => ?_,
    fun s p tag body g fields old n admits admin read config changes member errors fault flags => ?_,
    fun s p tag body g fields old admits admin read config changes nodup members => ?_⟩
  · obtain ⟨u, e, answered, apart⟩ := exec_setGroup_changes (tag := tag) admits admin read config changes
      fun n hn => (members n hn).2.2
    have ready : ReadyToReread g { fields with maintenance := s.redirect fields.maintenance } (s.group g).members
        (reconfigured g old { fields with maintenance := s.redirect fields.maintenance } s) :=
      ⟨by rw [reconfigured_group], fun n hn => (members n hn).1, fun n hn => (members n hn).2.1,
        fun n hn => (members n hn).2.2⟩
    have walk := changeProfile_reaches (f := (p, .setGroup)) (profile := old.profile) ready
    obtain ⟨after, clean⟩ := changeProfile_walk (f := (p, .setGroup)) (profile := old.profile) _ _
      (List.Subset.refl _) ready
    unfold profileChanged at apart
    rw [← apart] at walk after clean
    refine ⟨u, e, answered, walk, fun n hn => ⟨clean n (.inl hn), fun blocked => ?_⟩⟩
    rcases (heldMember_iff (clean n (.inl hn))).1 (after.held n hn) with ⟨-, flags⟩ | ⟨x, fault⟩
    · exact flags
    · exact absurd (blocked.symm.trans fault) (by simp)
  · exact exec_admin_refused (exec_setGroup s) admits admin (length_of_groupFields read) fun d dr =>
      setGroupRule_inUse read (by rw [dr.group, config]) changes (by rw [dr.group]; exact member)
        (by rw [dr.heldMember, heldMember_loose errors fault flags])
  · obtain ⟨u, e, answered, apart⟩ := exec_setGroup_changes (tag := tag) admits admin read config changes
      fun n hn => (heldMember_iff (members n hn).2.1).2 (members n hn).2.2
    obtain ⟨group, others, inside, outside, link, frame⟩ := profileChanged_clean (p := p) (old := old)
      (new := { fields with maintenance := s.redirect fields.maintenance }) nodup (fun n hn => (members n hn).1)
      fun n hn => (members n hn).2.1
    rw [← apart] at group others inside outside link frame
    exact ⟨u, s.apart u, e, answered, rfl, group, others, fun n hn => (inside n hn).trans rereadRecord_eq, outside,
      link, frame⟩

end Sys2Proof.Machine
end

section
/-! SEIZE, ACCEPT and ANSWER, once their checks are passed (O11, O12, O13), and the targets of ANSWER and RELEASE with
the checks that follow them (O16). -/

namespace Sys2Proof.Machine

open State

variable {s u v : State} {p : PortNo} {tag k a b c : Byte} {status : Status} {n : ChannelNo} {r : Reference}
  {target : Target}

/-! ## A request that its rule accepts -/

/-- A state whose ports and drawn counter are put back differs from what they are put into in these two alone. -/
theorem eq_of_apart (h : s.apart u = v) : u = { v with ports := u.ports, freeCount := u.freeCount } := by
  rw [← h]
  rfl

/-- An admitted request that is open to every port, and whose rule accepts it: its event leaves `f s` beside the
ports. -/
theorem exec_accepted {i : Instr} {code : RequestCode} {body : List Byte} {rule : State → State × Answer}
    {f : State → State}
    (he : exec i s = .next (event (serve p tag code body permitAny (answering p tag rule)) s)) (admits : s.Admits p)
    (length : body.length = bodyLength code) (commutes : ∀ P k t, f (withPorts P k t) = withPorts P k (f t))
    (main : ∀ P k, rule (withPorts P k s) = accepted (f (withPorts P k s))) :
    ∃ u, exec i s = .next (s.built u) ∧ Answered p tag .ok [] s u ∧ s.apart u = f s := by
  obtain ⟨ports, count⟩ := ports_of_withPorts (s := s) commutes
  obtain ⟨u, e, answered, apart⟩ := request_apart (tag := tag) (permitted := permitAny) (rule := rule) (w := f s)
    admits rfl (fun _ _ _ _ => rfl) length (.inl rfl) (fun P k => by rw [main, commutes]; rfl) ports count
  exact ⟨u, by rw [he, e], answered, apart⟩

/-! ## SEIZE (R55, R56) -/

/-- Settles O11: the accepted request is `enterOutSeized` beside the ports. -/
theorem seizeSeizesItsChannel : Obligations.SeizeSeizesItsChannel := by
  intro s p tag hi lo r2 r1 r0 n g admits hn member drain nonzero unused free up clean idle direction
  obtain ⟨refusal, w, way⟩ := referenceRefusal_passes unused free
  obtain ⟨u, e, answered, apart⟩ := exec_accepted (exec_seize s) admits rfl
    (f := fun t => t.enterOutSeized n (reference3 r2 r1 r0) p none) (fun _ _ _ => enterOutSeized_withPorts)
    fun P k => by
      rw [seizeRule_eq hn, seizeChannel_checks (s := withPorts P k s) member nonzero drain refusal up,
        checkedRule_clean (s := withPorts P k s) clean]
      exact if_pos ⟨idle, direction⟩
  obtain ⟨written, marked, left, bound, frame⟩ := enterOutSeized_effect (n := n) (owner := p) (loser := none) way
  rw [← apart] at written marked left bound frame
  exact ⟨u, e, answered, written, marked, bound, left, eq_of_apart frame⟩

/-! ## ACCEPT (R66, R67) -/

/-- A bind changes the index alone; the channels as they are after it are those from before. -/
theorem bind_eq {e : IndexEntry} :
    s.bind e = { s with channels := (s.bind e).channels, index := (s.bind e).index } := by
  unfold State.bind
  split <;> rfl

/-- The call part of an accepted offer (R67). -/
def alertingCall (call : CallPart) (r : Reference) : CallPart :=
  { call with state := .inAlerting, timer := none, reference := some r }

theorem acceptOffer_withPorts {P k} : (withPorts P k s).acceptOffer p n r = withPorts P k (s.acceptOffer p n r) := by
  unfold acceptOffer
  rw [writeCall_withPorts, bind_withPorts]
  rfl

/-- ACCEPT of an equipped channel whose record is clean, with checks 4 to 7 of R66 passed. -/
theorem acceptChannel_accepts (equipped : s.equipped n = true) (clean : (s.channel n).errors = [])
    (offered : (s.call n).state = .inSeized) (nonzero : r ≠ 0) (refusal : s.referenceRefusal r = none) :
    acceptChannel p n r s = accepted (s.acceptOffer p n r) := by
  unfold acceptChannel
  rw [if_neg (by simp [equipped]), checkedRule_clean clean, if_neg (by simp [offered]), if_neg nonzero, refusal]

/-- R67: the call part keeps its transmitted condition, so that no position is marked; the entry is bound. -/
theorem acceptOffer_effect {w : WayNo} (way : freeWay (s.index.get (setOf r)) = some w) :
    CallWritten n (alertingCall (s.call n) r) s (s.acceptOffer p n r) ∧
    Bound ⟨r, n, p⟩ s (s.acceptOffer p n r) ∧
    s.acceptOffer p n r = { s with
      channels := (s.acceptOffer p n r).channels, index := (s.acceptOffer p n r).index } := by
  have accepts : s.acceptOffer p n r = (s.writeCall n (alertingCall (s.call n) r)).bind ⟨r, n, p⟩ := rfl
  have written : CallWritten n (alertingCall (s.call n) r) s (s.writeCall n (alertingCall (s.call n) r)) :=
    writeCall_written
  have kept : s.writeCall n (alertingCall (s.call n) r) =
      { s with channels := (s.writeCall n (alertingCall (s.call n) r)).channels } :=
    writeCall_eq_of_sameTransmitted rfl
  rw [accepts]
  generalize s.writeCall n (alertingCall (s.call n) r) = v at written kept
  have bound : Bound ⟨r, n, p⟩ v (v.bind ⟨r, n, p⟩) := bind_bound (w := w) (by rw [kept]; exact way)
  have frame := congrArg (fun t : State =>
    { t with channels := (v.bind ⟨r, n, p⟩).channels, index := (v.bind ⟨r, n, p⟩).index }) kept
  exact ⟨written.of_channels (bind_channels v), bound.congr (by rw [kept]) rfl, bind_eq.trans frame⟩

/-- Settles O12: the accepted request is `acceptOffer` beside the ports. -/
theorem acceptBindsTheOffer : Obligations.AcceptBindsTheOffer := by
  intro s p tag hi lo r2 r1 r0 n admits hn equipped clean offered nonzero unused free
  obtain ⟨refusal, w, way⟩ := referenceRefusal_passes unused free
  obtain ⟨u, e, answered, apart⟩ := exec_accepted (exec_accept s) admits rfl
    (f := fun t => t.acceptOffer p n (reference3 r2 r1 r0)) (fun _ _ _ => acceptOffer_withPorts)
    fun P k => (acceptRule_eq hn).trans
      (acceptChannel_accepts (s := withPorts P k s) equipped clean offered nonzero refusal)
  obtain ⟨written, bound, frame⟩ := acceptOffer_effect (p := p) (n := n) way
  rw [← apart] at written bound frame
  exact ⟨u, e, answered, written, bound, eq_of_apart frame⟩

/-! ## ANSWER (R71) -/

/-- ANSWER of the owner of an alerting call. -/
theorem answerChannel_accepts (clean : (s.channel n).errors = []) (owner : s.ownerOf n = some p)
    (alerting : (s.call n).state = .inAlerting) : answerChannel p n s = accepted (s.enterConnected n) := by
  unfold answerChannel
  rw [checkedRule_clean clean, if_neg (by simp [owner]), if_neg (by simp [alerting])]

/-- The call part of a connected call: the transmitted condition is the role's (R5, R60, R71). -/
def connectedCall (call : CallPart) : CallPart :=
  { call with
    state := .connected, timer := none, transmitted := if call.role = .incoming then .is .answer else .is .seize }

theorem enterConnected_effect :
    CallWritten n (connectedCall (s.call n)) s (s.enterConnected n) ∧ Marked n s (s.enterConnected n) ∧
    s.enterConnected n = { s with
      channels := (s.enterConnected n).channels, link := (s.enterConnected n).link } := by
  have enters : s.enterConnected n = s.writeCall n (connectedCall (s.call n)) := rfl
  rw [enters]
  obtain ⟨written, marked⟩ := writeCall_effect (s := s) (n := n) (c := connectedCall (s.call n))
  exact ⟨written, marked, writeCall_eq⟩

/-- Settles O13: the accepted request is `enterConnected` beside the ports. -/
theorem answerConnects : Obligations.AnswerConnects := by
  intro s p tag k a b c target n admits named found clean owner alerting
  obtain ⟨u, e, answered, apart⟩ := exec_accepted (exec_answer s) admits rfl (f := fun t => t.enterConnected n)
    (fun _ _ _ => enterConnected_withPorts)
    fun P k => (atTarget_ok (s := withPorts P k s) named found).trans
      (answerChannel_accepts (s := withPorts P k s) clean owner alerting)
  obtain ⟨written, marked, frame⟩ := enterConnected_effect (s := s) (n := n)
  rw [← apart] at written marked frame
  exact ⟨u, e, answered, written, marked, eq_of_apart frame⟩

/-! ## Targets and owners (R71, R79, R128) -/

/-- A request at a target is refused where its body names none, where the target names no channel, or by the rule at the
channel that it names. -/
theorem atTarget_refused {rule : ChannelNo → State → State × Answer} {own : ChannelNo → Option Status}
    (h : (match targetField k a b c with
      | none => some .badRequest
      | some target =>
        match resolveTarget s target with
        | .error status => some status
        | .ok n => own n) = some status)
    (refuses : ∀ n, own n = some status → rule n s = refuse status s) :
    atTarget resolveTarget rule [k, a, b, c] s = refuse status s := by
  split at h
  · next field =>
    cases h
    exact atTarget_field field
  · next target named =>
    split at h
    · next unnamed =>
      cases h
      exact atTarget_error named unnamed
    · next n found => exact (atTarget_ok named found).trans (refuses n h)

/-- R71, checks 2 to 4. -/
theorem answerChannel_refused
    (h : (if (s.channel n).errors ≠ [] then none
      else if s.ownerOf n ≠ some p then some .notOwner
      else if (s.call n).state ≠ .inAlerting then some .wrongState
      else none) = some status) : answerChannel p n s = refuse status s := by
  unfold answerChannel
  split_ifs at h with errors other wrong <;> cases h <;> rw [checkedRule_clean (not_not.1 errors)]
  · rw [if_pos other]
  · rw [if_neg other, if_pos wrong]

/-- R79, checks 2 and 3. -/
theorem releaseChannel_refused
    (h : (if (s.channel n).errors ≠ [] then none
      else if s.ownerOf n ≠ some p then some .notOwner
      else none) = some status) : releaseChannel p n s = refuse status s := by
  unfold releaseChannel
  split_ifs at h with errors other
  cases h
  rw [checkedRule_clean (not_not.1 errors), if_pos other]

/-- Settles O16: what a target names by its definition, the check of the call part where it names a channel, and each
refusal in the order in which its rule tests. -/
theorem targetsAndOwnersAreChecked : Obligations.TargetsAndOwnersAreChecked := by
  refine fun s p tag k a b c admits => ⟨fun n => rfl, fun r => rfl, fun status h => ?_,
    fun target n named found => ⟨?_, ?_⟩, fun status h => ?_⟩
  · exact exec_refused (exec_answer s) admits (fun _ _ _ _ => rfl) rfl fun P j =>
      atTarget_refused (s := withPorts P j s) h fun n => answerChannel_refused (s := withPorts P j s)
  · exact request_checks (fun t => exec_answer t) admits rfl (fun _ _ _ => rfl) fun d al =>
      (atTarget_ok named ((al.resolveTarget _).trans found)).trans rfl
  · exact request_checks (fun t => exec_release t) admits rfl (fun _ _ _ => rfl) fun d al =>
      (atTarget_ok named ((al.resolveTarget _).trans found)).trans rfl
  · exact exec_refused (exec_release s) admits (fun _ _ _ _ => rfl) rfl fun P j =>
      atTarget_refused (s := withPorts P j s) h fun n => releaseChannel_refused (s := withPorts P j s)

end Sys2Proof.Machine
end

section
/-! Condition changes that carry a call on, take a channel or offer it: progress reaches the owner (O19), a received
BLOCK takes the channel (O20), a far-end seizure offers it (O22), a glare is held or yielded (O23). -/

namespace Sys2Proof.Machine

open State

variable {s t u v : State} {n : ChannelNo} {x : LineCode} {c : CallPart} {q : PortNo} {m : ChannelReason}

/-! ## A call part written, and one reason told -/

theorem writeCall_told :
    let u := (s.writeCall n c).tell q n m
    CallWritten n c s u ∧ Marked n s u ∧ Told [(q, .channel n, .channel m)] s u ∧
    u = { s with channels := u.channels, link := u.link, lists := u.lists } := by
  obtain ⟨written, marked⟩ := writeCall_effect (s := s) (n := n) (c := c)
  have frame := writeCall_eq (s := s) (n := n) (c := c)
  generalize s.writeCall n c = v at *
  exact ⟨written.of_channels rfl, marked, Told.tell (adds := []) (told_nil (by rw [frame])), by rw [frame]; rfl⟩

/-- Where the transmitted condition is kept, no position is marked. -/
theorem writeCall_told_of_sameTransmitted (kept : c.transmitted = (s.call n).transmitted) :
    let u := (s.writeCall n c).tell q n m
    u = { s with channels := u.channels, lists := u.lists } := by
  have frame := writeCall_eq_of_sameTransmitted kept
  generalize s.writeCall n c = v at *
  dsimp only
  rw [frame]
  rfl

/-- A condition change that comes to a call part written and one reason told. -/
theorem exec_tells {r : Received} (brings : s.Brings n x r)
    (change : (s.adopted n x).conditionChange n r = ((s.adopted n x).writeCall n c).tell q n m) :
    ∃ u, exec (.positionIntegration n) s = .next (s.built u) ∧ CallWritten n c (s.adopted n x) u ∧
      Marked n (s.adopted n x) u ∧ Told [(q, .channel n, .channel m)] s u ∧
      u = { s.adopted n x with channels := u.channels, link := u.link, lists := u.lists } := by
  obtain ⟨written, marked, told, frame⟩ := writeCall_told (s := s.adopted n x) (n := n) (c := c) (q := q) (m := m)
  exact ⟨_, by rw [exec_brings brings, change], written, marked, told_of_adopted told, frame⟩

/-- The same where the transmitted condition is kept. -/
theorem exec_tells_unmarked {r : Received} (brings : s.Brings n x r)
    (change : (s.adopted n x).conditionChange n r = ((s.adopted n x).writeCall n c).tell q n m)
    (kept : c.transmitted = (s.call n).transmitted) :
    ∃ u, exec (.positionIntegration n) s = .next (s.built u) ∧ CallWritten n c (s.adopted n x) u ∧
      Told [(q, .channel n, .channel m)] s u ∧
      u = { s.adopted n x with channels := u.channels, lists := u.lists } := by
  obtain ⟨written, -, told, -⟩ := writeCall_told (s := s.adopted n x) (n := n) (c := c) (q := q) (m := m)
  exact ⟨_, by rw [exec_brings brings, change], written, told_of_adopted told,
    writeCall_told_of_sameTransmitted (by rw [kept, adopted_call])⟩

/-! ## Progress of an owned call, and its end by the far side (R59, R60, R72, R85) -/

theorem conditionChange_proceed (state : (s.call n).state = .outSeized) : s.conditionChange n (.is .proceed) =
    (s.writeCall n { s.call n with state := .outWaitAnswer, timer := load (s.config n).answer }).tell
      (s.callPort n) n .proceeding := by
  unfold conditionChange
  rw [state]
  rfl

theorem conditionChange_answer (state : (s.call n).state = .outSeized ∨ (s.call n).state = .outWaitAnswer) :
    s.conditionChange n (.is .answer) =
      (s.writeCall n (connectedCall (s.call n))).tell (s.callPort n) n .answered := by
  unfold conditionChange
  rcases state with state | state <;> rw [state] <;> rfl

theorem conditionChange_farClear {d : Condition} (clears : d ∈ [.free, .clear, .block])
    (state : (s.call n).state ∈ [.outWaitAnswer, .inAlerting, .connected]) : s.conditionChange n (.is d) =
    (s.writeCall n { s.call n with state := .clearingRemote, timer := load (s.config n).farClear }).tell
      (s.callPort n) n .farClear := by
  unfold conditionChange
  simp only [List.mem_cons, List.not_mem_nil, or_false] at clears state
  rcases state with state | state | state <;> rw [state] <;> rcases clears with rfl | rfl | rfl <;> rfl

/-- Settles O19: each change writes the call part and tells the owner; what it reads of the channel stands there before
the code is adopted. -/
theorem progressReachesTheOwner : Obligations.ProgressReachesTheOwner := by
  intro s n x
  have call : (s.adopted n x).call n = s.call n := adopted_call n
  refine ⟨fun brings state => exec_tells_unmarked brings ?_ rfl, fun brings state => exec_tells brings ?_,
    fun c brings clears state => exec_tells_unmarked brings ?_ rfl⟩
  · rw [conditionChange_proceed (by rw [call, state]), call, adopted_config, adopted_callPort]
  · rw [conditionChange_answer (by rw [call]; exact state), call, adopted_callPort]
    rfl
  · rw [conditionChange_farClear clears (by rw [call]; exact state), call, adopted_config, adopted_callPort]

/-! ## A received BLOCK (R61, R69, R94) -/

/-- The channel carries no accepted call, and a received BLOCK takes it with these flags and these reasons of its
own. -/
def TakenByBlock (s : State) (n : ChannelNo) (f : BlockFlags) (adds : List (PortNo × AttentionObject × Reason)) :
    Prop :=
  (s.call n).state = .idle ∧ f = ⟨false, false, true⟩ ∧ adds = [] ∨
  (s.call n).state = .outSeized ∧ f = { (s.call n).flags with remote := true } ∧
    adds = [(s.callPort n, .channel n, .channel .seizeFailed)] ∨
  (s.call n).state = .inSeized ∧ f = { (s.call n).flags with remote := true } ∧
    adds = [((s.config n).maintenance, .channel n, .channel .abandoned)]

variable {f : BlockFlags} {adds : List (PortNo × AttentionObject × Reason)}

theorem TakenByBlock.adopted (h : TakenByBlock s n f adds) : TakenByBlock (s.adopted n x) n f adds := by
  unfold TakenByBlock
  rw [adopted_call, adopted_callPort, adopted_config]
  exact h

/-- The attention lists alone may differ. -/
def ListsOnly (s u : State) : Prop := u = { s with lists := u.lists }

theorem ListsOnly.refl : ListsOnly s s := rfl

theorem ListsOnly.tell (h : ListsOnly s t) : ListsOnly s (t.tell q n m) := by
  unfold ListsOnly at h ⊢
  rw [h]
  rfl

theorem ListsOnly.config_eq (h : ListsOnly s t) : t.config n = s.config n := by
  rw [h]
  rfl

theorem enterBlocked_config : (s.enterBlocked n f).config n = s.config n := endCall_written_config

theorem enterBlocked_told : Told [] s (s.enterBlocked n f) := told_nil endCall_lists

/-- Each such state enters BLOCKED, gives its reasons, and ends with FAR_BLOCKED and the drain completion check. -/
theorem conditionChange_block (h : TakenByBlock s n f adds) :
    ∃ v, s.conditionChange n (.is .block) = (v.tellMaintenance n .farBlocked).drainCheckOf n ∧
      ListsOnly (s.enterBlocked n f) v ∧ Told adds s v := by
  unfold conditionChange
  rcases h with ⟨state, rfl, rfl⟩ | ⟨state, rfl, rfl⟩ | ⟨state, rfl, rfl⟩ <;> rw [state]
  · exact ⟨_, rfl, .refl, enterBlocked_told⟩
  · exact ⟨_, rfl, .tell .refl, enterBlocked_told.tell⟩
  · refine ⟨_, rfl, .tell .refl, ?_⟩
    unfold tellMaintenance
    rw [enterBlocked_config]
    exact enterBlocked_told.tell

theorem enterBlocked_checked (entered : ListsOnly (s.enterBlocked n f) v) (told : Told adds s v) :
    let u := (v.tellMaintenance n .farBlocked).drainCheckOf n
    CallWritten n (blockedCall f) s u ∧ Marked n s u ∧ LeftIdleChecked n s u ∧ Freed (s.call n).reference s u ∧
    Told (adds ++ [((s.config n).maintenance, .channel n, .channel .farBlocked)] ++ drainAdds n s u) s u ∧
    u = { s with channels := u.channels, groups := u.groups, index := u.index, link := u.link, lists := u.lists } := by
  have config : v.config n = s.config n := entered.config_eq.trans enterBlocked_config
  have tells : v.tellMaintenance n .farBlocked = v.tell (s.config n).maintenance n .farBlocked := by
    unfold tellMaintenance
    rw [config]
  have faults : v.faults = s.faults := by
    rw [entered, enterBlocked_eq, endCall_faults]
  rw [tells]
  obtain ⟨written, marked, left, freed, told, unreported, frame⟩ := endCall_checked (w := s) (n := n)
    (c := blockedCall f) (v := v.tell (s.config n).maintenance n .farBlocked) (by rw [entered]; rfl) told.tell
  rw [unreported.trans faults] at frame
  exact ⟨written, marked, left, freed, told, frame⟩

/-- Settles O20: the three states that BLOCK takes, each seen from the state before the code is adopted. -/
theorem farBlockTakesTheChannel : Obligations.FarBlockTakesTheChannel := by
  intro s n x brings f adds h
  obtain ⟨v, change, entered, told⟩ := conditionChange_block (TakenByBlock.adopted (x := x) h)
  obtain ⟨written, marked, left, freed, told, frame⟩ := enterBlocked_checked entered told
  rw [adopted_call] at freed
  rw [adopted_config, adopted_drainAdds] at told
  exact ⟨_, by rw [exec_brings brings, change], written, marked, leftChecked_of_adopted left, freed_of_adopted freed,
    told_of_adopted told, frame⟩

/-! ## A far-end seizure (R64, R65) -/

theorem conditionChange_seize_idle (state : (s.call n).state = .idle)
    (direction : (s.equipment n).direction ≠ .outgoingOnly) :
    s.conditionChange n (.is .seize) = s.enterInSeized n (s.call n).flags := by
  unfold conditionChange
  rw [state]
  exact if_neg direction

/-- Settles O22: out of sequence as O24 says it, or the entry to IN_SEIZED. -/
theorem farSeizureOffers : Obligations.FarSeizureOffers := by
  refine fun s n x brings state => ⟨fun direction => ?_, fun direction => ?_⟩
  · have change : OutOfSequence s n .seize := .inl ⟨state, .inr ⟨rfl, direction⟩⟩
    obtain ⟨-, outOfSequence, -⟩ := otherConditionsLeaveTheCall s n x
    rw [outOfSequence .seize brings change, state]
  · have change := conditionChange_seize_idle (s := s.adopted n x) (n := n) (by rw [adopted_call, state])
      (by rw [adopted_equipment]; exact direction)
    obtain ⟨written, marked, left, told, frame⟩ :=
      enterInSeized_effect (s := s.adopted n x) (n := n) (f := ((s.adopted n x).call n).flags)
    rw [← change] at written marked left told frame
    rw [adopted_config, adopted_call] at written
    rw [adopted_config] at told
    exact ⟨_, exec_brings brings, written, marked, left_of_adopted left, told_of_adopted told, frame⟩

/-! ## Glare (R73, R74, R75) -/

theorem conditionChange_glare (state : (s.call n).state = .outSeized) : s.conditionChange n (.is .seize) =
    if (s.equipment n).direction = .outgoingOnly ∨ (s.config n).glare = .hold then s else s.yieldGlare n := by
  unfold conditionChange
  rw [state]
  simp only [changeInOutSeized, Bool.or_eq_true, decide_eq_true_eq]

theorem unbindCall_index_only : s.unbindCall n = { s with index := (s.unbindCall n).index } := by
  unfold unbindCall
  split <;> rfl

/-- The mark of an event looks at the channel records, the configurations and the link alone. -/
theorem State.Marked.congr (marked : Marked n s t) (channels : u.channels = t.channels) (link : u.link = t.link)
    (same : SameCodes t u) : Marked n s u := by
  have code : u.presentCode n = t.presentCode n := by
    unfold presentCode call channel
    rw [channels]
    exact same.codeFor_eq (by unfold equipment channel; rw [channels])
  unfold Marked at marked ⊢
  rw [link, code, marked]

/-- The reference given up, and the far end's call taken. -/
theorem yielded_effect :
    let t := (s.unbindCall n).enterInSeized n f
    CallWritten n (inSeizedCall (s.config n) f) s t ∧ Marked n s t ∧ LeftIdle n s t ∧
    Freed (s.call n).reference s t ∧ Told [((s.config n).maintenance, .channel n, .channel .offered)] s t ∧
    t = { s with channels := t.channels, groups := t.groups, index := t.index, link := t.link, lists := t.lists } := by
  have freed : Freed (s.call n).reference s (s.unbindCall n) := unbindCall_freed
  have rest := unbindCall_index_only (s := s) (n := n)
  generalize s.unbindCall n = v at freed rest
  obtain ⟨written, marked, left, told, frame⟩ := enterInSeized_effect (s := v) (n := n) (f := f)
  have same : SameCodes s v := .of_groups (by rw [rest]) (by rw [rest]) (by rw [rest])
  have config : v.config n = s.config n := same.config_eq (by rw [rest]; rfl)
  rw [config] at written told
  exact ⟨written.after (by rw [rest]), marked.after (by rw [rest]) (by rw [rest]) same,
    fun g => (left g).trans (by rw [rest]; rfl), freed.congr rfl (by rw [frame]), told.after (by rw [rest]),
    by rw [frame, rest]⟩

variable {g : GroupNo} {r : Reference}

/-- A yielded glare: a rehunt for the group, or GLARE_LOST for the former owner. -/
theorem yieldGlare_eq (member : s.groupOf n = some g) (reference : (s.call n).reference = some r) : s.yieldGlare n =
    let t := (s.unbindCall n).enterInSeized n (s.call n).flags
    if ((s.config n).rehunt && !(s.call n).rehuntUsed) = true then
      t.modGroup g fun y => { y with rehunts := y.rehunts ++ [⟨r, s.callPort n, n, false, false⟩] }
    else t.tell (s.callPort n) n .glareLost := by
  unfold yieldGlare
  dsimp only
  rw [member, reference]
  cases (s.config n).rehunt && !(s.call n).rehuntUsed <;> rfl

theorem yieldGlare_effect (member : s.groupOf n = some g) (reference : (s.call n).reference = some r) :
    let u := s.yieldGlare n
    let hands := (s.config n).rehunt && !(s.call n).rehuntUsed
    CallWritten n (inSeizedCall (s.config n) (s.call n).flags) s u ∧ Marked n s u ∧ Freed (some r) s u ∧
    Told ([((s.config n).maintenance, .channel n, .channel .offered)] ++
      if hands then [] else [(s.callPort n, .channel n, .channel .glareLost)]) s u ∧
    (∀ h, u.group h = { s.group h with
      idle := if s.groupOf n = some h then (s.group h).idle.filter (· ≠ n) else (s.group h).idle
      rehunts := if h = g ∧ hands = true then (s.group h).rehunts ++ [⟨r, s.callPort n, n, false, false⟩]
        else (s.group h).rehunts }) ∧
    u = { s with channels := u.channels, groups := u.groups, index := u.index, link := u.link, lists := u.lists } := by
  obtain ⟨written, marked, left, freed, told, frame⟩ := yielded_effect (s := s) (n := n) (f := (s.call n).flags)
  rw [reference] at freed
  rw [yieldGlare_eq member reference]
  generalize (s.unbindCall n).enterInSeized n (s.call n).flags = t at *
  dsimp only
  cases (s.config n).rehunt && !(s.call n).rehuntUsed with
  | false =>
    exact ⟨written.of_channels rfl, marked, freed, told.tell, fun h => (left h).trans (by simp), by rw [frame]; rfl⟩
  | true =>
    have group (h) : (t.modGroup g fun y =>
        { y with rehunts := y.rehunts ++ [⟨r, s.callPort n, n, false, false⟩] }).group h = { t.group h with
          rehunts := if h = g then (t.group h).rehunts ++ [⟨r, s.callPort n, n, false, false⟩]
            else (t.group h).rehunts } := by
      rw [group_modGroup]
      split
      · next e => rw [e]
      · rfl
    refine ⟨written.of_channels rfl, marked.congr rfl rfl ⟨rfl, rfl, fun h => by rw [if_pos rfl, group]⟩, freed,
      told, fun h => ?_, by rw [frame]; rfl⟩
    rw [if_pos rfl, group, left h]
    simp only [and_true]

/-- Settles O23: held without effect, or the call given up for the far end's. -/
theorem glareHoldsOrYields : Obligations.GlareHoldsOrYields := by
  intro s n x brings state
  have change := conditionChange_glare (s := s.adopted n x) (n := n) (by rw [adopted_call, state])
  rw [adopted_equipment, adopted_config] at change
  refine ⟨fun held => exec_brings_quiet brings (change.trans (if_pos held)) rfl rfl,
    fun g r direction glare member reference => ?_⟩
  have yields := change.trans (if_neg (by simp [direction, glare]))
  obtain ⟨written, marked, freed, told, groups, frame⟩ := yieldGlare_effect (s := s.adopted n x) (n := n)
    (by rw [adopted_groupOf, member]) (by rw [adopted_call, reference])
  rw [adopted_config, adopted_call] at written
  rw [adopted_config, adopted_call, adopted_callPort] at told
  refine ⟨_, by rw [exec_brings brings, yields], written, marked, freed_of_adopted freed,
    ⟨told_of_adopted told, fun h => (groups h).trans ?_⟩, frame⟩
  rw [adopted_config, adopted_call, adopted_callPort, adopted_groupOf]
  rfl

end Sys2Proof.Machine
end

section
/-! The supervision timers run out (O27): the check of the call part, a clear from this end, and settling. -/

namespace Sys2Proof.Machine

open State

variable {s : State} {n : ChannelNo} {state : CallState} {effect : State → State} {q : PortNo} {m : ChannelReason}

/-! ## An expiry that is due -/

theorem expire_due (timed : (s.call n).state = state) (due : (s.call n).timer = some 0) :
    expire n state effect s = s.checked n none fun t => if (t.call n).state = state then effect t else t :=
  if_pos ⟨timed, due⟩

theorem expire_clean (timed : (s.call n).state = state) (due : (s.call n).timer = some 0)
    (clean : (s.channel n).errors = []) : expire n state effect s = effect s := by
  rw [expire_due timed due, checked_clean clean]
  exact if_pos timed

/-- An expiry checks the call part before all else (R157, R159). -/
theorem expire_checksFirst {c : Instr} (he : ∀ t, exec c t = .next (event (expire n state effect) t))
    (timed : (s.call n).state = state) (due : (s.call n).timer = some 0) : ChecksFirst c n s s := by
  refine checksFirst he (fun b single => ?_) fun a b double => ?_
  · rw [expire_due timed due, checked_single single,
      expire_clean (s := s.corrected n none) (by rw [corrected_call, timed]) (by rw [corrected_call, due])
        corrected_errors]
    exact if_pos (by rw [corrected_call, timed])
  · rw [expire_due timed due, checked_double double]

theorem exec_expires {c : Instr} (he : exec c s = .next (event (expire n state effect) s))
    (timed : (s.call n).state = state) (due : (s.call n).timer = some 0) (clean : (s.channel n).errors = []) :
    exec c s = .next (s.built (effect s)) := by
  rw [he, event_built (expire_clean timed due clean)]

/-! ## A clear from this end (R62, R63, R70) -/

theorem enterClearingLocal_config : (s.enterClearingLocal n).config n = s.config n :=
  (SameCodes.of_groups (by simp) (by simp) (by simp)).config_eq (writeCall_written.equipment_eq n)

/-- An expiry that enters CLEARING_LOCAL and tells one port. -/
theorem exec_expires_clearing {c : Instr} (he : exec c s = .next (event (expire n state effect) s))
    (timed : (s.call n).state = state) (due : (s.call n).timer = some 0) (clean : (s.channel n).errors = [])
    (clears : effect s = (s.enterClearingLocal n).tell q n m) :
    ∃ u, exec c s = .next (s.built u) ∧
      CallWritten n { s.call n with
        state := .clearingLocal, transmitted := .is .clear, timer := load (s.config n).releaseConfirm } s u ∧
      Marked n s u ∧ Told [(q, .channel n, .channel m)] s u ∧
      u = { s with channels := u.channels, link := u.link, lists := u.lists } :=
  ⟨_, (exec_expires he timed due clean).trans (by rw [clears]; rfl), writeCall_told⟩

/-- Settles O27: each expiry is of the form `expire`; with no bit in error it comes to its effect. -/
theorem timersRunOut : Obligations.TimersRunOut := by
  refine ⟨fun s n c due taken => ?_, fun s n due clean => ⟨fun c q r timed => ?_, fun guarded => ?_⟩⟩
  · obtain ⟨timed, rfl⟩ | ⟨timed, rfl⟩ | ⟨timed, rfl⟩ | ⟨timed, rfl⟩ | ⟨timed, rfl⟩ | ⟨timed, rfl⟩ := taken
    · exact expire_checksFirst (fun t => exec_guardExpiry t) timed due
    · exact expire_checksFirst (fun t => exec_proceedTimeout t) timed due
    · exact expire_checksFirst (fun t => exec_answerTimeout t) timed due
    · exact expire_checksFirst (fun t => exec_offerTimeout t) timed due
    · exact expire_checksFirst (fun t => exec_releaseStuck t) timed due
    · exact expire_checksFirst (fun t => exec_autoReleased t) timed due
  · rcases timed with ⟨timed, rfl, rfl, rfl⟩ | ⟨timed, rfl, rfl, rfl⟩ | ⟨timed, rfl, rfl, rfl⟩
    · exact exec_expires_clearing (exec_proceedTimeout s) timed due clean rfl
    · exact exec_expires_clearing (exec_answerTimeout s) timed due clean rfl
    · refine exec_expires_clearing (exec_offerTimeout s) timed due clean ?_
      unfold tellMaintenance
      rw [enterClearingLocal_config]
  · exact ⟨_, exec_expires (exec_guardExpiry s) guarded due clean, settle_settled⟩

end Sys2Proof.Machine
end

section
/-! The end of a call: RELEASE (O14), a clear that is confirmed or an offer abandoned (O21), a clear that nobody answers
(O28). -/

namespace Sys2Proof.Machine

open State

variable {s u v : State} {p : PortNo} {tag : Byte} {n : ChannelNo} {q : PortNo} {m : ChannelReason} {f : BlockFlags}
  {c : Condition} {x : LineCode} {adds : List (PortNo × AttentionObject × Reason)}

/-! ## Entry to GUARD with its reasons (R88) -/

/-- Entry to GUARD, and no other list but by the reasons given. -/
def EntersGuard (n : ChannelNo) (f : BlockFlags) (adds : List (PortNo × AttentionObject × Reason)) (s v : State) :
    Prop :=
  ListsOnly (s.enterGuard n f) v ∧ Told adds s v

theorem enterGuard_silent : EntersGuard n f [] s (s.enterGuard n f) := ⟨.refl, told_nil endCall_lists⟩

theorem EntersGuard.tell (h : EntersGuard n f adds s v) :
    EntersGuard n f (adds ++ [(q, .channel n, .channel m)]) s (v.tell q n m) :=
  ⟨h.1.tell, h.2.tell⟩

theorem enterGuard_config : (s.enterGuard n f).config n = s.config n := endCall_written_config

theorem EntersGuard.effect (h : EntersGuard n f adds s v) :
    CallWritten n (guardCall (s.config n) f) s v ∧ Marked n s v ∧ LeftIdle n s v ∧ Freed (s.call n).reference s v ∧
    Told adds s v ∧
    v = { s with channels := v.channels, groups := v.groups, index := v.index, link := v.link, lists := v.lists } := by
  obtain ⟨entered, told⟩ := h
  have faults : v.faults = s.faults := by rw [entered, enterGuard_eq, endCall_faults]
  obtain ⟨written, marked, left, freed, frame⟩ := endCall_told (w := s) (n := n) (c := guardCall (s.config n) f)
    (v := v) (by rw [entered]; rfl)
  rw [faults] at frame
  exact ⟨written, marked, left, freed, told, frame⟩

/-! ## RELEASE (R79, R80) -/

/-- The call part of a call that this end clears (R80). -/
def clearingCall (config : GroupConfig) (call : CallPart) : CallPart :=
  { call with state := .clearingLocal, transmitted := .is .clear, timer := load config.releaseConfirm }

theorem releaseCall_inProgress (state : (s.call n).state ∈ [.outSeized, .outWaitAnswer, .inAlerting, .connected]) :
    s.releaseCall n = s.writeCall n (clearingCall (s.config n) (s.call n)) := by
  unfold releaseCall
  simp only [List.mem_cons, List.not_mem_nil, or_false] at state
  rcases state with state | state | state | state <;> rw [state] <;> rfl

theorem releaseCall_clearingRemote (state : (s.call n).state = .clearingRemote) :
    s.releaseCall n = s.enterGuard n (s.call n).flags := by
  unfold releaseCall
  rw [state]

theorem releaseCall_clearingLocal (state : (s.call n).state = .clearingLocal) : s.releaseCall n = s := by
  unfold releaseCall
  rw [state]

theorem releaseCall_withPorts {P k} : (withPorts P k s).releaseCall n = withPorts P k (s.releaseCall n) := by
  have clearing : (withPorts P k s).enterClearingLocal n = withPorts P k (s.enterClearingLocal n) :=
    writeCall_withPorts
  unfold releaseCall
  rw [call_withPorts, clearing, enterGuard_withPorts]
  cases (s.call n).state <;> rfl

/-- RELEASE of the owner. -/
theorem releaseChannel_accepts (clean : (s.channel n).errors = []) (owner : s.ownerOf n = some p) :
    releaseChannel p n s = accepted (s.releaseCall n) := by
  unfold releaseChannel
  rw [checkedRule_clean clean, if_neg (by simp [owner])]

/-- Settles O14: the accepted request is `releaseCall` beside the ports, by the state it finds. -/
theorem releaseEndsTheCall : Obligations.ReleaseEndsTheCall := by
  intro s p tag k a b c target n admits named found clean owner
  obtain ⟨u, e, answered, apart⟩ := exec_accepted (exec_release s) admits rfl (f := fun t => t.releaseCall n)
    (fun _ _ _ => releaseCall_withPorts)
    fun P k => (atTarget_ok (s := withPorts P k s) named found).trans
      (releaseChannel_accepts (s := withPorts P k s) clean owner)
  refine ⟨fun state => ?_, fun state => ?_, fun state => ?_⟩
  · rw [releaseCall_inProgress state] at apart
    obtain ⟨written, marked⟩ := writeCall_effect (s := s) (n := n) (c := clearingCall (s.config n) (s.call n))
    have frame := writeCall_eq (s := s) (n := n) (c := clearingCall (s.config n) (s.call n))
    rw [← apart] at written marked frame
    exact ⟨u, e, answered, written, marked, eq_of_apart frame⟩
  · rw [releaseCall_clearingRemote state, enterGuard_eq] at apart
    obtain ⟨written, marked, left, freed, frame⟩ :=
      endCall_effect (s := s) (n := n) (c := guardCall (s.config n) (s.call n).flags)
    rw [← apart] at written marked left freed frame
    exact ⟨u, e, answered, written, marked, left, freed, eq_of_apart frame⟩
  · rw [releaseCall_clearingLocal state] at apart
    rw [built_apart apart rfl rfl] at e
    exact ⟨u, e, answered, eq_of_apart apart⟩

/-! ## FREE or CLEAR received (R69, R82) -/

/-- A received FREE or CLEAR takes the channel into GUARD, with these reasons. -/
def TakenByClear (s : State) (n : ChannelNo) (adds : List (PortNo × AttentionObject × Reason)) : Prop :=
  (s.call n).state = .clearingLocal ∧ (s.call n).reference ≠ none ∧
    adds = [(s.callPort n, .channel n, .channel .clearDone)] ∨
  (s.call n).state = .clearingLocal ∧ (s.call n).reference = none ∧ adds = [] ∨
  (s.call n).state = .inSeized ∧ adds = [((s.config n).maintenance, .channel n, .channel .abandoned)]

theorem TakenByClear.adopted (h : TakenByClear s n adds) : TakenByClear (s.adopted n x) n adds := by
  unfold TakenByClear
  rw [adopted_call, adopted_callPort, adopted_config]
  exact h

theorem changeInClearingLocal_clear (clears : c = .free ∨ c = .clear) : s.changeInClearingLocal n c =
    if (s.call n).reference.isSome then (s.enterGuard n (s.call n).flags).tell (s.callPort n) n .clearDone
    else s.enterGuard n (s.call n).flags := by
  rcases clears with rfl | rfl <;> rfl

theorem changeInInSeized_clear (clears : c = .free ∨ c = .clear) : s.changeInInSeized n c =
    (s.enterGuard n (s.call n).flags).tell (s.config n).maintenance n .abandoned := by
  have tells : (s.enterGuard n (s.call n).flags).tellMaintenance n .abandoned =
      (s.enterGuard n (s.call n).flags).tell (s.config n).maintenance n .abandoned := by
    unfold tellMaintenance
    rw [enterGuard_config]
  rw [← tells]
  rcases clears with rfl | rfl <;> rfl

theorem conditionChange_clear (clears : c = .free ∨ c = .clear) (h : TakenByClear s n adds) :
    EntersGuard n (s.call n).flags adds s (s.conditionChange n (.is c)) := by
  unfold conditionChange
  rcases h with ⟨state, held, rfl⟩ | ⟨state, unheld, rfl⟩ | ⟨state, rfl⟩ <;> rw [state] <;> dsimp only
  · rw [changeInClearingLocal_clear clears, if_pos (Option.isSome_iff_ne_none.2 held)]
    exact enterGuard_silent.tell
  · rw [changeInClearingLocal_clear clears, if_neg (by simp [unheld])]
    exact enterGuard_silent
  · rw [changeInInSeized_clear clears]
    exact enterGuard_silent.tell

/-- Settles O21: the entry to GUARD, seen from the state before the code is adopted. -/
theorem clearsEnterGuard : Obligations.ClearsEnterGuard := by
  intro s n x c adds brings clears h
  obtain ⟨written, marked, left, freed, told, frame⟩ :=
    (conditionChange_clear clears (TakenByClear.adopted (x := x) h)).effect
  rw [adopted_config, adopted_call] at written
  rw [adopted_call] at freed
  exact ⟨_, exec_brings brings, written, marked, left_of_adopted left, freed_of_adopted freed, told_of_adopted told,
    frame⟩

/-! ## A clear that nobody answers (R83, R87) -/

/-- A clear that the far end does not confirm: FAULT(RELEASE), its reason, its occurrence and the drain completion check
(R83). -/
def stuckRelease (n : ChannelNo) (s : State) : State :=
  (((s.enterFault n .release (s.call n).flags).tell (s.callPort n) n .releaseStuck).report
    ⟨.releaseStuck, some (spanOf n), some n, none, none, some .clearingLocal⟩).drainCheckOf n

theorem expireRelease_eq : expireRelease n = expire n .clearingLocal (stuckRelease n) := rfl

theorem stuckRelease_effect :
    let u := stuckRelease n s
    CallWritten n (faultCall .release (s.call n).flags) s u ∧ Marked n s u ∧ LeftIdleChecked n s u ∧
    Freed (s.call n).reference s u ∧
    Told ([(s.callPort n, .channel n, .channel .releaseStuck)] ++ drainAdds n s u) s u ∧
    Reported [⟨.releaseStuck, some (spanOf n), some n, none, none, some .clearingLocal⟩] s u ∧
    u = { s with channels := u.channels, groups := u.groups, index := u.index, link := u.link, lists := u.lists,
                 faults := u.faults } := by
  have told : Told [(s.callPort n, .channel n, .channel .releaseStuck)] s
      ((s.enterFault n .release (s.call n).flags).tell (s.callPort n) n .releaseStuck) :=
    Told.tell (adds := []) (told_nil endCall_lists)
  obtain ⟨written, marked, left, freed, told, faults, frame⟩ := endCall_checked (w := s) (n := n)
    (c := faultCall .release (s.call n).flags)
    (v := ((s.enterFault n .release (s.call n).flags).tell (s.callPort n) n .releaseStuck).report
      ⟨.releaseStuck, some (spanOf n), some n, none, none, some .clearingLocal⟩)
    rfl (told.of_lists rfl)
  refine ⟨written, marked, left, freed, told, faults.trans ?_, frame⟩
  have kept : (s.enterFault n .release (s.call n).flags).faults = s.faults := endCall_faults
  unfold State.report State.tell notify
  dsimp only
  rw [kept]

/-- Settles O28: both expiries are of the form `expire`; with no bit in error each comes to its effect. -/
theorem unansweredClearsEnd : Obligations.UnansweredClearsEnd := by
  intro s n due clean
  refine ⟨fun timed => ?_, fun timed => ?_⟩
  · exact ⟨_, exec_expires (by rw [exec_releaseStuck, expireRelease_eq]) timed due clean, stuckRelease_effect⟩
  · exact ⟨_, exec_expires (exec_autoReleased s) timed due clean, enterGuard_silent.tell.effect⟩

end Sys2Proof.Machine
end

section
/-! BLOCK (O29), UNBLOCK (O30) and RESET_CHANNEL (O31), once their checks are passed. -/

namespace Sys2Proof.Machine

open State

variable {s u v : State} {p : PortNo} {tag hi lo : Byte} {n : ChannelNo} {f : BlockFlags}
  {adds : List (PortNo × AttentionObject × Reason)}

/-! ## A maintenance request that its rule accepts -/

/-- An admitted request at an equipped channel, with its permission, whose rule answers OK: its event leaves `f s` beside
the ports. -/
theorem exec_atChannel_accepted {i : Instr} {code : RequestCode} {permitted : State → Bool}
    {rule : ChannelNo → State → State × Answer} {answer : List Byte} {f : State → State}
    (he : exec i s = .next (event (serve p tag code [hi, lo] permitted (answering p tag (atChannel rule [hi, lo]))) s))
    (admits : s.Admits p) (permit : permitted s = true)
    (stable : ∀ d, (d.port p).admin = (s.port p).admin → d.groups = s.groups → d.channels = s.channels →
      permitted d = permitted s)
    (length : [hi, lo].length = bodyLength code) (hn : channelField hi lo = some n) (equipped : s.equipped n = true)
    (commutes : ∀ P k t, f (withPorts P k t) = withPorts P k (f t))
    (main : ∀ P k, rule n (withPorts P k s) = (f (withPorts P k s), ⟨.ok, answer⟩)) :
    ∃ u, exec i s = .next (s.built u) ∧ Answered p tag .ok answer s u ∧ s.apart u = f s := by
  obtain ⟨ports, count⟩ := ports_of_withPorts (s := s) commutes
  obtain ⟨u, e, answered, apart⟩ := request_apart (tag := tag) (rule := atChannel rule [hi, lo]) (answer := answer)
    (w := f s) admits permit stable length (.inl rfl)
    (fun P k => by rw [atChannel_ok (s := withPorts P k s) (rule := rule) hn equipped, main, commutes]) ports count
  exact ⟨u, by rw [he, e], answered, apart⟩

/-! ## The flags of a channel written (R5) -/

/-- In BLOCKED the flags give the transmitted condition. -/
theorem writeFlags_blocked (state : (s.call n).state = .blocked) : s.writeFlags n f =
    s.writeCall n { s.call n with flags := f, transmitted := blockedCondition f } := by
  unfold writeFlags
  rw [if_pos state]

theorem writeFlags_blocked_effect (state : (s.call n).state = .blocked) :
    CallWritten n { s.call n with flags := f, transmitted := blockedCondition f } s (s.writeFlags n f) ∧
    Marked n s (s.writeFlags n f) ∧
    s.writeFlags n f = { s with channels := (s.writeFlags n f).channels, link := (s.writeFlags n f).link } := by
  rw [writeFlags_blocked state]
  exact ⟨writeCall_effect.1, writeCall_effect.2, writeCall_eq⟩

/-! ## BLOCK (R92) -/

theorem blockChannel_accepts (clean : (s.channel n).errors = []) (flag : (s.call n).flags.locally = false) :
    blockChannel p n s = ((s.blockLocally n).1, ⟨.ok, [yesNo (s.blockLocally n).2]⟩) := by
  unfold blockChannel
  rw [checkedRule_clean clean, if_neg (by simp [flag])]

theorem blockLocally_idle (state : (s.call n).state = .idle) : s.blockLocally n =
    ((s.enterBlocked n { (s.call n).flags with locally := true }).drainCheckOf n, false) := by
  unfold blockLocally
  rw [state]

theorem blockLocally_guard (state : (s.call n).state = .guard) : s.blockLocally n =
    (s.blockByCondition n { (s.call n).flags with locally := true }, false) := by
  unfold blockLocally
  rw [state]

theorem blockLocally_blocked (state : (s.call n).state = .blocked) : s.blockLocally n =
    (s.writeFlags n { (s.call n).flags with locally := true }, false) := by
  unfold blockLocally
  rw [state]

theorem blockLocally_deferred (state : (s.call n).state ∉ [.idle, .guard, .blocked]) : s.blockLocally n =
    (s.writeFlags n { (s.call n).flags with locally := true }, true) := by
  unfold blockLocally
  cases h : (s.call n).state with
  | idle | guard | blocked => exact absurd state (by simp [h])
  | _ => rfl

/-- Entry to BLOCKED with the drain completion check. -/
theorem enterBlocked_drainCheck :
    let u := (s.enterBlocked n f).drainCheckOf n
    CallWritten n (blockedCall f) s u ∧ Marked n s u ∧ LeftIdleChecked n s u ∧ Freed (s.call n).reference s u ∧
    Told (drainAdds n s u) s u ∧
    u = { s with channels := u.channels, groups := u.groups, index := u.index, link := u.link, lists := u.lists } := by
  obtain ⟨written, marked, left, freed, told, faults, frame⟩ := endCall_checked (w := s) (n := n) (c := blockedCall f)
    (v := s.enterBlocked n f) rfl enterBlocked_told
  rw [faults.trans endCall_faults] at frame
  exact ⟨written, marked, left, freed, told, frame⟩

/-- Settles O29: the accepted request is `blockLocally` beside the ports, by the state it finds. -/
theorem blockTakesOrDefers : Obligations.BlockTakesOrDefers := by
  intro s p tag hi lo n admits permit hn equipped clean flag flags remote
  obtain ⟨u, e, answered, apart⟩ := exec_atChannel_accepted (exec_block s) admits permit permitChannel_stable rfl hn
    equipped (f := fun t => (t.blockLocally n).1) (answer := [yesNo (s.blockLocally n).2])
    (fun _ _ _ => by rw [blockLocally_withPorts]) fun P k => by
      rw [blockChannel_accepts (s := withPorts P k s) clean flag, blockLocally_withPorts]
  refine ⟨fun f adds h => ⟨u, s.apart u, e, ?_, rfl, ?_⟩, fun state => ⟨u, s.apart u, e, ?_, rfl, ?_⟩,
    fun state => ⟨u, s.apart u, e, ?_, rfl, ?_⟩⟩
  · rcases h with ⟨state, -, -⟩ | ⟨state, -, -⟩
    · rwa [blockLocally_idle state] at answered
    · rwa [blockLocally_guard state] at answered
  · rcases h with ⟨state, rfl, rfl⟩ | ⟨state, rfl, rfl⟩
    · rw [apart, blockLocally_idle state]
      exact enterBlocked_drainCheck
    · rw [apart, blockLocally_guard state]
      exact blockByCondition_effect
  · rwa [blockLocally_blocked state] at answered
  · rw [apart, blockLocally_blocked state]
    exact writeFlags_blocked_effect state
  · rwa [blockLocally_deferred state] at answered
  · rw [apart, blockLocally_deferred state]
    exact (writeFlags_other fun blocked => state (by simp [blocked])).symm

/-! ## UNBLOCK (R93) -/

theorem unblockChannel_accepts (clean : (s.channel n).errors = []) (flag : (s.call n).flags.locally = true) :
    unblockChannel p n s = accepted (s.liftFlag n { (s.call n).flags with locally := false }) := by
  unfold unblockChannel
  rw [checkedRule_clean clean, if_pos flag]

theorem liftFlag_keeps (h : (s.call n).state = .blocked → f ≠ noFlags) : s.liftFlag n f = s.writeFlags n f := by
  unfold liftFlag
  rw [if_neg fun both => h both.1 both.2]

/-- Settles O30: the accepted request is `liftFlag` beside the ports, by the state and the flags that are left. -/
theorem unblockSettlesOrKeeps : Obligations.UnblockSettlesOrKeeps := by
  intro s p tag hi lo n admits permit hn equipped clean flag flags
  obtain ⟨u, e, answered, apart⟩ := exec_atChannel_accepted (exec_unblock s) admits permit permitChannel_stable rfl hn
    equipped (f := fun t => t.liftFlag n flags) (fun _ _ _ => liftFlag_withPorts)
    fun P k => unblockChannel_accepts (s := withPorts P k s) clean flag
  refine ⟨fun state unflagged block codes => ⟨u, e, answered, ?_⟩,
    fun state flagged => ⟨u, s.apart u, e, answered, rfl, ?_⟩, fun state => ⟨u, s.apart u, e, answered, rfl, ?_⟩⟩
  · rw [apart, unflagged]
    exact liftFlag_settled state block codes
  · rw [apart, liftFlag_keeps fun _ => flagged]
    exact writeFlags_blocked_effect state
  · rw [apart, liftFlag_keeps fun blocked => absurd blocked state]
    exact (writeFlags_other state).symm

/-! ## RESET_CHANNEL (R98, R99) -/

theorem resetChannelRule_accepts (clean : (s.channel n).errors = []) (span : (s.call n).state ≠ .fault .span)
    (record : (s.call n).state = .fault .record → s.purgePending n = false) :
    resetChannelRule p n s = accepted (s.resetCall n) := by
  unfold resetChannelRule
  rw [checkedRule_clean clean, if_neg span, if_neg fun pending => by simp [record pending.1] at pending]

/-- An accepted RESET_CHANNEL leaves these flags, with these reasons (R99). -/
def TakenByReset (s : State) (n : ChannelNo) (f : BlockFlags) (adds : List (PortNo × AttentionObject × Reason)) :
    Prop :=
  (s.call n).state ∈ [.outSeized, .outWaitAnswer, .inSeized, .inAlerting, .connected, .clearingLocal,
      .clearingRemote] ∧ f = (s.call n).flags ∧ adds = [(s.callPort n, .channel n, .channel .reset)] ∨
  (s.call n).state ∈ [.idle, .guard, .blocked, .fault .release] ∧ f = (s.call n).flags ∧ adds = [] ∨
  (s.call n).state = .fault .record ∧ s.purgePending n = false ∧ f = ⟨false, s.groupDrains n, false⟩ ∧ adds = []

theorem TakenByReset.accepts (h : TakenByReset s n f adds) (clean : (s.channel n).errors = []) :
    resetChannelRule p n s = accepted (s.resetCall n) := by
  apply resetChannelRule_accepts clean
  · intro span
    simp [TakenByReset, span] at h
  · intro record
    simp only [TakenByReset, record, List.mem_cons, List.not_mem_nil, reduceCtorEq, CallState.fault.injEq, or_self,
      false_and, false_or, true_and] at h
    exact h.1

theorem TakenByReset.entersGuard (h : TakenByReset s n f adds) : EntersGuard n f adds s (s.resetCall n) := by
  unfold resetCall
  rcases h with ⟨state, rfl, rfl⟩ | ⟨state, rfl, rfl⟩ | ⟨state, -, rfl, rfl⟩
  · simp only [List.mem_cons, List.not_mem_nil, or_false] at state
    rcases state with state | state | state | state | state | state | state <;> rw [state] <;>
      exact enterGuard_silent.tell
  · simp only [List.mem_cons, List.not_mem_nil, or_false] at state
    rcases state with state | state | state | state <;> rw [state] <;> exact enterGuard_silent
  · rw [state]
    exact enterGuard_silent

/-- Settles O31: the accepted request is `resetCall` beside the ports, an entry to GUARD with its reasons. -/
theorem resetChannelEntersGuard : Obligations.ResetChannelEntersGuard := by
  intro s p tag hi lo n f adds admits admin hn equipped clean h
  have taken : TakenByReset s n f adds := h
  obtain ⟨u, e, answered, apart⟩ := exec_atChannel_accepted (exec_resetChannel s) admits admin (fun _ same _ _ => same)
    rfl hn equipped (f := fun t => t.resetCall n) (fun _ _ _ => resetCall_withPorts)
    fun P k => taken.accepts (s := withPorts P k s) clean
  refine ⟨u, s.apart u, e, answered, rfl, ?_⟩
  rw [apart]
  exact taken.entersGuard.effect

end Sys2Proof.Machine
end

section
/-! A BLOCKED channel that LOCAL or DRAIN holds, or that the far end blocks, follows the far end (O25). -/

namespace Sys2Proof.Machine

open State

variable {s t : State} {n : ChannelNo} {x : LineCode} {c : Condition} {r : ChannelReason} {f : BlockFlags}
  {l : List Occurrence}

/-- The far end's block comes or goes at a BLOCKED channel that stays BLOCKED, with this reason and these occurrences
(R95). -/
def FollowsFarEnd (s : State) (n : ChannelNo) (c : Condition) (r : ChannelReason) (l : List Occurrence) : Prop :=
  c = .block ∧ (s.call n).flags.remote = false ∧ r = .farBlocked ∧ l = [] ∨
  c = .free ∧ (s.call n).flags.remote = true ∧ ((s.call n).flags.locally || (s.call n).flags.drain) = true ∧
    r = .farUnblocked ∧ l = [] ∨
  c = .seize ∧ (s.call n).flags.remote = true ∧ ((s.call n).flags.locally || (s.call n).flags.drain) = true ∧
    r = .farUnblocked ∧ l = [⟨.sequence, some (spanOf n), some n, none, none, some .blocked⟩]

theorem FollowsFarEnd.adopted (h : FollowsFarEnd s n c r l) : FollowsFarEnd (s.adopted n x) n c r l := by
  unfold FollowsFarEnd
  rw [adopted_call]
  exact h

/-- The occurrences are reported first; then REMOTE and the transmitted condition are written, and the maintenance port
is told. -/
theorem conditionChange_follows (state : (s.call n).state = .blocked) (h : FollowsFarEnd s n c r l) :
    ∃ t, t = { s with faults := t.faults } ∧ Reported l s t ∧ s.conditionChange n (.is c) =
      (t.writeFlags n { (s.call n).flags with remote := decide (c = .block) }).tellMaintenance n r := by
  have quiet : Reported [] s s := by
    unfold Reported
    rw [List.append_nil]
  unfold conditionChange
  rw [state]
  dsimp only
  unfold changeInBlocked
  rcases h with ⟨rfl, remote, rfl, rfl⟩ | ⟨rfl, remote, held, rfl, rfl⟩ | ⟨rfl, remote, held, rfl, rfl⟩ <;> dsimp only
  · exact ⟨s, rfl, quiet, if_neg (by simp [remote])⟩
  · exact ⟨s, rfl, quiet, (if_pos remote).trans (if_pos held)⟩
  · refine ⟨s.reportChannel .sequence n, rfl, ?_, (if_pos held).trans (if_pos remote)⟩
    rw [← state]
    rfl

/-- The flags of a BLOCKED channel written, and the maintenance port told. -/
theorem writeFlags_blocked_told (state : (s.call n).state = .blocked) :
    let u := (s.writeFlags n f).tellMaintenance n r
    CallWritten n { s.call n with flags := f, transmitted := blockedCondition f } s u ∧ Marked n s u ∧
    Told [((s.config n).maintenance, .channel n, .channel r)] s u ∧
    u = { s with channels := u.channels, link := u.link, lists := u.lists } := by
  obtain ⟨written, -, frame⟩ := writeFlags_blocked_effect (f := f) state
  have same : SameCodes s (s.writeFlags n f) := .of_groups (by rw [frame]) (by rw [frame]) (by rw [frame])
  have tells : (s.writeFlags n f).tellMaintenance n r = (s.writeFlags n f).tell (s.config n).maintenance n r := by
    unfold tellMaintenance
    rw [same.config_eq (written.equipment_eq n)]
  rw [tells, writeFlags_blocked state]
  exact writeCall_told

/-- Settles O25: what the far end changes, seen from the state before the code is adopted. -/
theorem blockedFollowsTheFarEnd : Obligations.BlockedFollowsTheFarEnd := by
  intro s n x c r l brings state h
  have blocked : ((s.adopted n x).call n).state = .blocked := by rw [adopted_call, state]
  obtain ⟨t, rest, reported, change⟩ := conditionChange_follows blocked (FollowsFarEnd.adopted (x := x) h)
  have call : t.call n = s.call n := by
    rw [rest]
    exact adopted_call n
  have config : t.config n = s.config n := by
    rw [rest]
    exact adopted_config n
  have same : SameCodes (s.adopted n x) t := .of_groups (by rw [rest]) (by rw [rest]) (by rw [rest])
  obtain ⟨written, marked, told, frame⟩ := writeFlags_blocked_told (s := t) (n := n) (r := r)
    (f := { (s.call n).flags with remote := decide (c = .block) }) (by rw [call, state])
  rw [adopted_call] at change
  rw [← change] at written marked told frame
  rw [call] at written
  rw [config] at told
  refine ⟨_, exec_brings brings, written.after (by rw [rest]), marked.after (by rw [rest]) (by rw [rest]) same,
    told_of_adopted (told.after (by rw [rest])), ?_, ?_⟩
  · unfold Reported at reported ⊢
    rw [frame]
    exact reported
  · rw [frame]
    conv_lhs => rw [rest]

end Sys2Proof.Machine
end

section
/-! Notices at their channel (O52): the pending notice is gone before the call part is checked, and what the notice
does to a clean record is that of span-down and span-up. -/

namespace Sys2Proof.Machine

open State

variable {s : State} {n : ChannelNo} {kind : Notice} {effect : State → State} {c : Instr}

/-- The pending notice of the channel's position is none, and nothing else changed (R113). -/
def State.withoutNotice (n : ChannelNo) (s : State) : State :=
  s.modSpan (spanOf n) fun r => { r with notices := r.notices.set (positionOf n) .none }

theorem withoutNotice_channel (m : ChannelNo) : (s.withoutNotice n).channel m = s.channel m := rfl

theorem takeNotice_pending (pending : s.noticeOf n = kind) :
    s.takeNotice n kind effect = (s.withoutNotice n).checked n none effect :=
  if_pos pending

/-- One bit in error is corrected, and the notice is taken as on a clean record (R114, R157). -/
theorem takeNotice_single {b : Nat} (pending : s.noticeOf n = kind) (single : (s.channel n).errors = [b]) :
    s.takeNotice n kind effect = (s.corrected n none).takeNotice n kind effect := by
  have still : (s.corrected n none).noticeOf n = kind := pending
  rw [← withoutNotice_channel (n := n)] at single
  calc s.takeNotice n kind effect
    _ = (s.withoutNotice n).checked n none effect := takeNotice_pending pending
    _ = effect ((s.withoutNotice n).corrected n none) := checked_single single
    _ = (s.corrected n none).takeNotice n kind effect := (takeNotice_next still corrected_errors).symm

/-- Two bits in error lose the record, and the notice is gone all the same (R114, R159). -/
theorem takeNotice_double {a b : Nat} (pending : s.noticeOf n = kind) (double : (s.channel n).errors = [a, b]) :
    s.takeNotice n kind effect = (s.withoutNotice n).loseRecord n none := by
  rw [← withoutNotice_channel (n := n)] at double
  rw [takeNotice_pending pending, checked_double double]

theorem takeNotice_checksFirst (he : ∀ t, exec c t = .next (event (takeNotice n kind effect) t))
    (pending : s.noticeOf n = kind) : ChecksFirst c n s (s.withoutNotice n) :=
  checksFirst he (fun _ => takeNotice_single pending) fun _ _ => takeNotice_double pending

theorem exec_takesNotice (he : exec c s = .next (event (takeNotice n kind effect) s)) (pending : s.noticeOf n = kind)
    (clean : (s.channel n).errors = []) : exec c s = .next (s.built (effect (s.withoutNotice n))) := by
  rw [he, event_built (takeNotice_next pending clean)]
  rfl

/-- Settles O52: each command takes its notice by `takeNotice`; DOWN_UP is span-down and then span-up. -/
theorem noticesReachTheirChannel : Obligations.NoticesReachTheirChannel := by
  refine ⟨fun s n c taken => ?_, fun s n clean => ⟨fun down => ?_, fun up => ?_, fun both => ?_⟩⟩
  · obtain ⟨rfl, pending⟩ | ⟨rfl, pending⟩ | ⟨rfl, pending⟩ := taken
    · exact takeNotice_checksFirst (fun t => exec_spanDown t) pending
    · exact takeNotice_checksFirst (fun t => exec_spanUp t) pending
    · exact takeNotice_checksFirst (fun t => exec_downUp t) pending
  · exact ⟨_, exec_takesNotice (exec_spanDown s) down clean, spanDown_took⟩
  · exact ⟨_, exec_takesNotice (exec_spanUp s) up clean, spanUp_took⟩
  · exact ⟨_, _, exec_takesNotice (exec_downUp s) both clean, spanDown_took, spanUp_took⟩

end Sys2Proof.Machine
end

section
/-! A silence expiry (O53): the codes that wait are taken, and then the span's record is written by its state. -/

namespace Sys2Proof.Machine

open State

variable {s u : State} {sp : SpanNo} {c : SpanConfig} {r : SpanRecord}
  {adds : List (PortNo × AttentionObject × Reason)} {occurrences : List Occurrence}

/-! ## The silence effect by the state of the span (R108) -/

/-- A span record at any silence expiry (R108). -/
def silenced (r : SpanRecord) : SpanRecord := { r with lastSequence := none, farRun := 0, silence := none }

/-- A step that clears no candidate leaves the channel records as they were. -/
theorem SpanWritten.channels_eq (h : SpanWritten sp r false adds occurrences s u) : u.channels = s.channels :=
  Table.ext_get fun n => (h.channel n).trans (if_neg (by simp))

/-- Entry to FAILED from service by silence (R109, R112). -/
theorem failFromService_written (config : (s.span sp).config = some c) :
    SpanWritten sp { s.span sp with
      state := .failed .silent, faultRun := 0, cleanRun := 0
      notices := (s.span sp).notices.mapIdx fun k x => if s.equipped (channelAt sp k) = true then .down else x }
      false [(c.maintenance, .span sp, .span .spanFailed)] [⟨.spanSilent, some sp, none, none, none, none⟩]
      s (s.failFromService sp .silent) := by
  obtain ⟨spans, told, reported, frame⟩ := failFromService_effect (x := .silent) config
  refine ⟨spans, fun n => ?_, told, reported, ?_⟩
  · rw [frame, if_neg (by simp)]
    rfl
  · rw [frame]

/-- A span in service fails with cause SILENT. -/
theorem silenceEffect_fails (config : (s.span sp).config = some c)
    (serving : (s.span sp).state = .inService ∨ (s.span sp).state = .suspect) :
    SpanWritten sp { silenced (s.span sp) with
      state := .failed .silent, faultRun := 0, cleanRun := 0
      notices := (s.span sp).notices.mapIdx fun k x => if s.equipped (channelAt sp k) = true then .down else x }
      false [(c.maintenance, .span sp, .span .spanFailed)] [⟨.spanSilent, some sp, none, none, none, none⟩]
      s (s.silenceEffect sp) := by
  have effect : s.silenceEffect sp = (s.modSpan sp silenced).failFromService sp .silent := by
    unfold silenceEffect
    rcases serving with state | state <;> rw [state] <;> rfl
  have stopped := SpanWritten.modSpan (s := s) (sp := sp) (f := silenced)
  have failed := failFromService_written (s := s.modSpan sp silenced) (c := c) (by rw [stopped.span]; exact config)
  rw [stopped.span] at failed
  rw [effect]
  exact stopped.trans failed

/-- A span out of service: what the expiry writes, by its state. -/
theorem silenceEffect_quiet
    (h : (∃ x, (s.span sp).state = .recovering x) ∧
        r = { silenced (s.span sp) with state := .failed .silent, faultRun := 0, cleanRun := 0 } ∨
      (∃ x, (s.span sp).state = .failed x) ∧ r = silenced (s.span sp) ∨
      (s.span sp).state = .starting ∧ r = { silenced (s.span sp) with cleanRun := 0 }) :
    s.silenceEffect sp = { s with spans := s.spans.set sp r } := by
  unfold silenceEffect
  rcases h with ⟨⟨x, state⟩, rfl⟩ | ⟨⟨x, state⟩, rfl⟩ | ⟨state, rfl⟩ <;> rw [state] <;> dsimp only
  · unfold failAgain modSpan
    rw [Table.update_update]
    rfl
  · rfl
  · unfold modSpan
    rw [Table.update_update]
    rfl

/-! ## The expiry -/

theorem exec_silenceExpiry_due (due : (s.span sp).silence = some 0) :
    exec (.silenceExpiry sp) s = .next (s.built ((s.takeHanded sp).silenceEffect sp)) := by
  have expires : expireSilence sp s = (s.takeHanded sp).silenceEffect sp := if_pos due
  rw [exec_silenceExpiry, event_built expires]

/-- Settles O53: the codes are taken, and the silence effect of what they leave writes the span by its state. -/
theorem silenceFailsTheSpan : Obligations.SilenceFailsTheSpan := by
  intro s sp c due config after
  have taken := codesTaken_takeHanded (s := s) (sp := sp)
  have expires := exec_silenceExpiry_due due
  obtain ⟨within, -⟩ := taken.frame
  have equipped (n) : (s.takeHanded sp).equipped n = s.equipped n := congrArg (·.group.isSome) (within.equipment n)
  have record : (s.takeHanded sp).span sp = { s.span sp with handed := .fill 32 none } := by
    rw [span_takeHanded (by rw [config]; rfl), if_pos rfl]
  generalize s.takeHanded sp = w at *
  have stopped : silenced (w.span sp) = after := congrArg silenced record
  refine ⟨fun serving => ?_, fun next h => ?_⟩
  · have failed := silenceEffect_fails (s := w) (sp := sp) (c := c) (by rw [record]; exact config)
      (by rw [record]; exact serving)
    have channels := failed.channels_eq
    obtain ⟨-, told, reported, frame⟩ := failed.withFreeCount (k := s.freeCount)
    rw [channels] at frame
    refine ⟨_, _, taken, expires, ?_, fun k other => failed.span_other other, told, reported, frame⟩
    rw [failed.span, stopped, record]
    simp only [equipped]
    rfl
  · have written := silenceEffect_quiet (s := w) (sp := sp) (r := next) (by rw [stopped, record]; exact h)
    rw [written] at expires
    exact ⟨_, w.freeCount, taken, expires⟩

end Sys2Proof.Machine
end

section
/-! The purge visit (O49): what freeing the stale entries of one set does, and the lost set after a visit counted. -/

namespace Sys2Proof.Machine

open State

variable {s : State} {k : SetNo}

/-- The stale entries of a set, in way order (R127, R134). -/
def State.staleEntries (k : SetNo) (s : State) : List IndexEntry :=
  (validEntries (s.index.get k)).filter fun e => s.purgePending e.channel

theorem staleEntries_eq_ways : s.staleEntries k =
    (List.finRange 4).filterMap fun w => ((s.index.get k).get w).filter fun e => s.purgePending e.channel := by
  rw [State.staleEntries, validEntries_eq, List.filter_filterMap]

/-- The owners are told in way order, and besides their lists only the index changes. -/
theorem freeStale_effect :
    Told ((s.staleEntries k).map fun e => (e.owner, .channel e.channel, .channel .recordLost)) s (s.freeStale k) ∧
    s.freeStale k = { s with
      index := s.index.update k fun ways => ways.map fun w => w.filter fun e => !s.purgePending e.channel
      lists := (s.freeStale k).lists } :=
  foldl_tell_told (s.staleEntries k) _ [] (told_nil rfl)

/-- Stale entries leave the ways of the set, and every other way keeps what it holds. -/
theorem freeStale_way (j : SetNo) (w : WayNo) : ((s.freeStale k).index.get j).get w =
    if j = k then ((s.index.get j).get w).filter fun e => !s.purgePending e.channel else (s.index.get j).get w := by
  obtain ⟨-, frame⟩ := freeStale_effect (s := s) (k := k)
  rw [frame, Table.get_update]
  split
  · next same => rw [Table.get_map, same]
  · rfl

/-- Of the lost channels those stay that had more than one visit left (R134). -/
theorem visited_lost (lost : List LostChannel) :
    (lost.map fun l => { l with remaining := l.remaining - 1 }).filter (fun l => l.remaining ≠ 0) =
      (lost.filter fun l => 1 < l.remaining).map fun l => { l with remaining := l.remaining - 1 } := by
  rw [List.filter_map]
  refine congrArg (List.map _) (List.filter_congr fun l _ => ?_)
  simp only [Function.comp_apply, decide_eq_decide]
  omega

/-- Settles O49: the stale entries of the set are freed, and then the walk counts the visit and moves on. -/
theorem purgeVisitsFreeStaleEntries : Obligations.PurgeVisitsFreeStaleEntries := by
  intro s due stale
  obtain ⟨told, frame⟩ := freeStale_effect (s := s) (k := s.purge.cursor)
  have walk : (s.freeStale s.purge.cursor).purge = s.purge := by rw [frame]
  have visit : exec .purgeVisit s = .next s.purgeVisit := by
    rw [exec_purgeVisit, takePurgeVisit, if_pos due]
  refine ⟨_, visit, freeStale_way, ?_, ?_, ?_⟩
  · rw [staleEntries_eq_ways] at told
    exact told.of_lists rfl
  · simp only [State.purgeVisit, walk, visited_lost]
  · unfold State.purgeVisit
    rw [frame]

end Sys2Proof.Machine
end

section
/-! TRANSFER and its sweep (O47): the request's checks, the start of the transfer at the ports and beside them, and the
visit that gives a set's entries to the target. -/

namespace Sys2Proof.Machine

open State

variable {s : State} {p q source target : PortNo} {tag a b : Byte} {t : Transfer} {k : SetNo}

/-! ## The checks (R148) -/

theorem transferRequest_field (h : portField a = none ∨ portField b = none) :
    s.transferRequest p tag [a, b] = s.respond p tag .badRequest [] := by
  unfold State.transferRequest
  dsimp only
  rcases h with h | h
  · rw [h]
  · rw [h]
    cases portField a <;> rfl

/-- The checks of R148, in order, of a request that names a source and a target. -/
theorem transferRequest_named (ha : portField a = some source) (hb : portField b = some target) :
    s.transferRequest p tag [a, b] =
      if source = target ∨ source = p ∨ (s.port target).enabled = false then s.respond p tag .badRequest []
      else if s.transfer ≠ none then s.respond p tag .busy []
      else (s.startTransfer source target p).beginLong p tag .transfer := by
  unfold State.transferRequest
  dsimp only
  rw [ha, hb]
  simp only [Bool.not_eq_true', ne_eq, ← Option.isSome_iff_ne_none]

theorem driveSdo_enabled {c : Nat} : ((s.driveSdo p c).port q).enabled = (s.port q).enabled := by
  by_cases same : q = p
  · obtain ⟨sdo, port⟩ := driveSdo_port (s := s) (p := p) (k := c)
    rw [same, port]
  · rw [driveSdo_port_other same]

/-- An admitted TRANSFER comes to its own checks. -/
theorem exec_transfer_admitted (admits : s.Admits p) (admin : (s.port p).admin = true) :
    exec (.transfer p tag [a, b]) s = .next (s.built ((s.driveSdo p 6).transferRequest p tag [a, b])) := by
  obtain ⟨sdo, port⟩ := driveSdo_port (s := s) (p := p) (k := 6)
  rw [exec_transfer, event_built]
  refine serve_admitted (body := [a, b]) admits ?_ rfl
  show ((s.driveSdo p 6).port p).admin = true
  rw [port]
  exact admin

/-- What its checks answer, with nothing else done, is a refusal: no build follows. -/
theorem exec_transfer_refused {status : Status} (admits : s.Admits p) (admin : (s.port p).admin = true)
    (answer : (s.driveSdo p 6).transferRequest p tag [a, b] = (s.driveSdo p 6).respond p tag status []) :
    ∃ u, exec (.transfer p tag [a, b]) s = .next u ∧ Refused p tag status s u := by
  refine ⟨_, exec_transfer_admitted admits admin, ?_⟩
  rw [answer, built_quiet (by simp) (by simp)]
  exact respond_refused

/-! ## The start (R149) -/

theorem startTransfer_port : (s.startTransfer source target p).port q =
    if q = source then { s.port source with enabled := false } else s.port q := Table.get_update ..

theorem beginLong_port {code : RequestCode} : (s.beginLong p tag code).port q =
    if q = p then { s.port p with state := .working ⟨tag, code⟩ } else s.port q := port_modPort ..

/-- The start at the ports: the requester waits, and the source is disabled. -/
theorem startTransfer_ports (other : source ≠ p) {c : Nat} :
    let u := ((s.driveSdo p c).startTransfer source target p).beginLong p tag .transfer
    (∃ sdo, u.port p = { s.port p with state := .working ⟨tag, .transfer⟩, sdo := sdo }) ∧
    u.port source = { s.port source with enabled := false } ∧ ∀ q, q ≠ p → q ≠ source → u.port q = s.port q := by
  intro u
  obtain ⟨sdo, port⟩ := driveSdo_port (s := s) (p := p) (k := c)
  refine ⟨⟨sdo, ?_⟩, ?_, fun q hp hs => ?_⟩
  · rw [beginLong_port, if_pos rfl, startTransfer_port, if_neg other.symm, port]
  · rw [beginLong_port, if_neg other, startTransfer_port, if_pos rfl, driveSdo_port_other other]
  · rw [beginLong_port, if_neg hp, startTransfer_port, if_neg hs, driveSdo_port_other hp]

/-- The start beside the ports is the start in the state before the request. -/
theorem startTransfer_apart {c : Nat} :
    s.apart (((s.driveSdo p c).startTransfer source target p).beginLong p tag .transfer) =
      { s.startTransfer source target p with ports := s.ports } := by
  rw [driveSdo_eq]
  rfl

/-! ## The sweep (R150, R153) -/

theorem exec_sweepVisit_due (flight : s.transfer = some t) (due : t.visitDue = true) :
    exec .sweepVisit s = .next (s.sweepVisit t) := by
  rw [exec_sweepVisit, takeSweepVisit, flight]
  exact congrArg _ (if_pos due)

/-- The entries of the source in the set under the cursor become the target's; every other way keeps what it holds. -/
theorem sweepSet_way (w : WayNo) : ((s.sweepSet t).index.get k).get w =
    if k = t.cursor then ((s.index.get k).get w).map fun e =>
      if e.owner = t.source then { e with owner := t.target } else e
    else (s.index.get k).get w := by
  unfold State.sweepSet
  rw [Table.get_update]
  split
  · next same => rw [Table.get_map, same]
  · rfl

theorem sweepVisit_moves (h : t.cursor ≠ 127) : s.sweepVisit t =
    { s.sweepSet t with transfer := some { t with cursor := t.cursor + 1, visitDue := false } } := if_neg h

theorem sweepVisit_completes (h : t.cursor = 127) : s.sweepVisit t = (s.sweepSet t).completeTransfer t := if_pos h

theorem sweepVisit_index : (s.sweepVisit t).index = (s.sweepSet t).index := by
  by_cases last : t.cursor = 127
  · rw [sweepVisit_completes last, State.completeTransfer, finishLong_index]
  · rw [sweepVisit_moves last]

theorem completeTransfer_eq : s.completeTransfer t = { s with
    lists := (s.completeTransfer t).lists, transfer := none, ports := (s.completeTransfer t).ports } := by
  unfold State.completeTransfer
  dsimp only
  rw [finishLong_eq]

/-- The source's list is emptied into the target's, and no other list changes. -/
theorem completeTransfer_list : (s.completeTransfer t).list q =
    if q = t.source then [] else if q = t.target then mergeLists (s.list t.source) (s.list t.target)
    else s.list q := by
  unfold State.completeTransfer State.list
  rw [finishLong_lists, Table.get_set, Table.get_set]

/-- Settles O47: the request by its checks and its start, the sweep visit by whether it is the last. -/
theorem transfersMoveEveryRole : Obligations.TransfersMoveEveryRole := by
  refine ⟨fun s p tag a b admits admin field => ?_, ?_, fun s t flight due => ?_⟩
  · exact exec_transfer_refused admits admin (transferRequest_field field)
  · intro s p tag a b source target admits admin ha hb barred
    have checks := transferRequest_named (s := s.driveSdo p 6) (p := p) (tag := tag) ha hb
    rw [driveSdo_enabled, driveSdo_transfer] at checks
    refine ⟨fun bar => ?_, fun free busy => ?_, fun free idle => ?_⟩
    · exact exec_transfer_refused admits admin (checks.trans (if_pos bar))
    · exact exec_transfer_refused admits admin (by rw [checks, if_neg free, if_pos busy])
    · have started := exec_transfer_admitted (tag := tag) (a := a) (b := b) admits admin
      rw [checks, if_neg free, if_neg (not_not.2 idle)] at started
      have other : source ≠ p := fun same => free (.inr (.inl same))
      obtain ⟨⟨sdo, requester⟩, disabled, others⟩ :=
        startTransfer_ports (s := s) (target := target) (tag := tag) other (c := 6)
      exact ⟨_, sdo, started, requester, disabled, others, startTransfer_apart⟩
  · refine ⟨s.sweepVisit t, exec_sweepVisit_due flight due, fun k w => ?_, fun more => ?_, fun last apart => ?_⟩
    · rw [sweepVisit_index]
      exact sweepSet_way w
    · rw [sweepVisit_moves more]
      rfl
    · rw [sweepVisit_completes last]
      refine ⟨fun long working => finishLong_port working, fun q other => finishLong_other other, ?_, ?_,
        fun q hs ht => ?_, ?_⟩
      · rw [completeTransfer_list, if_pos rfl]
      · rw [completeTransfer_list, if_neg apart.symm, if_pos rfl, mergeLists_eq]
        rfl
      · rw [completeTransfer_list, if_neg hs, if_neg ht]
        rfl
      · rw [completeTransfer_eq]
        rfl

end Sys2Proof.Machine
end

section
/-! NEXT_ATTENTION (O36): the layout of a member, and the request by the head of the list and the check of a channel's
record. -/

namespace Sys2Proof.Machine

open State

variable {s d : State} {p : PortNo} {tag : Byte} {n : ChannelNo} {m : Member} {rest : List Member}

/-! ## The line and the layout (R146, R193) -/

theorem attentionAsserted_iff : s.attentionAsserted p = true ↔ s.list p ≠ [] ∧ (s.port p).attention = true := by
  unfold attentionAsserted
  rw [Bool.and_eq_true, Bool.not_eq_true', List.isEmpty_eq_false_iff]

theorem channelReasonNumber_eq (x : ChannelReason) :
    channelReasonNumber x = [ChannelReason.offered, .abandoned, .proceeding, .answered, .farClear, .autoReleased,
      .clearDone, .seizeFailed, .glareLost, .rehunted, .answerTimeout, .offerTimeout, .releaseStuck, .spanDown,
      .recordLost, .reset, .farBlocked, .farUnblocked, .codeInvalid].idxOf x := by cases x <;> rfl

theorem spanReasonNumber_eq (x : SpanReason) :
    spanReasonNumber x = [SpanReason.spanFailed, .spanRestored, .farAlarmOn, .farAlarmOff].idxOf x := by
  cases x <;> rfl

theorem reasonNumber_eq : reasonNumber = fun r => match r with
    | .channel x => [ChannelReason.offered, .abandoned, .proceeding, .answered, .farClear, .autoReleased,
        .clearDone, .seizeFailed, .glareLost, .rehunted, .answerTimeout, .offerTimeout, .releaseStuck, .spanDown,
        .recordLost, .reset, .farBlocked, .farUnblocked, .codeInvalid].idxOf x
    | .drained => 0
    | .span x => [SpanReason.spanFailed, .spanRestored, .farAlarmOn, .farAlarmOff].idxOf x
    | .fault c => (classNo c).val := by
  funext r
  cases r with
  | channel x => exact channelReasonNumber_eq x
  | drained => rfl
  | span x => exact spanReasonNumber_eq x
  | fault c => rfl

/-- The kind and the number of a member's object, character by character. -/
theorem objectChars_eq (o : AttentionObject) : [char1 (objectKind o)] ++ chars2 (objectNumber o) = match o with
    | .channel n => [0x00#8, BitVec.ofNat 8 (n.val / 256), BitVec.ofNat 8 n.val]
    | .group g => [0x01#8, 0x00#8, BitVec.ofNat 8 g.val]
    | .span sp => [0x02#8, 0x00#8, BitVec.ofNat 8 sp.val]
    | .fault => [0x03#8, 0xFF#8, 0xFF#8] := by
  have high {k : Nat} (small : k < 256) : chars2 k = [0x00#8, BitVec.ofNat 8 k] := by
    unfold chars2
    rw [Nat.div_eq_of_lt small]
  cases o with
  | channel n => rfl
  | group g => exact congrArg _ (high (k := g.val) (by omega))
  | span sp => exact congrArg _ (high (k := sp.val) (by omega))
  | fault => rfl

/-! ## The rule (R144, R145, R157, R159) -/

/-- The member at the head of the list is taken off it. -/
def State.headTaken (p : PortNo) (rest : List Member) (s : State) : State := { s with lists := s.lists.set p rest }

theorem nextAttentionRule_empty (h : s.list p = []) : nextAttentionRule p s = refuse .empty s := by
  unfold nextAttentionRule
  rw [h]
  rfl

theorem nextAttentionRule_head (h : s.list p = m :: rest) : nextAttentionRule p s =
    (((s.headTaken p rest).takeSnapshot p m.object).1,
      ⟨.ok, memberChars m ((s.headTaken p rest).takeSnapshot p m.object).2⟩) := by
  unfold nextAttentionRule
  rw [h]
  rfl

/-- The snapshot of a member whose record, if it has one, has no bit in error (R145). -/
def State.standingSnapshot (s : State) : AttentionObject → Snapshot
  | .channel n => .view (s.channelView n)
  | .group _ | .span _ | .fault => .none

theorem takeSnapshot_clean {o : AttentionObject} (clean : ∀ n, o = .channel n → (s.channel n).errors = []) :
    s.takeSnapshot p o = (s, s.standingSnapshot o) := by
  cases o with
  | channel n =>
    unfold State.takeSnapshot
    dsimp only
    rw [checkCall_clean (clean n rfl)]
    rfl
  | group g => rfl
  | span sp => rfl
  | fault => rfl

/-- One bit in error is corrected, and the snapshot is that of the corrected record. -/
theorem takeSnapshot_single {b : Nat} (h : (s.channel n).errors = [b]) :
    s.takeSnapshot p (.channel n) = (s.corrected n (some (p, .nextAttention))).takeSnapshot p (.channel n) := by
  unfold State.takeSnapshot
  dsimp only
  rw [checkCall_single h, checkCall_clean corrected_errors]

/-- Two bits in error lose the record, and the snapshot says so. -/
theorem takeSnapshot_double {a b : Nat} (h : (s.channel n).errors = [a, b]) :
    s.takeSnapshot p (.channel n) = (s.loseRecord n (some (p, .nextAttention)), .recordFault) := by
  unfold State.takeSnapshot
  dsimp only
  rw [checkCall_double h]

theorem nextAttentionRule_single {b : Nat} (head : s.list p = m :: rest) (object : m.object = .channel n)
    (h : (s.channel n).errors = [b]) :
    nextAttentionRule p s = nextAttentionRule p (s.corrected n (some (p, .nextAttention))) := by
  rw [nextAttentionRule_head head, nextAttentionRule_head (s := s.corrected n _) head, object,
    takeSnapshot_single (s := s.headTaken p rest) h]
  rfl

/-- A request of any port whose rule is the same on the corrected record is taken as on the corrected record. -/
theorem exec_corrected {c : Instr} {code : RequestCode} {body : List Byte} {rule : State → State × Answer} {w : Finder}
    (he : ∀ t, exec c t = .next (event (serve p tag code body permitAny (answering p tag rule)) t))
    (admits : s.Admits p) (length : body.length = bodyLength code)
    (same : ∀ d, Driven s d → rule d = rule (d.corrected n w)) : exec c s = exec c (s.corrected n w) := by
  rw [he, he]
  refine congrArg _ (event_corrected ?_)
  rw [serve_admitted admits rfl length, serve_admitted (admits_corrected admits) rfl length, corrected_driveSdo]
  unfold answering
  rw [same _ driveSdo_form]

/-- Settles O36: the list is empty, or its head is answered with the snapshot that the check of its record gives. -/
theorem nextAttentionTakesTheHead : Obligations.NextAttentionTakesTheHead := by
  refine ⟨fun s p => attentionAsserted_iff, fun m snapshot => ?_, fun s p tag admits =>
    ⟨fun m rest n head object => ⟨fun b one => ?_, fun a b two => ?_⟩, fun empty => ?_, fun m rest head clean => ?_⟩⟩
  · unfold memberChars
    rw [objectChars_eq, reasonNumber_eq]
    cases snapshot <;> rfl
  · exact exec_corrected (fun t => exec_nextAttention t) admits rfl fun d dr =>
      nextAttentionRule_single ((dr.list p).trans head) object (by rw [dr.channel]; exact one)
  · have lost := loseRecord_lost (s := s.headTaken p rest) (n := n) (w := some (p, .nextAttention))
    have rule (P c) : nextAttentionRule p (withPorts P c s) =
        (withPorts P c ((s.headTaken p rest).loseRecord n (some (p, .nextAttention))),
          ⟨.ok, memberChars m .recordFault⟩) := by
      rw [nextAttentionRule_head (s := withPorts P c s) head, object,
        takeSnapshot_double (s := (withPorts P c s).headTaken p rest) two, ← loseRecord_withPorts]
      rfl
    obtain ⟨u, e, answered, apart⟩ := request_apart (tag := tag) (code := .nextAttention) (body := [])
      (permitted := permitAny) admits rfl (fun _ _ _ _ => rfl) rfl (.inl rfl) rule lost.ports.1 lost.ports.2
    exact ⟨u, by rw [exec_nextAttention, e], answered, apart ▸ lost⟩
  · exact exec_query_refused (exec_nextAttention s) admits rfl fun d dr =>
      nextAttentionRule_empty ((dr.list p).trans empty)
  · have rule (P c) : nextAttentionRule p (withPorts P c s) = 
        (withPorts P c (s.headTaken p rest), ⟨.ok, memberChars m (s.standingSnapshot m.object)⟩) := by
      rw [nextAttentionRule_head (s := withPorts P c s) head,
        takeSnapshot_clean (s := (withPorts P c s).headTaken p rest) clean]
      rfl
    obtain ⟨u, e, answered, apart⟩ := request_apart (tag := tag) (code := .nextAttention) (body := [])
      (permitted := permitAny) admits rfl (fun _ _ _ _ => rfl) rfl (.inl rfl) rule rfl rfl
    exact ⟨u, by rw [exec_nextAttention, e, built_apart apart rfl rfl], answered, apart⟩

end Sys2Proof.Machine
end

section
/-! Every command answers a next state (O2), and keeps a captured first fault (O60). -/

namespace Sys2Proof.Machine

variable {s t : State} {body : List Byte}

/-- From s to t the waiting commands stay as they were. -/
def SameQueue (s t : State) : Prop := t.pending = s.pending

theorem SameQueue.around : Around SameQueue := ⟨fun h => h.waits, fun h k => Eq.trans k h⟩

theorem SameQueue.clearFaults : SameQueue s (clearFaultsRule body s).1 := by
  unfold clearFaultsRule
  split
  · split
    · rfl
    · rfl
  · rfl

/-- Settles O2: POWER_ON_RESET and CLEAR_FAULTS are seen to leave the queue; every other command keeps more than the
queue. -/
theorem everyCommandCompletes : Obligations.EveryCommandCompletes := by
  intro c s
  by_cases reset : c = .powerOnReset
  · subst reset
    exact ⟨powerOnReset s, exec_powerOnReset s, rfl⟩
  by_cases clear : ∃ p tag body, c = .clearFaults p tag body
  · obtain ⟨p, tag, body, rfl⟩ := clear
    exact ⟨_, exec_clearFaults s, SameQueue.around.request fun _ => SameQueue.clearFaults⟩
  obtain ⟨t, e, keeps⟩ := exec_keeps c s reset fun p tag body h => clear ⟨p, tag, body, h⟩
  exact ⟨t, e, keeps.waits⟩

/-- Settles O60: the captured fault is among what every other command keeps. -/
theorem firstFaultStays : Obligations.FirstFaultStays := by
  intro c s t f e reset clear captured
  obtain ⟨u, eu, keeps⟩ := exec_keeps c s reset clear
  rw [e] at eu
  cases eu
  exact keeps.first f captured

end Sys2Proof.Machine
end

section
/-! Bad frames and overruns (O6): a request transfer by the level of RST_N and the state of its port, and the rows
BAD_FRAME and OVERRUN as such transfers. -/

namespace Sys2Proof.Machine

open State

variable {s : State} {p : PortNo} {f : List Byte} {k : Nat} {taken : State → State}

/-! ## A request transfer at a port (R182, R185, R186) -/

theorem requestArrives_low (low : s.rstN = false) : s.requestArrives p k taken = s := by
  unfold requestArrives
  rw [low]
  rfl

theorem requestArrives_working (high : s.rstN = true) (working : (s.port p).state.isWorking = true) :
    s.requestArrives p k taken = { s with ports := s.ports.update p fun r =>
      { r with overrun := true, sdo := List.replicate k 0 } } := by
  unfold requestArrives
  rw [if_neg (by simp [high])]
  cases state : (s.port p).state with
  | working long =>
    dsimp only
    rw [driveSdo_notReady (by rw [state]; exact nofun)]
    unfold modPort
    rw [Table.update_update]
  | idle => rw [state] at working; cases working
  | ready response => rw [state] at working; cases working

theorem requestArrives_taken (high : s.rstN = true) (free : (s.port p).state.isWorking = false) :
    s.requestArrives p k taken = taken (s.driveSdo p k) := by
  unfold requestArrives
  rw [if_neg (by simp [high])]
  cases state : (s.port p).state with
  | working long => rw [state] at free; cases free
  | idle => rfl
  | ready response => rfl

/-! ## The rows BAD_FRAME and OVERRUN -/

theorem badFrameTransfer_bad (request : isRequestTransfer f = true) (bad : parseRequest f = none) :
    badFrameTransfer p f s = s.requestArrives p f.length (·.answerBadFrame p) := by
  unfold badFrameTransfer
  rw [request, bad]
  rfl

theorem badFrameTransfer_low (low : s.rstN = false) : badFrameTransfer p f s = s := by
  unfold badFrameTransfer
  split
  · exact requestArrives_low low
  · rfl

theorem overrunTransfer_working (request : isRequestTransfer f = true)
    (working : (s.port p).state.isWorking = true) :
    overrunTransfer p f s = s.requestArrives p f.length id := by
  unfold overrunTransfer
  cases state : (s.port p).state with
  | working long => exact if_pos request
  | idle => rw [state] at working; cases working
  | ready response => rw [state] at working; cases working

theorem overrunTransfer_low (low : s.rstN = false) : overrunTransfer p f s = s := by
  unfold overrunTransfer
  cases (s.port p).state with
  | working long =>
    dsimp only
    rw [requestArrives_low low, ite_self]
  | idle => rfl
  | ready response => rfl

/-- A request whose body no frame can carry fails check 1, whatever its permission and its rule (log 26). -/
theorem event_serve_tooLong {tag : Byte} {code : RequestCode} {body : List Byte} {permitted : State → Bool}
    {go : State → State} (long : maxBody < body.length) (high : s.rstN = true)
    (free : (s.port p).state.isWorking = false) :
    event (serve p tag code body permitted go) s = (s.driveSdo p (4 + body.length)).answerBadFrame p := by
  have served : serve p tag code body permitted go s = (s.driveSdo p (4 + body.length)).answerBadFrame p := by
    rw [serve_taken high free]
    exact if_pos long
  exact event_quiet served (by simp) (by simp)

/-- Settles O6: the rows BAD_FRAME and OVERRUN by the state of the port, and every request with too long a body. -/
theorem badFramesAndOverrunsAreTurnedAway : Obligations.BadFramesAndOverrunsAreTurnedAway := by
  refine ⟨fun s p f high request => ⟨fun free bad => ?_, fun working => ?_⟩, fun s p f low => ⟨?_, ?_⟩,
    fun c s p tag code body named long high free => ?_⟩
  · refine ⟨_, ?_, answerBadFrame_effect (k := f.length)⟩
    rw [exec_badFrame, badFrameTransfer_bad request bad, requestArrives_taken high free]
  · rw [exec_overrun, overrunTransfer_working request working, requestArrives_working high working]
  · rw [exec_badFrame, badFrameTransfer_low low]
  · rw [exec_overrun, overrunTransfer_low low]
  · obtain ⟨permitted, go, -, served⟩ := exec_request named
    exact ⟨_, by rw [served, event_serve_tooLong long high free], answerBadFrame_effect⟩

end Sys2Proof.Machine
end

section
/-! SET_FAULT_CLASS and CLEAR_FAULTS (O44): what each rule answers, body by body. -/

namespace Sys2Proof.Machine

open State

variable {s : State} {body : List Byte} {c : FaultClass} {f : FaultClassRecord}

theorem faultClassFields_of_fields {a b d e g : Byte} {detect report : Bool} {severity : Severity} {target : PortNo}
    (cls : faultClassField a = some c) (detects : yesNoField b = some detect) (reports : yesNoField d = some report)
    (severe : severityField e = some severity) (port : portField g = some target) :
    faultClassFields [a, b, d, e, g] = some (c, ⟨detect, report, severity, target, 0⟩) := by
  unfold faultClassFields
  simp only [cls, detects, reports, severe, port, Option.bind_eq_bind, Option.bind_some]

/-- A body with a field out of its range spells no class. -/
theorem faultClassFields_none {a b d e g : Byte} (h : faultClassField a = none ∨ yesNoField b = none ∨
    yesNoField d = none ∨ severityField e = none ∨ portField g = none) :
    faultClassFields [a, b, d, e, g] = none := by
  unfold faultClassFields
  rcases h with h | h | h | h | h <;> simp [h]

theorem setFaultClassRule_fields (fields : faultClassFields body = none) :
    setFaultClassRule body s = refuse .badRequest s := by
  unfold setFaultClassRule
  rw [fields]

theorem setFaultClassRule_minorLoss (fields : faultClassFields body = some (c, f))
    (loss : c = .recordLost ∧ f.severity = .minor) : setFaultClassRule body s = refuse .badRequest s := by
  unfold setFaultClassRule
  rw [fields]
  exact if_pos loss

theorem setFaultClassRule_ok (fields : faultClassFields body = some (c, f))
    (severity : ¬ (c = .recordLost ∧ f.severity = .minor)) :
    setFaultClassRule body s =
      (s.modFaultClass c fun r => { f with target := s.redirect f.target, count := r.count }, ⟨.ok, []⟩) := by
  unfold setFaultClassRule
  rw [fields]
  exact if_neg severity

theorem clearFaultsRule_field {b : Byte} (field : yesNoField b = none) :
    clearFaultsRule [b] s = refuse .badRequest s := by
  unfold clearFaultsRule
  dsimp only
  rw [field]

theorem clearFaultsRule_ok {b : Byte} {zero : Bool} (field : yesNoField b = some zero) :
    clearFaultsRule [b] s = (s.clearFaults zero, ⟨.ok, []⟩) := by
  unfold clearFaultsRule
  dsimp only
  rw [field]
  rfl

/-- An administrator's request that writes the Fault Unit alone brings about no build. -/
theorem exec_admin_faults {i : Instr} {p : PortNo} {tag : Byte} {code : RequestCode}
    {rule : State → State × Answer} {unit : FaultUnit}
    (he : exec i s = .next (event (serve p tag code body (permitAdmin p) (answering p tag rule)) s))
    (admits : s.Admits p) (admin : (s.port p).admin = true) (length : body.length = bodyLength code)
    (writes : ∀ P k, rule (withPorts P k s) = (withPorts P k { s with faults := unit }, ⟨.ok, []⟩)) :
    ∃ u, exec i s = .next u ∧ Answered p tag .ok [] s u ∧ s.apart u = { s with faults := unit } := by
  obtain ⟨u, e, answered, apart⟩ := admin_apart (tag := tag) admits admin length writes rfl rfl
  exact ⟨u, by rw [he, e, built_apart apart rfl rfl], answered, apart⟩

/-- Settles O44: each request is refused for its fields, or writes the Fault Unit alone. -/
theorem faultClassesAreSetAndCleared : Obligations.FaultClassesAreSetAndCleared := by
  intro s p tag admits admin
  refine ⟨fun a b c d e x detect reporting severity target cls detects reports severe port => ?_,
    fun a b c d e outside => ?_, fun b field => ?_, fun b zero field => ?_⟩
  · have fields := faultClassFields_of_fields cls detects reports severe port
    exact ⟨fun allowed => exec_admin_faults (exec_setFaultClass s) admits admin rfl
        fun _ _ => setFaultClassRule_ok fields allowed,
      fun loss => exec_admin_refused (exec_setFaultClass s) admits admin rfl
        fun _ _ => setFaultClassRule_minorLoss fields loss⟩
  · exact exec_admin_refused (exec_setFaultClass s) admits admin rfl
      fun _ _ => setFaultClassRule_fields (faultClassFields_none outside)
  · exact exec_admin_refused (exec_clearFaults s) admits admin rfl fun _ _ => clearFaultsRule_field field
  · exact exec_admin_faults (exec_clearFaults s) admits admin rfl fun _ _ => clearFaultsRule_ok field

end Sys2Proof.Machine
end

section
/-! The Fault Unit takes an occurrence (O55): the three steps of R165, each with what it leaves. -/

namespace Sys2Proof.Machine

open State

variable {s : State} {o : Occurrence} {c : FaultClass}

theorem faultAsserted_iff : s.faultAsserted = true ↔ s.faults.first ≠ none := Option.isSome_iff_ne_none

/-- The number of a class is its place in the table of R164. -/
theorem faultClasses_classNo (c : FaultClass) : faultClasses[(classNo c).val]? = some c := by cases c <;> rfl

theorem classNo_inj {a b : FaultClass} : classNo a = classNo b ↔ a = b := by
  refine ⟨fun h => Option.some.inj ?_, congrArg classNo⟩
  rw [← faultClasses_classNo a, h, faultClasses_classNo b]

theorem faultClass_modFaultClass {f : FaultClassRecord → FaultClassRecord} {a : FaultClass} :
    (s.modFaultClass c f).faultClass a = if a = c then f (s.faultClass c) else s.faultClass a := by
  unfold State.faultClass State.modFaultClass
  rw [Table.get_update]
  simp only [classNo_inj]

/-! ## Steps 1 and 2: the count, and the report to the target port -/

/-- The occurrence counted and, where its class is reported, told to the class's target port. -/
def State.countedAndTold (c : FaultClass) (s : State) : State :=
  let t := s.modFaultClass c fun r => { r with count := if r.count = 255 then r.count else r.count + 1 }
  if (s.faultClass c).report then t.notify (s.faultClass c).target .fault (.fault c) else t

theorem countedAndTold_faults : (s.countedAndTold c).faults =
    (s.modFaultClass c fun r => { r with count := if r.count = 255 then r.count else r.count + 1 }).faults := by
  unfold State.countedAndTold
  dsimp only
  split
  · rfl
  · rfl

theorem countedAndTold_told :
    Told (if (s.faultClass c).report then [((s.faultClass c).target, .fault, .fault c)] else [])
      s (s.countedAndTold c) := by
  unfold State.countedAndTold
  split
  · exact Told.notify (adds := []) (told_nil rfl)
  · exact told_nil rfl

theorem countedAndTold_frame : s.countedAndTold c =
    { s with faults := (s.countedAndTold c).faults, lists := (s.countedAndTold c).lists } := by
  unfold State.countedAndTold
  dsimp only
  split
  · rfl
  · rfl

/-! ## Step 3: the capture (R166) -/

theorem captureOrJoin_empty (empty : s.faults.first = none) :
    s.captureOrJoin o = { s with faults := { s.faults with first := some ⟨o, s.millis⟩ } } := by
  unfold State.captureOrJoin
  rw [empty]

theorem captureOrJoin_captured (captured : s.faults.first ≠ none) :
    s.captureOrJoin o = { s with faults := { s.faults with later := s.faults.later.set (classNo o.cls) true } } := by
  unfold State.captureOrJoin
  split
  · next empty => exact absurd empty captured
  · rfl

/-- What step 3 leaves of an occurrence of some severity: a captured first fault, or a later major, or nothing. -/
theorem capture_effect {severity : Severity} {u : State}
    (h : (if severity = .major then s.captureOrJoin o else s) = u) :
    u.faults.first = (if severity = .major ∧ s.faults.first = none then some ⟨o, s.millis⟩ else s.faults.first) ∧
    (∀ k, u.faults.later.get k = (s.faults.later.get k ||
      decide (severity = .major ∧ s.faults.first ≠ none ∧ k = classNo o.cls))) ∧
    u.faults = { s.faults with first := u.faults.first, later := u.faults.later } ∧
    u = { s with faults := u.faults } := by
  subst h
  by_cases major : severity = .major
  · rw [if_pos major]
    by_cases empty : s.faults.first = none
    · rw [captureOrJoin_empty empty]
      exact ⟨(if_pos ⟨major, empty⟩).symm, fun k => by simp [empty], rfl, rfl⟩
    · rw [captureOrJoin_captured empty]
      refine ⟨(if_neg fun h => empty h.2).symm, fun k => ?_, rfl, rfl⟩
      simp only [Table.get_set, major, ne_eq, empty, not_false_eq_true, true_and]
      by_cases here : k = classNo o.cls
      · simp [here]
      · simp [here]
  · rw [if_neg major]
    exact ⟨(if_neg fun h => major h.1).symm, fun k => by simp [major], rfl, rfl⟩

/-! ## The occurrence taken -/

theorem takeOccurrence_undetected (undetected : (s.faultClass o.cls).detect = false) : s.takeOccurrence o = s := by
  unfold State.takeOccurrence
  exact if_pos (by simp [undetected])

theorem takeOccurrence_detected (detected : (s.faultClass o.cls).detect = true) :
    s.takeOccurrence o = if (s.faultClass o.cls).severity = .major then (s.countedAndTold o.cls).captureOrJoin o
      else s.countedAndTold o.cls := by
  unfold State.takeOccurrence
  exact if_neg (by simp [detected])

/-- The occurrence at a place of the list waits no longer; the others do. -/
def State.withoutReported (i : Nat) (s : State) : State :=
  { s with faults := { s.faults with reported := s.faults.reported.eraseIdx i } }

theorem takeReported_some {i : Nat} (waits : s.faults.reported[i]? = some o) :
    s.takeReported i = (s.withoutReported i).takeOccurrence o := by
  unfold State.takeReported
  rw [waits]
  rfl

/-- Every effect of a detected occurrence (R165, R166). -/
theorem takeOccurrence_effect (detected : (s.faultClass o.cls).detect = true) :
    let r := s.faultClass o.cls
    let u := s.takeOccurrence o
    u.faultClass o.cls = { r with count := if r.count = 255 then 255 else r.count + 1 } ∧
    (∀ c, c ≠ o.cls → u.faultClass c = s.faultClass c) ∧
    Told (if r.report then [(r.target, .fault, .fault o.cls)] else []) s u ∧
    u.faults.first = (if r.severity = .major ∧ s.faults.first = none then some ⟨o, s.millis⟩ else s.faults.first) ∧
    (∀ k, u.faults.later.get k = (s.faults.later.get k ||
      decide (r.severity = .major ∧ s.faults.first ≠ none ∧ k = classNo o.cls))) ∧
    u.faults.reported = s.faults.reported ∧ u = { s with faults := u.faults, lists := u.lists } := by
  intro r u
  have faults := countedAndTold_faults (s := s) (c := o.cls)
  have frame := countedAndTold_frame (s := s) (c := o.cls)
  obtain ⟨first, later, written, rest⟩ := capture_effect (u := u) (takeOccurrence_detected detected).symm
  have millis : (s.countedAndTold o.cls).millis = s.millis := by rw [frame]
  have lists : u.lists = (s.countedAndTold o.cls).lists := by rw [rest]
  rw [faults] at first later written
  rw [millis] at first
  have counted (c : FaultClass) : u.faultClass c = (s.modFaultClass o.cls _).faultClass c :=
    congrArg (·.classes.get (classNo c)) written
  refine ⟨?_, fun c other => ?_, countedAndTold_told.of_lists lists, first, later, ?_, ?_⟩
  · rw [counted, faultClass_modFaultClass, if_pos rfl]
    congr 1
    exact ite_congr rfl id fun _ => rfl
  · rw [counted, faultClass_modFaultClass, if_neg other]
  · rw [written]
    rfl
  · rw [lists]
    exact rest.trans (congrArg (fun w : State => { w with faults := u.faults }) frame)

/-- Settles O55: an occurrence of a class not detected only leaves the list; another is taken by the steps of R165. -/
theorem occurrencesAreTakenByTheirClass : Obligations.OccurrencesAreTakenByTheirClass := by
  refine ⟨fun s => faultAsserted_iff, fun s i o waits => ⟨fun undetected => ?_, fun detected => ?_⟩⟩
  · have unnoticed : (s.withoutReported i).takeOccurrence o = s.withoutReported i :=
      takeOccurrence_undetected undetected
    rw [exec_faultOccurrence, takeReported_some waits, unnoticed]
    rfl
  · exact ⟨_, by rw [exec_faultOccurrence, takeReported_some waits],
      takeOccurrence_effect (s := s.withoutReported i) detected⟩

end Sys2Proof.Machine
end

section
/-! Line messages are rejected by the first check of R174 that fails (O50). -/

namespace Sys2Proof.Machine

open State

section
variable {s : State} {m rest : List Byte} {o : Occurrence} {kind span sequence flags count : Byte} {sp : SpanNo}

/-- A message that the arrival ignores leaves no trace. -/
theorem exec_spanReport_ignored (h : s.messageArrives m = s) : exec (.spanReport m) s = .next s := by
  rw [exec_spanReport, event_quiet h rfl rfl]

/-- A message that is only reported brings about no build. -/
theorem exec_spanReport_reported (h : s.messageArrives m = s.report o) :
    exec (.spanReport m) s = .next (s.report o) := by
  rw [exec_spanReport, event_quiet h rfl rfl]

/-! ## The arrival (R172) -/

theorem messageArrives_low (low : s.rstN = false) : s.messageArrives m = s := if_pos (by simp [low])

theorem messageArrives_restarting (restarting : s.restart ≠ none) : s.messageArrives m = s :=
  if_pos (by simp [Option.isSome_iff_ne_none.2 restarting])

theorem messageArrives_running (high : s.rstN = true) (running : s.restart = none) :
    s.messageArrives m =
      if lineCrcPasses m then s.checkedMessage m else s.report ⟨.lineCheck, none, none, none, none, none⟩ := by
  unfold messageArrives
  rw [if_neg (by simp [high, running])]
  cases lineCrcPasses m <;> rfl

/-! ## The checks after the CRC (R174) -/

theorem checkedMessage_otherKind (other : kind ≠ 0x52#8) :
    s.checkedMessage (kind :: span :: sequence :: flags :: count :: rest) =
      s.report ⟨.lineFormat, numbered 16 span.toNat, none, none, none, none⟩ := if_pos other

theorem checkedMessage_noSpan (beyond : 16 ≤ span.toNat) :
    s.checkedMessage (0x52#8 :: span :: sequence :: flags :: count :: rest) =
      s.report ⟨.lineFormat, none, none, none, none, none⟩ := by
  have unnumbered : numbered 16 span.toNat = none := dif_neg (Nat.not_lt.2 beyond)
  unfold checkedMessage
  dsimp only
  rw [if_neg (by decide), unnumbered]

/-- An UNUSED span, or another count than its span's. -/
theorem checkedMessage_misfit (names : span.toNat = sp.val)
    (misfit : (s.span sp).config = none ∨ ∃ c, (s.span sp).config = some c ∧ (count.toNat ≠ c.count ∨
      (0x52#8 :: span :: sequence :: flags :: count :: rest).length ≠ 7 + count.toNat)) :
    s.checkedMessage (0x52#8 :: span :: sequence :: flags :: count :: rest) = s.reportSpan .lineFormat sp := by
  unfold checkedMessage
  dsimp only
  rw [if_neg (by decide), names, numbered_val]
  dsimp only
  rcases misfit with unused | ⟨c, config, differs⟩
  · rw [unused]
  · rw [config]
    exact if_pos differs

end

/-- Settles O50: the arrival ignores the message, or the first check that fails reports it. -/
theorem lineMessagesAreRejectedInOrder : Obligations.LineMessagesAreRejectedInOrder := by
  refine ⟨fun s m low => exec_spanReport_ignored (messageArrives_low low), fun s m high =>
    ⟨fun restarting => exec_spanReport_ignored (messageArrives_restarting restarting), fun o running fails => ?_⟩⟩
  have arrives := messageArrives_running (m := m) high running
  refine exec_spanReport_reported (arrives.trans ?_)
  rcases fails with ⟨damaged, rfl⟩ | ⟨kind, span, sequence, flags, count, rest, rfl, passes, format⟩
  · exact if_neg (by simp [damaged])
  · refine (if_pos passes).trans ?_
    rcases format with ⟨other, rfl⟩ | ⟨rfl, beyond, rfl⟩ | ⟨sp, rfl, names, rfl, misfit⟩
    · exact checkedMessage_otherKind other
    · exact checkedMessage_noSpan beyond
    · exact checkedMessage_misfit names misfit

end Sys2Proof.Machine
end

section
/-! The transmit side of the line link (O54): the arbiter and its build event, and a refresh. -/

namespace Sys2Proof.Machine

open State

section
variable {s : State} {m : List Byte} {sp q : SpanNo}

/-! ## The build event (R178, R179, R181) -/

theorem buildIfIdle_idle (idle : s.link.transmitter = none) (running : s.restart = none) :
    s.buildIfIdle = s.buildEvent := if_pos (by simp [idle, running])

theorem buildIfIdle_held (held : s.link.transmitter ≠ none ∨ s.restart ≠ none) : s.buildIfIdle = s :=
  if_neg (by simpa [imp_iff_not_or] using held)

theorem buildEvent_nothing (nothing : ∀ k, s.updatePending k = false) : s.buildEvent = s := by
  have unserved : s.nextServed = none := List.find?_eq_none.2 fun k _ => by simp [nothing]
  unfold buildEvent
  rw [unserved]

theorem buildEvent_serves (served : s.nextServed = some sp) : s.buildEvent = s.buildFor sp := by
  unfold buildEvent
  rw [served]

/-- With no bit in error an update carries the present codes of the dirty positions (R179). -/
theorem updatePairs_clean (clean : ∀ k, (s.channel (channelAt sp k)).errors = []) :
    s.updatePairs sp = ((List.finRange 32).filter fun k => (s.linkSpan sp).dirty.get k).map fun k =>
      (k, s.presentCode (channelAt sp k)) := by
  have sent (k) : s.sentCode (channelAt sp k) = s.presentCode (channelAt sp k) :=
    congrArg (fun c : CallPart => s.codeFor _ c.transmitted) (seenCall_clean (clean k))
  unfold updatePairs
  simp only [sent, indices_eq]

theorem buildFor_eq : s.buildFor sp = { s with link := { s.link with
    spans := s.link.spans.set sp ⟨.fill 32 false, s.alarmRequest sp, (s.linkSpan sp).sequence + 1⟩
    transmitter := some (spanUpdateMessage sp (s.linkSpan sp).sequence (s.alarmRequest sp) (s.updatePairs sp))
    servedLast := some sp } } := rfl

theorem endSending_sending (sending : s.link.transmitter = some m) :
    endSending s = State.buildIfIdle { s with link := { s.link with transmitter := none } } := by
  unfold endSending
  rw [sending]

/-! ## A refresh (R180) -/

/-- The whole image of a configured span becomes dirty; an UNUSED span stays as it is. -/
def State.refreshSpan (s : State) (sp : SpanNo) : State :=
  if (s.span sp).config.isSome then s.allDirty sp else s

/-- What the interface holds for a span after a refresh. -/
def State.refreshed (s : State) (sp : SpanNo) : LinkSpan :=
  match (s.span sp).config with
  | some c => { s.linkSpan sp with dirty := .tabulate fun k => k.val < c.count }
  | none => s.linkSpan sp

theorem expireRefresh_due (due : s.link.refreshTimer = some 0) : expireRefresh s = (List.finRange 16).foldl refreshSpan
    { s with link := { s.link with refreshTimer := load s.link.refreshInterval } } := if_pos due

theorem refreshSpan_eq : s.refreshSpan sp = s.modLinkSpan sp fun _ => s.refreshed sp := by
  have same : s.link.spans.update sp (fun _ => s.linkSpan sp) = s.link.spans := Table.update_id _ _ rfl
  unfold refreshSpan refreshed allDirty
  cases (s.span sp).config with
  | none =>
    unfold modLinkSpan
    dsimp only
    rw [same]
    rfl
  | some c => rfl

theorem linkSpan_refreshSpan : (s.refreshSpan sp).linkSpan q = if q = sp then s.refreshed sp else s.linkSpan q := by
  rw [refreshSpan_eq, linkSpan_modLinkSpan]

/-- A span refreshed once is refreshed: a second time changes nothing. -/
theorem refreshed_refreshSpan : (s.refreshSpan sp).refreshed q = s.refreshed q := by
  have spans : (s.refreshSpan sp).span q = s.span q := by rw [refreshSpan_eq]; rfl
  unfold refreshed
  rw [spans, linkSpan_refreshSpan]
  by_cases same : q = sp
  · subst same
    rw [if_pos rfl]
    unfold refreshed
    cases (s.span q).config <;> rfl
  · rw [if_neg same]

theorem linkSpan_foldl_refreshSpan (l : List SpanNo) (s : State) :
    (l.foldl refreshSpan s).linkSpan q = if q ∈ l then s.refreshed q else s.linkSpan q := by
  induction l generalizing s with
  | nil => rfl
  | cons k l ih =>
    rw [List.foldl_cons, ih, refreshed_refreshSpan, linkSpan_refreshSpan]
    by_cases same : q = k
    · simp [same]
    · simp [same]

theorem foldl_refreshSpan_frame (l : List SpanNo) (s : State) :
    l.foldl refreshSpan s = { s with link := { s.link with spans := (l.foldl refreshSpan s).link.spans } } := by
  induction l generalizing s with
  | nil => rfl
  | cons k l ih =>
    rw [List.foldl_cons, ih, refreshSpan_eq]
    rfl

end

/-- Settles O54: the arbiter's choice is built with the codes that stand, and a refresh reaches every span. -/
theorem updatesAreServedInTurn : Obligations.UpdatesAreServedInTurn := by
  refine ⟨fun s m sending => by rw [exec_endOfSending, endSending_sending sending],
    fun s idle running => ⟨fun nothing => ?_, fun sp pending first => ?_⟩,
    fun s => buildIfIdle_held, fun s due => ?_⟩
  · rw [buildIfIdle_idle idle running, buildEvent_nothing nothing]
  · intro dirty clean
    rw [buildIfIdle_idle idle running, buildEvent_serves (nextServed_eq pending first), buildFor_eq,
      updatePairs_clean clean]
  · refine ⟨_, by rw [exec_refreshExpiry, event_built (expireRefresh_due due)], fun sp => ?_,
      foldl_refreshSpan_frame _ _⟩
    exact (linkSpan_foldl_refreshSpan _ _).trans (if_pos (List.mem_finRange sp))

end Sys2Proof.Machine
end

section
/-! The admission of a request (O5): the check of R187 that fails first gives the whole effect. -/

namespace Sys2Proof.Machine

open State

variable {s u : State} {p : PortNo} {tag : Byte} {code : RequestCode} {body : List Byte} {permitted : State → Bool}
  {go : State → State}

/-! ## Checks 2 to 5 of R187 -/

/-- The checks that follow check 1. All but the permission are said of the state before the request's transfer, which
leaves what they read. -/
theorem serve_checks (high : s.rstN = true) (free : (s.port p).state.isWorking = false)
    (short : body.length ≤ maxBody) :
    serve p tag code body permitted go s =
      if (s.port p).enabled = false then (s.driveSdo p (4 + body.length)).respond p tag .denied []
      else if s.restart ≠ none then (s.driveSdo p (4 + body.length)).respond p tag .restarting []
      else if permitted (s.driveSdo p (4 + body.length)) = false then
        (s.driveSdo p (4 + body.length)).respond p tag .denied []
      else if body.length ≠ bodyLength code then (s.driveSdo p (4 + body.length)).respond p tag .badRequest []
      else go (s.driveSdo p (4 + body.length)) := by
  rw [serve_taken high free]
  dsimp only
  rw [if_neg (Nat.not_lt.2 short)]
  simp only [driveSdo_enabled, driveSdo_restart, Bool.not_eq_true', Option.isSome_iff_ne_none]

/-! ## The request's command -/

/-- Where admission comes to u whatever the request's own rule is, u is the whole effect of the command: nothing of the
line side changed, so no build follows. -/
theorem exec_of_serve {c : Instr} (named : requestOfCommand c = some (p, tag, code, body)) (link : u.link = s.link)
    (spans : u.spans = s.spans)
    (served : ∀ (permitted : State → Bool) (go : State → State), (∀ t, permitted t = permission p body t code) →
      serve p tag code body permitted go s = u) : exec c s = .next u := by
  obtain ⟨permitted, go, permits, runs⟩ := exec_request named
  rw [runs, event_quiet (served permitted go permits) link spans]

/-- A request that admission answers with a status is refused with it. -/
theorem exec_of_serve_refused {c : Instr} {status : Status}
    (named : requestOfCommand c = some (p, tag, code, body))
    (served : ∀ (permitted : State → Bool) (go : State → State), (∀ t, permitted t = permission p body t code) →
      serve p tag code body permitted go s = (s.driveSdo p (4 + body.length)).respond p tag status []) :
    ∃ t, exec c s = .next t ∧ Refused p tag status s t :=
  ⟨_, exec_of_serve named (by simp) (by simp) served, respond_refused⟩

/-- Settles O5: RST_N, the port's state, and then each check of R187 in its place. -/
theorem requestsAreAdmittedInOrder : Obligations.RequestsAreAdmittedInOrder := by
  intro c s p tag code body named
  refine ⟨fun low => exec_of_serve named rfl rfl fun _ _ _ => serve_low low,
    fun high working => exec_of_serve named rfl rfl fun _ _ _ => serve_working high working,
    fun high free short => ⟨fun disabled => ?_, fun enabled restart => ?_, fun enabled running denied => ?_,
      fun enabled running allowed length => ?_⟩⟩
  · refine exec_of_serve_refused named fun _ _ _ => ?_
    rw [serve_checks high free short, if_pos disabled]
  · refine exec_of_serve_refused named fun _ _ _ => ?_
    rw [serve_checks high free short, if_neg (by simp [enabled]), if_pos restart]
  · refine exec_of_serve_refused named fun _ _ permits => ?_
    rw [serve_checks high free short, if_neg (by simp [enabled]), if_neg (not_not.2 running),
      if_pos (by rw [permits, permission_driveSdo, denied])]
  · refine exec_of_serve_refused named fun _ _ permits => ?_
    rw [serve_checks high free short, if_neg (by simp [enabled]), if_neg (not_not.2 running),
      if_neg (by simp [permits, permission_driveSdo, allowed]), if_pos length]

end Sys2Proof.Machine
end

section
/-! Reads of a response (O7): its frame, and a read transfer by the state of its port. -/

namespace Sys2Proof.Machine

open State

variable {s : State} {p : PortNo} {k : Nat} {r : Response}

/-! ## The frame (R183, R192) -/

theorem statusNumber_eq (x : Status) : statusNumber x =
    [Status.ok, .denied, .badFrame, .badRequest, .notEquipped, .wrongState, .notOwner, .noChannel, .groupDraining,
      .spanDown, .refInUse, .refSetFull, .refUnknown, .recordFault, .inUse, .busy, .restarting, .aborted,
      .empty].idxOf x := by cases x <;> rfl

theorem responseHeadAndBody_eq (r : Response) : responseHeadAndBody r = [0xA5#8, r.tag,
    BitVec.ofNat 8 ([Status.ok, .denied, .badFrame, .badRequest, .notEquipped, .wrongState, .notOwner, .noChannel,
      .groupDraining, .spanDown, .refInUse, .refSetFull, .refUnknown, .recordFault, .inUse, .busy, .restarting,
      .aborted, .empty].idxOf r.status),
    if r.overrun then 0x01#8 else 0x00#8, BitVec.ofNat 8 r.body.length] ++ r.body := by
  rw [← statusNumber_eq]
  rfl

/-! ## What a transfer drives at a READY port (R182; log 18) -/

/-- The frame as far as the transfer reaches, and open characters where it reaches beyond. -/
theorem driveSdo_ready (ready : (s.port p).state = .ready r) :
    ∃ beyond : List Byte, beyond.length = k - (responseFrame r).length ∧
      s.driveSdo p k = { s with
        ports := s.ports.update p fun x => { x with sdo := (responseFrame r).take k ++ beyond }
        freeCount := s.freeCount + (k - (responseFrame r).length) } := by
  refine ⟨(List.range (k - (responseFrame r).length)).map fun j => Config.sdoBeyond (s.freeCount + j), by simp, ?_⟩
  unfold driveSdo
  rw [ready]
  rfl

/-! ## A read transfer (R185) -/

theorem readTransfer_low (low : s.rstN = false) : readTransfer p k s = s := by
  unfold readTransfer
  rw [low]
  rfl

theorem readTransfer_notReady (high : s.rstN = true) (clocked : 1 ≤ k) (notReady : ∀ r, (s.port p).state ≠ .ready r) :
    readTransfer p k s = s.driveSdo p k := by
  unfold readTransfer
  rw [if_neg (by simp [high]; omega)]
  cases state : (s.port p).state with
  | idle => rfl
  | working long => rfl
  | ready r => exact absurd state (notReady r)

theorem readTransfer_ready (high : s.rstN = true) (clocked : 1 ≤ k) (ready : (s.port p).state = .ready r) :
    readTransfer p k s =
      if (responseFrame r).length ≤ k then (s.driveSdo p k).modPort p fun x => { x with state := .idle }
      else s.driveSdo p k := by
  unfold readTransfer
  rw [if_neg (by simp [high]; omega), ready]

theorem readTransfer_partial (high : s.rstN = true) (clocked : 1 ≤ k) (ready : (s.port p).state = .ready r)
    (fewer : k < (responseFrame r).length) :
    readTransfer p k s = { s with ports := s.ports.update p fun x => { x with sdo := (responseFrame r).take k } } := by
  obtain ⟨beyond, length, driven⟩ := driveSdo_ready (k := k) ready
  have within : k - (responseFrame r).length = 0 := by omega
  obtain rfl : beyond = [] := List.length_eq_zero_iff.1 (length.trans within)
  rw [readTransfer_ready high clocked ready, if_neg (Nat.not_le.2 fewer), driven, within, List.append_nil]
  rfl

theorem readTransfer_complete (high : s.rstN = true) (clocked : 1 ≤ k) (ready : (s.port p).state = .ready r)
    (whole : (responseFrame r).length ≤ k) :
    ∃ beyond : List Byte, beyond.length = k - (responseFrame r).length ∧
      readTransfer p k s = { s with
        ports := s.ports.update p fun x => { x with state := .idle, sdo := responseFrame r ++ beyond }
        freeCount := s.freeCount + (k - (responseFrame r).length) } := by
  obtain ⟨beyond, length, driven⟩ := driveSdo_ready (k := k) ready
  refine ⟨beyond, length, ?_⟩
  rw [readTransfer_ready high clocked ready, if_pos whole, driven, List.take_of_length_le whole]
  unfold modPort
  rw [Table.update_update]

/-- Settles O7: the frame character by character, and a read by the state of its port. -/
theorem readsConsumeTheResponse : Obligations.ReadsConsumeTheResponse := by
  refine ⟨fun r => ?_, fun s p k low => ?_, fun s p k high clocked => ⟨fun notReady => ?_,
    fun r ready => ⟨fun fewer => ?_, fun whole => ?_⟩⟩⟩
  · dsimp only
    rw [← responseHeadAndBody_eq, responseFrame]
  · rw [exec_responseRead, readTransfer_low low]
  · rw [exec_responseRead, readTransfer_notReady high clocked notReady, driveSdo_notReady notReady]
  · rw [exec_responseRead, readTransfer_partial high clocked ready fewer]
  · obtain ⟨beyond, length, read⟩ := readTransfer_complete high clocked ready whole
    exact ⟨beyond, length, by rw [exec_responseRead, read]⟩

end Sys2Proof.Machine
end

section
/-! The request frame and its check (O8): check 1 of R187 takes a frame apart as the layout of R183 puts it together. -/

namespace Sys2Proof

variable {f body body' : List Byte} {b tag tag' length crc : Byte} {c : RequestCode}

/-! ## The code of a request (R191) -/

theorem requestOf_number (c : RequestCode) : requestOf c.number = some c := by cases c <;> rfl

theorem requestOf_eq_some : requestOf b = some c ↔ b = c.number := by
  constructor
  · intro found
    unfold requestOf at found
    have number : c.number = b := by simpa using List.find?_some found
    exact number.symm
  · rintro rfl
    exact requestOf_number c

/-! ## The length of a body (R183) -/

theorem lengthChar_iff {n : Nat} (short : n ≤ maxBody) : length = BitVec.ofNat 8 n ↔ length.toNat = n := by
  unfold maxBody at short
  rw [BitVec.toNat_eq, BitVec.toNat_ofNat, Nat.mod_eq_of_lt (by omega)]

/-! ## Check 1 of R187 -/

/-- A frame that passes has a header of three characters, and a CRC after its body. -/
theorem parseRequest_shape {x : RequestCode × Byte × List Byte} (passes : parseRequest f = some x) :
    ∃ b tag length body crc, f = b :: tag :: length :: (body ++ [crc]) := by
  match f with
  | b :: tag :: length :: rest =>
    rcases List.eq_nil_or_concat rest with rfl | ⟨body, crc, rfl⟩
    · cases passes
    · exact ⟨b, tag, length, body, crc, by rw [List.concat_eq_append]⟩

theorem parseRequest_concat : parseRequest (b :: tag :: length :: (body ++ [crc])) = some (c, tag', body') ↔
    requestOf b = some c ∧ tag = tag' ∧ body = body' ∧ crc = crc8 (b :: tag :: length :: body) ∧
      length.toNat ≤ maxBody ∧ length.toNat = body.length := by
  unfold parseRequest
  dsimp only
  rw [List.getLast?_concat, List.dropLast_concat]
  cases requestOf b with
  | none => simp
  | some request =>
    dsimp only
    split
    · next passes => rw [eq_true passes]; simp
    · next fails => simp only [reduceCtorEq, false_iff]; exact fun ⟨_, _, _, passes⟩ => fails passes

/-- Settles O8: the frame's shape, and each of its characters by the check made of it. -/
theorem requestFramesReadBack : Obligations.RequestFramesReadBack := by
  intro f c tag body
  constructor
  · intro passes
    obtain ⟨b, tag, length, body, crc, rfl⟩ := parseRequest_shape passes
    obtain ⟨code, rfl, rfl, sum, short, count⟩ := parseRequest_concat.1 passes
    rw [count] at short
    obtain rfl := requestOf_eq_some.1 code
    obtain rfl := (lengthChar_iff short).2 count
    rw [sum]
    exact ⟨rfl, short⟩
  · rintro ⟨rfl, short⟩
    have count := (lengthChar_iff short).1 rfl
    exact parseRequest_concat.2 ⟨requestOf_number c, rfl, rfl, rfl, count.trans_le short, count⟩

end Sys2Proof
end

section
/-! SET_PORT and SET_DEVICE (O45): the checks of R188 in their order, and the settings of R189. -/

/-- Two changes that commute on a record commute on the table, whichever records they are made to. -/
theorem Sys2Proof.Table.update_comm {α : Type} {n : Nat} {t : Table α n} {i j : Fin n} {f g : α → α}
    (commute : ∀ x, g (f x) = f (g x)) : (t.update i f).update j g = (t.update j g).update i f := by
  by_cases same : i = j
  · subst same
    simp only [Table.update_update, commute]
  · apply Table.ext_get
    intro q
    simp only [Table.get_update, if_neg same, if_neg (Ne.symm same)]
    by_cases first : q = i
    · subst first
      simp [same]
    · simp [first]

namespace Sys2Proof.Machine

open State

variable {s u : State} {p q k : PortNo} {tag a b c d : Byte} {enabled admin attention : Bool} {status : Status}
  {hi lo : Byte}

/-! ## What the checks of R188 read -/

theorem inTransfer_iff :
    s.inTransfer k = true ↔ ∃ t, s.transfer = some t ∧ (t.source = k ∨ t.target = k ∨ t.requester = k) := by
  unfold State.inTransfer
  cases s.transfer with
  | none => simp
  | some t => simp [or_assoc]

theorem hasAdmin_iff : s.hasAdmin = true ↔ ∃ q, (s.port q).enabled = true ∧ (s.port q).admin = true := by
  unfold State.hasAdmin
  rw [Table.any_iff]
  simp only [Bool.and_eq_true]
  rfl

theorem ownsEntries_iff :
    s.ownsEntries k = true ↔ ∃ set way e, (s.index.get set).get way = some e ∧ e.owner = k := by
  unfold State.ownsEntries allEntries
  simp only [List.any_eq_true, List.mem_flatMap, decide_eq_true_eq]
  constructor
  · rintro ⟨e, ⟨ways, cell, valid⟩, owner⟩
    obtain ⟨set, rfl⟩ := Table.mem_cells.1 cell
    obtain ⟨way, valid⟩ := mem_validEntries.1 valid
    exact ⟨set, way, e, valid, owner⟩
  · rintro ⟨set, way, e, valid, owner⟩
    exact ⟨e, ⟨_, Table.mem_cells.2 ⟨set, rfl⟩, mem_validEntries.2 ⟨way, valid⟩⟩, owner⟩

/-! ## The write of a port record -/

theorem port_writePort : (s.writePort k enabled admin attention).port q =
    if q = k then { s.port k with enabled := enabled, admin := admin, attention := attention } else s.port q :=
  port_modPort

/-- An enabled port with administrative right is left where the written one is such, or another is (R188). -/
theorem hasAdmin_writePort : (s.writePort k enabled admin attention).hasAdmin = true ↔
    enabled = true ∧ admin = true ∨ ∃ q, q ≠ k ∧ (s.port q).enabled = true ∧ (s.port q).admin = true := by
  rw [hasAdmin_iff]
  constructor
  · rintro ⟨q, right⟩
    rw [port_writePort] at right
    by_cases same : q = k
    · rw [if_pos same] at right
      exact .inl right
    · rw [if_neg same] at right
      exact .inr ⟨q, same, right⟩
  · rintro (right | ⟨q, other, right⟩)
    · exact ⟨k, by rw [port_writePort, if_pos rfl]; exact right⟩
    · exact ⟨q, by rw [port_writePort, if_neg other]; exact right⟩

/-! ## The checks in the state that the request's transfer leaves -/

theorem driveSdo_admin {n : Nat} : ((s.driveSdo p n).port q).admin = (s.port q).admin := by
  by_cases same : q = p
  · obtain ⟨sdo, port⟩ := driveSdo_port (s := s) (p := p) (k := n)
    rw [same, port]
  · rw [driveSdo_port_other same]

theorem driveSdo_inTransfer {n : Nat} : (s.driveSdo p n).inTransfer k = s.inTransfer k := by
  unfold State.inTransfer
  rw [driveSdo_transfer]

theorem driveSdo_ownsEntries {n : Nat} : (s.driveSdo p n).ownsEntries k = s.ownsEntries k := by
  unfold State.ownsEntries allEntries
  rw [driveSdo_index]

theorem driveSdo_hasAdmin {n : Nat} : (s.driveSdo p n).hasAdmin = s.hasAdmin := by
  rw [Bool.eq_iff_iff, hasAdmin_iff, hasAdmin_iff]
  simp only [driveSdo_enabled, driveSdo_admin]

/-- What a port drives does not depend on its settings, and the write leaves what it drove. -/
theorem driveSdo_writePort {n : Nat} : (s.driveSdo p n).writePort k enabled admin attention =
    (s.writePort k enabled admin attention).driveSdo p n := by
  have state : ((s.writePort k enabled admin attention).port p).state = (s.port p).state := by
    rw [port_writePort]
    split
    · next same => rw [same]
    · rfl
  have commutes (sdo : List Byte) : (s.modPort p fun r => { r with sdo := sdo }).writePort k enabled admin attention =
      (s.writePort k enabled admin attention).modPort p fun r => { r with sdo := sdo } := by
    unfold State.writePort modPort
    dsimp only
    rw [Table.update_comm]
    intro r
    rfl
  unfold driveSdo
  rw [state]
  cases (s.port p).state with
  | idle => exact commutes _
  | working long => exact commutes _
  | ready r =>
    exact congrArg (fun t : State => { t with freeCount := s.freeCount + (n - (responseFrame r).length) }) (commutes _)

/-! ## SET_PORT (R188) -/

theorem setPortRule_fields (port : portField a = some k) (enable : yesNoField b = some enabled)
    (right : yesNoField c = some admin) (attend : yesNoField d = some attention) :
    setPortRule [a, b, c, d] s = writePortRule k enabled admin attention s := by
  unfold setPortRule
  simp only [port, enable, right, attend]

theorem setPortRule_outside
    (outside : portField a = none ∨ yesNoField b = none ∨ yesNoField c = none ∨ yesNoField d = none) :
    setPortRule [a, b, c, d] s = refuse .badRequest s := by
  unfold setPortRule
  rcases outside with h | h | h | h <;> simp [h]

theorem writePortRule_busy (busy : s.inTransfer k = true) :
    writePortRule k enabled admin attention s = refuse .busy s := if_pos busy

theorem writePortRule_unruled (idle : s.inTransfer k = false)
    (unruled : (s.writePort k enabled admin attention).hasAdmin = false) :
    writePortRule k enabled admin attention s = refuse .badRequest s := by
  unfold writePortRule
  rw [if_neg (by simp [idle]), if_pos (by simp [unruled])]

theorem writePortRule_owning (idle : s.inTransfer k = false)
    (ruled : (s.writePort k enabled admin attention).hasAdmin = true)
    (owning : enabled = false ∧ s.ownsEntries k = true) :
    writePortRule k enabled admin attention s = refuse .inUse s := by
  unfold writePortRule
  rw [if_neg (by simp [idle]), if_neg (by simp [ruled]), if_pos (by simp [owning])]

theorem writePortRule_ok (idle : s.inTransfer k = false)
    (ruled : (s.writePort k enabled admin attention).hasAdmin = true)
    (free : ¬ (enabled = false ∧ s.ownsEntries k = true)) :
    writePortRule k enabled admin attention s = accepted (s.writePort k enabled admin attention) := by
  unfold writePortRule
  rw [if_neg (by simp [idle]), if_neg (by simp [ruled]), if_neg (by simpa using free)]

/-- The rule in the state that the transfer leaves comes to the case that holds of the state before it. -/
theorem writePortRule_driveSdo {n : Nat} : writePortRule k enabled admin attention (s.driveSdo p n) =
    ((writePortRule k enabled admin attention s).1.driveSdo p n, (writePortRule k enabled admin attention s).2) := by
  unfold writePortRule
  rw [driveSdo_writePort, driveSdo_inTransfer, driveSdo_hasAdmin, driveSdo_ownsEntries]
  (repeat' split) <;> rfl

/-- An admitted SET_PORT: what its rule leaves of the state before it, then the transfer and the answer. -/
theorem exec_setPort_admitted {answer : List Byte} {v : State} (admits : s.Admits p) (right : (s.port p).admin = true)
    (rule : setPortRule [a, b, c, d] (s.driveSdo p 8) = (v.driveSdo p 8, ⟨status, answer⟩)) (link : v.link = s.link)
    (spans : v.spans = s.spans) :
    exec (.setPort p tag [a, b, c, d]) s = .next ((v.driveSdo p 8).respond p tag status answer) := by
  have permitted : permitAdmin p (s.driveSdo p 8) = true := driveSdo_admin.trans right
  rw [exec_setPort, answered_event (body := [a, b, c, d]) admits permitted rfl rule,
    built_quiet (by simp [link]) (by simp [spans])]

/-- A SET_PORT that its rule refuses in the state before the transfer. -/
theorem exec_setPort_refused (admits : s.Admits p) (right : (s.port p).admin = true)
    (fields : ∀ t, setPortRule [a, b, c, d] t = writePortRule k enabled admin attention t)
    (refused : writePortRule k enabled admin attention s = refuse status s) :
    ∃ t, exec (.setPort p tag [a, b, c, d]) s = .next t ∧ Refused p tag status s t :=
  ⟨_, exec_setPort_admitted admits right (by rw [fields, writePortRule_driveSdo, refused]; rfl) rfl rfl,
    respond_refused⟩

/-! ## SET_DEVICE (R189) -/

theorem refreshField_outside
    (outside : 0 < (millisField hi lo).toNat ∧ (millisField hi lo).toNat < 100 ∨ 60000 < (millisField hi lo).toNat) :
    refreshField hi lo = none := by
  refine if_neg ?_
  change ¬ (millisField hi lo = 0#16 ∨ 100 ≤ (millisField hi lo).toNat ∧ (millisField hi lo).toNat ≤ 60000)
  rintro (zero | range)
  · rw [zero] at outside
    exact absurd outside (by decide)
  · omega

theorem setDeviceRule_outside (outside : refreshField hi lo = none) :
    setDeviceRule [b, hi, lo] s = refuse .badRequest s := by
  unfold setDeviceRule
  dsimp only
  rw [outside]

theorem setDeviceRule_ok {v : Millis} (inside : refreshField hi lo = some v) :
    setDeviceRule [b, hi, lo] s = accepted (s.writeDevice b v) := by
  unfold setDeviceRule
  dsimp only
  rw [inside]

/-- The device settings are no part of what makes an update pending. -/
theorem built_writeDevice {v : Millis} (apart : s.apart u = s.writeDevice b v) : s.built u = u := by
  have same : s.gains u = s.gains s := by
    rw [eq_of_apart apart]
    rfl
  unfold built
  rw [same, gains_false rfl rfl]
  rfl

/-- Settles O45: SET_PORT by the first check of R188 that fails, SET_DEVICE by the range of its refresh interval. -/
theorem portsAndTheDeviceAreSet : Obligations.PortsAndTheDeviceAreSet := by
  intro s p tag admits right
  refine ⟨fun a b c d k enabled admin attention port enable admins attend => ?_, fun a b c d outside => ?_,
    fun b hi lo outside => ?_, fun b hi lo inside => ?_⟩
  · have fields (t : State) := setPortRule_fields (s := t) port enable admins attend
    dsimp only
    rw [← inTransfer_iff, ← hasAdmin_writePort (attention := attention), ← ownsEntries_iff, Bool.not_eq_true,
      Bool.not_eq_true]
    refine ⟨fun idle ruled free => ?_, ?_⟩
    · refine ⟨_, s.writePort k enabled admin attention,
        exec_setPort_admitted (v := s.writePort k enabled admin attention) (answer := []) admits right
          (by rw [fields, writePortRule_driveSdo, writePortRule_ok idle ruled free]; rfl) rfl rfl, rfl,
        respond_answered (.inl rfl), ?_⟩
      exact congrArg (fun t : State => t.respond p tag .ok []) driveSdo_eq
    · rintro status (⟨busy, rfl⟩ | ⟨idle, unruled, rfl⟩ | ⟨idle, ruled, owning, rfl⟩)
      · exact exec_setPort_refused admits right fields (writePortRule_busy busy)
      · exact exec_setPort_refused admits right fields (writePortRule_unruled idle unruled)
      · exact exec_setPort_refused admits right fields (writePortRule_owning idle ruled owning)
  · exact exec_admin_refused (exec_setPort s) admits right rfl fun _ _ => setPortRule_outside outside
  · exact exec_admin_refused (exec_setDevice s) admits right rfl fun _ _ =>
      setDeviceRule_outside (refreshField_outside outside)
  · obtain ⟨u, event, answered, apart⟩ := admin_apart (tag := tag) (code := .setDevice) (body := [b, hi, lo])
      (w := s.writeDevice b (millisField hi lo)) admits right rfl (fun _ _ => setDeviceRule_ok (if_pos inside)) rfl rfl
    exact ⟨u, by rw [exec_setDevice, event, built_writeDevice apart], answered, apart⟩

end Sys2Proof.Machine
end

section
/-! One step (O1): the command at the front of the queue, or nothing where none waits. -/

namespace Sys2Proof.Machine

variable {s : State}

theorem step_front {c : Instr} {rest : List Instr} (waits : s.pending = c :: rest) :
    step s = exec c { s with pending := rest } := by
  unfold step
  rw [waits]

theorem step_idle (empty : s.pending = []) : step s = .next s := by
  unfold step
  rw [empty]

/-- Settles O1: by what stands at the front of the queue. -/
theorem stepTakesFrontCommand : Obligations.StepTakesFrontCommand :=
  ⟨fun _ _ _ => step_front rfl, fun _ => step_idle⟩

end Sys2Proof.Machine
end
